-- ==== Sys2Proof/Word.lean ====
section
/-! DEFINITION. The words the PDC-356 meets: bytes, and the multi-byte numbers of R167. -/

namespace Sys2Proof

/-- One character of the trunk, or one byte of the management port. -/
abbrev Byte := BitVec 8

/-- A two-byte number: a generation, or the 16 bits of the trunk check (R167, R168). -/
abbrev Half := BitVec 16

/-- A station's serial, a four-byte number (R167). -/
abbrev Serial := BitVec 32

end Sys2Proof
end

