-- ==== Sys2Proof/Config.lean ====
section
/-! DEFINITION. What the part fixes: the sizes of its tables and the limits its rules count to.
The manual leaves no result of a step open, so no free value stands here (INVENTORY.md, 'What the manual leaves open'). -/

namespace Sys2Proof.Config

/-- Station addresses 1..56 (R25). -/
abbrev stationCount : Nat := 56

/-- Role-table entries 0..95 (R43). -/
abbrev roleCount : Nat := 96

/-- Claim records of the pool (R83). -/
abbrev claimCount : Nat := 64

/-- Watch records 0..63 (R123). -/
abbrev watchCount : Nat := 64

/-- The longest standby chain (R84). -/
abbrev chainMax : Nat := 6

/-- The strike that means presumed departure (R36). -/
abbrev strikeLimit : Nat := 3

/-- The failed attempt or delivery that ends the attempts (R111, R132). -/
abbrev attemptLimit : Nat := 3

/-- The collision that completes an OFFER or NOTICE, and at which RESTART's count stays (R146). -/
abbrev collisionLimit : Nat := 8

/-- The access gap in character times (R2). -/
abbrev accessGap : Nat := 4

/-- The most body bytes of a frame or answer on the trunk (R3). -/
abbrev bodyMax : Nat := 24

/-- The most operand bytes of a host command (R151). -/
abbrev operandMax : Nat := 32

/-- The longest term in lease ticks (R48). -/
abbrev termMax : Nat := 4095

/-- The value at which an attention count stays (R164). -/
abbrev attentionMax : Nat := 255

/-- The directory's own trunk address (R8). -/
abbrev directory : Byte := 0

/-- The trunk address of a station that has no address yet (R8). -/
abbrev unaddressed : Byte := 62

/-- The broadcast address (R8). -/
abbrev broadcast : Byte := 63

end Sys2Proof.Config
end

