-- ==== Sys2Proof/Syntax.lean ====
section
/-! DEFINITION. The commands and events of spec/opcode_table.json: one constructor per row.
A station request carries the SRC and EPOCH of its frame and the body bytes as received (LEN is the body's length, R4).
A host command carries its sequence byte and its operand bytes (LEN is their number, R151). -/

namespace Sys2Proof

/-- What made an answer in the slot of the directory's own frame a bad answer (R147). -/
inductive BadAnswer where
  | badCheck
  | truncated
  | malformed
  | badCharacter
deriving DecidableEq, Repr

/-- A command or event that reaches the part: a row of the table each. -/
inductive Instr where
  -- station requests, complete frames with a good check and DEST 0 (R9)
  | join (src epoch : Byte) (body : List Byte)
  | leave (src epoch : Byte) (body : List Byte)
  | find (src epoch : Byte) (body : List Byte)
  | lookup (src epoch : Byte) (body : List Byte)
  | claim (src epoch : Byte) (body : List Byte)
  | renew (src epoch : Byte) (body : List Byte)
  | release (src epoch : Byte) (body : List Byte)
  | change (src epoch : Byte) (body : List Byte)
  | retire (src epoch : Byte) (body : List Byte)
  | withdraw (src epoch : Byte) (body : List Byte)
  | accept (src epoch : Byte) (body : List Byte)
  | decline (src epoch : Byte) (body : List Byte)
  | watch (src epoch : Byte) (body : List Byte)
  | unwatch (src epoch : Byte) (body : List Byte)
  -- the line
  | stationFrameHeard (dest src : Byte)
  | foreignFrame (dest : Byte)
  | badCharacter
  | lineViolation
  | receiverSynchronised
  | truncatedFrame
  | malformedFrame
  | badCheck
  -- the Trunk Link's own answer
  | answerBegin
  | answerPreempted
  | answerReadbackMismatch
  | answerEnd
  -- the directory's own frames; `idle` is the unbroken idle of the line, in character times (R142)
  | waitEnd (idle : Nat)
  | collision
  | restartCompletesClean
  | awaitingAnswer
  | validAnswer (status : Byte) (body : List Byte)
  | emptySlot
  | badAnswer (kind : BadAnswer)
  -- the Lease Clock; `index` is the role-table entry whose lease or window ends (R70)
  | leaseTick
  | lapse (index : Byte)
  | windowExpiry (index : Byte)
  -- host commands (R171)
  | nop (seq : Byte) (operands : List Byte)
  | readStatus (seq : Byte) (operands : List Byte)
  | readAttention (seq : Byte) (operands : List Byte)
  | setAttentionEnable (seq : Byte) (operands : List Byte)
  | configure (seq : Byte) (operands : List Byte)
  | start (seq : Byte) (operands : List Byte)
  | stop (seq : Byte) (operands : List Byte)
  | resume (seq : Byte) (operands : List Byte)
  | directoryReset (seq : Byte) (operands : List Byte)
  | defineRole (seq : Byte) (operands : List Byte)
  | retireRole (seq : Byte) (operands : List Byte)
  | setTerm (seq : Byte) (operands : List Byte)
  | forceHandover (seq : Byte) (operands : List Byte)
  | evictStation (seq : Byte) (operands : List Byte)
  | readRole (seq : Byte) (operands : List Byte)
  | readStation (seq : Byte) (operands : List Byte)
  | readWatch (seq : Byte) (operands : List Byte)
  -- resets
  | resetInputLow
  | powerOnReset
  | resetClearCompletion
  -- frames and transactions that carry none of the above
  | illegalCode (src code epoch : Byte) (body : List Byte)
  | badCommand (received : List Byte)
deriving DecidableEq, Repr

end Sys2Proof
end

