-- ==== Sys2Proof/Machine/Formats.lean ====
section
/-! DEFINITION. The Formats chapter: codes, statuses, tags, checks and byte order (R167 to R171). -/

namespace Sys2Proof.Machine

/-- A number as one byte (R167). -/
def byteOf (n : Nat) : Byte := BitVec.ofNat 8 n

/-- A two-byte number, most significant byte first (R167). -/
def halfBytes (h : Half) : List Byte := [h.extractLsb' 8 8, h.extractLsb' 0 8]

/-- The two-byte number with this high and this low byte (R167). -/
def halfOf (high low : Byte) : Half := high ++ low

/-- A term or lease as two bytes (R167). -/
def termBytes (n : Nat) : List Byte := halfBytes (BitVec.ofNat 16 n)

/-- A four-byte number, most significant byte first (R167). -/
def serialBytes (w : Serial) : List Byte :=
  [w.extractLsb' 24 8, w.extractLsb' 16 8, w.extractLsb' 8 8, w.extractLsb' 0 8]

/-- The serial with these four bytes, most significant first (R167). -/
def serialOf (a b c d : Byte) : Serial := a ++ b ++ c ++ d

/-- A flag as one byte: 00h clear, 01h set (R167). -/
def flagByte (b : Bool) : Byte := if b then 1 else 0

/-- A run of bytes filled up with 00h to the length `n` (R167). -/
def padTo (n : Nat) (bytes : List Byte) : List Byte :=
  bytes ++ List.replicate (n - bytes.length) 0

/-! ### Tags (R46, R167) -/

/-- A tag: its 1..8 characters, without the padding of its field. -/
abbrev Tag := List Byte

/-- The characters of tags: A to Z, 0 to 9 and hyphen. -/
def isTagChar (c : Byte) : Bool :=
  (0x41#8 ≤ c && c ≤ 0x5A#8) || (0x30#8 ≤ c && c ≤ 0x39#8) || c == 0x2D#8

/-- What R46 asks of a tag. -/
def Tag.legal (t : Tag) : Bool :=
  1 ≤ t.length && t.length ≤ 8 && t.all isTagChar

/-- The tag of an eight-byte field; none where the field is illegal (R167). -/
def tagOf (field : List Byte) : Option Tag :=
  let chars := field.takeWhile (· != 0)
  if field.length == 8 && Tag.legal chars && (field.drop chars.length).all (· == 0) then some chars
  else none

/-- A tag as its eight-byte field (R167). -/
def tagBytes (t : Tag) : List Byte := padTo 8 t

/-! ### Handles (R49, R50) -/

/-- A role-table index with an incarnation: the name of one life of one entry. -/
structure Handle where
  index : Byte
  incarnation : Byte
deriving DecidableEq, Repr

/-- A handle as two bytes: index, then incarnation (R167). -/
def Handle.bytes (h : Handle) : List Byte := [h.index, h.incarnation]

/-! ### Checks (R168) -/

/-- One of the eight shifts of the trunk check's register. -/
def crc16Shift (r : Half) : Half :=
  if r.msb then (r <<< 1) ^^^ 0x1021#16 else r <<< 1

/-- The trunk check's register after one more byte. -/
def crc16Byte (r : Half) (b : Byte) : Half :=
  (List.range 8).foldl (fun acc _ => crc16Shift acc) (r ^^^ (b ++ 0#8))

/-- The trunk CHECK over these bytes: initial value FFFFh, no final inversion. -/
def crc16 (bytes : List Byte) : Half := bytes.foldl crc16Byte 0xFFFF#16

/-- One of the eight shifts of the SPI check's register. -/
def crc8Shift (r : Byte) : Byte :=
  if r.msb then (r <<< 1) ^^^ 0x07#8 else r <<< 1

/-- The SPI check's register after one more byte. -/
def crc8Byte (r : Byte) (b : Byte) : Byte :=
  (List.range 8).foldl (fun acc _ => crc8Shift acc) (r ^^^ b)

/-- The SPI check over these bytes: initial value 00h, no final inversion. -/
def crc8 (bytes : List Byte) : Byte := bytes.foldl crc8Byte 0

/-! ### Trunk codes and statuses (R170) -/

/-- The station requests. -/
inductive Request where
  | join | leave | find | lookup | claim | renew | release | change
  | retire | withdraw | accept | decline | watch | unwatch
deriving DecidableEq, Repr

/-- The CODE of each station request. -/
def Request.code : Request → Byte
  | .join => 0x01 | .leave => 0x02 | .find => 0x03 | .lookup => 0x04
  | .claim => 0x05 | .renew => 0x06 | .release => 0x07 | .change => 0x08
  | .retire => 0x09 | .withdraw => 0x0A | .accept => 0x0B | .decline => 0x0C
  | .watch => 0x0D | .unwatch => 0x0E

/-- Whether a CODE is one of the station request codes, 01h..0Eh (R14, R172). -/
def isRequestCode (code : Byte) : Bool := 0x01#8 ≤ code && code ≤ 0x0E#8

/-- CODE of the directory's RESTART frame. -/
abbrev restartCode : Byte := 0x40
/-- CODE of the directory's OFFER frame. -/
abbrev offerCode : Byte := 0x41
/-- CODE of the directory's NOTICE frame. -/
abbrev noticeCode : Byte := 0x42

/-- The statuses of the directory's answers. -/
inductive Status where
  | ok | granted | queued | notReady | staleEpoch | notJoined | badRequest
  | noSuchRole | staleHandle | notHolder | conflict | notOffered | noClaim
  | notWatching | notPermitted | tableFull | chainFull | poolFull | watchFull
  | stationFull
deriving DecidableEq, Repr

/-- The value of each status the directory sends. -/
def Status.value : Status → Byte
  | .ok => 0x00 | .granted => 0x01 | .queued => 0x02
  | .notReady => 0x10 | .staleEpoch => 0x11 | .notJoined => 0x12 | .badRequest => 0x13
  | .noSuchRole => 0x20 | .staleHandle => 0x21 | .notHolder => 0x22 | .conflict => 0x23
  | .notOffered => 0x24 | .noClaim => 0x25 | .notWatching => 0x26 | .notPermitted => 0x27
  | .tableFull => 0x30 | .chainFull => 0x31 | .poolFull => 0x32 | .watchFull => 0x33
  | .stationFull => 0x34

/-- STATUS of a station that takes the role offered in an OFFER. -/
abbrev slotAccept : Byte := 0x80
/-- STATUS of a station that refuses the role offered in an OFFER. -/
abbrev slotDecline : Byte := 0x81
/-- STATUS of a station that asks for the offer window. -/
abbrev slotWait : Byte := 0x82
/-- STATUS of a station that has taken a NOTICE. -/
abbrev slotAck : Byte := 0x83

/-- An answer of the directory: STATUS and BODY (R5). -/
structure Answer where
  status : Status
  body : List Byte
deriving DecidableEq, Repr

/-- An answer as the trunk carries it, the directory's or a station's (R5); LEN is the length of its body. -/
structure TrunkAnswer where
  status : Byte
  body : List Byte
deriving DecidableEq, Repr

/-- The characters of an answer, STATUS through CHECK (R5, R169). -/
def TrunkAnswer.bytes (a : TrunkAnswer) : List Byte :=
  let covered := [a.status, byteOf a.body.length] ++ a.body
  covered ++ halfBytes (crc16 covered)

/-- The characters of the directory's answer (R6, R169). -/
def Answer.bytes (a : Answer) : List Byte := TrunkAnswer.bytes ⟨a.status.value, a.body⟩

/-- A frame of the trunk (R4); LEN is the length of its body. -/
structure TrunkFrame where
  dest : Byte
  src : Byte
  code : Byte
  epoch : Byte
  body : List Byte
deriving DecidableEq, Repr

/-- The characters of a frame, DEST through CHECK (R4, R169). -/
def TrunkFrame.bytes (f : TrunkFrame) : List Byte :=
  let covered := [f.dest, f.src, f.code, f.epoch, byteOf f.body.length] ++ f.body
  covered ++ halfBytes (crc16 covered)

/-! ### Characters on the trunk (R1, R167) -/

/-- The two levels of the trunk line; between characters it rests at the mark level. -/
inductive Level where
  | space | mark
deriving DecidableEq, Repr

/-- A character of ten bit times: a start bit, the data bits in the order in which they stand on the line, and a stop bit.
The data are bits and not levels, since the manual does not say at which level a bit of 1 stands. -/
structure TrunkCharacter where
  start : Level
  data : List Bool
  stop : Level
deriving DecidableEq, Repr

/-- The character that sends a byte: start bit at the space level, least significant bit first, stop bit at the mark level (R1, R167). -/
def trunkCharacter (b : Byte) : TrunkCharacter := ⟨.space, (List.range 8).map b.getLsbD, .mark⟩

/-- The byte of data bits that come least significant bit first (R167). -/
def byteOfLsb (bits : List Bool) : Byte := byteOf (bits.foldr (fun b n => 2 * n + b.toNat) 0)

/-- Whether a character is bad: its stop bit is found at the space level (R1). -/
def TrunkCharacter.isBad (c : TrunkCharacter) : Bool := c.stop == .space

/-- The bytes of the characters before the first bad one (R1, R167). -/
def goodBytes (chars : List TrunkCharacter) : List Byte :=
  (chars.takeWhile (fun c => !c.isBad)).map (fun c => byteOfLsb c.data)

/-- A frame as the characters that are sent on TTX, DEST through CHECK (R1, R4). -/
def TrunkFrame.characters (f : TrunkFrame) : List TrunkCharacter := f.bytes.map trunkCharacter

/-- An answer as the characters that are sent on TTX, STATUS through CHECK (R1, R5). -/
def TrunkAnswer.characters (a : TrunkAnswer) : List TrunkCharacter := a.bytes.map trunkCharacter

/-! ### Host commands and statuses (R171) -/

/-- The host commands. -/
inductive Command where
  | nop | readStatus | readAttention | setAttentionEnable | configure | start | stop | resume
  | directoryReset | defineRole | retireRole | setTerm | forceHandover | evictStation
  | readRole | readStation | readWatch
deriving DecidableEq, Repr

/-- All host commands, in the order of their codes. -/
def Command.all : List Command :=
  [.nop, .readStatus, .readAttention, .setAttentionEnable, .configure, .start, .stop, .resume,
   .directoryReset, .defineRole, .retireRole, .setTerm, .forceHandover, .evictStation,
   .readRole, .readStation, .readWatch]

/-- The code of each host command. -/
def Command.code : Command → Byte
  | .nop => 0x00 | .readStatus => 0x01 | .readAttention => 0x02 | .setAttentionEnable => 0x03
  | .configure => 0x10 | .start => 0x11 | .stop => 0x12 | .resume => 0x13
  | .directoryReset => 0x14 | .defineRole => 0x20 | .retireRole => 0x21 | .setTerm => 0x22
  | .forceHandover => 0x23 | .evictStation => 0x24 | .readRole => 0x30 | .readStation => 0x31
  | .readWatch => 0x32

/-- Whether LEN is one that the table of R171 allows for the command. -/
def Command.lenLegal (c : Command) (len : Nat) : Bool :=
  match c with
  | .nop | .readStatus | .stop | .resume | .directoryReset => len == 0
  | .readAttention | .start => len == 0 || len == 1
  | .setAttentionEnable | .evictStation | .readRole | .readStation | .readWatch => len == 1
  | .retireRole | .forceHandover => len == 2
  | .setTerm => len == 4
  | .configure => len == 8
  | .defineRole => len == 10

/-- The command of a code byte (R171). -/
def commandOf (code : Byte) : Option Command := Command.all.find? (fun c => c.code == code)

/-- The statuses of responses. -/
inductive HostStatus where
  | ok | busy | badCheck | badCommand | badValue | notPermitted | staleHandle | alreadyExists
  | tableFull | notJoined | noStandby | resetNotice
deriving DecidableEq, Repr

/-- The value of each host status. -/
def HostStatus.value : HostStatus → Byte
  | .ok => 0x00 | .busy => 0x01 | .badCheck => 0x02 | .badCommand => 0x03 | .badValue => 0x04
  | .notPermitted => 0x05 | .staleHandle => 0x07 | .alreadyExists => 0x08 | .tableFull => 0x09
  | .notJoined => 0x0A | .noStandby => 0x0B | .resetNotice => 0x0C

/-- The content of the response buffer (R153). -/
structure Response where
  status : HostStatus
  sequence : Byte
  data : List Byte
deriving DecidableEq, Repr

/-- The bytes of a response, status through check (R151, R171). -/
def Response.bytes (r : Response) : List Byte :=
  let covered := [r.status.value, r.sequence, byteOf r.data.length] ++ r.data
  covered ++ [crc8 covered]

/-- What the part shifts out on SDO in a transaction of `n` bytes: the response held when CS fell, then zero bytes (R151). -/
def Response.shiftedOut (r : Response) (n : Nat) : List Byte := (padTo n r.bytes).take n

/-- The bits of a byte in the order of the line of the port: most significant bit first (R151). -/
def byteBits (b : Byte) : List Bool := (List.range 8).map b.getMsbD

/-- The whole bytes among the bits that the host shifts in before CS rises, most significant bit first; a byte that CS rises inside is discarded (R151). -/
def wholeBytes : List Bool → List Byte
  | b7 :: b6 :: b5 :: b4 :: b3 :: b2 :: b1 :: b0 :: rest =>
    (BitVec.ofBoolListBE [b7, b6, b5, b4, b3, b2, b1, b0] : BitVec 8) :: wholeBytes rest
  | _ => []

/-- What the part shifts out on SDO for `n` rising edges of SCK: the bits of the response held when CS fell, then zeros (R151). -/
def Response.shiftedBits (r : Response) (n : Nat) : List Bool :=
  ((r.shiftedOut (n / 8 + 1)).flatMap byteBits).take n

/-- The tests of R152 on the bytes of a transaction, orders 1 to 4: the refusal, or none where the frame carries a command. -/
def transactionRefusal (received : List Byte) : Option HostStatus :=
  match received with
  | code :: seq :: len :: rest =>
    let operands := rest.take len.toNat
    if rest.length < len.toNat + 1 then some .badCommand
    else if Config.operandMax < len.toNat then some .badCommand
    else if rest[len.toNat]? ≠ some (crc8 ([code, seq, len] ++ operands)) then some .badCheck
    else
      match commandOf code with
      | none => some .badCommand
      | some c => if c.lenLegal len.toNat then none else some .badCommand
  | _ => some .badCommand

/-- The sequence a refused transaction echoes: its second byte, or 0 where it ended before it (R152). -/
def echoedSequence (received : List Byte) : Byte := (received[1]?).getD 0

end Sys2Proof.Machine
end

