-- ==== Sys2Proof/WellFormed.lean ====
section
/-! DEFINITION. Which commands are ones the outside can send: the operands of a row stay within what its row means.
The machine answers on every term; the checks name the terms that no frame or transaction of that row spells. -/

namespace Sys2Proof

open Sys2Proof.Machine

/-- A taken frame: SRC other than 0 (R9), and no more body bytes than a frame carries (R3). -/
def requestShape (src : Byte) (body : List Byte) : Bool :=
  src != 0 && body.length ≤ Config.bodyMax

/-- The checks of each row. -/
def Instr.wellFormed : Instr → Bool
  | .join src _ body | .leave src _ body | .find src _ body | .lookup src _ body
  | .claim src _ body | .renew src _ body | .release src _ body | .change src _ body
  | .retire src _ body | .withdraw src _ body | .accept src _ body | .decline src _ body
  | .watch src _ body | .unwatch src _ body => requestShape src body
  | .illegalCode src code _ body => requestShape src body && !isRequestCode code
  | .stationFrameHeard dest src => dest != 0 && !(src == 0 && dest ≤ 63)
  | .foreignFrame dest => dest ≤ 63
  | .badCharacter | .lineViolation | .receiverSynchronised | .truncatedFrame
  | .malformedFrame | .badCheck => true
  | .answerBegin | .answerPreempted | .answerReadbackMismatch | .answerEnd => true
  | .waitEnd _ => true
  | .collision | .restartCompletesClean | .awaitingAnswer => true
  | .validAnswer _ body => body.length ≤ Config.bodyMax
  | .emptySlot => true
  | .badAnswer _ => true
  | .leaseTick => true
  | .lapse index | .windowExpiry index => index.toNat < Config.roleCount
  | .nop _ ops => Command.lenLegal .nop ops.length
  | .readStatus _ ops => Command.lenLegal .readStatus ops.length
  | .readAttention _ ops => Command.lenLegal .readAttention ops.length
  | .setAttentionEnable _ ops => Command.lenLegal .setAttentionEnable ops.length
  | .configure _ ops => Command.lenLegal .configure ops.length
  | .start _ ops => Command.lenLegal .start ops.length
  | .stop _ ops => Command.lenLegal .stop ops.length
  | .resume _ ops => Command.lenLegal .resume ops.length
  | .directoryReset _ ops => Command.lenLegal .directoryReset ops.length
  | .defineRole _ ops => Command.lenLegal .defineRole ops.length
  | .retireRole _ ops => Command.lenLegal .retireRole ops.length
  | .setTerm _ ops => Command.lenLegal .setTerm ops.length
  | .forceHandover _ ops => Command.lenLegal .forceHandover ops.length
  | .evictStation _ ops => Command.lenLegal .evictStation ops.length
  | .readRole _ ops => Command.lenLegal .readRole ops.length
  | .readStation _ ops => Command.lenLegal .readStation ops.length
  | .readWatch _ ops => Command.lenLegal .readWatch ops.length
  | .resetInputLow | .powerOnReset | .resetClearCompletion => true
  | .badCommand received => (transactionRefusal received).isSome

end Sys2Proof
end

