-- ==== Sys2Proof/Decode.lean ====
section
/-! DEFINITION. How bytes spell commands.
The opcode table gives its rows no bits, so no word spells a row.
What the outside sends is runs of bytes: a frame of the trunk (R4, R7 to R11), an answer in a slot (R5, R7, R147) and a transaction of the management port (R151, R152);
their readers are total and answer the row that the run is, and the writers give the run of a row. -/

namespace Sys2Proof

open Sys2Proof.Machine

/-- The command that a word spells by the table's bits: the table gives none. -/
def decodeTableWord (_nbits _w : Nat) : Option Instr := none

/-- The row of a frame that is taken, by its CODE (R14, R170). -/
def requestRow (src code epoch : Byte) (body : List Byte) : Instr :=
  match code with
  | 1 => .join src epoch body
  | 2 => .leave src epoch body
  | 3 => .find src epoch body
  | 4 => .lookup src epoch body
  | 5 => .claim src epoch body
  | 6 => .renew src epoch body
  | 7 => .release src epoch body
  | 8 => .change src epoch body
  | 9 => .retire src epoch body
  | 10 => .withdraw src epoch body
  | 11 => .accept src epoch body
  | 12 => .decline src epoch body
  | 13 => .watch src epoch body
  | 14 => .unwatch src epoch body
  | _ => .illegalCode src code epoch body

/-- The row that a run of characters on the trunk is, when it begins after the access gap and ends with idle line (R3, R4, R7 to R11). -/
def decodeFrame (chars : List Byte) : Instr :=
  match chars with
  | dest :: src :: code :: epoch :: len :: rest =>
    let body := rest.take len.toNat
    if Config.bodyMax < len.toNat then .malformedFrame
    else if rest.length < len.toNat + 2 then .truncatedFrame
    else if (rest.drop len.toNat).take 2 ≠ halfBytes (crc16 ([dest, src, code, epoch, len] ++ body)) then .badCheck
    else if src = 0 ∧ dest ≤ 63 then .foreignFrame dest
    else if dest = Config.directory then requestRow src code epoch body
    else .stationFrameHeard dest src
  | _ => .truncatedFrame

/-- Where a frame ends by its LEN, counted in characters; none before LEN or where LEN is above 24 (R3, R4). -/
def frameLength (chars : List Byte) : Option Nat :=
  match chars with
  | _ :: _ :: _ :: _ :: len :: _ => if len.toNat ≤ Config.bodyMax then some (7 + len.toNat) else none
  | _ => none

/-- Where an answer ends by its LEN, counted in characters; none before LEN or where LEN is above 24 (R3, R5). -/
def answerLength (chars : List Byte) : Option Nat :=
  match chars with
  | _ :: len :: _ => if len.toNat ≤ Config.bodyMax then some (4 + len.toNat) else none
  | _ => none

/-- The row of a faulty answer: a bad answer in the slot of the directory's own frame, the line's own row in any other slot (R3, R7, R147). -/
def answerFault (own : Bool) (kind : BadAnswer) : Instr :=
  if own then .badAnswer kind
  else
    match kind with
    | .badCheck => .badCheck
    | .truncated => .truncatedFrame
    | .malformed => .malformedFrame
    | .badCharacter => .badCharacter

/-- The row that the characters found in an answer slot are, when they begin in time and end with idle line (R3, R5, R7, R147): STATUS, LEN, BODY
and CHECK, whose end LEN gives; `own` says whether it is the slot of the directory's own frame.
In another slot a good answer, like an empty one, has no effect (R5). -/
def decodeAnswer (own : Bool) (chars : List Byte) : Instr :=
  match chars with
  | [] => .emptySlot
  | status :: len :: rest =>
    let body := rest.take len.toNat
    if Config.bodyMax < len.toNat then answerFault own .malformed
    else if rest.length < len.toNat + 2 then answerFault own .truncated
    else if (rest.drop len.toNat).take 2 ≠ halfBytes (crc16 ([status, len] ++ body)) then answerFault own .badCheck
    else .validAnswer status body
  | [_] => answerFault own .truncated

/-- The row that a run of characters sampled on TRX is: that of its bytes, where they end the frame before a bad character, and BAD_CHARACTER where a bad character stands before its end (R1, R3, R167). -/
def decodeFrameCharacters (chars : List TrunkCharacter) : Instr :=
  let row := decodeFrame (goodBytes chars)
  if row = .truncatedFrame ∧ chars.any TrunkCharacter.isBad = true then .badCharacter else row

/-- The row that the characters sampled in an answer slot are, a bad character before the answer's end among its faults (R1, R3, R7, R147, R167). -/
def decodeAnswerCharacters (own : Bool) (chars : List TrunkCharacter) : Instr :=
  let row := decodeAnswer own (goodBytes chars)
  if (row = .emptySlot ∨ row = answerFault own .truncated) ∧ chars.any TrunkCharacter.isBad = true then
    answerFault own .badCharacter
  else row

/-- The row of a host command (R171). -/
def commandRow (c : Command) (seq : Byte) (operands : List Byte) : Instr :=
  match c with
  | .nop => .nop seq operands
  | .readStatus => .readStatus seq operands
  | .readAttention => .readAttention seq operands
  | .setAttentionEnable => .setAttentionEnable seq operands
  | .configure => .configure seq operands
  | .start => .start seq operands
  | .stop => .stop seq operands
  | .resume => .resume seq operands
  | .directoryReset => .directoryReset seq operands
  | .defineRole => .defineRole seq operands
  | .retireRole => .retireRole seq operands
  | .setTerm => .setTerm seq operands
  | .forceHandover => .forceHandover seq operands
  | .evictStation => .evictStation seq operands
  | .readRole => .readRole seq operands
  | .readStation => .readStation seq operands
  | .readWatch => .readWatch seq operands

/-- The row that the bytes of a transaction are (R152). -/
def decodeTransaction (received : List Byte) : Instr :=
  match transactionRefusal received, received with
  | none, code :: seq :: len :: rest =>
    match commandOf code with
    | some c => commandRow c seq (rest.take len.toNat)
    | none => .badCommand received
  | _, _ => .badCommand received

/-- The row that a transaction is, from the bits sampled on SDI between the fall and the rise of CS (R151, R152). -/
def decodeTransactionBits (sampled : List Bool) : Instr := decodeTransaction (wholeBytes sampled)

/-- The station request of a row, with its fields. -/
def Instr.asRequest : Instr → Option (Request × Byte × Byte × List Byte)
  | .join src epoch body => some (.join, src, epoch, body)
  | .leave src epoch body => some (.leave, src, epoch, body)
  | .find src epoch body => some (.find, src, epoch, body)
  | .lookup src epoch body => some (.lookup, src, epoch, body)
  | .claim src epoch body => some (.claim, src, epoch, body)
  | .renew src epoch body => some (.renew, src, epoch, body)
  | .release src epoch body => some (.release, src, epoch, body)
  | .change src epoch body => some (.change, src, epoch, body)
  | .retire src epoch body => some (.retire, src, epoch, body)
  | .withdraw src epoch body => some (.withdraw, src, epoch, body)
  | .accept src epoch body => some (.accept, src, epoch, body)
  | .decline src epoch body => some (.decline, src, epoch, body)
  | .watch src epoch body => some (.watch, src, epoch, body)
  | .unwatch src epoch body => some (.unwatch, src, epoch, body)
  | _ => none

/-- The characters of a station request on the trunk, DEST through CHECK (R4, R169). -/
def Instr.frameBytes (i : Instr) : Option (List Byte) :=
  i.asRequest.map (fun r => (TrunkFrame.mk Config.directory r.2.1 r.1.code r.2.2.1 r.2.2.2).bytes)

/-- The characters of a station's answer in the slot of the directory's own frame (R5, R169). -/
def Instr.answerBytes : Instr → Option (List Byte)
  | .validAnswer status body => some (TrunkAnswer.mk status body).bytes
  | _ => none

/-- The host command of a row, with its fields. -/
def Instr.asCommand : Instr → Option (Command × Byte × List Byte)
  | .nop seq operands => some (.nop, seq, operands)
  | .readStatus seq operands => some (.readStatus, seq, operands)
  | .readAttention seq operands => some (.readAttention, seq, operands)
  | .setAttentionEnable seq operands => some (.setAttentionEnable, seq, operands)
  | .configure seq operands => some (.configure, seq, operands)
  | .start seq operands => some (.start, seq, operands)
  | .stop seq operands => some (.stop, seq, operands)
  | .resume seq operands => some (.resume, seq, operands)
  | .directoryReset seq operands => some (.directoryReset, seq, operands)
  | .defineRole seq operands => some (.defineRole, seq, operands)
  | .retireRole seq operands => some (.retireRole, seq, operands)
  | .setTerm seq operands => some (.setTerm, seq, operands)
  | .forceHandover seq operands => some (.forceHandover, seq, operands)
  | .evictStation seq operands => some (.evictStation, seq, operands)
  | .readRole seq operands => some (.readRole, seq, operands)
  | .readStation seq operands => some (.readStation, seq, operands)
  | .readWatch seq operands => some (.readWatch, seq, operands)
  | _ => none

/-- The bytes of a command frame: code through check (R151, R171). -/
def commandBytes (c : Command) (seq : Byte) (operands : List Byte) : List Byte :=
  let covered := [c.code, seq, byteOf operands.length] ++ operands
  covered ++ [crc8 covered]

/-- The bytes of a host command's transaction (R151). -/
def Instr.transactionBytes (i : Instr) : Option (List Byte) :=
  i.asCommand.map (fun c => commandBytes c.1 c.2.1 c.2.2)

end Sys2Proof
end

