-- ==== Sys2Proof/Machine/State.lean ====
section
/-! DEFINITION. The state of the PDC-356, block by block, and its values after the power-on reset. -/

namespace Sys2Proof.Machine

/-! ### Trunk Link -/

/-- The four link states (R16). -/
inductive LinkState where
  | offline | announcing | online | silent
deriving DecidableEq, Repr

/-- Whether the receiver has observed the access gap (R2). -/
inductive Receiver where
  | unsynchronised | synchronised
deriving DecidableEq, Repr

/-- The answer of the Trunk Link: none, due one character time after the slot opened, or being sent (R6). -/
inductive AnswerSlot where
  | idle
  | due (answer : Answer)
  | sending (answer : Answer)
deriving DecidableEq, Repr

/-! ### Station Registry -/

/-- What a JOINED station entry holds (R25); a FREE entry is `none` in the table. -/
structure Station where
  serial : Serial
  strikes : Nat
deriving DecidableEq, Repr

/-! ### Role Table, Claim Pool, Handover Controller -/

/-- The two kinds of role (R45). -/
inductive Kind where
  | transient | pinned
deriving DecidableEq, Repr

/-- A claim record in use (R83); the chain that holds it is its role's. -/
structure Claim where
  claimant : Byte
  rank : Nat
deriving DecidableEq, Repr

/-- The phase of an offer, with the window remaining that WAITING alone has (R104). -/
inductive OfferPhase where
  | pendingSend
  | inFlight
  | waiting (window : Nat)
deriving DecidableEq, Repr

/-- The offer record of an OFFERED role (R104). -/
structure Offer where
  offeree : Byte
  rank : Nat
  number : Byte
  phase : OfferPhase
  attempts : Nat
deriving DecidableEq, Repr

/-- The state of a live role with the fields that the state carries (R44). -/
inductive Tenure where
  | vacant
  | held (holder : Byte) (lease : Nat) (attr : List Byte)
  | offered (offer : Offer)
deriving DecidableEq, Repr

/-- The record of a live role (R43). -/
structure Role where
  tag : Tag
  kind : Kind
  tenure : Tenure
  term : Nat
  generation : Half
  offerNumber : Byte
  chain : List Claim
deriving DecidableEq, Repr

/-- A role-table entry: its incarnation, and its role while it is live; `none` is FREE (R43, R44). -/
structure Entry where
  incarnation : Byte
  role : Option Role
deriving DecidableEq, Repr

/-! ### Lease Clock -/

/-- The Lease Clock in each link state (R69); running, it counts periods of the tick period it took at the entry into ONLINE. -/
inductive LeaseClock where
  | stopped
  | frozen
  | running (period : Nat)
deriving DecidableEq, Repr

/-! ### Notice Unit -/

/-- A watch record in use (R123); a final one carries its final generation. -/
structure Watch where
  watcher : Byte
  handle : Handle
  rank : Nat
  isPending : Bool
  attempts : Nat
  final : Option Half
deriving DecidableEq, Repr

/-! ### Outbound Scheduler -/

/-- What the frame in flight is for, fixed at selection (R139). -/
inductive Subject where
  | restart
  | offer (handle : Handle) (number : Byte)
  | watch (number : Nat) (watcher : Byte) (handle : Handle)
deriving DecidableEq, Repr

/-- Where the frame in flight stands; from its beginning on it carries the frame as it was formed, and whether that is the final form (R131, R139, R145). -/
inductive FramePhase where
  | selected
  | onLine (formed : TrunkFrame) (finalForm : Bool)
  | awaitingAnswer (formed : TrunkFrame) (finalForm : Bool)
deriving DecidableEq, Repr

/-- The frame record in use (R139). -/
structure Frame where
  subject : Subject
  dest : Byte
  phase : FramePhase
  collisions : Nat
  begun : Bool
  purgedTarget : Bool
deriving DecidableEq, Repr

/-! ### Management Port -/

/-- The line rates (R1). -/
inductive LineRate where
  | r19200 | r38400 | r115200 | r250000
deriving DecidableEq, Repr

/-- The creation setting (R87). -/
inductive Creation where
  | closed | open
deriving DecidableEq, Repr

/-- The seven configuration values (R158). -/
structure Configuration where
  rate : LineRate
  tickPeriod : Nat
  defaultTerm : Nat
  offerWindow : Nat
  noticeFloor : Nat
  creation : Creation
  spacing : Nat
deriving DecidableEq, Repr

/-- The six attention causes (R164). -/
inductive Cause where
  | lapse | vacancy | capacity | stationLost | foreignDirectory | online
deriving DecidableEq, Repr

/-- The last subject of an attention record (R164). The station of a refusal is 0 for the host (R171). -/
inductive AttentionSubject where
  | none
  | role (handle : Handle)
  | refusal (status : Status) (station : Byte)
  | station (address : Byte)
deriving DecidableEq, Repr

/-- A pending attention record (R164); a clear record is `none`. -/
structure AttentionRecord where
  count : Nat
  subject : AttentionSubject
deriving DecidableEq, Repr

/-- The attention records, one for each cause (R164). -/
structure Attention where
  lapse : Option AttentionRecord
  vacancy : Option AttentionRecord
  capacity : Option AttentionRecord
  stationLost : Option AttentionRecord
  foreignDirectory : Option AttentionRecord
  online : Option AttentionRecord
deriving DecidableEq, Repr

/-- What began the reset clear that runs (R154). -/
inductive ResetKind where
  | powerOn | directory
deriving DecidableEq, Repr

/-- The pins whose level outlasts an event: the RESET input held low, ATTN asserted, TDE asserted. -/
structure Pins where
  resetLow : Bool
  attn : Bool
  tde : Bool
deriving DecidableEq, Repr

/-- Everything the part holds, and the commands that wait for it. -/
structure State where
  link : LinkState
  epoch : Byte
  announced : Bool
  receiver : Receiver
  answer : AnswerSlot
  stations : Vector (Option Station) Config.stationCount
  roles : Vector Entry Config.roleCount
  clock : LeaseClock
  watches : Vector (Option Watch) Config.watchCount
  frame : Option Frame
  config : Configuration
  enables : Byte
  attention : Attention
  response : Response
  clearing : Option ResetKind
  pins : Pins
  pending : List Instr
deriving DecidableEq, Repr

/-- The part has no fault: no rule of the manual stops it. -/
inductive Fault where
deriving DecidableEq, Repr

/-- Why a step has no meaning. -/
inductive Refusal where
  /-- Raised by an arm of `exec` whose command has no meaning in the model yet; safe: the run stops. -/
  | notModelled (mnemonic : String)
deriving DecidableEq, Repr

/-- No cause pending. -/
def Attention.clear : Attention := ⟨none, none, none, none, none, none⟩

/-- The configuration after power-on (R155). -/
def Configuration.powerOn : Configuration where
  rate := .r115200
  tickPeriod := 20
  defaultTerm := 50
  offerWindow := 10
  noticeFloor := 1
  creation := .open
  spacing := 8

/-- The part right after the power-on reset: the values of R155, with the reset clear running (R154). -/
def State.reset : State where
  link := .offline
  epoch := 0
  announced := false
  receiver := .unsynchronised
  answer := .idle
  stations := Vector.replicate _ none
  roles := Vector.replicate _ ⟨0, none⟩
  clock := .stopped
  watches := Vector.replicate _ none
  frame := none
  config := .powerOn
  enables := 0
  attention := .clear
  response := ⟨.resetNotice, 0, []⟩
  clearing := some .powerOn
  pins := ⟨false, false, false⟩
  pending := []

end Sys2Proof.Machine
end

