-- ==== Sys2Proof/Machine/Operands.lean ====
section
/-! DEFINITION. The bodies of station requests (R14, R169) and the operands of host commands (R171, R172):
each reader answers the fields, or none where the length or a field is outside what the manual allows. -/

namespace Sys2Proof.Machine

/-- A station address, 1..56 (R8, R25). -/
def isStation (a : Byte) : Bool := 1#8 ≤ a && a ≤ 56#8

/-- A role-table index, 0..95. -/
def isRoleIndex (i : Byte) : Bool := i.toNat < Config.roleCount

/-! ### Bodies of station requests -/

/-- LEAVE: no body. -/
def emptyBody (body : List Byte) : Option Unit :=
  match body with
  | [] => some ()
  | _ => none

/-- JOIN: a serial other than 0. -/
def serialBody (body : List Byte) : Option Serial :=
  match body with
  | [a, b, c, d] => if serialOf a b c d = 0 then none else some (serialOf a b c d)
  | _ => none

/-- The eleven requests and commands that carry a handle alone. -/
def handleBody (body : List Byte) : Option Handle :=
  match body with
  | [i, n] => if isRoleIndex i then some ⟨i, n⟩ else none
  | _ => none

/-- CLAIM: a tag and a rank 1..7. -/
def claimBody (body : List Byte) : Option (Tag × Nat) :=
  match tagOf (body.take 8), body.drop 8 with
  | some t, [r] => if 1 ≤ r.toNat ∧ r.toNat ≤ 7 then some (t, r.toNat) else none
  | _, _ => none

/-- CHANGE: a handle, an expected generation and an attribute of 0..8 bytes. -/
def changeBody (body : List Byte) : Option (Handle × Half × List Byte) :=
  match body with
  | i :: n :: high :: low :: attr =>
    if isRoleIndex i ∧ attr.length ≤ 8 then some (⟨i, n⟩, halfOf high low, attr) else none
  | _ => none

/-- WATCH: a handle and a rank 0..7. -/
def watchBody (body : List Byte) : Option (Handle × Nat) :=
  match body with
  | [i, n, r] => if isRoleIndex i ∧ r.toNat ≤ 7 then some (⟨i, n⟩, r.toNat) else none
  | _ => none

/-! ### Operands of host commands -/

/-- A term of 1..4095 lease ticks (R48, R172). -/
def termOf (high low : Byte) : Option Nat :=
  let n := (halfOf high low).toNat
  if 1 ≤ n ∧ n ≤ Config.termMax then some n else none

/-- SET TERM: a handle and a term. -/
def setTermOperands (ops : List Byte) : Option (Handle × Nat) :=
  match ops with
  | [i, n, high, low] =>
    if isRoleIndex i then (termOf high low).map (fun t => (⟨i, n⟩, t)) else none
  | _ => none

/-- DEFINE ROLE: a tag and a term. -/
def defineOperands (ops : List Byte) : Option (Tag × Nat) :=
  match tagOf (ops.take 8), ops.drop 8 with
  | some t, [high, low] => (termOf high low).map (fun n => (t, n))
  | _, _ => none

/-- START: no operand, or an epoch of 1..255. -/
def epochOperand (ops : List Byte) : Option (Option Byte) :=
  match ops with
  | [] => some none
  | [e] => if e = 0 then none else some (some e)
  | _ => none

/-- EVICT STATION, READ STATION: an address 1..56. -/
def addressOperand (ops : List Byte) : Option Byte :=
  match ops with
  | [a] => if isStation a then some a else none
  | _ => none

/-- READ ROLE: an index 0..95. -/
def indexOperand (ops : List Byte) : Option Byte :=
  match ops with
  | [i] => if isRoleIndex i then some i else none
  | _ => none

/-- READ WATCH: a watch number 0..63. -/
def watchNumberOperand (ops : List Byte) : Option Byte :=
  match ops with
  | [n] => if n.toNat < Config.watchCount then some n else none
  | _ => none

/-- The flags of the six causes. -/
abbrev allCauses : Byte := 0x3F

/-- A byte of cause flags that names no cause that does not exist (R165, R172). -/
def flagsOperand (ops : List Byte) : Option Byte :=
  match ops with
  | [f] => if f &&& 0xC0 = 0 then some f else none
  | _ => none

/-- READ ATTENTION: no operand for all six causes, or the flags of at least one (R166, R172). -/
def selectionOperand (ops : List Byte) : Option Byte :=
  match ops with
  | [] => some allCauses
  | _ => (flagsOperand ops).filter (fun f => f != 0)

/-- The line rate of its code (R167). -/
def rateOf (b : Byte) : Option LineRate :=
  match b with
  | 0 => some .r19200
  | 1 => some .r38400
  | 2 => some .r115200
  | 3 => some .r250000
  | _ => none

/-- The creation setting of its code (R167). -/
def creationOf (b : Byte) : Option Creation :=
  match b with
  | 0 => some .closed
  | 1 => some .open
  | _ => none

/-- CONFIGURE: the configuration block (R158, R171). -/
def configureOperands (ops : List Byte) : Option Configuration :=
  match ops with
  | [rate, tick, high, low, window, floor, creation, spacing] =>
    match rateOf rate, termOf high low, creationOf creation with
    | some r, some t, some c =>
      if 1 ≤ tick.toNat ∧ tick.toNat ≤ 200 ∧ 1 ≤ window.toNat ∧ floor.toNat ≤ 7 then
        some ⟨r, tick.toNat, t, window.toNat, floor.toNat, c, spacing.toNat⟩
      else none
    | _, _, _ => none
  | _ => none

/-- The operand readers of commands without operands. -/
def noOperand (ops : List Byte) : Option Unit := emptyBody ops

end Sys2Proof.Machine
end

