-- ==== Sys2Proof/Machine/Flags.lean ====
section
/-! DEFINITION. The attention records, their flags, and the pins that follow the state (R164, R165). -/

namespace Sys2Proof.Machine

/-- The causes in the order of their flags (R171). -/
def Cause.all : List Cause := [.lapse, .vacancy, .capacity, .stationLost, .foreignDirectory, .online]

/-- The flag of each cause (R171). -/
def Cause.flag : Cause → Byte
  | .lapse => 0x01 | .vacancy => 0x02 | .capacity => 0x04
  | .stationLost => 0x08 | .foreignDirectory => 0x10 | .online => 0x20

/-- Whether a set of cause flags names the cause. -/
def Cause.inFlags (c : Cause) (flags : Byte) : Bool := flags &&& c.flag != 0

/-- The record of a cause. -/
def Attention.get (t : Attention) : Cause → Option AttentionRecord
  | .lapse => t.lapse | .vacancy => t.vacancy | .capacity => t.capacity
  | .stationLost => t.stationLost | .foreignDirectory => t.foreignDirectory | .online => t.online

/-- The records with that of one cause replaced. -/
def Attention.set (t : Attention) (c : Cause) (r : Option AttentionRecord) : Attention :=
  match c with
  | .lapse => { t with lapse := r }
  | .vacancy => { t with vacancy := r }
  | .capacity => { t with capacity := r }
  | .stationLost => { t with stationLost := r }
  | .foreignDirectory => { t with foreignDirectory := r }
  | .online => { t with online := r }

/-- A record after one more raise: the count from 1 up to 255, and the raise's subject (R164). -/
def raisedRecord (r : Option AttentionRecord) (subject : AttentionSubject) : AttentionRecord :=
  match r with
  | none => ⟨1, subject⟩
  | some r => ⟨min (r.count + 1) Config.attentionMax, subject⟩

/-- A raise of a cause (R164). -/
def Attention.raise (t : Attention) (c : Cause) (subject : AttentionSubject) : Attention :=
  t.set c (some (raisedRecord (t.get c) subject))

/-- The records with those that the flags name cleared (R166). -/
def Attention.clearFlags (t : Attention) (flags : Byte) : Attention :=
  Cause.all.foldl (fun t c => if c.inFlags flags then t.set c none else t) t

/-- Whether a cause is both pending and enabled (R165). -/
def Attention.asserted (t : Attention) (enables : Byte) : Bool :=
  Cause.all.any (fun c => (t.get c).isSome && c.inFlags enables)

/-- A raise of a cause at the Management Port. -/
def State.raise (s : State) (c : Cause) (subject : AttentionSubject) : State :=
  { s with attention := s.attention.raise c subject }

/-- Of several raises of VACANCY in one event the last subject is that of the role with the highest index (R164):
after the raise for `h` and the raises that followed it, the subject is `h` again where theirs has a lower index. -/
def State.vacancyAtLeast (s : State) (h : Handle) : State :=
  match s.attention.vacancy with
  | some ⟨n, .role h'⟩ =>
    if h'.index < h.index then
      { s with attention := { s.attention with vacancy := some ⟨n, .role h⟩ } }
    else s
  | _ => s

/-- Whether the directory drives the trunk: an answer being sent (R6), or a frame ON LINE (R145). -/
def State.drivesLine (s : State) : Bool :=
  (match s.answer with
    | .sending _ => true
    | _ => false)
  || (match s.frame with
    | some f =>
      match f.phase with
      | .onLine _ _ => true
      | _ => false
    | none => false)

/-- The pins as the state asks: ATTN under R165, TDE while the directory drives the line, both released while RESET is low (R155). -/
def State.drive (s : State) : State :=
  { s with pins :=
      { s.pins with
        attn := !s.pins.resetLow && s.attention.asserted s.enables
        tde := !s.pins.resetLow && s.drivesLine } }

end Sys2Proof.Machine
end

