-- ==== Sys2Proof/Machine/Ops.lean ====
section
/-! DEFINITION. The named operations over the tables: stations, roles, chains, offers, watches, and the purge. -/

namespace Sys2Proof.Machine

/-! ### Tables of a fixed number of like things -/

/-- A table with one function applied to every row. -/
def mapRows {α : Type} {n : Nat} (f : α → α) (v : Vector α n) : Vector α n :=
  ⟨⟨v.toList.map f⟩, by simp⟩

/-- A table with one function applied to row `i`, if there is such a row. -/
def modifyRow {α : Type} {n : Nat} (v : Vector α n) (i : Nat) (f : α → α) : Vector α n :=
  match v[i]? with
  | some a => v.setIfInBounds i (f a)
  | none => v

/-- The lowest row for which the test holds. -/
def findRow {α : Type} {n : Nat} (p : α → Bool) (v : Vector α n) : Option Nat :=
  v.toList.findIdx? p

/-- How many rows the test holds for. -/
def countRows {α : Type} {n : Nat} (p : α → Bool) (v : Vector α n) : Nat :=
  v.toList.countP p

/-! ### Station table (R25) -/

/-- The JOINED entry at a station address; none where the entry is FREE or the address is no station's. -/
def State.station (s : State) (a : Byte) : Option Station :=
  if isStation a then (s.stations[a.toNat - 1]?).join else none

/-- The station table with the entry at an address replaced. -/
def State.setStation (s : State) (a : Byte) (e : Option Station) : State :=
  if isStation a then { s with stations := s.stations.setIfInBounds (a.toNat - 1) e } else s

/-- The address at which a serial is JOINED (R29). -/
def State.addressOf (s : State) (serial : Serial) : Option Byte :=
  (findRow (fun e => e.any (fun st => st.serial == serial)) s.stations).map (fun i => byteOf (i + 1))

/-- The lowest FREE address (R29). -/
def State.freeAddress (s : State) : Option Byte :=
  (findRow Option.isNone s.stations).map (fun i => byteOf (i + 1))

/-- A sign of life from an address: the strike count of a JOINED entry becomes 0 (R10, R34, R35). -/
def State.clearStrikes (s : State) (a : Byte) : State :=
  match s.station a with
  | some st => s.setStation a (some { st with strikes := 0 })
  | none => s

/-! ### Role table (R43, R50) -/

/-- The live role at an index. -/
def State.roleAt (s : State) (i : Nat) : Option Role :=
  (s.roles[i]?).bind Entry.role

/-- The handle that names the present life of the entry at an index. -/
def State.handleAt (s : State) (i : Nat) : Handle :=
  ⟨byteOf i, ((s.roles[i]?).map Entry.incarnation).getD 0⟩

/-- The role that a handle names: the entry is live and its incarnation is the handle's (R50). -/
def State.named (s : State) (h : Handle) : Option Role :=
  match s.roles[h.index.toNat]? with
  | some e => if e.incarnation = h.incarnation then e.role else none
  | none => none

/-- The index of the live role that carries a tag (R46). -/
def State.roleOfTag (s : State) (t : Tag) : Option Nat :=
  findRow (fun e => e.role.any (fun r => r.tag == t)) s.roles

/-- The lowest FREE entry (R55). -/
def State.freeIndex (s : State) : Option Nat :=
  findRow (fun e => e.role.isNone) s.roles

/-- The role at an index replaced; its entry keeps its incarnation. -/
def State.putRole (s : State) (i : Nat) (r : Role) : State :=
  { s with roles := modifyRow s.roles i (fun e => { e with role := some r }) }

/-- The entry at an index made FREE; it keeps its incarnation (R49). -/
def State.freeEntry (s : State) (i : Nat) : State :=
  { s with roles := modifyRow s.roles i (fun e => { e with role := none }) }

/-- What one role's event does, where the entry is live. -/
def State.onRole (s : State) (i : Nat) (f : Role → State) : State :=
  match s.roleAt i with
  | some r => f r
  | none => s

/-- Claim records in use: the claims of all chains together (R83). -/
def State.claimsInUse (s : State) : Nat :=
  (s.roles.toList.map (fun e => match e.role with
    | some r => r.chain.length
    | none => 0)).sum

/-- The count of live roles (R157). -/
def State.liveRoles (s : State) : Nat := countRows (fun e => e.role.isSome) s.roles

/-- The count of JOINED stations (R157). -/
def State.joinedStations (s : State) : Nat := countRows Option.isSome s.stations

/-- The count of watch records in use (R123). -/
def State.watchesInUse (s : State) : Nat := countRows Option.isSome s.watches

/-- The incarnation after one more allocation: 255 is followed by 1 (R49). -/
def nextIncarnation (n : Byte) : Byte := if n = 255 then 1 else n + 1

/-- Creation makes a FREE entry into a live role, VACANT at generation 0 (R55). -/
def State.create (s : State) (i : Nat) (t : Tag) (kind : Kind) (term : Nat) : State :=
  { s with roles := modifyRow s.roles i (fun e =>
      ⟨nextIncarnation e.incarnation, some ⟨t, kind, .vacant, term, 0, 0, []⟩⟩) }

/-! ### Watches and generations (R53, R128, R134) -/

/-- Whether a rank is one that notices are sent for: at least 1 and at least the notice floor (R129). -/
def State.rankReaches (s : State) (rank : Nat) : Bool :=
  1 ≤ rank && s.config.noticeFloor ≤ rank

/-- Every non-final watch on a handle marked pending (R128). -/
def State.markPending (s : State) (h : Handle) : State :=
  { s with watches := mapRows (Option.map (fun w =>
      if w.handle = h ∧ w.final = none then { w with isPending := true } else w)) s.watches }

/-- A role's record replaced in an event that increases its generation (R53), which reaches its watches (R54). -/
def State.changeRole (s : State) (i : Nat) (r : Role) : State :=
  (s.putRole i { r with generation := r.generation + 1 }).markPending (s.handleAt i)

/-- The retirement of a handle at the Notice Unit: its watches become final and pending, or are freed (R134). -/
def State.finalWatches (s : State) (h : Handle) (final : Half) : State :=
  { s with watches := mapRows (fun o => o.bind (fun w =>
      if w.handle = h then
        if s.rankReaches w.rank then some { w with final := some final, isPending := true } else none
      else some w)) s.watches }

/-! ### Grant, loss of the holder, offers, retirement -/

/-- A grant makes a station the holder (R73). -/
def State.grant (s : State) (i : Nat) (a : Byte) : State :=
  s.onRole i (fun r => s.changeRole i { r with tenure := .held a r.term [] })

/-- Retirement ends a role (R57): the watches take the final generation, and the entry becomes FREE with its chain and offer. -/
def State.retire (s : State) (i : Nat) : State :=
  s.onRole i (fun r => (s.finalWatches (s.handleAt i) (r.generation + 1)).freeEntry i)

/-- A role with no one left (R103): VACANT with VACANCY attention, or retired; a skip increases the generation of the VACANT role. -/
def State.leaveEmpty (s : State) (i : Nat) (skip : Bool) : State :=
  s.onRole i (fun r =>
    match r.kind with
    | .transient => s.retire i
    | .pinned =>
      let vacant := { r with tenure := .vacant }
      (if skip then s.changeRole i vacant else s.putRole i vacant).raise .vacancy (.role (s.handleAt i)))

/-- An offer made to a claimant that has left the chain (R98, R105). -/
def Role.offerTo (r : Role) (c : Claim) (rest : List Claim) : Role :=
  { r with
    tenure := .offered ⟨c.claimant, c.rank, r.offerNumber + 1, .pendingSend, 0⟩
    offerNumber := r.offerNumber + 1
    chain := rest }

/-- A role passed on: offered to the chain head, or left with no one (R102, R117). -/
def State.passOn (s : State) (i : Nat) (skip : Bool) : State :=
  s.onRole i (fun r =>
    match r.chain with
    | c :: rest => s.putRole i (r.offerTo c rest)
    | [] => s.leaveEmpty i skip)

/-- The handover after the loss of the holder (R102). -/
def State.handover (s : State) (i : Nat) : State := s.passOn i false

/-- A skip ends the current offer and passes the role on (R117). -/
def State.skip (s : State) (i : Nat) : State := s.passOn i true

/-- The loss of the holder, with its handover, in one event (R74). -/
def State.loseHolder (s : State) (i : Nat) : State :=
  s.onRole i (fun r => (s.changeRole i { r with tenure := .vacant }).handover i)

/-! ### Lease ticks (R70) -/

/-- The lapse of a role's lease (R74). -/
def State.lapseRole (s : State) (i : Nat) : State :=
  (s.raise .lapse (.role (s.handleAt i))).loseHolder i

/-- One role's part in a lease tick (R70). -/
def State.tickRole (s : State) (i : Nat) : State :=
  s.onRole i (fun r =>
    match r.tenure with
    | .held a lease attr =>
      if lease ≤ 1 then s.lapseRole i
      else s.putRole i { r with tenure := .held a (lease - 1) attr }
    | .offered o =>
      match o.phase with
      | .waiting window =>
        if window ≤ 1 then s.skip i
        else s.putRole i { r with tenure := .offered { o with phase := .waiting (window - 1) } }
      | _ => s
    | .vacant => s)

/-- A lease tick: every role's part, lowest index first, so that the last subject of a cause is that of the highest index (R70, R164). -/
def State.tick (s : State) : State :=
  (List.range Config.roleCount).foldl State.tickRole s

/-! ### Purge (R39 to R41) -/

/-- The purge at the frame in flight: a SELECTED frame to the station is withdrawn, and one that has begun is marked (R41). -/
def State.purgeFrame (s : State) (a : Byte) : State :=
  match s.frame with
  | some f =>
    if f.subject ≠ .restart ∧ f.dest = a then
      match f.phase with
      | .selected => { s with frame := none }
      | _ => { s with frame := some { f with purgedTarget := true } }
    else s
  | none => s

/-- The purge at the Claim Pool: the station's records leave every chain (R99). -/
def State.purgeClaims (s : State) (a : Byte) : State :=
  { s with roles := mapRows (fun e => { e with role := e.role.map (fun r =>
      { r with chain := r.chain.filter (fun c => c.claimant != a) }) }) s.roles }

/-- The purge at the Notice Unit: the station's records are freed (R136). -/
def State.purgeWatches (s : State) (a : Byte) : State :=
  { s with watches := mapRows (fun o => o.filter (fun w => w.watcher != a)) s.watches }

/-- The purge at one role: its holder is lost as for RELEASE, its offeree is skipped as for DECLINE (R39, R119). -/
def State.purgeRole (a : Byte) (s : State) (i : Nat) : State :=
  s.onRole i (fun r =>
    match r.tenure with
    | .held holder _ _ => if holder = a then s.loseHolder i else s
    | .offered o => if o.offeree = a then s.skip i else s
    | .vacant => s)

/-- The purge of a station address, as one event (R39). -/
def State.purge (s : State) (a : Byte) : State :=
  (List.range Config.roleCount).foldl (State.purgeRole a)
    (((s.purgeFrame a).purgeClaims a).purgeWatches a)

/-- The purge of a station followed by its entry becoming FREE (R33, R36, R42). -/
def State.removeStation (s : State) (a : Byte) : State :=
  (s.purge a).setStation a none

/-! ### Chains (R84, R85) -/

/-- The place of a new record: behind the last one of equal or higher rank (R84). -/
def insertClaim (c : Claim) (chain : List Claim) : List Claim :=
  match chain with
  | [] => [c]
  | d :: rest => if c.rank ≤ d.rank then d :: insertClaim c rest else c :: d :: rest

/-- A claimant's place in a chain, counted from 1 at the head (R85). -/
def positionOf (a : Byte) (chain : List Claim) : Option Nat :=
  (chain.findIdx? (fun c => c.claimant == a)).map (· + 1)

end Sys2Proof.Machine
end

