-- ==== Sys2Proof/Machine/Views.lean ====
section
/-! DEFINITION. What the part tells of its records: the role view, the final form, the bodies of its frames, and the blocks of responses (R60, R109, R131, R169, R171). -/

namespace Sys2Proof.Machine

/-- The byte of a kind (R167). -/
def Kind.value : Kind → Byte
  | .transient => 0x01
  | .pinned => 0x02

/-- The byte of a live role's state (R167). -/
def Tenure.value : Tenure → Byte
  | .vacant => 0x01
  | .held _ _ _ => 0x02
  | .offered _ => 0x03

/-- The byte of the state FREE (R167). -/
abbrev freeState : Byte := 0x00
/-- The byte of the state RETIRED (R167). -/
abbrev retiredState : Byte := 0x04

/-- The byte of an offer's phase (R167). -/
def OfferPhase.value : OfferPhase → Byte
  | .pendingSend => 0x01
  | .inFlight => 0x02
  | .waiting _ => 0x03

/-- The byte of a link state (R167). -/
def LinkState.value : LinkState → Byte
  | .offline => 0x00 | .announcing => 0x01 | .online => 0x02 | .silent => 0x03

/-- The byte of a line rate (R167). -/
def LineRate.value : LineRate → Byte
  | .r19200 => 0x00 | .r38400 => 0x01 | .r115200 => 0x02 | .r250000 => 0x03

/-- The byte of the creation setting (R167). -/
def Creation.value : Creation → Byte
  | .closed => 0x00
  | .open => 0x01

/-- The holder's address, 0 where there is none (R60). -/
def Tenure.holder : Tenure → Byte
  | .held a _ _ => a
  | _ => 0

/-- The lease remaining, 0 where there is none (R162). -/
def Tenure.lease : Tenure → Nat
  | .held _ n _ => n
  | _ => 0

/-- The attribute, empty where no holder publishes one (R44). -/
def Tenure.attr : Tenure → List Byte
  | .held _ _ bytes => bytes
  | _ => []

/-- The offer record, present exactly in OFFERED (R104). -/
def Tenure.offer : Tenure → Option Offer
  | .offered o => some o
  | _ => none

/-- The role view (R60, R169). -/
def roleView (h : Handle) (r : Role) : List Byte :=
  h.bytes ++ tagBytes r.tag ++ [r.kind.value, r.tenure.value, r.tenure.holder]
    ++ halfBytes r.generation ++ [byteOf r.chain.length] ++ r.tenure.attr

/-- The final form of a NOTICE (R131, R169). -/
def finalForm (h : Handle) (final : Half) : List Byte :=
  h.bytes ++ [retiredState] ++ halfBytes final

/-- The body of an OFFER frame (R109, R169). -/
def offerBody (h : Handle) (r : Role) (number : Byte) : List Byte :=
  h.bytes ++ tagBytes r.tag ++ [number] ++ termBytes r.term

/-- The body of GRANTED (R86, R169). -/
def grantedBody (h : Handle) (r : Role) : List Byte :=
  h.bytes ++ halfBytes r.generation ++ termBytes r.term

/-- The configuration block (R171). -/
def Configuration.bytes (c : Configuration) : List Byte :=
  [c.rate.value, byteOf c.tickPeriod] ++ termBytes c.defaultTerm
    ++ [byteOf c.offerWindow, byteOf c.noticeFloor, c.creation.value, byteOf c.spacing]

/-- The three subject bytes of an attention record (R171). -/
def AttentionSubject.bytes : AttentionSubject → List Byte
  | .none => [0, 0, 0]
  | .role h => h.bytes ++ [0]
  | .refusal status a => [status.value, a, 0]
  | .station a => [a, 0, 0]

/-- An attention record, clear ones as zeros (R166, R171). -/
def attentionBytes (r : Option AttentionRecord) : List Byte :=
  match r with
  | none => [0, 0, 0, 0, 0]
  | some r => [1, byteOf r.count] ++ r.subject.bytes

/-- The records that the flags name, in flag order (R166, R171). -/
def Attention.selected (t : Attention) (flags : Byte) : List Byte :=
  ((Cause.all.filter (fun c => c.inFlags flags)).map (fun c => attentionBytes (t.get c))).flatten

/-- The status block; the four counts are 0 while the reset clear runs (R154, R157, R171). -/
def State.statusBytes (s : State) : List Byte :=
  let counts :=
    if s.clearing.isSome then [0, 0, 0, 0]
    else [byteOf s.liveRoles, byteOf s.joinedStations, byteOf s.claimsInUse, byteOf s.watchesInUse]
  [s.link.value, s.epoch, flagByte s.clearing.isNone, flagByte s.announced] ++ counts
    ++ s.config.bytes ++ [s.enables]

/-- The offer fields of a role record, zeros where there is no offer (R162, R167). -/
def offerBytes (o : Option Offer) : List Byte :=
  match o with
  | none => [0, 0, 0, 0, 0, 0]
  | some o =>
    [o.offeree, byteOf o.rank, o.number, o.phase.value, byteOf o.attempts,
      match o.phase with
      | .waiting window => byteOf window
      | _ => 0]

/-- The chain's pairs of claimant and rank from the head, filled up to six (R162, R171). -/
def chainBytes (chain : List Claim) : List Byte :=
  padTo 12 ((chain.map (fun c => [c.claimant, byteOf c.rank])).flatten)

/-- The role record of an entry (R162, R171). -/
def entryBytes (index : Byte) (e : Entry) : List Byte :=
  match e.role with
  | none => [index, e.incarnation, freeState]
  | some r =>
    [index, e.incarnation, r.tenure.value] ++ tagBytes r.tag ++ [r.kind.value, r.tenure.holder]
      ++ termBytes r.term ++ termBytes r.tenure.lease ++ halfBytes r.generation
      ++ [r.offerNumber, byteOf r.tenure.attr.length] ++ padTo 8 r.tenure.attr
      ++ [byteOf r.chain.length] ++ chainBytes r.chain ++ offerBytes r.tenure.offer

/-- The live roles that are HELD with this address as holder (R27). -/
def State.rolesHeld (s : State) (a : Byte) : Nat :=
  countRows (fun e => e.role.any (fun r => match r.tenure with
    | .held h _ _ => h == a
    | _ => false)) s.roles

/-- The live roles that are OFFERED with this address as offeree (R27). -/
def State.offersTo (s : State) (a : Byte) : Nat :=
  countRows (fun e => e.role.any (fun r => match r.tenure with
    | .offered o => o.offeree == a
    | _ => false)) s.roles

/-- The claim records in use with this address as claimant (R27). -/
def State.claimsOf (s : State) (a : Byte) : Nat :=
  (s.roles.toList.map (fun e => match e.role with
    | some r => r.chain.countP (fun c => c.claimant == a)
    | none => 0)).sum

/-- The watch records in use with this address as watcher (R27). -/
def State.watchesOf (s : State) (a : Byte) : Nat :=
  countRows (fun o => o.any (fun w => w.watcher == a)) s.watches

/-- The station record of an address (R27, R163, R171). -/
def State.stationBytes (s : State) (a : Byte) : List Byte :=
  match s.station a with
  | none => [a, 0]
  | some st =>
    [a, 1] ++ serialBytes st.serial ++ [byteOf st.strikes, byteOf (s.rolesHeld a),
      byteOf (s.offersTo a), byteOf (s.claimsOf a), byteOf (s.watchesOf a)]

/-- The watch record of a number (R163, R171). -/
def watchBytes (number : Byte) (o : Option Watch) : List Byte :=
  match o with
  | none => [number, 0]
  | some w =>
    [number, 1, w.watcher] ++ w.handle.bytes
      ++ [byteOf w.rank, flagByte w.isPending, byteOf w.attempts, flagByte w.final.isSome]
      ++ halfBytes (w.final.getD 0)

end Sys2Proof.Machine
end

