-- ==== Sys2Proof/Machine/Scheduler.lean ====
section
/-! DEFINITION. The operations of the Outbound Scheduler: candidates, selection, the beginning of a frame, its withdrawal and its completion (R106, R110, R130 to R148). -/

namespace Sys2Proof.Machine

/-! ### Candidates and selection (R140, R141) -/

/-- Whether an entry's offer is in PENDING SEND, and so a candidate (R107). -/
def Entry.offerPending (e : Entry) : Bool :=
  e.role.any (fun r => match r.tenure with
    | .offered o => o.phase == .pendingSend
    | _ => false)

/-- The OFFER candidate that stands first: the lowest role index (R141). -/
def State.firstOffer (s : State) : Option Nat := findRow Entry.offerPending s.roles

/-- Whether a watch is eligible for a notice (R129). -/
def State.eligible (s : State) (w : Watch) : Bool := w.isPending && s.rankReaches w.rank

/-- The NOTICE candidate that stands first: the highest rank, then the lowest watch number (R141). -/
def State.firstNotice (s : State) : Option (Nat × Watch) :=
  (List.range Config.watchCount).foldl (fun best n =>
    match (s.watches[n]?).join with
    | some w =>
      if s.eligible w then
        match best with
        | none => some (n, w)
        | some (_, b) => if b.rank < w.rank then some (n, w) else best
      else best
    | none => best) none

/-- The offer of an entry in another phase. -/
def State.setOfferPhase (s : State) (i : Nat) (phase : OfferPhase) : State :=
  s.onRole i (fun r =>
    match r.tenure with
    | .offered o => s.putRole i { r with tenure := .offered { o with phase := phase } }
    | _ => s)

/-- A frame record as it is filled at selection (R139). -/
def newFrame (subject : Subject) (dest : Byte) : Frame := ⟨subject, dest, .selected, 0, false, false⟩

/-- The selection of an OFFER frame: the offer enters IN FLIGHT (R108, R141). -/
def State.selectOffer (s : State) (i : Nat) : State :=
  s.onRole i (fun r =>
    match r.tenure with
    | .offered o =>
      { s.setOfferPhase i .inFlight with frame := some (newFrame (.offer (s.handleAt i) o.number) o.offeree) }
    | _ => s)

/-- Selection among the candidates of the link state, with an empty frame record and no reset under way (R141). -/
def State.select (s : State) : State :=
  if s.frame.isSome || s.clearing.isSome || s.pins.resetLow then s
  else
    match s.link with
    | .announcing =>
      if s.announced then s else { s with frame := some (newFrame .restart Config.broadcast) }
    | .online =>
      match s.firstOffer with
      | some i => s.selectOffer i
      | none =>
        match s.firstNotice with
        | some (n, w) => { s with frame := some (newFrame (.watch n w.watcher w.handle) w.watcher) }
        | none => s
    | _ => s

/-! ### Currency, withdrawal and abandonment (R130, R143, R144, R149) -/

/-- The watch record that a subject names: in use with the same watcher and handle (R130, R132). -/
def State.watchNamed (s : State) (n : Nat) (watcher : Byte) (h : Handle) : Option Watch :=
  match (s.watches[n]?).join with
  | some w => if w.watcher = watcher ∧ w.handle = h then some w else none
  | none => none

/-- The watch table with one record replaced. -/
def State.setWatch (s : State) (n : Nat) (o : Option Watch) : State :=
  { s with watches := s.watches.setIfInBounds n o }

/-- The role and the offer of an offer that is current: the handle names a role, it is OFFERED, the number is the frame's, and the phase is IN FLIGHT (R106, R143). -/
def State.currentOffer (s : State) (h : Handle) (number : Byte) : Option (Role × Offer) :=
  match s.named h with
  | some r =>
    match r.tenure with
    | .offered o => if o.number = number ∧ o.phase = .inFlight then some (r, o) else none
    | _ => none
  | none => none

/-- Whether a subject is still current (R143). -/
def State.subjectCurrent (s : State) (subject : Subject) : Bool :=
  match subject with
  | .restart => s.link == .announcing && !s.announced
  | .offer h number => (s.currentOffer h number).isSome
  | .watch n watcher h => (s.watchNamed n watcher h).any (fun w => s.rankReaches w.rank)

/-- The frame record emptied and its subject returned to its owner, with no attempt and no report:
an offer still current is in PENDING SEND again, and a watch still in use is pending again if the frame had begun (R130, R143, R149).
The watch is found by number, watcher and handle alone, so a new watch that was taken in the place of one freed with a purged
target is marked too: the model's choice (log 21). -/
def State.dropFrame (s : State) : State :=
  match s.frame with
  | none => s
  | some f =>
    let s := { s with frame := none }
    match f.subject with
    | .restart => s
    | .offer h number =>
      match s.currentOffer h number with
      | some _ => s.setOfferPhase h.index.toNat .pendingSend
      | none => s
    | .watch n watcher h =>
      match s.watchNamed n watcher h with
      | some w => if f.begun then s.setWatch n (some { w with isPending := true }) else s
      | none => s

/-- Whether the record that a subject is about still stands at its owner: the role that the handle names, or the watch in use with the same watcher and handle. -/
def State.subjectRecorded (s : State) (subject : Subject) : Bool :=
  match subject with
  | .restart => true
  | .offer h _ => (s.named h).isSome
  | .watch n watcher h => (s.watchNamed n watcher h).isSome

/-- Whether an event that found the state `before` ended a subject: it stopped being current (R130, R144), or its record went, by
retirement (R58), UNWATCH (R127) or the freeing of its watch (R134), be it that the subject was not current before. -/
def State.subjectEnded (s before : State) (subject : Subject) : Bool :=
  (before.subjectCurrent subject && !s.subjectCurrent subject)
    || (before.subjectRecorded subject && !s.subjectRecorded subject)

/-- Owners withdraw a SELECTED frame, one in its backoff too, in the event that ends its subject (R130, R144).
A frame whose subject ended while it was on the line, and which a collision has returned to SELECTED, waits for its confirmation (R143) or for an event that ends what is left of its subject. -/
def State.withdrawStale (s before : State) : State :=
  match s.frame with
  | some f => if f.phase = .selected ∧ s.subjectEnded before f.subject = true then s.dropFrame else s
  | none => s

/-- The Notice Unit withdraws the SELECTED NOTICE of a watch that stands paused or below the floor, at an event that sets the rank of
that watch or raises the floor, be it that the watch stood so before (R125, R129, R130). -/
def State.withdrawNotice (s : State) (concerned : Nat → Bool) : State :=
  match s.frame with
  | some f =>
    match f.subject with
    | .watch n watcher h =>
      if f.phase = .selected ∧ concerned n = true ∧
          (s.watchNamed n watcher h).any (fun w => !s.rankReaches w.rank) = true then s.dropFrame
      else s
    | _ => s
  | none => s

/-- The end of an event that found the state `before`: a SELECTED frame whose subject has ended is withdrawn, a selection
follows where it can (R141), and the pins follow (R165). -/
def State.settle (s before : State) : State := (s.withdrawStale before).select.drive

/-! ### The beginning of a frame (R142 to R145) -/

/-- The wait length of the SELECTED frame, in character times (R142). -/
def State.waitLength (s : State) (f : Frame) : Nat :=
  Config.accessGap + s.config.spacing + 2 * f.collisions

/-- Whether a candidate stands ahead of the frame's subject in the order of R141 (R143). -/
def State.overtaken (s : State) (subject : Subject) : Bool :=
  match subject with
  | .restart => false
  | .offer h _ => s.firstOffer.any (fun i => i < h.index.toNat)
  | .watch n watcher h =>
    s.firstOffer.isSome ||
      (match s.firstNotice, s.watchNamed n watcher h with
        | some (m, v), some w => w.rank < v.rank || (v.rank == w.rank && m < n)
        | _, _ => false)

/-- The frame formed from the state as it stands (R20, R109, R131), with whether it carries the final form. -/
def State.formFrame (s : State) (f : Frame) : TrunkFrame × Bool :=
  match f.subject with
  | .restart => (⟨f.dest, Config.directory, restartCode, s.epoch, []⟩, false)
  | .offer h number =>
    (⟨f.dest, Config.directory, offerCode, s.epoch,
      match s.named h with
      | some r => offerBody h r number
      | none => []⟩, false)
  | .watch n watcher h =>
    match s.watchNamed n watcher h with
    | some w =>
      match w.final with
      | some g => (⟨f.dest, Config.directory, noticeCode, s.epoch, finalForm h g⟩, true)
      | none =>
        (⟨f.dest, Config.directory, noticeCode, s.epoch,
          match s.named h with
          | some r => roleView h r
          | none => []⟩, false)
    | none => (⟨f.dest, Config.directory, noticeCode, s.epoch, []⟩, false)

/-- The beginning of a frame clears the pending mark of a NOTICE's watch (R131). -/
def State.takeMark (s : State) (subject : Subject) : State :=
  match subject with
  | .watch n watcher h =>
    match s.watchNamed n watcher h with
    | some w => s.setWatch n (some { w with isPending := false })
    | none => s
  | _ => s

/-- The SELECTED frame begins on the line (R145). -/
def State.beginFrame (s : State) (f : Frame) : State :=
  let formed := s.formFrame f
  { s.takeMark f.subject with
    frame := some { f with phase := .onLine formed.1 formed.2, begun := true } }

/-- The confirmation at the end of the wait (R143): the frame begins, or it is withdrawn or displaced and the frame
selected in its place, for whose shorter or equal wait the line has been idle already, begins at once. -/
def State.confirm (s : State) (f : Frame) : State :=
  if s.subjectCurrent f.subject && !s.overtaken f.subject then s.beginFrame f
  else
    let s := s.dropFrame.select
    match s.frame with
    | some g => s.beginFrame g
    | none => s

/-! ### Completion (R34, R106, R110, R111, R132 to R135, R148) -/

/-- How a frame of the directory completed (R146, R147). -/
inductive FrameOutcome where
  | valid (status : Byte)
  | emptySlot
  | badAnswer
  | collisionLimit
deriving DecidableEq, Repr

/-- A failed attempt of a current offer (R111). -/
def State.failOffer (s : State) (i : Nat) (r : Role) (o : Offer) : State :=
  if o.attempts + 1 < Config.attemptLimit then
    s.putRole i { r with tenure := .offered { o with attempts := o.attempts + 1, phase := .pendingSend } }
  else s.skip i

/-- The outcome of an OFFER frame at the Handover Controller: applied if the offer is current, disregarded otherwise (R106, R110). -/
def State.offerOutcome (s : State) (h : Handle) (number : Byte) (outcome : FrameOutcome) : State :=
  match s.currentOffer h number with
  | none => s
  | some (r, o) =>
    let i := h.index.toNat
    match outcome with
    | .valid status =>
      if status = slotAccept then s.grant i o.offeree
      else if status = slotDecline then s.skip i
      else if status = slotWait then s.setOfferPhase i (.waiting s.config.offerWindow)
      else s.failOffer i r o
    | .emptySlot | .badAnswer | .collisionLimit => s.failOffer i r o

/-- A failed delivery of a NOTICE: the watch is pending again, and at the third failure paused, or freed if it is final (R132, R133, R135). -/
def State.failNotice (s : State) (n : Nat) (w : Watch) : State :=
  if w.attempts + 1 < Config.attemptLimit then
    s.setWatch n (some { w with isPending := true, attempts := w.attempts + 1 })
  else if w.final.isSome then s.setWatch n none
  else s.setWatch n (some { w with isPending := true, rank := 0, attempts := 0 })

/-- The outcome of a NOTICE frame at the Notice Unit: applied to the watch it identifies, disregarded otherwise (R132, R135). -/
def State.noticeOutcome (s : State) (n : Nat) (watcher : Byte) (h : Handle) (carriedFinal : Bool)
    (outcome : FrameOutcome) : State :=
  match s.watchNamed n watcher h with
  | none => s
  | some w =>
    if outcome = .valid slotAck then
      if w.final.isSome && carriedFinal then s.setWatch n none
      else s.setWatch n (some { w with attempts := 0 })
    else s.failNotice n w

/-- The delivery report at the Station Registry (R34 to R36). -/
def State.report (s : State) (a : Byte) (outcome : FrameOutcome) : State :=
  match outcome with
  | .collisionLimit => s
  | .valid _ => s.clearStrikes a
  | .emptySlot | .badAnswer =>
    match s.station a with
    | none => s
    | some st =>
      if st.strikes + 1 < Config.strikeLimit then s.setStation a (some { st with strikes := st.strikes + 1 })
      else (s.removeStation a).raise .stationLost (.station a)

/-- Whether an entry stands VACANT. -/
def State.isVacant (s : State) (i : Nat) : Bool :=
  (s.roleAt i).any (fun r => r.tenure == .vacant)

/-- The completion of an OFFER or NOTICE: the record is emptied, the outcome goes to the subject's owner, then the
delivery report to the Station Registry; of a purged target's frame the owner and the registry disregard both (R37, R41, R148). -/
def State.completeFrame (s : State) (f : Frame) (carriedFinal : Bool) (outcome : FrameOutcome) : State :=
  let s := { s with frame := none }
  if f.purgedTarget then s
  else
    match f.subject with
    | .restart => s
    | .offer h number =>
      let applied := s.offerOutcome h number outcome
      let told := applied.report f.dest outcome
      if (s.currentOffer h number).isSome && applied.isVacant h.index.toNat then told.vacancyAtLeast h else told
    | .watch n watcher h => (s.noticeOutcome n watcher h carriedFinal outcome).report f.dest outcome

end Sys2Proof.Machine
end

