-- ==== Sys2Proof/Machine/Gate.lean ====
section
/-! DEFINITION. How a command reaches its meaning: what the receiver takes (R2, R9 to R11), the request gate (R12 to R15), and the tests of a host command (R152 to R154). -/

namespace Sys2Proof.Machine

/-! ### The line -/

/-- Whether the line is taken by the directory: an answer due or being sent, or a frame of its own begun (R6, R9, R150). -/
def State.lineTaken (s : State) : Bool :=
  s.answer != .idle || s.frame.any (fun f => f.phase != .selected)

/-- Whether the receiver takes a frame that arrives: it was synchronised at its first character, no reset clear runs, and the directory does not use the line (R2, R9). -/
def State.listening (s : State) : Bool :=
  !s.pins.resetLow && s.clearing.isNone && s.receiver == .synchronised && !s.lineTaken

/-- An event of the part while RESET is not held low (R155). -/
def State.powered (s : State) (event : State) : State :=
  if s.pins.resetLow then s else event

/-- A foreign frame (R11, R21). -/
def State.hearForeign (s : State) (dest : Byte) : State :=
  if dest ≤ 63 ∧ (s.link = .announcing ∨ s.link = .online) then
    (({ s.dropFrame with link := .silent, clock := .frozen }).raise .foreignDirectory .none).settle s
  else s

/-- The slot of the directory's own frame, while it is read (R147): the frame, and whether it carried the final form. -/
def State.slot (s : State) : Option (Frame × Bool) :=
  match s.frame with
  | some f =>
    match f.phase with
    | .awaitingAnswer _ carriedFinal => some (f, carriedFinal)
    | _ => none
  | none => none

/-- The completion of a frame by what its slot held, and the selection after it (R147, R148). -/
def State.closeSlot (s : State) (outcome : FrameOutcome) : State :=
  match s.slot with
  | some (f, carriedFinal) => (s.completeFrame f carriedFinal outcome).settle s
  | none => s

/-- The receiver unsynchronised (R2). -/
def State.unsynchronise (s : State) : State := { s with receiver := .unsynchronised }

/-- A bad character, a truncation or a LEN above 24 (R1, R3): a bad answer in the slot of the directory's own frame; elsewhere the
frame or answer is discarded. In both cases the receiver is unsynchronised. What the directory drives is not received (R9). -/
def State.lineFault (s : State) : State :=
  match s.slot with
  | some _ => (s.closeSlot .badAnswer).unsynchronise
  | none => if s.lineTaken then s else s.unsynchronise

/-! ### The request gate (R12 to R15) -/

/-- What the gate decides of a request. -/
inductive Verdict (α : Type) where
  | unanswered
  | refused (answer : Answer)
  | passed (fields : α)
deriving DecidableEq, Repr

/-- The conditions of R12, in order; `fields` is what the body of a legal code spells, none where LEN or BODY is illegal. -/
def State.gate {α : Type} (s : State) (isJoin : Bool) (fields : Option α) (src epoch : Byte) : Verdict α :=
  let judged : Verdict α :=
    match fields with
    | some x => .passed x
    | none => .refused ⟨.badRequest, []⟩
  if s.link = .offline ∨ s.link = .silent then .unanswered
  else if isStation src = false ∧ src ≠ Config.unaddressed then .unanswered
  else if s.link = .announcing then .refused ⟨.notReady, []⟩
  else if isJoin then judged
  else if epoch ≠ s.epoch then .refused ⟨.staleEpoch, [s.epoch]⟩
  else if s.station src = none then .refused ⟨.notJoined, []⟩
  else judged

/-- What the owning block of a request does with its fields and its SRC, and what it answers (R15). -/
abbrev Owner (α : Type) := α → Byte → State → State × Answer

/-- The arrival of a frame with DEST 0 (R9): the strike reset of R10, then the gate, then the owning block, whose answer is due (R6, R15).
A frame with SRC 0 is a foreign frame (R11), and one with more than 24 body bytes is malformed (R3). -/
def State.request {α : Type} (s : State) (isJoin : Bool) (read : List Byte → Option α) (owner : Owner α)
    (src epoch : Byte) (body : List Byte) : State :=
  if s.listening = false then s
  else if Config.bodyMax < body.length then s.unsynchronise
  else if src = 0 then s.hearForeign Config.directory
  else
    let s := s.clearStrikes src
    match s.gate isJoin (read body) src epoch with
    | .unanswered => s
    | .refused a => { s with answer := .due a }
    | .passed x =>
      let done := owner x src s
      { done.1 with answer := .due done.2 }

/-- The owner of a request that a handle addresses: the test of R50 comes first. -/
def byHandle (owner : Role → Owner Handle) : Owner Handle := fun h src s =>
  match s.named h with
  | none => (s, ⟨.staleHandle, []⟩)
  | some r => owner r h src s

/-! ### Host commands (R151 to R154) -/

/-- The response buffer written (R153). -/
def State.respond (s : State) (status : HostStatus) (seq : Byte) (data : List Byte) : State :=
  { s with response := ⟨status, seq, data⟩ }

/-- A host command's effect on a state it has passed to, with the status and data of its response. -/
abbrev Action (α : Type) := α → State → State × HostStatus × List Byte

/-- A host command at the rise of CS: LEN (R152), the reset clear (R154), the ranges of its operands (R172), then its own rule. -/
def State.command {α : Type} (s : State) (c : Command) (read : List Byte → Option α) (act : Action α)
    (seq : Byte) (ops : List Byte) : State :=
  s.powered (
    if c.lenLegal ops.length = false then s.respond .badCommand seq []
    else if s.clearing.isSome then s.respond .busy seq []
    else
      match read ops with
      | none => s.respond .badValue seq []
      | some x =>
        let done := act x s
        done.1.respond done.2.1 seq done.2.2)

end Sys2Proof.Machine
end

