-- ==== Sys2Proof/Machine/Roles.lean ====
section
/-! DEFINITION. FIND, LOOKUP, CHANGE, RETIRE, DEFINE ROLE, RETIRE ROLE and READ ROLE (R43 to R67, R160 to R162). -/

namespace Sys2Proof.Machine

open Host (Outcome)

/-- FIND at the Role Table (R61). -/
def findOwner : Owner Tag := fun t _ s =>
  match s.roleOfTag t with
  | none => (s, ⟨.noSuchRole, []⟩)
  | some i =>
    match s.roleAt i with
    | some r => (s, ⟨.ok, roleView (s.handleAt i) r⟩)
    | none => (s, ⟨.noSuchRole, []⟩)

/-- FIND (R61). -/
def execFind (src epoch : Byte) (body : List Byte) (s : State) : Outcome State Fault Refusal :=
  .next (s.request false tagOf findOwner src epoch body)

/-- LOOKUP (R62). -/
def execLookup (src epoch : Byte) (body : List Byte) (s : State) : Outcome State Fault Refusal :=
  .next (s.request false handleBody (byHandle (fun r h _ s => (s, ⟨.ok, roleView h r⟩))) src epoch body)

/-- CHANGE at the Role Table: the tests of R63 in order. -/
def changeOwner : Owner (Handle × Half × List Byte) := fun fields src s =>
  match s.named fields.1 with
  | none => (s, ⟨.staleHandle, []⟩)
  | some r =>
    match r.tenure with
    | .held a lease _ =>
      if a ≠ src then (s, ⟨.notHolder, []⟩)
      else if fields.2.1 ≠ r.generation then (s, ⟨.conflict, halfBytes r.generation⟩)
      else
        ((s.changeRole fields.1.index.toNat { r with tenure := .held a lease fields.2.2 }).settle s,
          ⟨.ok, halfBytes (r.generation + 1)⟩)
    | _ => (s, ⟨.notHolder, []⟩)

/-- CHANGE (R63). -/
def execChange (src epoch : Byte) (body : List Byte) (s : State) : Outcome State Fault Refusal :=
  .next (s.request false changeBody changeOwner src epoch body)

/-- RETIRE at the Role Table: the tests of R65 in order. -/
def retireOwner (r : Role) : Owner Handle := fun h src s =>
  if r.tenure.holder ≠ src then (s, ⟨.notHolder, []⟩)
  else
    match r.kind with
    | .pinned => (s, ⟨.notPermitted, []⟩)
    | .transient => ((s.retire h.index.toNat).settle s, ⟨.ok, halfBytes (r.generation + 1)⟩)

/-- RETIRE (R65). -/
def execRetire (src epoch : Byte) (body : List Byte) (s : State) : Outcome State Fault Refusal :=
  .next (s.request false handleBody (byHandle retireOwner) src epoch body)

/-- A role with another term: a HELD lease that exceeds it is clamped (R79). -/
def Role.withTerm (r : Role) (term : Nat) : Role :=
  { r with
    term := term
    tenure := match r.tenure with
      | .held a lease attr => .held a (min lease term) attr
      | t => t }

/-- DEFINE ROLE's own tests and effect: EXISTS, the conversion of R45, creation, or TABLE FULL (R160). -/
def defineAction : Action (Tag × Nat) := fun fields s =>
  match s.roleOfTag fields.1 with
  | some i =>
    s.roleAt i |>.elim (s, .ok, []) (fun r =>
      match r.kind with
      | .pinned => (s, .alreadyExists, (s.handleAt i).bytes)
      | .transient =>
        (s.putRole i { r.withTerm fields.2 with kind := .pinned }, .ok, (s.handleAt i).bytes))
  | none =>
    match s.freeIndex with
    | some i =>
      let t := s.create i fields.1 .pinned fields.2
      (t, .ok, (t.handleAt i).bytes)
    | none => ((s.raise .capacity (.refusal .tableFull 0)).drive, .tableFull, [])

/-- DEFINE ROLE (R160). -/
def execDefineRole (seq : Byte) (operands : List Byte) (s : State) : Outcome State Fault Refusal :=
  .next (s.command .defineRole defineOperands defineAction seq operands)

/-- RETIRE ROLE's own tests and effect (R161). -/
def retireRoleAction : Action Handle := fun h s =>
  match s.named h with
  | none => (s, .staleHandle, [])
  | some r => ((s.retire h.index.toNat).settle s, .ok, halfBytes (r.generation + 1))

/-- RETIRE ROLE (R161). -/
def execRetireRole (seq : Byte) (operands : List Byte) (s : State) : Outcome State Fault Refusal :=
  .next (s.command .retireRole handleBody retireRoleAction seq operands)

/-- READ ROLE (R162). -/
def execReadRole (seq : Byte) (operands : List Byte) (s : State) : Outcome State Fault Refusal :=
  .next (s.command .readRole indexOperand (fun i s =>
    (s, .ok, entryBytes i ((s.roles[i.toNat]?).getD ⟨0, none⟩))) seq operands)

end Sys2Proof.Machine
end

