-- ==== Sys2Proof/Machine/Leases.lean ====
section
/-! DEFINITION. RENEW, RELEASE, SET TERM and the lease tick with its lapses and window expiries (R68 to R82, R116). -/

namespace Sys2Proof.Machine

open Host (Outcome)

/-- A HELD role with its lease restored to the term (R75, R89). -/
def Role.restored (r : Role) : Role :=
  { r with tenure := match r.tenure with
    | .held a _ attr => .held a r.term attr
    | t => t }

/-- RENEW at the Role Table: the tests of R75 in order. -/
def renewOwner (r : Role) : Owner Handle := fun h src s =>
  if r.tenure.holder ≠ src then (s, ⟨.notHolder, []⟩)
  else (s.putRole h.index.toNat r.restored, ⟨.ok, termBytes r.term⟩)

/-- RENEW (R75). -/
def execRenew (src epoch : Byte) (body : List Byte) (s : State) : Outcome State Fault Refusal :=
  .next (s.request false handleBody (byHandle renewOwner) src epoch body)

/-- RELEASE at the Role Table: the tests of R77 in order. -/
def releaseOwner (r : Role) : Owner Handle := fun h src s =>
  if r.tenure.holder ≠ src then (s, ⟨.notHolder, []⟩)
  else ((s.loseHolder h.index.toNat).settle s, ⟨.ok, []⟩)

/-- RELEASE (R77). -/
def execRelease (src epoch : Byte) (body : List Byte) (s : State) : Outcome State Fault Refusal :=
  .next (s.request false handleBody (byHandle releaseOwner) src epoch body)

/-- SET TERM's own tests and effect (R79). -/
def setTermAction : Action (Handle × Nat) := fun fields s =>
  match s.named fields.1 with
  | none => (s, .staleHandle, [])
  | some r => (s.putRole fields.1.index.toNat (r.withTerm fields.2), .ok, [])

/-- SET TERM (R79). -/
def execSetTerm (seq : Byte) (operands : List Byte) (s : State) : Outcome State Fault Refusal :=
  .next (s.command .setTerm setTermOperands setTermAction seq operands)

/-- Whether the Lease Clock makes ticks: the link is ONLINE, the clock runs and no reset is under way (R69, R154). -/
def State.ticking (s : State) : Bool :=
  !s.pins.resetLow && s.clearing.isNone && s.link == .online &&
    (match s.clock with
      | .running _ => true
      | _ => false)

/-- LEASE_TICK: a whole tick period has run in ONLINE (R69, R70). -/
def execLeaseTick (s : State) : Outcome State Fault Refusal :=
  .next (if s.ticking then s.tick.settle s else s)

/-- LAPSE: the part of a lease tick at a HELD role whose lease remaining is 1 (R70, R74). -/
def execLapse (index : Byte) (s : State) : Outcome State Fault Refusal :=
  .next (
    if s.ticking && (s.roleAt index.toNat).any (fun r => match r.tenure with
      | .held _ lease _ => lease ≤ 1
      | _ => false) then (s.tickRole index.toNat).settle s
    else s)

/-- WINDOW_EXPIRY: the part of a lease tick at a WAITING offer whose window remaining is 1 (R70, R116). -/
def execWindowExpiry (index : Byte) (s : State) : Outcome State Fault Refusal :=
  .next (
    if s.ticking && (s.roleAt index.toNat).any (fun r => match r.tenure with
      | .offered o => match o.phase with
        | .waiting window => window ≤ 1
        | _ => false
      | _ => false) then (s.tickRole index.toNat).settle s
    else s)

end Sys2Proof.Machine
end

