-- ==== Sys2Proof/Machine/Claims.lean ====
section
/-! DEFINITION. CLAIM and WITHDRAW (R83 to R101). -/

namespace Sys2Proof.Machine

open Host (Outcome)

/-- The answer GRANTED for the role at an index, formed after the grant (R73, R86). -/
def State.granted (s : State) (i : Nat) : Answer :=
  ⟨.granted, (s.roleAt i).elim [] (grantedBody (s.handleAt i))⟩

/-- The grant that a request calls for, with its answer GRANTED (R73). -/
def State.grantTo (s : State) (i : Nat) (src : Byte) : State × Answer :=
  ((s.grant i src).settle s, (s.grant i src).granted i)

/-- CLAIM of a tag that no live role carries (R56, R87). -/
def claimNewRole (t : Tag) (src : Byte) (s : State) : State × Answer :=
  match s.config.creation with
  | .closed => (s, ⟨.noSuchRole, []⟩)
  | .open =>
    match s.freeIndex with
    | some i =>
      let made := (s.create i t .transient s.config.defaultTerm).grant i src
      (made.settle s, made.granted i)
    | none => ((s.raise .capacity (.refusal .tableFull src)).drive, ⟨.tableFull, []⟩)

/-- CLAIM of a role that another holds or is offered: conditions 5 to 8 of R86. -/
def queueClaim (i : Nat) (r : Role) (rank : Nat) (src : Byte) (s : State) : State × Answer :=
  let h := s.handleAt i
  match positionOf src r.chain with
  | some p => (s, ⟨.queued, h.bytes ++ [byteOf p]⟩)
  | none =>
    if Config.chainMax ≤ r.chain.length then
      ((s.raise .capacity (.refusal .chainFull src)).drive, ⟨.chainFull, h.bytes⟩)
    else if Config.claimCount ≤ s.claimsInUse then
      ((s.raise .capacity (.refusal .poolFull src)).drive, ⟨.poolFull, h.bytes⟩)
    else
      let chain := insertClaim ⟨src, rank⟩ r.chain
      (s.putRole i { r with chain := chain },
        ⟨.queued, h.bytes ++ [byteOf ((positionOf src chain).getD 0)]⟩)

/-- CLAIM at the Claim Pool: the tests of R86 in order. -/
def claimOwner : Owner (Tag × Nat) := fun fields src s =>
  match s.roleOfTag fields.1 with
  | none => claimNewRole fields.1 src s
  | some i =>
    (s.roleAt i).elim (s, ⟨.noSuchRole, []⟩) (fun r =>
      match r.tenure with
      | .vacant => s.grantTo i src
      | .held a _ _ =>
        if a = src then (s.putRole i r.restored, ⟨.granted, grantedBody (s.handleAt i) r⟩)
        else queueClaim i r fields.2 src s
      | .offered o =>
        if o.offeree = src then s.grantTo i src else queueClaim i r fields.2 src s)

/-- CLAIM (R86). -/
def execClaim (src epoch : Byte) (body : List Byte) (s : State) : Outcome State Fault Refusal :=
  .next (s.request false claimBody claimOwner src epoch body)

/-- Whether a station is the offeree of a role (R96, R113, R115). -/
def Role.offeredTo (r : Role) (a : Byte) : Bool :=
  r.tenure.offer.any (fun o => o.offeree == a)

/-- WITHDRAW at the Claim Pool: the tests of R96 in order. -/
def withdrawOwner (r : Role) : Owner Handle := fun h src s =>
  if r.offeredTo src then ((s.skip h.index.toNat).settle s, ⟨.ok, []⟩)
  else if (positionOf src r.chain).isSome then
    (s.putRole h.index.toNat { r with chain := r.chain.filter (fun c => c.claimant != src) }, ⟨.ok, []⟩)
  else (s, ⟨.noClaim, []⟩)

/-- WITHDRAW (R96). -/
def execWithdraw (src epoch : Byte) (body : List Byte) (s : State) : Outcome State Fault Refusal :=
  .next (s.request false handleBody (byHandle withdrawOwner) src epoch body)

end Sys2Proof.Machine
end

