-- ==== Sys2Proof/Machine/Handover.lean ====
section
/-! DEFINITION. ACCEPT, DECLINE and FORCE HANDOVER (R102 to R122). -/

namespace Sys2Proof.Machine

open Host (Outcome)

/-- ACCEPT at the Handover Controller: the tests of R113 in order. -/
def acceptOwner (r : Role) : Owner Handle := fun h src s =>
  if r.offeredTo src then s.grantTo h.index.toNat src
  else (s, ⟨.notOffered, []⟩)

/-- ACCEPT (R113). -/
def execAccept (src epoch : Byte) (body : List Byte) (s : State) : Outcome State Fault Refusal :=
  .next (s.request false handleBody (byHandle acceptOwner) src epoch body)

/-- DECLINE at the Handover Controller: the tests of R115 in order. -/
def declineOwner (r : Role) : Owner Handle := fun h src s =>
  if r.offeredTo src then ((s.skip h.index.toNat).settle s, ⟨.ok, []⟩)
  else (s, ⟨.notOffered, []⟩)

/-- DECLINE (R115). -/
def execDecline (src epoch : Byte) (body : List Byte) (s : State) : Outcome State Fault Refusal :=
  .next (s.request false handleBody (byHandle declineOwner) src epoch body)

/-- FORCE HANDOVER's own tests and effect (R120). -/
def forceAction : Action Handle := fun h s =>
  if s.link = .offline then (s, .notPermitted, [])
  else
    match s.named h with
    | none => (s, .staleHandle, [])
    | some r =>
      match r.tenure with
      | .vacant => (s, .notPermitted, [])
      | .held _ _ _ =>
        if r.chain = [] then (s, .noStandby, [])
        else ((s.loseHolder h.index.toNat).settle s, .ok, [])
      | .offered _ => ((s.skip h.index.toNat).settle s, .ok, [])

/-- FORCE HANDOVER (R120). -/
def execForceHandover (seq : Byte) (operands : List Byte) (s : State) : Outcome State Fault Refusal :=
  .next (s.command .forceHandover handleBody forceAction seq operands)

end Sys2Proof.Machine
end

