-- ==== Sys2Proof/Machine/Outbound.lean ====
section
/-! DEFINITION. The events of the directory's own frames: the end of the wait, collisions, completions (R20, R142 to R148). -/

namespace Sys2Proof.Machine

open Host (Outcome)

/-- The frame that is ON LINE, with whether it carries the final form. -/
def State.frameOnLine (s : State) : Option (Frame × TrunkFrame × Bool) :=
  match s.frame with
  | some f =>
    match f.phase with
    | .onLine formed carriedFinal => some (f, formed, carriedFinal)
    | _ => none
  | none => none

/-- WAIT_END: the line has been idle without a break for `idle` character times, which is no less than the wait length of the SELECTED frame (R142, R143). So the receiver has observed the access gap (R2). -/
def execWaitEnd (idle : Nat) (s : State) : Outcome State Fault Refusal :=
  .next (s.powered (match s.frame with
    | some f =>
      if f.phase = .selected ∧ s.answer = .idle ∧ s.waitLength f ≤ idle then
        (({ s with receiver := .synchronised }).confirm f).drive
      else s
    | none => s))

/-- COLLISION: a read-back mismatch on a frame ON LINE (R146). -/
def execCollision (s : State) : Outcome State Fault Refusal :=
  .next (s.powered (match s.frameOnLine with
    | some (f, _, carriedFinal) =>
      let s := s.unsynchronise
      let n := f.collisions + 1
      if f.subject ≠ .restart ∧ Config.collisionLimit ≤ n then
        (s.completeFrame f carriedFinal .collisionLimit).settle s
      else
        ({ s with frame := some { f with
          phase := .selected, collisions := min n Config.collisionLimit } }).drive
    | none => s))

/-- RESTART_COMPLETES_CLEAN: the announcement is done and the link becomes ONLINE (R20, R69). -/
def execRestartCompletesClean (s : State) : Outcome State Fault Refusal :=
  .next (s.powered (match s.frameOnLine with
    | some (f, _, _) =>
      if f.subject = .restart then
        (({ s with frame := none, announced := true, link := .online,
                   clock := .running s.config.tickPeriod }).raise .online .none).settle s
      else s
    | none => s))

/-- AWAITING_ANSWER: an OFFER or NOTICE is sent clean, TDE is released and the slot opens (R145). -/
def execAwaitingAnswer (s : State) : Outcome State Fault Refusal :=
  .next (s.powered (match s.frameOnLine with
    | some (f, formed, carriedFinal) =>
      if f.subject = .restart then s
      else ({ s with frame := some { f with phase := .awaitingAnswer formed carriedFinal } }).drive
    | none => s))

/-- VALID_ANSWER: a valid answer in the slot, whatever its STATUS; its body is not read (R147, R148). One of more than 24 body bytes is malformed (R3). -/
def execValidAnswer (status : Byte) (body : List Byte) (s : State) : Outcome State Fault Refusal :=
  .next (s.powered (
    if Config.bodyMax < body.length then s.lineFault else s.closeSlot (.valid status)))

/-- EMPTY_SLOT: no start bit within 2 character times (R147, R148). -/
def execEmptySlot (s : State) : Outcome State Fault Refusal :=
  .next (s.powered (s.closeSlot .emptySlot))

/-- BAD_ANSWER: all kinds but a bad check leave the receiver unsynchronised (R2, R7, R147). -/
def execBadAnswer (kind : BadAnswer) (s : State) : Outcome State Fault Refusal :=
  .next (s.powered (match s.slot with
    | some _ =>
      match kind with
      | .badCheck => s.closeSlot .badAnswer
      | _ => (s.closeSlot .badAnswer).unsynchronise
    | none => s))

end Sys2Proof.Machine
end

