-- ==== Sys2Proof/Machine/Port.lean ====
section
/-! DEFINITION. The Management Port's own commands, the link commands and the resets (R18 to R24, R151 to R166). -/

namespace Sys2Proof.Machine

open Host (Outcome)

/-- NOP leaves everything as it is, the response buffer too; one with operands is refused by R152 (R153). -/
def execNop (seq : Byte) (operands : List Byte) (s : State) : Outcome State Fault Refusal :=
  .next (s.powered (
    if Command.lenLegal .nop operands.length then s else s.respond .badCommand seq []))

/-- READ STATUS, taken in every condition (R154, R157). -/
def execReadStatus (seq : Byte) (operands : List Byte) (s : State) : Outcome State Fault Refusal :=
  .next (s.powered (
    if Command.lenLegal .readStatus operands.length then s.respond .ok seq s.statusBytes
    else s.respond .badCommand seq []))

/-- READ ATTENTION: the selected records are returned and cleared in one event (R166). -/
def readAttentionAction : Action Byte := fun flags s =>
  (({ s with attention := s.attention.clearFlags flags }).drive, .ok, s.attention.selected flags)

/-- READ ATTENTION (R166). -/
def execReadAttention (seq : Byte) (operands : List Byte) (s : State) : Outcome State Fault Refusal :=
  .next (s.command .readAttention selectionOperand readAttentionAction seq operands)

/-- SET ATTENTION ENABLE: the new enables govern ATTN at once (R165). -/
def enableAction : Action Byte := fun flags s =>
  (({ s with enables := flags }).drive, .ok, [flags])

/-- SET ATTENTION ENABLE (R165). -/
def execSetAttentionEnable (seq : Byte) (operands : List Byte) (s : State) : Outcome State Fault Refusal :=
  .next (s.command .setAttentionEnable flagsOperand enableAction seq operands)

/-- A new configuration taken: a new rate unsynchronises the receiver (R1, R2), final watches below the floor are freed, and a raise of
the floor withdraws the SELECTED NOTICE of a watch below it (R129). -/
def State.configured (s : State) (c : Configuration) : State :=
  let t := { s with
    config := c
    receiver := if c.rate = s.config.rate then s.receiver else .unsynchronised }
  { t with watches := mapRows (fun o => o.filter (fun w =>
      w.final.isNone || t.rankReaches w.rank)) t.watches }.withdrawNotice
        (fun _ => s.config.noticeFloor < c.noticeFloor)

/-- CONFIGURE's own test and effect (R158). -/
def configureAction : Action Configuration := fun c s =>
  if s.link ≠ .offline ∧ (c.rate ≠ s.config.rate ∨ c.tickPeriod ≠ s.config.tickPeriod) then
    (s, .notPermitted, [])
  else ((s.configured c).settle s, .ok, c.bytes)

/-- CONFIGURE (R158). -/
def execConfigure (seq : Byte) (operands : List Byte) (s : State) : Outcome State Fault Refusal :=
  .next (s.command .configure configureOperands configureAction seq operands)

/-- An entry after the restart: TRANSIENT roles are freed, PINNED ones are VACANT at the next generation (R19). -/
def Entry.restarted (e : Entry) : Entry :=
  { e with role := e.role.bind (fun r =>
      match r.kind with
      | .transient => none
      | .pinned => some { r with tenure := .vacant, chain := [], generation := r.generation + 1 }) }

/-- The restart that a START performs, as one event (R19). -/
def State.restart (s : State) (epoch : Byte) : State :=
  { s with
    epoch := epoch
    stations := mapRows (fun _ => none) s.stations
    watches := mapRows (fun _ => none) s.watches
    roles := mapRows Entry.restarted s.roles
    frame := none
    answer := .idle
    announced := false
    link := .announcing
    clock := .stopped }

/-- The epoch after a START without an operand: 255 is followed by 1 (R18). -/
def nextEpoch (e : Byte) : Byte := if e = 255 then 1 else e + 1

/-- START's own test and effect (R18, R159). -/
def startAction : Action (Option Byte) := fun operand s =>
  if operand = some s.epoch then (s, .notPermitted, [])
  else
    let e := operand.getD (nextEpoch s.epoch)
    ((s.restart e).settle s, .ok, [e])

/-- START (R18, R19, R159). -/
def execStart (seq : Byte) (operands : List Byte) (s : State) : Outcome State Fault Refusal :=
  .next (s.command .start epochOperand startAction seq operands)

/-- STOP's effect; in OFFLINE it changes nothing (R23, R159). -/
def stopAction : Action Unit := fun _ s =>
  if s.link = .offline then (s, .ok, [])
  else (({ s.dropFrame with answer := .idle, link := .offline, clock := .stopped }).settle s, .ok, [])

/-- STOP (R23, R159). -/
def execStop (seq : Byte) (operands : List Byte) (s : State) : Outcome State Fault Refusal :=
  .next (s.command .stop noOperand stopAction seq operands)

/-- RESUME's own test and effect (R22, R159). -/
def resumeAction : Action Unit := fun _ s =>
  if s.link ≠ .silent then (s, .notPermitted, [])
  else if s.announced then
    (({ s with link := .online, clock := .running s.config.tickPeriod }).settle s, .ok, [LinkState.online.value])
  else (({ s with link := .announcing, clock := .stopped }).settle s, .ok, [LinkState.announcing.value])

/-- RESUME (R22, R159). -/
def execResume (seq : Byte) (operands : List Byte) (s : State) : Outcome State Fault Refusal :=
  .next (s.command .resume noOperand resumeAction seq operands)

/-- DIRECTORY RESET's effect: attention cleared, OFFLINE, and the reset clear begins; configuration, enables and epoch are kept (R24, R156). -/
def directoryResetAction : Action Unit := fun _ s =>
  (({ s.dropFrame with
      answer := .idle
      link := .offline
      clock := .stopped
      announced := false
      receiver := .unsynchronised
      attention := .clear
      clearing := some .directory }).drive, .ok, [])

/-- DIRECTORY RESET (R156). -/
def execDirectoryReset (seq : Byte) (operands : List Byte) (s : State) : Outcome State Fault Refusal :=
  .next (s.command .directoryReset noOperand directoryResetAction seq operands)

/-- BAD_COMMAND: a transaction that R152 refuses; its response replaces the buffer. -/
def execBadCommand (received : List Byte) (s : State) : Outcome State Fault Refusal :=
  .next (s.powered (match transactionRefusal received with
    | some status => s.respond status (echoedSequence received) []
    | none => s))

/-- RESET_INPUT_LOW: transmissions stop, ATTN and TDE are released, and nothing is received (R149, R155). -/
def execResetInputLow (s : State) : Outcome State Fault Refusal :=
  .next ({ s.dropFrame with answer := .idle, pins := { s.pins with resetLow := true } }).drive

/-- POWER_ON_RESET: the values of R155, and the reset clear begins (R24, R154). -/
def execPowerOnReset (s : State) : Outcome State Fault Refusal :=
  .next ({ s.dropFrame with
    link := .offline
    epoch := 0
    announced := false
    receiver := .unsynchronised
    answer := .idle
    clock := .stopped
    config := .powerOn
    enables := 0
    attention := .clear
    response := ⟨.resetNotice, 0, []⟩
    clearing := some .powerOn
    pins := { s.pins with resetLow := false } }).drive

/-- The tables at the completion of the reset clear: everything FREE, incarnations 0 after power-on and kept after a directory reset (R154). -/
def State.cleared (s : State) (kind : ResetKind) : State :=
  { s with
    stations := mapRows (fun _ => none) s.stations
    roles := mapRows (fun e => ⟨match kind with
      | .powerOn => 0
      | .directory => e.incarnation, none⟩) s.roles
    watches := mapRows (fun _ => none) s.watches
    clearing := none }

/-- RESET_CLEAR_COMPLETION: the tables are free and READY is set (R154). -/
def execResetClearCompletion (s : State) : Outcome State Fault Refusal :=
  .next (s.powered (match s.clearing with
    | some kind => s.cleared kind
    | none => s))

end Sys2Proof.Machine
end

