-- ==== Sys2Proof/Machine/Stations.lean ====
section
/-! DEFINITION. JOIN, LEAVE, EVICT STATION and READ STATION (R25 to R42, R163). -/

namespace Sys2Proof.Machine

open Host (Outcome)

/-- JOIN at the Station Registry: a rejoin, an allocation, or STATION FULL (R28 to R31). -/
def joinOwner : Owner Serial := fun serial src s =>
  match s.addressOf serial with
  | some a =>
    (((s.purge a).clearStrikes a).settle s, ⟨.ok, [a, s.epoch] ++ serialBytes serial⟩)
  | none =>
    match s.freeAddress with
    | some a => (s.setStation a (some ⟨serial, 0⟩), ⟨.ok, [a, s.epoch] ++ serialBytes serial⟩)
    | none =>
      ((s.raise .capacity (.refusal .stationFull src)).drive, ⟨.stationFull, serialBytes serial⟩)

/-- JOIN (R28). -/
def execJoin (src epoch : Byte) (body : List Byte) (s : State) : Outcome State Fault Refusal :=
  .next (s.request true serialBody joinOwner src epoch body)

/-- LEAVE at the Station Registry: the purge, then the entry is FREE (R33). -/
def leaveOwner : Owner Unit := fun _ src s =>
  ((s.removeStation src).settle s, ⟨.ok, []⟩)

/-- LEAVE (R33). -/
def execLeave (src epoch : Byte) (body : List Byte) (s : State) : Outcome State Fault Refusal :=
  .next (s.request false emptyBody leaveOwner src epoch body)

/-- EVICT STATION's own tests and effect (R42). -/
def evictAction : Action Byte := fun a s =>
  if s.link = .offline then (s, .notPermitted, [])
  else
    match s.station a with
    | none => (s, .notJoined, [])
    | some _ => ((s.removeStation a).settle s, .ok, [])

/-- EVICT STATION (R42). -/
def execEvictStation (seq : Byte) (operands : List Byte) (s : State) : Outcome State Fault Refusal :=
  .next (s.command .evictStation addressOperand evictAction seq operands)

/-- READ STATION (R27, R163). -/
def execReadStation (seq : Byte) (operands : List Byte) (s : State) : Outcome State Fault Refusal :=
  .next (s.command .readStation addressOperand (fun a s => (s, .ok, s.stationBytes a)) seq operands)

end Sys2Proof.Machine
end

