-- ==== Sys2Proof/Machine/Trunk.lean ====
section
/-! DEFINITION. The events of the line and of the Trunk Link's own answers (R1 to R14). -/

namespace Sys2Proof.Machine

open Host (Outcome)

/-- STATION_FRAME_HEARD: a good frame that is not taken clears the strikes of its SRC; a DEST of 64..255 makes it discarded (R8, R10). -/
def execStationFrameHeard (dest src : Byte) (s : State) : Outcome State Fault Refusal :=
  .next (if s.listening ∧ dest ≤ 63 then s.clearStrikes src else s)

/-- FOREIGN_FRAME: a good frame with SRC 0 (R11). -/
def execForeignFrame (dest : Byte) (s : State) : Outcome State Fault Refusal :=
  .next (if s.listening then s.hearForeign dest else s)

/-- BAD_CHARACTER: a stop bit at the space level (R1). -/
def execBadCharacter (s : State) : Outcome State Fault Refusal :=
  .next (s.powered s.lineFault)

/-- LINE_VIOLATION: a start bit inside the access gap begins no frame (R2). -/
def execLineViolation (s : State) : Outcome State Fault Refusal :=
  .next (s.powered (if s.lineTaken then s else s.unsynchronise))

/-- RECEIVER_SYNCHRONISED: the line has been idle for the access gap (R2). -/
def execReceiverSynchronised (s : State) : Outcome State Fault Refusal :=
  .next (s.powered (if s.lineTaken then s else { s with receiver := .synchronised }))

/-- TRUNCATED_FRAME: idle of more than 1 character time inside a frame or answer (R3). -/
def execTruncatedFrame (s : State) : Outcome State Fault Refusal :=
  .next (s.powered s.lineFault)

/-- MALFORMED_FRAME: a LEN character above 24 (R3). -/
def execMalformedFrame (s : State) : Outcome State Fault Refusal :=
  .next (s.powered s.lineFault)

/-- BAD_CHECK: a frame with a bad CHECK changes nothing; in the slot of the directory's own frame the answer is a bad answer (R7). -/
def execBadCheck (s : State) : Outcome State Fault Refusal :=
  .next (s.powered (s.closeSlot .badAnswer))

/-- ANSWER_BEGIN: one character time after the slot opened (R6). -/
def execAnswerBegin (s : State) : Outcome State Fault Refusal :=
  .next (s.powered (match s.answer with
    | .due a => ({ s with answer := .sending a }).drive
    | _ => s))

/-- ANSWER_PREEMPTED: a start bit before the answer is due; the request's effects stand (R6). -/
def execAnswerPreempted (s : State) : Outcome State Fault Refusal :=
  .next (s.powered (match s.answer with
    | .due _ => { s with answer := .idle }
    | _ => s))

/-- ANSWER_READBACK_MISMATCH: the answer is stopped and the receiver unsynchronised (R2, R6). -/
def execAnswerReadbackMismatch (s : State) : Outcome State Fault Refusal :=
  .next (s.powered (match s.answer with
    | .sending _ => ({ s with answer := .idle }).unsynchronise.drive
    | _ => s))

/-- ANSWER_END: the last CHECK character of the answer is sent (R5, R6). -/
def execAnswerEnd (s : State) : Outcome State Fault Refusal :=
  .next (s.powered (match s.answer with
    | .sending _ => ({ s with answer := .idle }).drive
    | _ => s))

/-- ILLEGAL_CODE: a taken frame whose CODE is no station request's, put to the gate (R14, R172). -/
def execIllegalCode (src code epoch : Byte) (body : List Byte) (s : State) : Outcome State Fault Refusal :=
  .next (if isRequestCode code then s
    else s.request false (fun _ => (none : Option Unit)) (fun _ _ s => (s, ⟨.badRequest, []⟩)) src epoch body)

end Sys2Proof.Machine
end

