-- ==== Sys2Proof/Machine/Watches.lean ====
section
/-! DEFINITION. WATCH, UNWATCH and READ WATCH (R123 to R127, R163). -/

namespace Sys2Proof.Machine

open Host (Outcome)

/-- The number of a station's record for a handle (R123, R125). -/
def State.watchOf (s : State) (src : Byte) (h : Handle) : Option Nat :=
  findRow (fun o => o.any (fun w => w.watcher == src && w.handle == h)) s.watches

/-- The body of OK to WATCH (R125, R169). -/
def watchBodyOk (n : Nat) (r : Role) : List Byte := byteOf n :: halfBytes r.generation

/-- WATCH at the Notice Unit: the tests of R125 in order. -/
def watchOwner : Owner (Handle × Nat) := fun fields src s =>
  match s.named fields.1 with
  | none => (s, ⟨.staleHandle, []⟩)
  | some r =>
    match s.watchOf src fields.1 with
    | some n =>
      ((((s.watches[n]?).join.elim s (fun w =>
          s.setWatch n (some { w with rank := fields.2, attempts := 0 }))).withdrawNotice (· == n)).settle s,
        ⟨.ok, watchBodyOk n r⟩)
    | none =>
      match findRow Option.isNone s.watches with
      | some n =>
        (s.setWatch n (some ⟨src, fields.1, fields.2, false, 0, none⟩), ⟨.ok, watchBodyOk n r⟩)
      | none =>
        ((s.raise .capacity (.refusal .watchFull src)).drive, ⟨.watchFull, fields.1.bytes⟩)

/-- WATCH (R125). -/
def execWatch (src epoch : Byte) (body : List Byte) (s : State) : Outcome State Fault Refusal :=
  .next (s.request false watchBody watchOwner src epoch body)

/-- UNWATCH at the Notice Unit: the tests of R127 in order. -/
def unwatchOwner (_ : Role) : Owner Handle := fun h src s =>
  match s.watchOf src h with
  | some n => ((s.setWatch n none).settle s, ⟨.ok, []⟩)
  | none => (s, ⟨.notWatching, []⟩)

/-- UNWATCH (R127). -/
def execUnwatch (src epoch : Byte) (body : List Byte) (s : State) : Outcome State Fault Refusal :=
  .next (s.request false handleBody (byHandle unwatchOwner) src epoch body)

/-- READ WATCH (R163). -/
def execReadWatch (seq : Byte) (operands : List Byte) (s : State) : Outcome State Fault Refusal :=
  .next (s.command .readWatch watchNumberOperand (fun n s =>
    (s, .ok, watchBytes n (s.watches[n.toNat]?).join)) seq operands)

end Sys2Proof.Machine
end

