-- ==== Sys2Proof/Machine/Dispatch.lean ====
section
/-! DEFINITION. One arm per row of spec/opcode_table.json, each a call of its meaning. -/

namespace Sys2Proof.Machine

def exec (i : Instr) (s : State) : Host.Outcome State Fault Refusal :=
  match i with
  | .join src epoch body => Sys2Proof.Machine.execJoin src epoch body s
  | .leave src epoch body => Sys2Proof.Machine.execLeave src epoch body s
  | .find src epoch body => Sys2Proof.Machine.execFind src epoch body s
  | .lookup src epoch body => Sys2Proof.Machine.execLookup src epoch body s
  | .claim src epoch body => Sys2Proof.Machine.execClaim src epoch body s
  | .renew src epoch body => Sys2Proof.Machine.execRenew src epoch body s
  | .release src epoch body => Sys2Proof.Machine.execRelease src epoch body s
  | .change src epoch body => Sys2Proof.Machine.execChange src epoch body s
  | .retire src epoch body => Sys2Proof.Machine.execRetire src epoch body s
  | .withdraw src epoch body => Sys2Proof.Machine.execWithdraw src epoch body s
  | .accept src epoch body => Sys2Proof.Machine.execAccept src epoch body s
  | .decline src epoch body => Sys2Proof.Machine.execDecline src epoch body s
  | .watch src epoch body => Sys2Proof.Machine.execWatch src epoch body s
  | .unwatch src epoch body => Sys2Proof.Machine.execUnwatch src epoch body s
  | .stationFrameHeard dest src => Sys2Proof.Machine.execStationFrameHeard dest src s
  | .foreignFrame dest => Sys2Proof.Machine.execForeignFrame dest s
  | .badCharacter => Sys2Proof.Machine.execBadCharacter s
  | .lineViolation => Sys2Proof.Machine.execLineViolation s
  | .receiverSynchronised => Sys2Proof.Machine.execReceiverSynchronised s
  | .truncatedFrame => Sys2Proof.Machine.execTruncatedFrame s
  | .malformedFrame => Sys2Proof.Machine.execMalformedFrame s
  | .badCheck => Sys2Proof.Machine.execBadCheck s
  | .answerBegin => Sys2Proof.Machine.execAnswerBegin s
  | .answerPreempted => Sys2Proof.Machine.execAnswerPreempted s
  | .answerReadbackMismatch => Sys2Proof.Machine.execAnswerReadbackMismatch s
  | .answerEnd => Sys2Proof.Machine.execAnswerEnd s
  | .waitEnd idle => Sys2Proof.Machine.execWaitEnd idle s
  | .collision => Sys2Proof.Machine.execCollision s
  | .restartCompletesClean => Sys2Proof.Machine.execRestartCompletesClean s
  | .awaitingAnswer => Sys2Proof.Machine.execAwaitingAnswer s
  | .validAnswer status body => Sys2Proof.Machine.execValidAnswer status body s
  | .emptySlot => Sys2Proof.Machine.execEmptySlot s
  | .badAnswer kind => Sys2Proof.Machine.execBadAnswer kind s
  | .leaseTick => Sys2Proof.Machine.execLeaseTick s
  | .lapse index => Sys2Proof.Machine.execLapse index s
  | .windowExpiry index => Sys2Proof.Machine.execWindowExpiry index s
  | .nop seq operands => Sys2Proof.Machine.execNop seq operands s
  | .readStatus seq operands => Sys2Proof.Machine.execReadStatus seq operands s
  | .readAttention seq operands => Sys2Proof.Machine.execReadAttention seq operands s
  | .setAttentionEnable seq operands => Sys2Proof.Machine.execSetAttentionEnable seq operands s
  | .configure seq operands => Sys2Proof.Machine.execConfigure seq operands s
  | .start seq operands => Sys2Proof.Machine.execStart seq operands s
  | .stop seq operands => Sys2Proof.Machine.execStop seq operands s
  | .resume seq operands => Sys2Proof.Machine.execResume seq operands s
  | .directoryReset seq operands => Sys2Proof.Machine.execDirectoryReset seq operands s
  | .defineRole seq operands => Sys2Proof.Machine.execDefineRole seq operands s
  | .retireRole seq operands => Sys2Proof.Machine.execRetireRole seq operands s
  | .setTerm seq operands => Sys2Proof.Machine.execSetTerm seq operands s
  | .forceHandover seq operands => Sys2Proof.Machine.execForceHandover seq operands s
  | .evictStation seq operands => Sys2Proof.Machine.execEvictStation seq operands s
  | .readRole seq operands => Sys2Proof.Machine.execReadRole seq operands s
  | .readStation seq operands => Sys2Proof.Machine.execReadStation seq operands s
  | .readWatch seq operands => Sys2Proof.Machine.execReadWatch seq operands s
  | .resetInputLow => Sys2Proof.Machine.execResetInputLow s
  | .powerOnReset => Sys2Proof.Machine.execPowerOnReset s
  | .resetClearCompletion => Sys2Proof.Machine.execResetClearCompletion s
  | .illegalCode src code epoch body => Sys2Proof.Machine.execIllegalCode src code epoch body s
  | .badCommand received => Sys2Proof.Machine.execBadCommand received s

end Sys2Proof.Machine
end

