-- ==== Sys2Proof/Machine/Step.lean ====
section
/-! DEFINITION. One step: the command at the front of the queue is taken and run. -/

namespace Sys2Proof.Machine

/-- The state with another queue. -/
def State.withQueue (s : State) (queue : List Instr) : State := { s with pending := queue }

/-- One step: the command at the front of the queue runs with the queue's rest; on an empty queue the part idles. -/
def step (s : State) : Host.Outcome State Fault Refusal :=
  match s.pending with
  | [] => .next s
  | c :: rest => exec c (s.withQueue rest)

/-- The state with the command that a word of the opcode table spells at the front of its queue; the table gives its rows no bits, so no word spells one. -/
def State.withFetchWord (s : State) (nbits w : Nat) : State :=
  match Sys2Proof.decodeTableWord nbits w with
  | some c => s.withQueue (c :: s.pending)
  | none => s

end Sys2Proof.Machine
end

