-- ==== Sys2Proof/Safety.lean ====
section
/-! DEFINITION. What a lawful state of the part is: the laws that the manual states of its records, as tests on one state.
Every step keeps each law (Certificates/Slice0/Obligations.lean states so).
The last part holds the words of the statements: what the manual's rules make of a role, of a request and of a delivery, written from the rules and not from the meanings. -/

namespace Sys2Proof.Safety

open Sys2Proof.Machine

/-! ### Roles, chains, leases and offers (R43, R44, R72, R84, R104) -/

/-- What a state of a role asks of the record that carries it. -/
def tenureSound (r : Role) : Bool :=
  match r.tenure with
  | .vacant => r.kind == .pinned && r.chain.isEmpty
  | .held a lease attr =>
    decide (1 ≤ lease) && decide (lease ≤ r.term) && decide (attr.length ≤ 8)
      && r.chain.all (fun c => c.claimant != a)
  | .offered o =>
    decide (1 ≤ o.rank) && decide (o.rank ≤ 7) && o.number == r.offerNumber && decide (o.attempts ≤ 2)
      && r.chain.all (fun c => c.claimant != o.offeree)
      && (match o.phase with
        | .waiting window => decide (1 ≤ window) && decide (window ≤ 255)
        | _ => true)

/-- A chain of at most six claims of ranks 1..7, highest rank first, no claimant twice (R83, R84). -/
def chainSound (chain : List Claim) : Bool :=
  decide (chain.length ≤ Config.chainMax)
    && chain.all (fun c => decide (1 ≤ c.rank) && decide (c.rank ≤ 7))
    && decide (chain.Pairwise (fun c d => d.rank ≤ c.rank))
    && decide ((chain.map Claim.claimant).Nodup)

/-- The law of a live role's record. -/
def roleSound (r : Role) : Bool :=
  r.tag.legal && decide (1 ≤ r.term) && decide (r.term ≤ Config.termMax)
    && chainSound r.chain && tenureSound r

/-- The law of a role-table entry: a live one has an incarnation of 1..255 (R49). -/
def entrySound (e : Entry) : Bool :=
  match e.role with
  | none => true
  | some r => e.incarnation != 0 && roleSound r

/-- The configuration values within their ranges (R158). -/
def configSound (c : Configuration) : Bool :=
  decide (1 ≤ c.tickPeriod) && decide (c.tickPeriod ≤ 200)
    && decide (1 ≤ c.defaultTerm) && decide (c.defaultTerm ≤ Config.termMax)
    && decide (1 ≤ c.offerWindow) && decide (c.offerWindow ≤ 255)
    && decide (c.noticeFloor ≤ 7) && decide (c.spacing ≤ 255)

/-- Every entry of the role table keeps its law, and the configuration its ranges. -/
def rolesLawful (s : State) : Bool := configSound s.config && s.roles.toList.all entrySound

/-- No two live roles carry the same tag (R46). -/
def tagsDistinct (s : State) : Bool :=
  decide ((s.roles.toList.filterMap (fun e => e.role.map Role.tag)).Nodup)

/-- The chains hold no more claims than the pool has records (R83). -/
def poolLawful (s : State) : Bool := decide (s.claimsInUse ≤ Config.claimCount)

/-! ### Stations (R25, R29, R36, R40) -/

/-- Serials other than 0, none JOINED twice, and strikes of 0..2. -/
def registryLawful (s : State) : Bool :=
  s.stations.toList.all (fun e => e.all (fun st => st.serial != 0 && decide (st.strikes ≤ 2)))
    && decide ((s.stations.toList.filterMap (Option.map Station.serial)).Nodup)

/-- Whether an address is JOINED. -/
def joined (s : State) (a : Byte) : Bool := (s.station a).isSome

/-- Whether an entry names an address as holder, offeree or claimant. -/
def entryNames (e : Entry) (a : Byte) : Bool :=
  e.role.any (fun r =>
    r.chain.any (fun c => c.claimant == a) ||
    (match r.tenure with
      | .held h _ _ => h == a
      | .offered o => o.offeree == a
      | .vacant => false))

/-- Whether any table names an address as holder, offeree, claimant or watcher (R40). -/
def names (s : State) (a : Byte) : Bool :=
  s.roles.toList.any (fun e => entryNames e a)
    || s.watches.toList.any (fun o => o.any (fun w => w.watcher == a))

/-- The tables name JOINED addresses only (R40). -/
abbrev membersJoined (s : State) : Prop := ∀ a : Byte, names s a = true → joined s a = true

/-! ### Watches (R123) -/

/-- Ranks of 0..7 and attempts of 0..2, one record for a pair of watcher and handle, and every watch that is not final names a live role. -/
def watchesLawful (s : State) : Bool :=
  s.watches.toList.all (fun o => o.all (fun w =>
    decide (w.rank ≤ 7) && decide (w.attempts ≤ 2) && (w.final.isSome || (s.named w.handle).isSome)))
    && decide ((s.watches.toList.filterMap (Option.map (fun w => (w.watcher, w.handle)))).Nodup)

/-! ### Link, clock, frame record (R16, R18, R69, R139) -/

/-- Nothing of the directory's own is under way on the line or waiting for it. -/
def quiet (s : State) : Bool := s.frame.isNone && s.answer == .idle

/-- What each link state asks of the mark, the epoch, the Lease Clock and the frame record. -/
def linkLawful (s : State) : Bool :=
  (match s.link with
    | .offline => s.clock == .stopped && quiet s
    | .silent => s.clock == .frozen && quiet s && s.epoch != 0
    | .announcing =>
      s.clock == .stopped && !s.announced && s.epoch != 0
        && s.frame.all (fun f => f.subject == .restart)
    | .online =>
      (match s.clock with
        | .running _ => true
        | _ => false) && s.announced && s.epoch != 0
        && s.frame.all (fun f => f.subject != .restart))
    && (s.clearing.isNone || (s.link == .offline && !s.announced))
    && (!s.pins.resetLow || quiet s)
    && (s.answer == .idle || s.frame.all (fun f => f.phase == .selected))

/-- A frame record as R139 allows it: a collision count of 0..8, and a frame that is not SELECTED has begun. -/
def frameSound (f : Frame) : Bool :=
  decide (f.collisions ≤ Config.collisionLimit) && (f.begun || f.phase == .selected)

/-- Whether the frame record keeps its law. -/
def frameLawful (s : State) : Bool := s.frame.all frameSound

/-- Before the first announcement of a session no role is HELD or OFFERED (R16, R69). -/
def unannouncedVacant (s : State) : Bool :=
  s.announced || s.link == .offline ||
    s.roles.toList.all (fun e => e.role.all (fun r => r.tenure == .vacant))

/-- The offer of the role at an index that is IN FLIGHT, with the subject its frame has. -/
def inFlightAt (s : State) (i : Nat) : Option (Subject × Byte) :=
  (s.roleAt i).bind (fun r => match r.tenure with
    | .offered o => if o.phase = .inFlight then some (.offer (s.handleAt i) o.number, o.offeree) else none
    | _ => none)

/-- An offer is IN FLIGHT only while the frame record holds its frame, addressed to its offeree, which is not a purged target (R41, R108). -/
def flightLawful (s : State) : Bool :=
  (List.range Config.roleCount).all (fun i =>
    match inFlightAt s i with
    | none => true
    | some (subject, offeree) => s.frame.any (fun f => f.subject == subject && f.dest == offeree && !f.purgedTarget))

/-! ### Attention and pins (R155, R164, R165) -/

/-- Counts of 1..255 in the pending records, and no enable of a cause that does not exist. -/
def attentionLawful (s : State) : Bool :=
  Cause.all.all (fun c => (s.attention.get c).all (fun r =>
    decide (1 ≤ r.count) && decide (r.count ≤ Config.attentionMax)))
    && s.enables &&& 0xC0 == 0

/-- ATTN is asserted exactly while an enabled cause is pending, and TDE exactly while the directory drives the line; both are released while RESET is low. -/
def pinsLawful (s : State) : Bool :=
  s.pins.attn == (!s.pins.resetLow && s.attention.asserted s.enables)
    && s.pins.tde == (!s.pins.resetLow && s.drivesLine)

/-- The response buffer holds at most 96 bytes of data (R153). -/
def responseLawful (s : State) : Bool := decide (s.response.data.length ≤ 96)

/-! ### Words of the statements: requests (R12 to R15, R169) -/

/-- A request that R12 passes to its owning block when its CODE and body are legal: it is heard (R2, R9) in ONLINE from a JOINED address with the current epoch. -/
abbrev admits (s : State) (src epoch : Byte) : Prop :=
  s.listening = true ∧ s.link = .online ∧ isStation src = true ∧ epoch = s.epoch ∧ joined s src = true

/-- The state with an answer due (R6, R15). -/
def withAnswer (s : State) (status : Status) (body : List Byte) : State :=
  { s with answer := .due ⟨status, body⟩ }

/-- The frame that a row puts to the gate: its request where the CODE is one, its SRC, its EPOCH and its body. -/
def gateFrame (i : Instr) : Option (Option Request × Byte × Byte × List Byte) :=
  match i with
  | .illegalCode src code epoch body => if isRequestCode code then none else some (none, src, epoch, body)
  | _ => i.asRequest.map (fun r => (some r.1, r.2))

/-- Whether LEN and BODY are legal for a request (R14, R169). -/
def bodyLegal (r : Request) (body : List Byte) : Bool :=
  match r with
  | .join => (serialBody body).isSome
  | .leave => body.isEmpty
  | .find => (tagOf body).isSome
  | .claim => (claimBody body).isSome
  | .change => (changeBody body).isSome
  | .watch => (watchBody body).isSome
  | _ => (handleBody body).isSome

/-- What R12 and R13 make of a request before its owning block: none where it passes, `some none` where it is not answered. -/
def gateAnswer (s : State) (r : Option Request) (src epoch : Byte) (body : List Byte) : Option (Option Answer) :=
  if s.link = .offline ∨ s.link = .silent then some none
  else if (57#8 ≤ src ∧ src ≤ 61#8) ∨ 63#8 ≤ src then some none
  else if s.link = .announcing then some (some ⟨.notReady, []⟩)
  else if r = some .join then
    if bodyLegal .join body then none else some (some ⟨.badRequest, []⟩)
  else if epoch ≠ s.epoch then some (some ⟨.staleEpoch, [s.epoch]⟩)
  else if src = 62#8 ∨ joined s src = false then some (some ⟨.notJoined, []⟩)
  else
    match r with
    | none => some (some ⟨.badRequest, []⟩)
    | some r => if bodyLegal r body then none else some (some ⟨.badRequest, []⟩)

/-! ### Words of the statements: roles (R44, R52, R53) -/

/-- Whether a role is HELD by an address. -/
def heldBy (r : Role) (a : Byte) : Bool :=
  match r.tenure with
  | .held holder _ _ => holder == a
  | _ => false

/-- Whether a role is OFFERED to an address. -/
def offeredTo (r : Role) (a : Byte) : Bool :=
  match r.tenure with
  | .offered o => o.offeree == a
  | _ => false

/-- The one live role that carries a tag, with its index (R46). -/
abbrev carries (s : State) (i : Nat) (t : Tag) (r : Role) : Prop :=
  s.roleAt i = some r ∧ r.tag = t ∧ ∀ j r', s.roleAt j = some r' → r'.tag = t → j = i

/-- No live role carries the tag. -/
abbrev uncarried (s : State) (t : Tag) : Prop := ∀ j r, s.roleAt j = some r → r.tag ≠ t

/-- A role offered to the head of its chain at the generation `g` (R98, R105); none where the chain is empty. -/
def offerToHead (r : Role) (g : Half) : Option Role :=
  match r.chain with
  | c :: rest => some { r with
      tenure := .offered ⟨c.claimant, c.rank, r.offerNumber + 1, .pendingSend, 0⟩
      offerNumber := r.offerNumber + 1
      generation := g
      chain := rest }
  | [] => none

/-- What the loss of the holder makes of a role (R74, R102, R103); none where it is retired. -/
def roleAfterLoss (r : Role) : Option Role :=
  match offerToHead r (r.generation + 1), r.kind with
  | some r', _ => some r'
  | none, .pinned => some { r with tenure := .vacant, generation := r.generation + 1 }
  | none, .transient => none

/-- What a skip makes of a role (R117, R103); none where it is retired. -/
def roleAfterSkip (r : Role) : Option Role :=
  match offerToHead r r.generation, r.kind with
  | some r', _ => some r'
  | none, .pinned => some { r with tenure := .vacant, generation := r.generation + 1 }
  | none, .transient => none

/-- What the purge of a station makes of a role (R39, R99, R119). -/
def roleAfterPurge (a : Byte) (r : Role) : Option Role :=
  let kept := { r with chain := r.chain.filter (fun c => c.claimant != a) }
  if heldBy r a then roleAfterLoss kept
  else if offeredTo r a then roleAfterSkip kept
  else some kept

/-- Whether a lease tick lapses a role (R70). -/
def lapses (r : Role) : Bool :=
  match r.tenure with
  | .held _ lease _ => decide (lease ≤ 1)
  | _ => false

/-- Whether a lease tick expires the window of a role's offer (R70). -/
def expires (r : Role) : Bool :=
  match r.tenure with
  | .offered o => (match o.phase with
    | .waiting window => decide (window ≤ 1)
    | _ => false)
  | _ => false

/-- What a lease tick makes of a role: the table of R70. -/
def roleAfterTick (r : Role) : Option Role :=
  match r.tenure with
  | .held a lease attr =>
    if 2 ≤ lease then some { r with tenure := .held a (lease - 1) attr } else roleAfterLoss r
  | .offered o =>
    match o.phase with
    | .waiting window =>
      if 2 ≤ window then some { r with tenure := .offered { o with phase := .waiting (window - 1) } }
      else roleAfterSkip r
    | _ => some r
  | .vacant => some r

/-- What the restart makes of a role (R19). -/
def roleAfterRestart (r : Role) : Option Role :=
  match r.kind with
  | .transient => none
  | .pinned => some { r with tenure := .vacant, chain := [], generation := r.generation + 1 }

/-- The watch record in use at a number. -/
def watchAt (s : State) (n : Nat) : Option Watch := (s.watches[n]?).join

/-- The incarnation of the entry at an index. -/
def incarnationAt (s : State) (i : Nat) : Option Byte := (s.roles[i]?).map Entry.incarnation

/-! ### Words of the statements: events at one role (R57, R73, R74, R117, R111) -/

/-- A retirement: the watches take the final generation, and the entry becomes FREE (R57, R134). -/
def afterRetirement (s : State) (h : Handle) (final : Half) : State :=
  (s.finalWatches h final).freeEntry h.index.toNat

/-- A grant: the holder with a full lease at the next generation, and the watches marked (R73). -/
def afterGrant (s : State) (h : Handle) (r : Role) (a : Byte) : State :=
  (s.putRole h.index.toNat { r with tenure := .held a r.term [], generation := r.generation + 1 }).markPending h

/-- VACANCY where the role was left with no one (R103). -/
def noteVacancy (s : State) (h : Handle) (r : Role) : State :=
  if r.tenure = .vacant then s.raise .vacancy (.role h) else s

/-- The loss of the holder with its handover: the watches are marked (R74), or final at a retirement, whose generation is the second increase (R102). -/
def afterLoss (s : State) (h : Handle) (r : Role) : State :=
  match roleAfterLoss r with
  | some r' => noteVacancy ((s.putRole h.index.toNat r').markPending h) h r'
  | none => afterRetirement s h (r.generation + 1 + 1)

/-- A skip: the watches are marked only where the role is left VACANT (R117, R53). -/
def afterSkip (s : State) (h : Handle) (r : Role) : State :=
  match roleAfterSkip r with
  | some r' =>
    if r'.tenure = .vacant then ((s.putRole h.index.toNat r').markPending h).raise .vacancy (.role h)
    else s.putRole h.index.toNat r'
  | none => afterRetirement s h (r.generation + 1)

/-- A failed attempt: the table of R111. -/
def afterFailure (s : State) (h : Handle) (r : Role) (o : Offer) : State :=
  if o.attempts ≤ 1 then
    s.putRole h.index.toNat
      { r with tenure := .offered { o with attempts := o.attempts + 1, phase := .pendingSend } }
  else afterSkip s h r

/-- The outcome of a valid answer to a current offer (R110). -/
def afterOfferAnswer (s : State) (h : Handle) (r : Role) (o : Offer) (status : Byte) : State :=
  if status = 0x80 then afterGrant s h r o.offeree
  else if status = 0x81 then afterSkip s h r
  else if status = 0x82 then
    s.putRole h.index.toNat { r with tenure := .offered { o with phase := .waiting s.config.offerWindow } }
  else afterFailure s h r o

/-- A failed delivery of a NOTICE at its watch: the tables of R132, R133 and R135. -/
def watchAfterFailure (w : Watch) : Option Watch :=
  if w.attempts ≤ 1 then some { w with isPending := true, attempts := w.attempts + 1 }
  else if w.final.isSome then none
  else some { w with isPending := true, rank := 0, attempts := 0 }

/-- The outcome of a valid answer at the watch of a NOTICE (R132, R135). -/
def watchAfterAnswer (w : Watch) (carriedFinal : Bool) (status : Byte) : Option Watch :=
  if status = 0x83 then
    if w.final.isSome && carriedFinal then none else some { w with attempts := 0 }
  else watchAfterFailure w

/-- One more strike at a JOINED address (R34, R35). -/
def withStrike (s : State) (a : Byte) : State :=
  match s.station a with
  | some st => s.setStation a (some { st with strikes := st.strikes + 1 })
  | none => s

/-- A failed delivery at the owner of the frame's subject: a failed attempt of a current offer (R111), a failed delivery of a NOTICE (R132, R133, R135), or nothing where the subject is gone (R106, R132). -/
def afterFailedDelivery (s : State) (subject : Subject) : State :=
  match subject with
  | .restart => s
  | .offer h number =>
    match s.currentOffer h number with
    | some (r, o) => afterFailure s h r o
    | none => s
  | .watch n watcher h =>
    match s.watchNamed n watcher h with
    | some w => s.setWatch n (watchAfterFailure w)
    | none => s

/-! ### Words of the statements: watches under an event at their role (R128, R134) -/

/-- A watch after a generation increase of its role. -/
def marked (w : Watch) : Watch := if w.final = none then { w with isPending := true } else w

/-- A watch after the retirement of its role at the final generation `g`. -/
def finalled (s : State) (g : Half) (w : Watch) : Option Watch :=
  if 1 ≤ w.rank ∧ s.config.noticeFloor ≤ w.rank then some { w with final := some g, isPending := true } else none

/-- A watch after its role lost its holder (R74, R102). -/
def watchAfterLoss (s : State) (r : Role) (w : Watch) : Option Watch :=
  match roleAfterLoss r with
  | some _ => some (marked w)
  | none => finalled s (r.generation + 1 + 1) w

/-- A watch after its role's offer was skipped (R117). -/
def watchAfterSkip (s : State) (r : Role) (w : Watch) : Option Watch :=
  match roleAfterSkip r with
  | some r' => if r'.tenure = .vacant then some (marked w) else some w
  | none => finalled s (r.generation + 1) w

/-- A watch after a lease tick (R70). -/
def watchAfterTick (s : State) (w : Watch) : Option Watch :=
  match s.named w.handle with
  | some r => if lapses r then watchAfterLoss s r w else if expires r then watchAfterSkip s r w else some w
  | none => some w

/-- A watch after the purge of a station (R39, R136). -/
def watchAfterPurge (s : State) (a : Byte) (w : Watch) : Option Watch :=
  if w.watcher = a then none
  else
    match s.named w.handle with
    | some r =>
      let kept := { r with chain := r.chain.filter (fun c => c.claimant != a) }
      if heldBy r a then watchAfterLoss s kept w else if offeredTo r a then watchAfterSkip s kept w else some w
    | none => some w

/-! ### Words of the statements: the purge (R39 to R41, R164) -/

/-- The frame record after the purge of its destination: a SELECTED frame is withdrawn, a begun one marked (R41). -/
def frameAfterPurge (a : Byte) (f : Frame) : Option Frame :=
  if f.subject ≠ .restart ∧ f.dest = a then
    if f.phase = .selected then none else some { f with purgedTarget := true }
  else some f

/-- A cause after one raise for each role of a list, lowest index first: the count goes up by their number, and the last subject is that of the highest index (R164). -/
def raisedForRoles (s : State) (before : Option AttentionRecord) (indices : List Nat) : Option AttentionRecord :=
  match indices.getLast? with
  | none => before
  | some j => some ⟨min ((before.map AttentionRecord.count).getD 0 + indices.length) 255, .role (s.handleAt j)⟩

/-- The roles that the purge of a station leaves VACANT. -/
def vacatedByPurge (s : State) (a : Byte) : List Nat :=
  (List.range 96).filter (fun i => (s.roleAt i).any (fun r =>
    (heldBy r a || offeredTo r a) && (roleAfterPurge a r).any (fun r' => r'.tenure == .vacant)))

/-- The roles whose leases a tick lapses. -/
def lapsedByTick (s : State) : List Nat := (List.range 96).filter (fun i => (s.roleAt i).any lapses)

/-- The roles that a tick leaves VACANT. -/
def vacatedByTick (s : State) : List Nat :=
  (List.range 96).filter (fun i => (s.roleAt i).any (fun r =>
    (lapses r || expires r) && (roleAfterTick r).any (fun r' => r'.tenure == .vacant)))

/-- `u` is `s` after the purge of the station address `a`: the whole of R39, with every other field as it was. -/
abbrev purged (s u : State) (a : Byte) : Prop :=
  u = { s with roles := u.roles, watches := u.watches, frame := u.frame, attention := u.attention }
    ∧ (∀ i, u.roleAt i = (s.roleAt i).bind (roleAfterPurge a))
    ∧ (∀ i, incarnationAt u i = incarnationAt s i)
    ∧ (∀ n : Nat, watchAt u n = (watchAt s n).bind (watchAfterPurge s a))
    ∧ u.frame = s.frame.bind (frameAfterPurge a)
    ∧ u.attention = { s.attention with vacancy := raisedForRoles s s.attention.vacancy (vacatedByPurge s a) }
    ∧ names u a = false

/-! ### Words of the statements: what is sent of the records (R60, R162, R164, R171) -/

/-- A run of bytes filled up with 00h (R167). -/
abbrev filledTo (n : Nat) (bytes : List Byte) : List Byte := bytes ++ List.replicate (n - bytes.length) 0

/-- What a role's state shows: its byte, the holder or 0, the lease remaining or 0, and the attribute (R60, R162, R167). -/
def stateFields (t : Tenure) : Byte × Byte × Nat × List Byte :=
  match t with
  | .vacant => (0x01, 0, 0, [])
  | .held a lease attr => (0x02, a, lease, attr)
  | .offered _ => (0x03, 0, 0, [])

/-- The byte of a kind (R167). -/
def kindByte (k : Kind) : Byte := if k = .pinned then 0x02 else 0x01

/-- The role view: handle, tag, kind, state, holder, generation, chain length, attribute (R60, R169). -/
def viewOf (h : Handle) (r : Role) : List Byte :=
  let fields := stateFields r.tenure
  [h.index, h.incarnation] ++ filledTo 8 r.tag ++ [kindByte r.kind, fields.1, fields.2.1] ++ halfBytes r.generation
    ++ [byteOf r.chain.length] ++ fields.2.2.2

/-- The offer fields of a role record: offeree, rank, offer number, phase, attempts, window remaining; zeros where there is none (R162, R171). -/
def offerFields (t : Tenure) : List Byte :=
  match t with
  | .offered o =>
    [o.offeree, byteOf o.rank, o.number] ++
      (match o.phase with
        | .pendingSend => [0x01, byteOf o.attempts, 0]
        | .inFlight => [0x02, byteOf o.attempts, 0]
        | .waiting window => [0x03, byteOf o.attempts, byteOf window])
  | _ => List.replicate 6 0

/-- The role record of an index: three bytes of a FREE entry, 48 of a live one (R162, R171). -/
def roleRecord (index : Byte) (e : Entry) : List Byte :=
  match e.role with
  | none => [index, e.incarnation, 0]
  | some r =>
    let fields := stateFields r.tenure
    [index, e.incarnation, fields.1] ++ filledTo 8 r.tag ++ [kindByte r.kind, fields.2.1] ++ termBytes r.term
      ++ termBytes fields.2.2.1 ++ halfBytes r.generation ++ [r.offerNumber, byteOf fields.2.2.2.length]
      ++ filledTo 8 fields.2.2.2 ++ [byteOf r.chain.length]
      ++ filledTo 12 ((r.chain.map (fun c => [c.claimant, byteOf c.rank])).flatten) ++ offerFields r.tenure

/-- An attention record: pending, count, and three subject bytes; five zeros where it is clear (R164, R166, R171). -/
def attentionRecord (r : Option AttentionRecord) : List Byte :=
  match r with
  | none => [0, 0, 0, 0, 0]
  | some ⟨count, .none⟩ => [1, byteOf count, 0, 0, 0]
  | some ⟨count, .role h⟩ => [1, byteOf count, h.index, h.incarnation, 0]
  | some ⟨count, .refusal status a⟩ => [1, byteOf count, status.value, a, 0]
  | some ⟨count, .station a⟩ => [1, byteOf count, a, 0, 0]

/-! ### Words of the statements: candidates and subjects (R107, R129, R130, R141, R143) -/

/-- The receiver takes what arrives: RESET is high, no reset clear runs, it has observed the access gap, and the directory neither owes nor sends an answer nor has a frame of its own on the line or its slot open (R2, R9, R154, R155). -/
abbrev hears (s : State) : Prop :=
  s.pins.resetLow = false ∧ s.clearing = none ∧ s.receiver = .synchronised ∧ s.answer = .idle ∧
    ∀ f, s.frame = some f → f.phase = .selected

/-- The Lease Clock produces ticks: the link is ONLINE with the clock running, no reset clear runs and RESET is high (R69, R154, R155). -/
abbrev clockRuns (s : State) : Prop :=
  s.pins.resetLow = false ∧ s.clearing = none ∧ s.link = .online ∧ ∃ period, s.clock = .running period

/-- The role at an index is OFFERED with its offer in PENDING SEND: an OFFER candidate (R107). -/
abbrev offerWaits (s : State) (j : Nat) : Prop :=
  ∃ r o, s.roleAt j = some r ∧ r.tenure = .offered o ∧ o.phase = .pendingSend

/-- A rank that notices are sent for: at least 1 and at least the notice floor (R129). -/
abbrev rankSent (s : State) (rank : Nat) : Prop := 1 ≤ rank ∧ s.config.noticeFloor ≤ rank

/-- The watch at a number is pending with a rank that notices are sent for: a NOTICE candidate (R129). -/
abbrev noticeWaits (s : State) (m : Nat) (v : Watch) : Prop :=
  watchAt s m = some v ∧ v.isPending = true ∧ rankSent s v.rank

/-- The record with a watch number is in use and names this watcher and this handle (R130, R132). -/
abbrev watchOn (s : State) (n : Nat) (watcher : Byte) (h : Handle) (w : Watch) : Prop :=
  watchAt s n = some w ∧ w.watcher = watcher ∧ w.handle = h

/-- The handle names an OFFERED role whose offer has this number and is IN FLIGHT (R106). -/
abbrev offerOn (s : State) (h : Handle) (number : Byte) (r : Role) (o : Offer) : Prop :=
  s.named h = some r ∧ r.tenure = .offered o ∧ o.number = number ∧ o.phase = .inFlight

/-- A subject is current: the table of R143, with R130 for a watch. -/
def current (s : State) (subject : Subject) : Prop :=
  match subject with
  | .restart => s.link = .announcing ∧ s.announced = false
  | .offer h number => ∃ r o, offerOn s h number r o
  | .watch n watcher h => ∃ w, watchOn s n watcher h w ∧ rankSent s w.rank

/-- The record that a subject is about stands: the role of its handle, or the watch in use with its watcher and handle (R58, R127, R134). -/
def recorded (s : State) (subject : Subject) : Prop :=
  match subject with
  | .restart => True
  | .offer h _ => ∃ r, s.named h = some r
  | .watch n watcher h => ∃ w, watchOn s n watcher h w

/-- An event that led from `before` to `s` ended a subject: it was current and is not, or its record stood and does not (R58, R130, R134, R144). -/
abbrev endedBy (before s : State) (subject : Subject) : Prop :=
  current before subject ∧ ¬ current s subject ∨ recorded before subject ∧ ¬ recorded s subject

/-- A candidate stands ahead of a frame in the order of R141: for an OFFER an offer of lower role index; for a NOTICE any offer, or a notice of higher rank, or of equal rank and lower watch number (R143). -/
def ahead (s : State) (subject : Subject) : Prop :=
  match subject with
  | .restart => False
  | .offer h _ => ∃ j, j < h.index.toNat ∧ offerWaits s j
  | .watch n watcher h =>
    (∃ j, offerWaits s j) ∨
      ∃ m v w, noticeWaits s m v ∧ watchOn s n watcher h w ∧ (w.rank < v.rank ∨ v.rank = w.rank ∧ m < n)

/-! ### Words of the statements: the frame in flight and the port -/

/-- The directory's own frame in AWAITING ANSWER with a subject, and whether it carries the final form (R147). -/
abbrev awaiting (s : State) (f : Frame) (subject : Subject) (carriedFinal : Bool) : Prop :=
  s.pins.resetLow = false ∧ s.frame = some f ∧ f.subject = subject ∧
    ∃ formed, f.phase = .awaitingAnswer formed carriedFinal

/-- The roles that a third strike leaves VACANT where its failed OFFER left the role of `h` so: that role, and those of the purge of the station that follows, lowest index first (R37, R164). -/
def vacatedByStrike (failed : State) (a : Byte) (h : Handle) : List Nat :=
  (List.range 96).filter (fun i => i == h.index.toNat || (vacatedByPurge failed a).contains i)

/-- The count of a record after one more raise (R164). -/
def raisedCount (r : Option AttentionRecord) : Nat :=
  match r with
  | none => 1
  | some r => min (r.count + 1) 255

/-- A role with its offer's phase left out of account. -/
def phaseless (r : Role) : Role :=
  match r.tenure with
  | .offered o => { r with tenure := .offered { o with phase := .pendingSend } }
  | _ => r

/-- Whether the operands of a host command are within their ranges (R158, R160, R165, R166, R172). -/
def operandsLegal (c : Command) (ops : List Byte) : Bool :=
  match c with
  | .configure =>
    match ops with
    | [rate, tick, high, low, window, floor, creation, _] =>
      decide (rate ≤ 3#8) && decide (1#8 ≤ tick) && decide (tick ≤ 200#8)
        && decide (1 ≤ (halfOf high low).toNat) && decide ((halfOf high low).toNat ≤ 4095)
        && decide (1#8 ≤ window) && decide (floor ≤ 7#8) && decide (creation ≤ 1#8)
    | _ => false
  | .readAttention =>
    match ops with
    | [flags] => decide (flags &&& 0xC0#8 = 0) && decide (flags ≠ 0)
    | _ => true
  | .setAttentionEnable =>
    match ops with
    | [flags] => decide (flags &&& 0xC0#8 = 0)
    | _ => false
  | .start =>
    match ops with
    | [e] => decide (e ≠ 0)
    | _ => true
  | .defineRole =>
    match ops.drop 8 with
    | [high, low] =>
      (tagOf (ops.take 8)).isSome && decide (1 ≤ (halfOf high low).toNat) && decide ((halfOf high low).toNat ≤ 4095)
    | _ => false
  | .retireRole | .forceHandover =>
    match ops with
    | [i, _] => decide (i.toNat ≤ 95)
    | _ => false
  | .setTerm =>
    match ops with
    | [i, _, high, low] =>
      decide (i.toNat ≤ 95) && decide (1 ≤ (halfOf high low).toNat) && decide ((halfOf high low).toNat ≤ 4095)
    | _ => false
  | .evictStation | .readStation =>
    match ops with
    | [a] => decide (1#8 ≤ a) && decide (a ≤ 56#8)
    | _ => false
  | .readRole =>
    match ops with
    | [i] => decide (i.toNat ≤ 95)
    | _ => false
  | .readWatch =>
    match ops with
    | [n] => decide (n.toNat ≤ 63)
    | _ => false
  | .nop | .readStatus | .stop | .resume | .directoryReset => true

/-- The port takes commands: RESET is not low and no reset clear runs (R154, R155). -/
abbrev portOpen (s : State) : Prop := s.pins.resetLow = false ∧ s.clearing = none

end Sys2Proof.Safety
end

