-- ==== Sys2Proof/Certificates/Slice0/Obligations.lean ====
section
/-! DEFINITION. The statements for the provers.
Each says that a command answers a next state, and which; the next state is written with every field it leaves alone taken from the state before.
Words that are not the machine's own stand in Sys2Proof/Safety.lean. -/

open Sys2Proof Sys2Proof.Machine Sys2Proof.Safety

/-! ### The machine and its queue -/

/-- A step runs the command at the front of the queue with the queue's rest; on an empty queue the part idles (the model's choice, log 1). -/
def Obligations.StepRunsTheFrontCommand : Prop :=
  (∀ (c : Instr) (s : State) (rest : List Instr), s.pending = c :: rest → step s = exec c (s.withQueue rest))
    ∧ ∀ s : State, s.pending = [] → step s = .next s

/-- Every command answers a next state from every state, and leaves the queue alone. That an event without its occasion answers the state as it is, and is no fault, is the model's choice (log 2). -/
def Obligations.EveryCommandCompletes : Prop :=
  ∀ (c : Instr) (s : State), ∃ t, exec c s = .next t ∧ t.pending = s.pending

/-! ### Resets -/

/-- The state after the power-on reset holds the values of R155, its tables are FREE, and every law that a step keeps holds in it. The model's choices in it are the tables while the reset clear runs (log 8) and the empty queue (log 19). -/
def Obligations.ResetHoldsItsValuesAndTheLaws : Prop :=
  (State.reset.link = .offline ∧ State.reset.epoch = 0 ∧ State.reset.announced = false
      ∧ State.reset.receiver = .unsynchronised ∧ State.reset.answer = .idle ∧ State.reset.clock = .stopped
      ∧ State.reset.frame = none ∧ State.reset.config = ⟨.r115200, 20, 50, 10, 1, .open, 8⟩
      ∧ State.reset.enables = 0 ∧ State.reset.attention = ⟨none, none, none, none, none, none⟩
      ∧ State.reset.response = ⟨.resetNotice, 0, []⟩ ∧ State.reset.clearing = some .powerOn
      ∧ State.reset.pins = ⟨false, false, false⟩ ∧ State.reset.pending = []
      ∧ (∀ a, State.reset.station a = none) ∧ (∀ i, State.reset.roleAt i = none)
      ∧ (∀ i, i < 96 → incarnationAt State.reset i = some 0) ∧ State.reset.watchesInUse = 0)
  ∧ (rolesLawful State.reset = true ∧ tagsDistinct State.reset = true ∧ poolLawful State.reset = true
      ∧ registryLawful State.reset = true ∧ membersJoined State.reset ∧ watchesLawful State.reset = true
      ∧ linkLawful State.reset = true ∧ unannouncedVacant State.reset = true ∧ flightLawful State.reset = true
      ∧ frameLawful State.reset = true ∧ attentionLawful State.reset = true ∧ pinsLawful State.reset = true
      ∧ responseLawful State.reset = true)

/-- The power-on reset sets, in any state, every value of R155 and begins the reset clear. DIRECTORY RESET makes the link OFFLINE, clears the mark, the attention records and the frame record, and begins the reset clear; it keeps the configuration, the enables and the epoch (R24, R156). The model's choices in it are the tables until the end of the clear (log 8) and the answer that is dropped (log 5); a frame or an answer on the line ends, and TDE falls, within the event (log 6); and the watch that a purged target's frame returns is found by number, watcher and handle (log 21). -/
def Obligations.ResetsSetTheirValues : Prop :=
  (∀ s : State, exec .powerOnReset s = .next { s with
      link := .offline, epoch := 0, announced := false, receiver := .unsynchronised, answer := .idle,
      clock := .stopped, frame := none, config := ⟨.r115200, 20, 50, 10, 1, .open, 8⟩, enables := 0,
      attention := ⟨none, none, none, none, none, none⟩, response := ⟨.resetNotice, 0, []⟩,
      clearing := some .powerOn, pins := ⟨false, false, false⟩,
      roles := s.dropFrame.roles, watches := s.dropFrame.watches })
  ∧ ∀ (s : State) (seq : Byte), portOpen s → exec (.directoryReset seq []) s = .next { s with
      link := .offline, announced := false, receiver := .unsynchronised, answer := .idle, frame := none,
      clock := .stopped, attention := ⟨none, none, none, none, none, none⟩, clearing := some .directory,
      response := ⟨.ok, seq, []⟩, pins := ⟨false, false, false⟩,
      roles := s.dropFrame.roles, watches := s.dropFrame.watches }

/-- The reset clear ends with every entry FREE, incarnations 0 after power-on and kept after a directory reset, and changes nothing else; without a reset clear the event does not occur. That the event without its occasion changes nothing is the model's choice (log 2). -/
def Obligations.ResetClearFreesTheTables : Prop :=
  ∀ s : State, s.pins.resetLow = false →
    (∀ kind, s.clearing = some kind → ∃ t, exec .resetClearCompletion s = .next t ∧
      t = { s with stations := t.stations, roles := t.roles, watches := t.watches, clearing := none } ∧
      (∀ a, t.station a = none) ∧ (∀ i, t.roleAt i = none) ∧ t.claimsInUse = 0 ∧ t.watchesInUse = 0 ∧
      ∀ i, incarnationAt t i = (incarnationAt s i).map (fun n => if kind = .powerOn then 0 else n))
    ∧ (s.clearing = none → exec .resetClearCompletion s = .next s)

/-- RESET driven low stops every transmission, returns the subject of a frame in flight to its owner, and releases ATTN and TDE; while it is low no other event but the power-on reset changes anything. That an answer is dropped and that other events do nothing are the model's readings (log 5, log 7), and a transmission stops within the event (log 6); the watch that a purged target's frame returns is found by number, watcher and handle, its choice (log 21). -/
def Obligations.ResetLowStopsThePart : Prop :=
  (∀ s : State, exec .resetInputLow s = .next { s with
    answer := .idle, frame := none, roles := s.dropFrame.roles, watches := s.dropFrame.watches,
    pins := ⟨true, false, false⟩ })
  ∧ ∀ (c : Instr) (s : State), s.pins.resetLow = true → c ≠ .resetInputLow → c ≠ .powerOnReset → exec c s = .next s

/-! ### The line -/

/-- Bad characters, truncated and malformed frames, and line violations unsynchronise the receiver, the access gap synchronises it, and a bad check changes nothing; outside the directory's own transmissions and slots, which are an answer due or being sent and a frame of its own that has begun (R6, R9, R150). That such an event inside the directory's own transmissions changes nothing is the model's choice (log 2). -/
def Obligations.ReceiverFollowsTheLine : Prop :=
  (∀ s : State, s.lineTaken = true ↔ s.answer ≠ .idle ∨ ∃ f, s.frame = some f ∧ f.phase ≠ .selected)
  ∧ ∀ s : State, s.pins.resetLow = false →
    (s.lineTaken = false →
      exec .badCharacter s = .next { s with receiver := .unsynchronised }
        ∧ exec .truncatedFrame s = .next { s with receiver := .unsynchronised }
        ∧ exec .malformedFrame s = .next { s with receiver := .unsynchronised }
        ∧ exec .lineViolation s = .next { s with receiver := .unsynchronised }
        ∧ exec .receiverSynchronised s = .next { s with receiver := .synchronised })
    ∧ (s.slot = none → exec .badCheck s = .next s)
    ∧ (s.lineTaken = true → exec .lineViolation s = .next s ∧ exec .receiverSynchronised s = .next s)
    ∧ (s.lineTaken = true → s.slot = none →
      exec .badCharacter s = .next s ∧ exec .truncatedFrame s = .next s ∧ exec .malformedFrame s = .next s)

/-- An answer that is due begins, is preempted, is sent to its end, or is stopped at a read-back mismatch, which unsynchronises the receiver; TDE follows. That an event of an answer in another phase changes nothing is the model's choice (log 2). -/
def Obligations.AnswersOnTheLine : Prop :=
  ∀ (s : State) (a : Answer), s.pins.resetLow = false →
    (s.answer = .due a →
      exec .answerBegin s = .next ({ s with answer := .sending a }).drive
        ∧ ({ s with answer := .sending a } : State).drive.pins.tde = true
        ∧ exec .answerPreempted s = .next { s with answer := .idle }
        ∧ exec .answerEnd s = .next s ∧ exec .answerReadbackMismatch s = .next s)
    ∧ (s.answer = .sending a →
      exec .answerEnd s = .next ({ s with answer := .idle }).drive
        ∧ exec .answerReadbackMismatch s = .next ({ s with answer := .idle, receiver := .unsynchronised }).drive
        ∧ exec .answerBegin s = .next s ∧ exec .answerPreempted s = .next s)
    ∧ (s.answer = .idle → ∀ c ∈ [Instr.answerBegin, .answerPreempted, .answerEnd, .answerReadbackMismatch],
      exec c s = .next s)

/-- A good frame between stations or to the broadcast address clears the strikes of its JOINED sender and does nothing else (R10); a DEST of 64..255 makes it discarded (R8). That a frame where the receiver does not listen changes nothing rests on log 2 too. -/
def Obligations.HeardFramesClearStrikes : Prop :=
  ∀ (s : State) (dest src : Byte), ∃ t, exec (.stationFrameHeard dest src) s = .next t ∧
    t = { s with stations := t.stations } ∧
    (∀ a, a ≠ src → t.station a = s.station a) ∧
    (hears s → dest ≤ 63#8 →
      t.station src = (s.station src).map (fun st => { st with strikes := 0 })) ∧
    (¬ hears s ∨ 63#8 < dest → t = s)

/-- A foreign frame in ANNOUNCING or ONLINE makes the link SILENT: the selected frame is withdrawn, the Lease Clock is frozen and FOREIGN DIRECTORY is raised; elsewhere it changes nothing (R11, R21). That a frame where the receiver does not listen changes nothing rests on log 2 too, and the watch that a purged target's frame returns is found by number, watcher and handle, the model's choice (log 21). -/
def Obligations.ForeignFramesSilenceTheLink : Prop :=
  ∀ (s : State) (dest : Byte),
    (hears s → dest ≤ 63#8 → s.link = .announcing ∨ s.link = .online →
      ∃ t, exec (.foreignFrame dest) s = .next t ∧
        t = { s with
          link := .silent, clock := .frozen, frame := none, roles := s.dropFrame.roles, watches := s.dropFrame.watches,
          attention := { s.attention with
            foreignDirectory := some ⟨raisedCount s.attention.foreignDirectory, .none⟩ },
          pins := t.pins } ∧ t.pins.resetLow = s.pins.resetLow ∧ pinsLawful t = true)
    ∧ (¬ hears s ∨ 63#8 < dest ∨ s.link = .offline ∨ s.link = .silent →
      exec (.foreignFrame dest) s = .next s)

/-! ### The request gate -/

/-- The receiver listens while RESET is high, no reset clear runs, it is synchronised, and the directory neither owes nor sends an answer nor has a frame of its own begun (R2, R9, R154). Station requests that reach no owning block: nothing happens where the receiver does not listen (R2, R9), a body above 24 bytes is malformed, SRC 0 is a foreign frame; and the gate applies the conditions of R12 in order: a request that it refuses has the strike reset of R10 and its answer, with the body of R13, and no other effect. That rows may carry such a SRC or body is the model's choice (log 10), and where the receiver does not listen rests on log 2. -/
def Obligations.GateAppliesItsConditionsInOrder : Prop :=
  (∀ s : State, s.listening = true ↔ hears s)
  ∧ (∀ (i : Instr) (s : State) (r : Option Request) (src epoch : Byte) (body : List Byte),
      gateFrame i = some (r, src, epoch, body) →
      (s.listening = false → exec i s = .next s)
      ∧ (s.listening = true → 24 < body.length → exec i s = .next { s with receiver := .unsynchronised })
      ∧ (s.listening = true → body.length ≤ 24 → src = 0 → exec i s = exec (.foreignFrame 0) s))
  ∧ (∀ (i : Instr) (s : State) (r : Option Request) (src epoch : Byte) (body : List Byte),
      gateFrame i = some (r, src, epoch, body) → s.listening = true → body.length ≤ 24 → src ≠ 0 →
      (gateAnswer s r src epoch body = some none → exec i s = .next (s.clearStrikes src))
      ∧ ∀ a, gateAnswer s r src epoch body = some (some a) →
        exec i s = .next (withAnswer (s.clearStrikes src) a.status a.body))

/-- The bodies that the gate finds legal are the layouts of R169 with their fields in the ranges of R14, and no others. -/
def Obligations.LegalBodiesAreTheLayouts : Prop :=
  ∀ body : List Byte,
    (bodyLegal .join body = true ↔ ∃ w : Serial, w ≠ 0 ∧ body = serialBytes w)
    ∧ (bodyLegal .leave body = true ↔ body = [])
    ∧ (bodyLegal .find body = true ↔ ∃ t : Tag, t.legal = true ∧ body = tagBytes t)
    ∧ (bodyLegal .claim body = true ↔
      ∃ (t : Tag) (rank : Byte), t.legal = true ∧ 1 ≤ rank.toNat ∧ rank.toNat ≤ 7 ∧ body = tagBytes t ++ [rank])
    ∧ (bodyLegal .change body = true ↔
      ∃ (i n : Byte) (g : Half) (attr : List Byte),
        i.toNat ≤ 95 ∧ attr.length ≤ 8 ∧ body = [i, n] ++ halfBytes g ++ attr)
    ∧ (bodyLegal .watch body = true ↔
      ∃ i n rank : Byte, i.toNat ≤ 95 ∧ rank.toNat ≤ 7 ∧ body = [i, n, rank])
    ∧ ∀ r ∈ [Request.lookup, .renew, .release, .retire, .withdraw, .accept, .decline, .unwatch],
      (bodyLegal r body = true ↔ ∃ i n : Byte, i.toNat ≤ 95 ∧ body = [i, n])

/-! ### Stations -/

/-- JOIN of a serial that no entry holds takes the lowest FREE address with a strike count of 0, or is refused STATION FULL with CAPACITY attention (R29, R30). -/
def Obligations.JoinGivesTheLowestFreeAddress : Prop :=
  ∀ (s : State) (src epoch : Byte) (w : Serial), s.listening = true → s.link = .online →
    isStation src = true ∨ src = 62 → w ≠ 0 → (∀ a st, s.station a = some st → st.serial ≠ w) →
    (∀ a, isStation a = true → s.station a = none →
      (∀ b, isStation b = true → b < a → joined s b = true) →
      exec (.join src epoch (serialBytes w)) s =
        .next (withAnswer ((s.clearStrikes src).setStation a (some ⟨w, 0⟩)) .ok ([a, s.epoch] ++ serialBytes w)))
    ∧ ((∀ b, isStation b = true → joined s b = true) →
      exec (.join src epoch (serialBytes w)) s =
        .next (withAnswer (((s.clearStrikes src).raise .capacity (.refusal .stationFull src)).drive)
          .stationFull (serialBytes w)))

/-- JOIN of a known serial purges the station and keeps it JOINED at its address with strikes 0 (R31, R39, R40). -/
def Obligations.RejoinPurgesTheStation : Prop :=
  ∀ (s : State) (src epoch a : Byte) (st : Station), s.listening = true → s.link = .online →
    isStation src = true ∨ src = 62 → st.serial ≠ 0 → s.station a = some st →
    (∀ b st', s.station b = some st' → st'.serial = st.serial → b = a) →
    ∃ u, purged (s.clearStrikes src) u a ∧
      exec (.join src epoch (serialBytes st.serial)) s =
        .next (withAnswer ((u.setStation a (some { st with strikes := 0 })).settle (s.clearStrikes src)) .ok
          ([a, s.epoch] ++ serialBytes st.serial))

/-- LEAVE, EVICT STATION: the station is purged, so that no table names it and every role of it is passed on, and its entry is FREE (R33, R39 to R42). EVICT STATION in OFFLINE is NOT PERMITTED, and of a FREE address NOT JOINED, without effect (R42). -/
def Obligations.DepartureLeavesNoTrace : Prop :=
  (∀ (s : State) (a : Byte), joined s a = true → ∃ u, purged s u a ∧
    (s.listening = true → s.link = .online →
      exec (.leave a s.epoch []) s = .next (withAnswer ((u.setStation a none).settle (s.clearStrikes a)) .ok [])) ∧
    ∀ seq, portOpen s → s.link ≠ .offline →
      exec (.evictStation seq [a]) s = .next (((u.setStation a none).settle s).respond .ok seq []))
  ∧ ∀ (s : State) (seq a : Byte), portOpen s → isStation a = true →
    (s.link = .offline → exec (.evictStation seq [a]) s = .next { s with response := ⟨.notPermitted, seq, []⟩ })
    ∧ (s.link ≠ .offline → s.station a = none →
      exec (.evictStation seq [a]) s = .next { s with response := ⟨.notJoined, seq, []⟩ })

/-! ### The Role Table's requests -/

/-- FIND answers OK with the view of the live role that carries the tag, or NO SUCH ROLE, and changes no state but the strike reset of its arrival; a body that is no legal tag is answered BAD REQUEST (R61). -/
def Obligations.FindReturnsTheView : Prop :=
  ∀ (s : State) (src epoch : Byte), admits s src epoch →
    (∀ t : Tag, t.legal = true →
      (∀ i r, carries s i t r → exec (.find src epoch (tagBytes t)) s =
        .next (withAnswer (s.clearStrikes src) .ok (viewOf (s.handleAt i) r)))
      ∧ (uncarried s t → exec (.find src epoch (tagBytes t)) s =
        .next (withAnswer (s.clearStrikes src) .noSuchRole [])))
    ∧ ∀ body : List Byte, body.length ≤ 24 → (∀ t : Tag, t.legal = true → body ≠ tagBytes t) →
      exec (.find src epoch body) s = .next (withAnswer (s.clearStrikes src) .badRequest [])

/-- LOOKUP answers OK with the view of the role that the handle names, or STALE HANDLE, and changes no state but the strike reset of its arrival (R62). -/
def Obligations.LookupReturnsTheView : Prop :=
  ∀ (s : State) (src epoch i n : Byte), admits s src epoch → i.toNat ≤ 95 →
    exec (.lookup src epoch [i, n]) s = .next (
      match s.named ⟨i, n⟩ with
      | none => withAnswer (s.clearStrikes src) .staleHandle []
      | some r => withAnswer (s.clearStrikes src) .ok (viewOf ⟨i, n⟩ r))

/-- A handle names a role exactly where the entry at its index is live with its incarnation (R50); a handle of incarnation 0 names none in a state whose live entries have incarnations of 1..255 (R49). The offer that a frame names is the one of an OFFERED role with its number, IN FLIGHT (R106), and the watch that a frame names is the record in use at its number with its watcher and handle (R130, R132). -/
def Obligations.HandlesNameOneLife : Prop :=
  ∀ (s : State) (h : Handle),
    (∀ r, s.named h = some r ↔ s.roleAt h.index.toNat = some r ∧ incarnationAt s h.index.toNat = some h.incarnation)
    ∧ (rolesLawful s = true → h.incarnation = 0 → s.named h = none)
    ∧ (∀ number r o, s.currentOffer h number = some (r, o) ↔ offerOn s h number r o)
    ∧ ∀ n watcher w, s.watchNamed n watcher h = some w ↔ watchOn s n watcher h w

/-- CHANGE is tested in the order of R63, and a taken one replaces the attribute and increases the generation. -/
def Obligations.ChangeReplacesTheAttribute : Prop :=
  ∀ (s : State) (src epoch i n : Byte) (g : Half) (attr : List Byte), admits s src epoch → i.toNat ≤ 95 →
    attr.length ≤ 8 →
    exec (.change src epoch ([i, n] ++ halfBytes g ++ attr)) s = .next (
      let u := s.clearStrikes src
      match s.named ⟨i, n⟩ with
      | none => withAnswer u .staleHandle []
      | some r =>
        match r.tenure with
        | .held a lease _ =>
          if a ≠ src then withAnswer u .notHolder []
          else if g ≠ r.generation then withAnswer u .conflict (halfBytes r.generation)
          else
            withAnswer (((u.putRole i.toNat
              { r with tenure := .held a lease attr, generation := r.generation + 1 }).markPending ⟨i, n⟩).settle u)
              .ok (halfBytes (r.generation + 1))
        | _ => withAnswer u .notHolder [])

/-- RETIRE, RETIRE ROLE: the tests of R65 and R161, and the retirement of R57. -/
def Obligations.RetirementEndsTheRole : Prop :=
  ∀ (s : State) (i n : Byte), i.toNat ≤ 95 →
    (∀ src epoch, admits s src epoch → exec (.retire src epoch [i, n]) s = .next (
      let u := s.clearStrikes src
      match s.named ⟨i, n⟩ with
      | none => withAnswer u .staleHandle []
      | some r =>
        if heldBy r src = false then withAnswer u .notHolder []
        else if r.kind = .pinned then withAnswer u .notPermitted []
        else withAnswer ((afterRetirement u ⟨i, n⟩ (r.generation + 1)).settle u) .ok (halfBytes (r.generation + 1))))
    ∧ (∀ seq, portOpen s → exec (.retireRole seq [i, n]) s = .next (
      match s.named ⟨i, n⟩ with
      | none => s.respond .staleHandle seq []
      | some r => ((afterRetirement s ⟨i, n⟩ (r.generation + 1)).settle s).respond .ok seq
          (halfBytes (r.generation + 1))))

/-- What a retirement does to the tables: the entry is FREE with its incarnation kept, and a watch on the handle is final and pending where its rank is one that notices are sent for, and freed otherwise (R57, R134). The mark that any other generation increase makes reaches every non-final watch on the handle, and only those (R54, R128). -/
def Obligations.ChangesReachTheWatches : Prop :=
  (∀ (s : State) (h : Handle) (final : Half), ∃ t, t = afterRetirement s h final ∧
      t = { s with roles := t.roles, watches := t.watches } ∧
      t.roleAt h.index.toNat = none ∧ (∀ i, i ≠ h.index.toNat → t.roleAt i = s.roleAt i) ∧
      (∀ i, incarnationAt t i = incarnationAt s i) ∧
      ∀ n : Nat, watchAt t n = (watchAt s n).bind (fun w =>
        if w.handle = h then
          if 1 ≤ w.rank ∧ s.config.noticeFloor ≤ w.rank then some { w with final := some final, isPending := true }
          else none
        else some w))
  ∧ (∀ (s : State) (h : Handle), ∃ t, t = s.markPending h ∧ t = { s with watches := t.watches } ∧
      ∀ n : Nat, watchAt t n = (watchAt s n).map (fun w =>
        if w.handle = h ∧ w.final = none then { w with isPending := true } else w))

/-! ### Leases -/

/-- RENEW is tested in the order of R75, and sets the lease remaining to the term. RELEASE is tested in the order of R77, and a taken one loses the holder with its handover (R74, R102, R103). -/
def Obligations.HoldersRenewAndRelease : Prop :=
  (∀ (s : State) (src epoch i n : Byte), admits s src epoch → i.toNat ≤ 95 →
      exec (.renew src epoch [i, n]) s = .next (
        let u := s.clearStrikes src
        match s.named ⟨i, n⟩ with
        | none => withAnswer u .staleHandle []
        | some r =>
          match r.tenure with
          | .held a _ attr =>
            if a = src then withAnswer (u.putRole i.toNat { r with tenure := .held a r.term attr }) .ok (termBytes r.term)
            else withAnswer u .notHolder []
          | _ => withAnswer u .notHolder []))
  ∧ (∀ (s : State) (src epoch i n : Byte), admits s src epoch → i.toNat ≤ 95 →
      exec (.release src epoch [i, n]) s = .next (
        let u := s.clearStrikes src
        match s.named ⟨i, n⟩ with
        | none => withAnswer u .staleHandle []
        | some r =>
          if heldBy r src then withAnswer ((afterLoss u ⟨i, n⟩ r).settle u) .ok []
          else withAnswer u .notHolder []))

/-- SET TERM is tested in the order of R79, and clamps a HELD lease that exceeds the new term. -/
def Obligations.SetTermClampsTheLease : Prop :=
  ∀ (s : State) (seq i n : Byte) (term : Nat), portOpen s → i.toNat ≤ 95 → 1 ≤ term → term ≤ 4095 →
    exec (.setTerm seq ([i, n] ++ termBytes term)) s = .next (
      match s.named ⟨i, n⟩ with
      | none => s.respond .staleHandle seq []
      | some r =>
        match r.tenure with
        | .held a lease attr =>
          (s.putRole i.toNat { r with
            term := term, tenure := .held a (if term < lease then term else lease) attr }).respond .ok seq []
        | _ => (s.putRole i.toNat { r with term := term }).respond .ok seq [])

/-- A lease tick makes of every live role what the table of R70 says, whatever the order of the roles, and of every watch what the changes of its role ask; it raises LAPSE and VACANCY once for each lapse and each vacancy, with the last subject of the highest index (R164); it happens with the clock running in ONLINE, RESET high and no reset clear, and then alone (R69, R154). That the tick row does the whole of it is the model's choice (log 3), and that it does nothing outside ONLINE (log 2). -/
def Obligations.LeaseTickCountsEveryRole : Prop :=
  ∀ s : State,
    (s.ticking = true ↔ clockRuns s)
    ∧ (s.ticking = false → exec .leaseTick s = .next s)
    ∧ (s.ticking = true → ∃ t, exec .leaseTick s = .next (t.settle s) ∧
      t = { s with roles := t.roles, watches := t.watches, attention := t.attention } ∧
      (∀ i, t.roleAt i = (s.roleAt i).bind roleAfterTick) ∧
      (∀ i, incarnationAt t i = incarnationAt s i) ∧
      (∀ n : Nat, watchAt t n = (watchAt s n).bind (watchAfterTick s)) ∧
      t.attention = { s.attention with
        lapse := raisedForRoles s s.attention.lapse (lapsedByTick s)
        vacancy := raisedForRoles s s.attention.vacancy (vacatedByTick s) })

/-- LAPSE and WINDOW EXPIRY at one role: a lease at remaining count 1 raises LAPSE and loses the holder (R74); a window at remaining count 1 skips the offer (R116); a larger count is no lapse and no expiry. That these rows are one role's part of a tick is the model's choice (log 3), and so is their doing nothing elsewhere (log 2). -/
def Obligations.LapseAndExpiryPassTheRoleOn : Prop :=
  ∀ (s : State) (index : Byte), s.ticking = true →
    (∀ r a lease attr, s.roleAt index.toNat = some r → r.tenure = .held a lease attr →
      (lease ≤ 1 → exec (.lapse index) s =
        .next ((afterLoss (s.raise .lapse (.role (s.handleAt index.toNat))) (s.handleAt index.toNat) r).settle s))
      ∧ (2 ≤ lease → exec (.lapse index) s = .next s) ∧ exec (.windowExpiry index) s = .next s)
    ∧ (∀ r o window, s.roleAt index.toNat = some r → r.tenure = .offered o → o.phase = .waiting window →
      (window ≤ 1 → exec (.windowExpiry index) s = .next ((afterSkip s (s.handleAt index.toNat) r).settle s))
      ∧ (2 ≤ window → exec (.windowExpiry index) s = .next s) ∧ exec (.lapse index) s = .next s)

/-! ### Claims -/

/-- CLAIM of a tag that no live role carries: with creation OPEN the lowest FREE entry becomes a TRANSIENT role HELD by the sender at generation 1, or the table is full; with creation CLOSED there is NO SUCH ROLE (R55, R56, R87). -/
def Obligations.ClaimCreatesARole : Prop :=
  ∀ (s : State) (src epoch : Byte) (t : Tag) (rank : Byte), admits s src epoch → t.legal = true →
    1 ≤ rank.toNat → rank.toNat ≤ 7 → uncarried s t →
    (s.config.creation = .closed → exec (.claim src epoch (tagBytes t ++ [rank])) s =
      .next (withAnswer (s.clearStrikes src) .noSuchRole []))
    ∧ (s.config.creation = .open → (∀ j, j < 96 → (s.roleAt j).isSome = true) →
      exec (.claim src epoch (tagBytes t ++ [rank])) s =
        .next (withAnswer (((s.clearStrikes src).raise .capacity (.refusal .tableFull src)).drive) .tableFull []))
    ∧ (s.config.creation = .open → ∀ i n, s.roleAt i = none → incarnationAt s i = some n →
      (∀ j, j < i → (s.roleAt j).isSome = true) →
      exec (.claim src epoch (tagBytes t ++ [rank])) s = .next (
        let u := s.clearStrikes src
        let h : Handle := ⟨byteOf i, if n = 255 then 1 else n + 1⟩
        let made : Entry :=
          ⟨h.incarnation, some ⟨t, .transient, .held src s.config.defaultTerm [], s.config.defaultTerm, 1, 0, []⟩⟩
        withAnswer ((({ u with roles := s.roles.setIfInBounds i made } : State).markPending h).settle u) .granted
          (h.bytes ++ halfBytes 1 ++ termBytes s.config.defaultTerm)))

/-- CLAIM of a VACANT role, CLAIM by the offeree and ACCEPT by the offeree are grants: the sender is the holder with a full lease, the generation is increased, the chain stays, and the answer carries them (R73, R88, R90, R113). -/
def Obligations.GrantsMakeTheHolder : Prop :=
  ∀ (s : State) (src epoch : Byte) (i : Nat) (r : Role), admits s src epoch → s.roleAt i = some r →
    let u := s.clearStrikes src
    let h := s.handleAt i
    let granted := withAnswer ((afterGrant u h r src).settle u) .granted
      (h.bytes ++ halfBytes (r.generation + 1) ++ termBytes r.term)
    (∀ rank : Byte, 1 ≤ rank.toNat → rank.toNat ≤ 7 → r.tag.legal = true → carries s i r.tag r →
      r.tenure = .vacant ∨ offeredTo r src = true →
      exec (.claim src epoch (tagBytes r.tag ++ [rank])) s = .next granted)
    ∧ (offeredTo r src = true → exec (.accept src epoch h.bytes) s = .next granted)

/-- CLAIM of a role that the sender holds restores its lease and leaves the holder, the attribute, the chain and the generation; the answer is GRANTED (R89). CLAIM by a station that is in the chain changes nothing, whatever its rank, and answers QUEUED with the present position (R91). -/
def Obligations.ClaimsAgainKeepThePlace : Prop :=
  (∀ (s : State) (src epoch : Byte) (i : Nat) (r : Role) (rank : Byte) (lease : Nat) (attr : List Byte),
      admits s src epoch → r.tag.legal = true → 1 ≤ rank.toNat → rank.toNat ≤ 7 → carries s i r.tag r →
      r.tenure = .held src lease attr →
      exec (.claim src epoch (tagBytes r.tag ++ [rank])) s =
        .next (withAnswer ((s.clearStrikes src).putRole i { r with tenure := .held src r.term attr }) .granted
          ((s.handleAt i).bytes ++ halfBytes r.generation ++ termBytes r.term)))
  ∧ (∀ (s : State) (src epoch : Byte) (i : Nat) (r : Role) (rank : Byte) (before after : List Claim) (c : Claim),
      admits s src epoch → r.tag.legal = true → 1 ≤ rank.toNat → rank.toNat ≤ 7 → carries s i r.tag r →
      r.tenure ≠ .vacant → heldBy r src = false → offeredTo r src = false →
      r.chain = before ++ c :: after → c.claimant = src → (∀ d ∈ before, d.claimant ≠ src) →
      exec (.claim src epoch (tagBytes r.tag ++ [rank])) s =
        .next (withAnswer (s.clearStrikes src) .queued ((s.handleAt i).bytes ++ [byteOf (before.length + 1)])))

/-- CLAIM by another station is queued behind the last record of equal or higher rank, or refused CHAIN FULL before POOL FULL with CAPACITY attention (R84, R85, R92, R93). -/
def Obligations.ClaimQueuesByRankAndArrival : Prop :=
  ∀ (s : State) (src epoch : Byte) (i : Nat) (r : Role) (rank : Byte),
    admits s src epoch → r.tag.legal = true → 1 ≤ rank.toNat → rank.toNat ≤ 7 → carries s i r.tag r →
    r.tenure ≠ .vacant → heldBy r src = false → offeredTo r src = false → (∀ d ∈ r.chain, d.claimant ≠ src) →
    let u := s.clearStrikes src
    (6 ≤ r.chain.length → exec (.claim src epoch (tagBytes r.tag ++ [rank])) s =
      .next (withAnswer ((u.raise .capacity (.refusal .chainFull src)).drive) .chainFull (s.handleAt i).bytes))
    ∧ (r.chain.length < 6 → 64 ≤ s.claimsInUse → exec (.claim src epoch (tagBytes r.tag ++ [rank])) s =
      .next (withAnswer ((u.raise .capacity (.refusal .poolFull src)).drive) .poolFull (s.handleAt i).bytes))
    ∧ (r.chain.length < 6 → s.claimsInUse < 64 → ∀ ahead behind : List Claim, r.chain = ahead ++ behind →
      (∀ d ∈ ahead, rank.toNat ≤ d.rank) → (∀ d ∈ behind, d.rank < rank.toNat) →
      exec (.claim src epoch (tagBytes r.tag ++ [rank])) s =
        .next (withAnswer (u.putRole i { r with chain := ahead ++ ⟨src, rank.toNat⟩ :: behind }) .queued
          ((s.handleAt i).bytes ++ [byteOf (ahead.length + 1)])))

/-- WITHDRAW is tested in the order of R96: the offeree's is a DECLINE, and a claimant's record leaves the chain. ACCEPT and DECLINE answer STALE HANDLE and NOT OFFERED without effect, and a DECLINE from the offeree skips the offer (R113, R115, R117). -/
def Obligations.WithdrawAndDeclineLeaveTheirPlace : Prop :=
  (∀ (s : State) (src epoch i n : Byte), admits s src epoch → i.toNat ≤ 95 →
      exec (.withdraw src epoch [i, n]) s = .next (
        let u := s.clearStrikes src
        match s.named ⟨i, n⟩ with
        | none => withAnswer u .staleHandle []
        | some r =>
          if offeredTo r src then withAnswer ((afterSkip u ⟨i, n⟩ r).settle u) .ok []
          else if r.chain.any (fun c => c.claimant == src) then
            withAnswer (u.putRole i.toNat { r with chain := r.chain.filter (fun c => c.claimant != src) }) .ok []
          else withAnswer u .noClaim []))
  ∧ (∀ (s : State) (src epoch i n : Byte), admits s src epoch → i.toNat ≤ 95 →
      let u := s.clearStrikes src
      (s.named ⟨i, n⟩ = none →
        exec (.accept src epoch [i, n]) s = .next (withAnswer u .staleHandle [])
          ∧ exec (.decline src epoch [i, n]) s = .next (withAnswer u .staleHandle []))
      ∧ ∀ r, s.named ⟨i, n⟩ = some r →
        (offeredTo r src = false →
          exec (.accept src epoch [i, n]) s = .next (withAnswer u .notOffered [])
            ∧ exec (.decline src epoch [i, n]) s = .next (withAnswer u .notOffered []))
        ∧ (offeredTo r src = true →
          exec (.decline src epoch [i, n]) s = .next (withAnswer ((afterSkip u ⟨i, n⟩ r).settle u) .ok [])))

/-! ### Handover -/

/-- FORCE HANDOVER is tested in the order of R120. -/
def Obligations.ForceHandoverTakesTheRole : Prop :=
  ∀ (s : State) (seq i n : Byte), portOpen s → i.toNat ≤ 95 →
    exec (.forceHandover seq [i, n]) s = .next (
      if s.link = .offline then s.respond .notPermitted seq []
      else
        match s.named ⟨i, n⟩ with
        | none => s.respond .staleHandle seq []
        | some r =>
          match r.tenure with
          | .vacant => s.respond .notPermitted seq []
          | .held _ _ _ =>
            if r.chain = [] then s.respond .noStandby seq []
            else ((afterLoss s ⟨i, n⟩ r).settle s).respond .ok seq []
          | .offered _ => ((afterSkip s ⟨i, n⟩ r).settle s).respond .ok seq [])

/-! ### Watches -/

/-- WATCH is tested in the order of R125: a known pair gets the new rank and attempts 0, and its SELECTED notice is withdrawn where the new rank is 0 or below the floor (R125, R130), a new one the lowest free record, and a full table refuses with CAPACITY attention. UNWATCH is tested in the order of R127, and frees the sender's record for the handle. The lookup by watcher and handle alone is the model's reading (log 12), and so is the withdrawal where the watch stood paused or below the floor before (log 13); the watch that a purged target's frame returns is found by number, watcher and handle, its choice (log 21). -/
def Obligations.WatchesAreTakenAndFreed : Prop :=
  (∀ (s : State) (src epoch i n rank : Byte), admits s src epoch → i.toNat ≤ 95 → rank.toNat ≤ 7 →
      let u := s.clearStrikes src
      let h : Handle := ⟨i, n⟩
      (s.named h = none → exec (.watch src epoch [i, n, rank]) s = .next (withAnswer u .staleHandle []))
      ∧ ∀ r, s.named h = some r →
        (∀ (k : Nat) (w : Watch), watchAt s k = some w → w.watcher = src → w.handle = h →
          (∀ m w', watchAt s m = some w' → w'.watcher = src → w'.handle = h → m = k) →
          let v := u.setWatch k (some { w with rank := rank.toNat, attempts := 0 })
          let ranked (t : State) : State := withAnswer (t.settle u) .ok (byteOf k :: halfBytes r.generation)
          (¬ rankSent s rank.toNat → (∃ f, s.frame = some f ∧ f.phase = .selected ∧ f.subject = .watch k src h) →
            exec (.watch src epoch [i, n, rank]) s = .next (ranked v.dropFrame))
          ∧ (rankSent s rank.toNat ∨ (∀ f, s.frame = some f → f.phase = .selected → f.subject ≠ .watch k src h) →
            exec (.watch src epoch [i, n, rank]) s = .next (ranked v)))
        ∧ ((∀ m w', watchAt s m = some w' → w'.watcher = src → w'.handle ≠ h) →
          (∀ k, k < 64 → watchAt s k = none → (∀ m, m < k → (watchAt s m).isSome = true) →
            exec (.watch src epoch [i, n, rank]) s =
              .next (withAnswer (u.setWatch k (some ⟨src, h, rank.toNat, false, 0, none⟩)) .ok
                (byteOf k :: halfBytes r.generation)))
          ∧ ((∀ m, m < 64 → (watchAt s m).isSome = true) →
            exec (.watch src epoch [i, n, rank]) s =
              .next (withAnswer ((u.raise .capacity (.refusal .watchFull src)).drive) .watchFull [i, n]))))
  ∧ (∀ (s : State) (src epoch i n : Byte), admits s src epoch → i.toNat ≤ 95 →
      let u := s.clearStrikes src
      let h : Handle := ⟨i, n⟩
      (s.named h = none → exec (.unwatch src epoch [i, n]) s = .next (withAnswer u .staleHandle []))
      ∧ ∀ r, s.named h = some r →
        (∀ (k : Nat) (w : Watch), watchAt s k = some w → w.watcher = src → w.handle = h →
          (∀ m w', watchAt s m = some w' → w'.watcher = src → w'.handle = h → m = k) →
          exec (.unwatch src epoch [i, n]) s = .next (withAnswer ((u.setWatch k none).settle u) .ok []))
        ∧ ((∀ m w', watchAt s m = some w' → w'.watcher = src → w'.handle ≠ h) →
          exec (.unwatch src epoch [i, n]) s = .next (withAnswer u .notWatching [])))

/-! ### The directory's own frames -/

/-- Selection, with an empty record and no reset under way alone: RESTART in ANNOUNCING, then offers by role index, then notices by rank and number, in ONLINE (R139 to R141). -/
def Obligations.SelectionFollowsTheOrder : Prop :=
  (∀ s : State, s.frame ≠ none ∨ s.clearing ≠ none ∨ s.pins.resetLow = true → s.select = s)
  ∧ ∀ s : State, s.frame = none → portOpen s →
    (s.link = .announcing → s.announced = false →
      s.select = { s with frame := some ⟨.restart, 63, .selected, 0, false, false⟩ })
    ∧ (s.link = .online → ∀ (i : Nat) (r : Role) (o : Offer), s.roleAt i = some r → r.tenure = .offered o →
      o.phase = .pendingSend →
      (∀ j r' o', j < i → s.roleAt j = some r' → r'.tenure = .offered o' → o'.phase ≠ .pendingSend) →
      s.select = { s.putRole i { r with tenure := .offered { o with phase := .inFlight } } with
        frame := some ⟨.offer (s.handleAt i) o.number, o.offeree, .selected, 0, false, false⟩ })
    ∧ (s.link = .online →
      (∀ j r' o', s.roleAt j = some r' → r'.tenure = .offered o' → o'.phase ≠ .pendingSend) →
      ((∀ n w, ¬ noticeWaits s n w) → s.select = s)
      ∧ ∀ (n : Nat) (w : Watch), noticeWaits s n w →
        (∀ m v, noticeWaits s m v → v.rank < w.rank ∨ (v.rank = w.rank ∧ n ≤ m)) →
        s.select = { s with frame := some ⟨.watch n w.watcher w.handle, w.watcher, .selected, 0, false, false⟩ })
    ∧ (s.link = .offline ∨ s.link = .silent → s.select = s)

/-- The end of an event: a SELECTED frame whose subject the event ended is withdrawn, that is where the subject was current and is not (R130, R143), or where the role of its offer or the record of its watch went (R58, R127, R134, R144); a selection follows (R141), and ATTN and TDE follow (R165); so the event's end changes the frame record, the pins, the phase of an offer and the pending mark of a watch, and nothing else. The time of the withdrawal is the model's reading (log 13), and the watch that a purged target's frame returns is found by number, watcher and handle, its choice (log 21). -/
def Obligations.SettlingTouchesTheFrameAlone : Prop :=
  ∀ s before : State,
    (∀ f, s.frame = some f → f.phase = .selected → endedBy before s f.subject →
      s.settle before = s.dropFrame.select.drive)
    ∧ ((∀ f, s.frame = some f → f.phase = .selected → ¬ endedBy before s f.subject) →
      s.settle before = s.select.drive)
    ∧ ∃ t, t = s.settle before ∧
      t = { s with frame := t.frame, roles := t.roles, watches := t.watches, pins := t.pins } ∧
      t.pins.resetLow = s.pins.resetLow ∧ pinsLawful t = true ∧
      (∀ i, (t.roleAt i).map phaseless = (s.roleAt i).map phaseless) ∧
      (∀ i, incarnationAt t i = incarnationAt s i) ∧
      ∀ n : Nat, (watchAt t n).map (fun w => { w with isPending := false }) =
        (watchAt s n).map (fun w => { w with isPending := false })

/-- At the end of its wait a frame whose subject is current and which no candidate stands ahead of begins, formed from the state as it stands; a NOTICE clears its watch's mark (R20, R109, R131, R142, R143, R145). That the idle is the row's operand and synchronises the receiver is the model's reading (log 4), and so are the rank that is compared (log 11) and the confirmation of a purged target's frame as of any other (log 20). -/
def Obligations.ConfirmedFramesBegin : Prop :=
  ∀ (s : State) (idle : Nat) (f : Frame), s.pins.resetLow = false → s.frame = some f → f.phase = .selected →
    s.answer = .idle → 4 + s.config.spacing + 2 * f.collisions ≤ idle →
    let u : State := { s with receiver := .synchronised }
    (f.subject = .restart → s.link = .announcing → s.announced = false →
      exec (.waitEnd idle) s = .next ({ u with frame := some { f with
        phase := .onLine ⟨f.dest, 0, 0x40, s.epoch, []⟩ false, begun := true } }).drive)
    ∧ (∀ h number r o, f.subject = .offer h number → offerOn s h number r o →
      (∀ j r' o', j < h.index.toNat → s.roleAt j = some r' → r'.tenure = .offered o' → o'.phase ≠ .pendingSend) →
      exec (.waitEnd idle) s = .next ({ u with frame := some { f with
        phase := .onLine
          ⟨f.dest, 0, 0x41, s.epoch, h.bytes ++ tagBytes r.tag ++ [number] ++ termBytes r.term⟩ false,
        begun := true } }).drive)
    ∧ (∀ n watcher h w, f.subject = .watch n watcher h → watchOn s n watcher h w → rankSent s w.rank →
      (∀ j r' o', s.roleAt j = some r' → r'.tenure = .offered o' → o'.phase ≠ .pendingSend) →
      (∀ m v, noticeWaits s m v → v.rank < w.rank ∨ (v.rank = w.rank ∧ n ≤ m)) →
      (∀ g, w.final = some g →
        exec (.waitEnd idle) s = .next ({ u.setWatch n (some { w with isPending := false }) with frame := some { f with
          phase := .onLine ⟨f.dest, 0, 0x42, s.epoch, h.bytes ++ [4] ++ halfBytes g⟩ true, begun := true } }).drive)
      ∧ (∀ r, w.final = none → s.named h = some r →
        exec (.waitEnd idle) s = .next ({ u.setWatch n (some { w with isPending := false }) with frame := some { f with
          phase := .onLine ⟨f.dest, 0, 0x42, s.epoch, viewOf h r⟩ false, begun := true } }).drive))

/-- At the end of its wait a frame whose subject has ended is withdrawn, and one that a candidate stands ahead of is displaced; of the candidates that remain the first is selected, and its frame, current and with none ahead, begins at once (R141, R143). A subject has ended where the announcement is done or the link is not ANNOUNCING, where the offer is not IN FLIGHT with the frame's number, or where the watch record is not the frame's or its rank is 0 or below the floor (R130); ahead stand, of an OFFER, a PENDING SEND offer of lower index, and of a NOTICE any PENDING SEND offer and a pending watch of higher rank, or of equal rank and lower number, at a rank that is sent for. Before the wait has ended, or with an answer due, nothing happens. That the next frame begins in the same event is the model's reading (log 4), and so are the rank that is compared (log 11) and the confirmation of a purged target's frame as of any other (log 20); that an early event changes nothing is its choice (log 2), and so is that the watch which a purged target's frame returns is found by number, watcher and handle (log 21). -/
def Obligations.StaleAndOvertakenFramesGiveWay : Prop :=
  (∀ (s : State) (subject : Subject),
      (s.subjectCurrent subject = true ↔ current s subject) ∧ (s.overtaken subject = true ↔ ahead s subject))
  ∧ ∀ (s : State) (idle : Nat), s.pins.resetLow = false →
    (∀ f, s.frame = some f → f.phase = .selected → s.answer = .idle →
      4 + s.config.spacing + 2 * f.collisions ≤ idle → ¬ current s f.subject ∨ ahead s f.subject →
      let u := ({ s with receiver := .synchronised } : State).dropFrame.select
      (u.frame = none → exec (.waitEnd idle) s = .next u.drive)
      ∧ ∀ g, u.frame = some g →
        g.phase = .selected ∧ g.collisions = 0 ∧ g.begun = false ∧ current u g.subject ∧ ¬ ahead u g.subject
          ∧ exec (.waitEnd idle) s = exec (.waitEnd idle) u)
    ∧ ((∀ f, s.frame = some f → f.phase ≠ .selected ∨ s.answer ≠ .idle ∨
        idle < 4 + s.config.spacing + 2 * f.collisions) → exec (.waitEnd idle) s = .next s)

/-- A collision on a frame ON LINE unsynchronises the receiver and returns the frame to SELECTED with one more collision; RESTART's count stays at 8, and the eighth of an OFFER or NOTICE is a failed attempt or delivery without a report, and of a purged target's frame nothing at all (R41, R146, R148). -/
def Obligations.CollisionsBackOff : Prop :=
  ∀ (s : State) (f : Frame) (formed : TrunkFrame) (final : Bool), s.pins.resetLow = false → s.frame = some f →
    f.phase = .onLine formed final →
    let u : State := { s with receiver := .unsynchronised }
    (f.subject = .restart ∨ f.collisions < 7 → exec .collision s = .next ({ u with frame := some { f with
      phase := .selected, collisions := min (f.collisions + 1) 8 } }).drive)
    ∧ (7 ≤ f.collisions → f.subject ≠ .restart →
      (f.purgedTarget = false →
        exec .collision s = .next ((afterFailedDelivery { u with frame := none } f.subject).settle u))
      ∧ (f.purgedTarget = true → exec .collision s = .next (({ u with frame := none } : State).settle u)))

/-- A RESTART read back clean sets the mark, makes the link ONLINE, starts the Lease Clock and raises ONLINE; an OFFER or NOTICE read back clean opens its slot (R20, R69, R145). That the row of the other kind of frame changes nothing is the model's choice (log 2). -/
def Obligations.CleanFramesEndTheirPhase : Prop :=
  ∀ (s : State) (f : Frame) (formed : TrunkFrame) (final : Bool), s.pins.resetLow = false → s.frame = some f →
    f.phase = .onLine formed final →
    (f.subject = .restart →
      exec .restartCompletesClean s = .next ((({ s with
        frame := none, announced := true, link := .online, clock := .running s.config.tickPeriod } : State).raise
          .online .none).settle s)
      ∧ exec .awaitingAnswer s = .next s)
    ∧ (f.subject ≠ .restart →
      exec .awaitingAnswer s = .next ({ s with frame := some { f with phase := .awaitingAnswer formed final } }).drive
        ∧ exec .restartCompletesClean s = .next s)

/-- What a valid answer to a current OFFER does: a grant, a skip, the window or a failed attempt (R110, R111); and to a NOTICE: the delivery ends, the final watch is freed, or the delivery has failed (R132, R133, R135). In both the strikes of the station are cleared (R34). -/
def Obligations.AnswersToFramesAreApplied : Prop :=
  (∀ (s : State) (f : Frame) (h : Handle) (number status : Byte) (body : List Byte) (final : Bool),
      awaiting s f (.offer h number) final → body.length ≤ 24 → f.purgedTarget = false →
      let u : State := { s with frame := none }
      (∀ r o, s.currentOffer h number = some (r, o) → exec (.validAnswer status body) s =
        .next (((afterOfferAnswer u h r o status).clearStrikes f.dest).settle s))
      ∧ (s.currentOffer h number = none → exec (.validAnswer status body) s =
        .next ((u.clearStrikes f.dest).settle s)))
  ∧ (∀ (s : State) (f : Frame) (n : Nat) (watcher : Byte) (h : Handle) (status : Byte) (body : List Byte) (final : Bool),
      awaiting s f (.watch n watcher h) final → body.length ≤ 24 → f.purgedTarget = false →
      let u : State := { s with frame := none }
      (∀ w, s.watchNamed n watcher h = some w → exec (.validAnswer status body) s =
        .next (((u.setWatch n (watchAfterAnswer w final status)).clearStrikes f.dest).settle s))
      ∧ (s.watchNamed n watcher h = none → exec (.validAnswer status body) s =
        .next ((u.clearStrikes f.dest).settle s)))

/-- What an empty slot or a bad answer does while the station has fewer than two strikes: a failed attempt or delivery, then one strike; a bad answer other than a bad check unsynchronises the receiver (R34, R35, R37, R111, R132, R147). That the rows of the line's faults are bad answers in the slot is the model's reading (log 9). -/
def Obligations.FailedDeliveriesCountStrikes : Prop :=
  ∀ (s : State) (f : Frame) (subject : Subject) (final : Bool), awaiting s f subject final → subject ≠ .restart →
    f.purgedTarget = false → (∀ st, s.station f.dest = some st → st.strikes ≤ 1) →
    let t := (withStrike (afterFailedDelivery { s with frame := none } subject) f.dest).settle s
    exec .emptySlot s = .next t ∧ exec .badCheck s = .next t ∧ exec (.badAnswer .badCheck) s = .next t
      ∧ exec .badCharacter s = .next { t with receiver := .unsynchronised }
      ∧ exec .truncatedFrame s = .next { t with receiver := .unsynchronised }
      ∧ exec .malformedFrame s = .next { t with receiver := .unsynchronised }
      ∧ ∀ kind, kind ≠ .badCheck → exec (.badAnswer kind) s = .next { t with receiver := .unsynchronised }

/-- The third strike: after the failed attempt or delivery the station is purged, its entry is FREE, and STATION LOST is raised with its address (R36, R37, R40); where the offer itself left its role VACANT, VACANCY is raised once for it and once for each role that the purge leaves VACANT, and its last subject is that of them with the highest index (R164). That the rows of the line's faults are bad answers in the slot is the model's reading (log 9), and so is the last subject of VACANCY (log 15). -/
def Obligations.ThirdStrikeRemovesTheStation : Prop :=
  ∀ (s : State) (f : Frame) (subject : Subject) (final : Bool) (st : Station),
    awaiting s f subject final → subject ≠ .restart → f.purgedTarget = false → s.station f.dest = some st →
    2 ≤ st.strikes → ∃ u,
      (let failed := afterFailedDelivery { s with frame := none } subject
      purged failed u f.dest ∧ ∃ v,
        v = (u.setStation f.dest none).raise .stationLost (.station f.dest) ∧
        ∃ t, (∀ c ∈ [Instr.emptySlot, .badCheck, .badAnswer .badCheck], exec c s = .next t) ∧
          (∀ c ∈ [Instr.badCharacter, .truncatedFrame, .malformedFrame, .badAnswer .truncated, .badAnswer .malformed,
            .badAnswer .badCharacter], exec c s = .next { t with receiver := .unsynchronised }) ∧
          ((∀ h number, subject = .offer h number → (s.currentOffer h number).isSome = true →
            (failed.roleAt h.index.toNat).any (fun r => r.tenure == .vacant) = false) → t = v.settle s) ∧
          ∀ h number, subject = .offer h number → (s.currentOffer h number).isSome = true →
            (failed.roleAt h.index.toNat).any (fun r => r.tenure == .vacant) = true →
            t = ({ v with attention := { v.attention with
              vacancy := raisedForRoles s s.attention.vacancy (vacatedByStrike failed f.dest h) } } : State).settle s)

/-- Whatever the slot of a frame of a purged target holds, outcome and report are disregarded: the frame record is emptied and a selection follows; a bad answer other than a bad check unsynchronises the receiver (R35, R41, R132, R148). A slot is open while a frame of the directory is in AWAITING ANSWER, and an answer of more than 24 body bytes is malformed (R3, R147). That an answer without a frame in its slot changes nothing is the model's choice (log 2), and that the rows of the line's faults are bad answers in the slot is its reading (log 9). -/
def Obligations.PurgedTargetsAreDisregarded : Prop :=
  ∀ (s : State) (status : Byte) (body : List Byte), s.pins.resetLow = false →
    (24 < body.length → exec (.validAnswer status body) s = exec .malformedFrame s)
    ∧ (∀ f final, s.slot = some (f, final) ↔ s.frame = some f ∧ ∃ formed, f.phase = .awaitingAnswer formed final)
    ∧ (∀ f subject final, awaiting s f subject final → f.purgedTarget = true →
      let t := ({ s with frame := none } : State).settle s
      (body.length ≤ 24 → exec (.validAnswer status body) s = .next t)
        ∧ (∀ c ∈ [Instr.emptySlot, .badCheck, .badAnswer .badCheck], exec c s = .next t)
        ∧ ∀ c ∈ [Instr.badCharacter, .truncatedFrame, .malformedFrame, .badAnswer .truncated, .badAnswer .malformed,
          .badAnswer .badCharacter], exec c s = .next { t with receiver := .unsynchronised })
    ∧ (s.slot = none → (body.length ≤ 24 → exec (.validAnswer status body) s = .next s) ∧ exec .emptySlot s = .next s
      ∧ ∀ kind, exec (.badAnswer kind) s = .next s)

/-! ### The management port -/

/-- The tests before a command's own: a transaction is refused in the order of R152 (too short, LEN above 32, a wrong check, an unknown code, a LEN that the code does not allow), then BUSY while the reset clear runs, then an operand outside its range; each writes its response and has no other effect; a transaction of fewer than three bytes is too short, and echoes 0 where it ended before its sequence (R152, R154, R172). That rows may carry such operands is the model's choice (log 10), and that BAD_COMMAND with a transaction that is taken changes nothing (log 2). -/
def Obligations.PortTestsACommandInOrder : Prop :=
  (∀ s : State, s.pins.resetLow = false →
      (∀ received, (∀ status, transactionRefusal received = some status →
        exec (.badCommand received) s = .next { s with response := ⟨status, (received[1]?).getD 0, []⟩ })
        ∧ (transactionRefusal received = none → exec (.badCommand received) s = .next s))
      ∧ ∀ (i : Instr) (c : Command) (seq : Byte) (ops : List Byte), i.asCommand = some (c, seq, ops) →
        (c.lenLegal ops.length = false → exec i s = .next { s with response := ⟨.badCommand, seq, []⟩ })
        ∧ (c.lenLegal ops.length = true → s.clearing.isSome = true → c ≠ .nop → c ≠ .readStatus →
          exec i s = .next { s with response := ⟨.busy, seq, []⟩ })
        ∧ (c.lenLegal ops.length = true → s.clearing = none → operandsLegal c ops = false →
          exec i s = .next { s with response := ⟨.badValue, seq, []⟩ }))
  ∧ (∀ s : State, s.pins.resetLow = false → ∀ code seq : Byte,
      exec (.badCommand []) s = .next { s with response := ⟨.badCommand, 0, []⟩ }
      ∧ exec (.badCommand [code]) s = .next { s with response := ⟨.badCommand, 0, []⟩ }
      ∧ exec (.badCommand [code, seq]) s = .next { s with response := ⟨.badCommand, seq, []⟩ })
  ∧ (∀ received : List Byte, received.length < 3 → transactionRefusal received = some .badCommand
      ∧ decodeTransaction received = .badCommand received)
  ∧ (∀ code seq len : Byte, ∀ rest : List Byte,
      (rest.length < len.toNat + 1 → transactionRefusal (code :: seq :: len :: rest) = some .badCommand)
      ∧ (len.toNat + 1 ≤ rest.length → 32 < len.toNat → transactionRefusal (code :: seq :: len :: rest) = some .badCommand)
      ∧ ∀ (ops after : List Byte) (check : Byte), rest = ops ++ check :: after → ops.length = len.toNat → ops.length ≤ 32 →
        (check ≠ crc8 (code :: seq :: len :: ops) → transactionRefusal (code :: seq :: len :: rest) = some .badCheck)
        ∧ (check = crc8 (code :: seq :: len :: ops) →
          (commandOf code = none → transactionRefusal (code :: seq :: len :: rest) = some .badCommand)
          ∧ ∀ c, commandOf code = some c →
            (c.lenLegal ops.length = false → transactionRefusal (code :: seq :: len :: rest) = some .badCommand)
            ∧ (c.lenLegal ops.length = true → transactionRefusal (code :: seq :: len :: rest) = none
              ∧ decodeTransaction (code :: seq :: len :: rest) = commandRow c seq ops)))

/-- NOP leaves everything as it is; READ STATUS, taken during the reset clear too, and the three table reads write their records into the response, the role record of a lawful live entry in 48 bytes, and change nothing else (R27, R153, R157, R162, R163). -/
def Obligations.ReadsChangeOnlyTheResponse : Prop :=
  ∀ (s : State) (seq : Byte), s.pins.resetLow = false →
    exec (.nop seq []) s = .next s
    ∧ exec (.readStatus seq []) s = .next { s with response := ⟨.ok, seq,
        [s.link.value, s.epoch, flagByte s.clearing.isNone, flagByte s.announced]
          ++ (if s.clearing.isSome then [0, 0, 0, 0] else
            [byteOf s.liveRoles, byteOf s.joinedStations, byteOf s.claimsInUse, byteOf s.watchesInUse])
          ++ s.config.bytes ++ [s.enables]⟩ }
    ∧ (s.clearing = none →
      (∀ (i : Byte) (e : Entry), s.roles[i.toNat]? = some e →
        exec (.readRole seq [i]) s = .next { s with response := ⟨.ok, seq, roleRecord i e⟩ }
          ∧ ∀ r, e.role = some r → roleSound r = true → (roleRecord i e).length = 48)
      ∧ (∀ a : Byte, isStation a = true →
        exec (.readStation seq [a]) s = .next { s with response := ⟨.ok, seq,
          match s.station a with
          | none => [a, 0]
          | some st => [a, 1] ++ serialBytes st.serial ++ [byteOf st.strikes, byteOf (s.rolesHeld a),
              byteOf (s.offersTo a), byteOf (s.claimsOf a), byteOf (s.watchesOf a)]⟩ })
      ∧ ∀ n : Byte, n.toNat ≤ 63 →
        exec (.readWatch seq [n]) s = .next { s with response := ⟨.ok, seq,
          match watchAt s n.toNat with
          | none => [n, 0]
          | some w => [n, 1, w.watcher] ++ w.handle.bytes
              ++ [byteOf w.rank, flagByte w.isPending, byteOf w.attempts, flagByte w.final.isSome]
              ++ halfBytes (w.final.getD 0)⟩ })

/-- READ ATTENTION returns the selected records in flag order and clears them, and SET ATTENTION ENABLE sets the enables; ATTN follows at once (R165, R166). A raise counts up to 255 and replaces the subject (R164). -/
def Obligations.AttentionIsReadAndCleared : Prop :=
  (∀ (s : State) (seq flags : Byte), portOpen s → flags &&& 0xC0#8 = 0 →
    exec (.setAttentionEnable seq [flags]) s =
      .next { s with enables := flags, response := ⟨.ok, seq, [flags]⟩, pins := ({ s with enables := flags } : State).drive.pins }
    ∧ ∀ ops, ops = [flags] ∧ flags ≠ 0 ∨ ops = [] ∧ flags = 0x3F →
      ∃ t, exec (.readAttention seq ops) s = .next t ∧
        t = { s with
          attention := t.attention,
          response := ⟨.ok, seq, ((Cause.all.filter (fun c => c.inFlags flags)).map
            (fun c => attentionRecord (s.attention.get c))).flatten⟩,
          pins := t.pins } ∧
        t.pins.resetLow = s.pins.resetLow ∧ pinsLawful t = true ∧
        ∀ c : Cause, t.attention.get c = if c.inFlags flags then none else s.attention.get c)
  ∧ ∀ (s : State) (c : Cause) (subject : AttentionSubject), ∃ t, s.raise c subject = { s with attention := t } ∧
      t.get c = some ⟨raisedCount (s.attention.get c), subject⟩ ∧
      ∀ d, d ≠ c → t.get d = s.attention.get d

/-- CONFIGURE takes every value or none: a change of rate or tick period outside OFFLINE is NOT PERMITTED; a taken one frees the final watches below the floor, where it raises the floor the SELECTED notice of a watch that stands below it is withdrawn, and a new rate unsynchronises the receiver (R129, R130, R158). That the notice is withdrawn where the watch stood below the floor before the raise is the model's reading (log 13); the watch that a purged target's frame returns is found by number, watcher and handle, its choice (log 21). -/
def Obligations.ConfigureTakesEveryValue : Prop :=
  ∀ (s : State) (seq : Byte) (c : Configuration), portOpen s → configSound c = true →
    (s.link ≠ .offline → c.rate ≠ s.config.rate ∨ c.tickPeriod ≠ s.config.tickPeriod →
      exec (.configure seq c.bytes) s = .next { s with response := ⟨.notPermitted, seq, []⟩ })
    ∧ (s.link = .offline ∨ c.rate = s.config.rate ∧ c.tickPeriod = s.config.tickPeriod →
      ∃ u, let below : Prop := s.config.noticeFloor < c.noticeFloor ∧ ∃ f n watcher h w, s.frame = some f ∧
          f.phase = .selected ∧ f.subject = .watch n watcher h ∧ watchOn u n watcher h w ∧ ¬ rankSent u w.rank
        (below → exec (.configure seq c.bytes) s = .next ((u.dropFrame.settle s).respond .ok seq c.bytes)) ∧
        (¬ below → exec (.configure seq c.bytes) s = .next ((u.settle s).respond .ok seq c.bytes)) ∧
        u = { s with
          config := c,
          receiver := if c.rate = s.config.rate then s.receiver else .unsynchronised,
          watches := u.watches } ∧
        ∀ n : Nat, watchAt u n = (watchAt s n).filter (fun w =>
          w.final.isNone || decide (1 ≤ w.rank ∧ c.noticeFloor ≤ w.rank)))

/-- START sets the epoch, performs the restart as one event, and RESTART is selected at once; an operand equal to the epoch is NOT PERMITTED (R18, R19, R141, R159). That an answer still due is dropped is the model's reading (log 5), and that a frame or an answer on the line ends, and TDE falls, within the event is its choice (log 6). -/
def Obligations.StartRestartsTheTables : Prop :=
  ∀ (s : State) (seq : Byte), portOpen s →
    (s.epoch ≠ 0 → exec (.start seq [s.epoch]) s = .next { s with response := ⟨.notPermitted, seq, []⟩ })
    ∧ ∀ (ops : List Byte) (e : Byte),
      ops = [] ∧ e = (if s.epoch = 255 then 1 else s.epoch + 1) ∨ ops = [e] ∧ e ≠ 0 ∧ e ≠ s.epoch →
      ∃ t, exec (.start seq ops) s = .next t ∧
        t = { s with
          epoch := e, announced := false, link := .announcing, clock := .stopped, answer := .idle,
          stations := Vector.replicate _ none, watches := Vector.replicate _ none, roles := t.roles,
          frame := some ⟨.restart, 63, .selected, 0, false, false⟩, response := ⟨.ok, seq, [e]⟩, pins := t.pins } ∧
        t.pins.resetLow = s.pins.resetLow ∧ pinsLawful t = true ∧
        (∀ i, t.roleAt i = (s.roleAt i).bind roleAfterRestart) ∧ ∀ i, incarnationAt t i = incarnationAt s i

/-- STOP makes the link OFFLINE, stops the Lease Clock, and returns the subject of a frame in flight to its owner without an attempt; in OFFLINE it changes nothing but the response (R23, R149, R159). RESUME is taken in SILENT alone, and enters ONLINE with a new period where the mark is set, and ANNOUNCING otherwise (R22, R69, R159). That an answer still due is dropped is the model's reading (log 5), and that a frame or an answer on the line ends, and TDE falls, within the event is its choice (log 6), and so is that the watch of a frame is found by number, watcher and handle where it was freed with a purged target and taken again (log 21). -/
def Obligations.StopAndResumeMoveTheLink : Prop :=
  (∀ (s : State) (seq : Byte), portOpen s →
    (s.link = .offline → exec (.stop seq []) s = .next { s with response := ⟨.ok, seq, []⟩ })
    ∧ (s.link ≠ .offline → exec (.stop seq []) s = .next ({ s.dropFrame with
        answer := .idle, link := .offline, clock := .stopped, response := ⟨.ok, seq, []⟩ }).drive))
  ∧ (∀ s : State, (s.frame = none → s.dropFrame = s)
    ∧ ∀ f, s.frame = some f → let u : State := { s with frame := none }
      (f.subject = .restart → s.dropFrame = u)
      ∧ (∀ h number, f.subject = .offer h number →
        (s.currentOffer h number = none → s.dropFrame = u)
        ∧ ∀ r o, s.currentOffer h number = some (r, o) →
          s.dropFrame = u.putRole h.index.toNat { r with tenure := .offered { o with phase := .pendingSend } })
      ∧ ∀ n watcher h, f.subject = .watch n watcher h →
        (s.watchNamed n watcher h = none ∨ f.begun = false → s.dropFrame = u)
        ∧ ∀ w, s.watchNamed n watcher h = some w → f.begun = true →
          s.dropFrame = u.setWatch n (some { w with isPending := true }))
  ∧ (∀ (s : State) (seq : Byte), portOpen s →
      (s.link ≠ .silent → exec (.resume seq []) s = .next { s with response := ⟨.notPermitted, seq, []⟩ })
      ∧ (s.link = .silent → s.announced = true → exec (.resume seq []) s =
        .next ((({ s with link := .online, clock := .running s.config.tickPeriod } : State).settle s).respond .ok seq [2]))
      ∧ (s.link = .silent → s.announced = false → exec (.resume seq []) s =
        .next ((({ s with link := .announcing, clock := .stopped } : State).settle s).respond .ok seq [1])))

/-- DEFINE ROLE is tested in the order of R160: EXISTS, the conversion of R45 with the clamp of R79, the creation of R55 in the lowest FREE entry, or TABLE FULL with CAPACITY attention. -/
def Obligations.DefineRolePinsTheTag : Prop :=
  ∀ (s : State) (seq : Byte) (t : Tag) (term : Nat), portOpen s → t.legal = true → 1 ≤ term → term ≤ 4095 →
    (∀ i r, carries s i t r →
      (r.kind = .pinned → exec (.defineRole seq (tagBytes t ++ termBytes term)) s =
        .next { s with response := ⟨.alreadyExists, seq, (s.handleAt i).bytes⟩ })
      ∧ (r.kind = .transient → exec (.defineRole seq (tagBytes t ++ termBytes term)) s =
        .next ((s.putRole i { r with
          kind := .pinned, term := term,
          tenure := match r.tenure with
            | .held a lease attr => .held a (if term < lease then term else lease) attr
            | other => other }).respond .ok seq (s.handleAt i).bytes)))
    ∧ (uncarried s t →
      (∀ i n, s.roleAt i = none → incarnationAt s i = some n → (∀ j, j < i → (s.roleAt j).isSome = true) →
        exec (.defineRole seq (tagBytes t ++ termBytes term)) s = .next (
          let h : Handle := ⟨byteOf i, if n = 255 then 1 else n + 1⟩
          { s with
            roles := s.roles.setIfInBounds i ⟨h.incarnation, some ⟨t, .pinned, .vacant, term, 0, 0, []⟩⟩
            response := ⟨.ok, seq, h.bytes⟩ }))
      ∧ ((∀ j, j < 96 → (s.roleAt j).isSome = true) →
        exec (.defineRole seq (tagBytes t ++ termBytes term)) s =
          .next (((s.raise .capacity (.refusal .tableFull 0)).drive).respond .tableFull seq [])))

/-! ### Formats -/

/-- The checks of R168: over the nine bytes 31h..39h, byte by byte, and where they stand in a frame, an answer, a command and a response. A transaction shifts out the response that is held, and zero bytes after its last, each byte with its most significant bit first, for as many bits as the host clocks (R151, R153). -/
def Obligations.ChecksAreTheManuals : Prop :=
  crc16 [0x31, 0x32, 0x33, 0x34, 0x35, 0x36, 0x37, 0x38, 0x39] = 0x29B1#16
    ∧ crc8 [0x31, 0x32, 0x33, 0x34, 0x35, 0x36, 0x37, 0x38, 0x39] = 0xF4#8
    ∧ (∀ bytes : List Byte, ∀ b : Byte, crc16 (bytes ++ [b]) = crc16Byte (crc16 bytes) b
      ∧ crc8 (bytes ++ [b]) = crc8Byte (crc8 bytes) b)
    ∧ (∀ f : TrunkFrame, f.bytes = [f.dest, f.src, f.code, f.epoch, byteOf f.body.length] ++ f.body
      ++ halfBytes (crc16 ([f.dest, f.src, f.code, f.epoch, byteOf f.body.length] ++ f.body)))
    ∧ (∀ a : TrunkAnswer, a.bytes = [a.status, byteOf a.body.length] ++ a.body
      ++ halfBytes (crc16 ([a.status, byteOf a.body.length] ++ a.body)))
    ∧ (∀ a : Answer, a.bytes = TrunkAnswer.bytes ⟨a.status.value, a.body⟩)
    ∧ (∀ (c : Command) (seq : Byte) (ops : List Byte), commandBytes c seq ops =
      [c.code, seq, byteOf ops.length] ++ ops ++ [crc8 ([c.code, seq, byteOf ops.length] ++ ops)])
    ∧ ∀ r : Response, r.bytes = [r.status.value, r.sequence, byteOf r.data.length] ++ r.data
        ++ [crc8 ([r.status.value, r.sequence, byteOf r.data.length] ++ r.data)]
      ∧ (∀ n : Nat, (r.shiftedOut n).length = n ∧ ∀ k : Nat, k < n → (r.shiftedOut n)[k]? = some ((r.bytes[k]?).getD 0))
      ∧ ∀ n : Nat, (r.shiftedBits n).length = n ∧
        ∀ k : Nat, k < n → (r.shiftedBits n)[k]? = some (((r.bytes[k / 8]?).getD 0).getMsbD (k % 8))

/-- Every well-formed station request, written as the characters of its frame, is read back as itself, and LEN gives where the frame ends, whatever follows it on the line (R4, R169). Every answer of at most 24 body bytes in a slot, written as STATUS, LEN, BODY and CHECK, is read back as a valid answer, and LEN gives where it ends (R5, R169); one with another CHECK is a bad check, one that ends before its LEN says truncated, one with LEN above 24 malformed, and no character at all an empty slot; in a slot that is not that of the directory's own frame the faults are the line's (R3, R5, R7, R147). A frame with another CHECK is a bad check too, one that ends before LEN or before its LEN says is truncated, and one with LEN above 24 malformed (R3, R7). Each byte is a character with its start bit at the space level, its data bits least significant bit first and its stop bit at the mark level, and the characters of a frame or an answer are read as their bytes; a character whose stop bit is at the space level, before the end of the frame or the answer, makes it a bad character, and changes nothing after it (R1, R167). Which row names a fault in a slot is the model's reading (log 9). -/
def Obligations.RequestFramesReadBack : Prop :=
  (∀ (i : Instr) (chars after : List Byte), i.wellFormed = true → i.frameBytes = some chars →
      decodeFrame (chars ++ after) = i ∧ frameLength (chars ++ after) = some chars.length)
  ∧ (∀ (f : TrunkFrame) (check after : List Byte), f.body.length ≤ 24 → check.length = 2 →
      let covered := [f.dest, f.src, f.code, f.epoch, byteOf f.body.length] ++ f.body
      check ≠ halfBytes (crc16 covered) → decodeFrame (covered ++ check ++ after) = .badCheck)
  ∧ (∀ (dest src code epoch len : Byte) (rest : List Byte),
      (24 < len.toNat → decodeFrame (dest :: src :: code :: epoch :: len :: rest) = .malformedFrame)
      ∧ (len.toNat ≤ 24 → rest.length < len.toNat + 2 →
        decodeFrame (dest :: src :: code :: epoch :: len :: rest) = .truncatedFrame))
  ∧ (∀ chars : List Byte, chars.length < 5 → decodeFrame chars = .truncatedFrame)
  ∧ (∀ (own : Bool) (status : Byte) (body after : List Byte), body.length ≤ 24 →
      let chars := (TrunkAnswer.mk status body).bytes
      decodeAnswer own (chars ++ after) = .validAnswer status body
        ∧ answerLength (chars ++ after) = some chars.length
        ∧ (Instr.validAnswer status body).answerBytes = some chars)
  ∧ (∀ (status : Byte) (body check after : List Byte), body.length ≤ 24 → check.length = 2 →
      let covered := [status, byteOf body.length] ++ body
      check ≠ halfBytes (crc16 covered) →
      decodeAnswer true (covered ++ check ++ after) = .badAnswer .badCheck
        ∧ decodeAnswer false (covered ++ check ++ after) = .badCheck)
  ∧ (∀ (status len : Byte) (rest : List Byte),
      (24 < len.toNat → decodeAnswer true (status :: len :: rest) = .badAnswer .malformed
        ∧ decodeAnswer false (status :: len :: rest) = .malformedFrame)
      ∧ (len.toNat ≤ 24 → rest.length < len.toNat + 2 →
        decodeAnswer true (status :: len :: rest) = .badAnswer .truncated
          ∧ decodeAnswer false (status :: len :: rest) = .truncatedFrame)
      ∧ decodeAnswer true [status] = .badAnswer .truncated ∧ decodeAnswer false [status] = .truncatedFrame)
  ∧ (∀ own : Bool, decodeAnswer own [] = .emptySlot)
  ∧ (∀ b : Byte, trunkCharacter b = ⟨.space, [b.getLsbD 0, b.getLsbD 1, b.getLsbD 2, b.getLsbD 3, b.getLsbD 4, b.getLsbD 5,
      b.getLsbD 6, b.getLsbD 7], .mark⟩)
  ∧ (∀ (f : TrunkFrame) (a : TrunkAnswer),
      f.characters = f.bytes.map trunkCharacter ∧ a.characters = a.bytes.map trunkCharacter)
  ∧ ∀ (own : Bool) (chars : List Byte),
      decodeFrameCharacters (chars.map trunkCharacter) = decodeFrame chars
      ∧ decodeAnswerCharacters own (chars.map trunkCharacter) = decodeAnswer own chars
      ∧ ∀ (bad : TrunkCharacter) (rest : List TrunkCharacter), bad.stop = .space →
        let line := chars.map trunkCharacter ++ bad :: rest
        decodeFrameCharacters line = (if decodeFrame chars = .truncatedFrame then .badCharacter else decodeFrame chars)
        ∧ decodeAnswerCharacters true line =
          (if decodeAnswer true chars = .emptySlot ∨ decodeAnswer true chars = .badAnswer .truncated then
            .badAnswer .badCharacter else decodeAnswer true chars)
        ∧ decodeAnswerCharacters false line =
          (if decodeAnswer false chars = .emptySlot ∨ decodeAnswer false chars = .truncatedFrame then
            .badCharacter else decodeAnswer false chars)

/-- Every well-formed host command, written as the bytes of its transaction, is read back as itself, whatever bytes the host shifts in after the check; and so it is from the bits that the port samples, most significant bit first, where a byte that CS rises inside is discarded (R151). A transaction of no whole byte carries none (R152). -/
def Obligations.TransactionsReadBack : Prop :=
  (∀ (i : Instr) (bytes extra : List Byte), i.wellFormed = true → i.transactionBytes = some bytes →
      decodeTransaction (bytes ++ extra) = i
        ∧ ∀ fragment : List Bool, fragment.length < 8 →
          decodeTransactionBits ((bytes ++ extra).flatMap byteBits ++ fragment) = i)
  ∧ (∀ b : Byte, byteBits b =
      [b.getMsbD 0, b.getMsbD 1, b.getMsbD 2, b.getMsbD 3, b.getMsbD 4, b.getMsbD 5, b.getMsbD 6, b.getMsbD 7])
  ∧ (∀ (bytes : List Byte) (fragment : List Bool), fragment.length < 8 →
      decodeTransactionBits (bytes.flatMap byteBits ++ fragment) = decodeTransaction bytes)
  ∧ ∀ fragment : List Bool, fragment.length < 8 → decodeTransactionBits fragment = .badCommand []

/-! ### Invariants -/

/-- Every step keeps the law of roles: live entries with incarnations of 1..255, terms, leases, ranks, attempts, windows and attributes in range, chains of at most six in rank order with no claimant twice and without holder or offeree, VACANT roles PINNED with an empty chain (R44, R45, R49, R72, R84, R104). -/
def Obligations.StepsKeepRolesLawful : Prop :=
  ∀ s t : State, rolesLawful s = true → step s = .next t → rolesLawful t = true

/-- Every step keeps tags distinct (R46), and every step keeps the chains within the pool of 64 records (R83). -/
def Obligations.StepsKeepTagsAndPool : Prop :=
  (∀ s t : State, tagsDistinct s = true → step s = .next t → tagsDistinct t = true)
    ∧ ∀ s t : State, poolLawful s = true → step s = .next t → poolLawful t = true

/-- Every step keeps the station table's law: no serial twice, none 0, strikes of 0..2 (R25, R29, R36). -/
def Obligations.StepsKeepTheRegistryLawful : Prop :=
  ∀ s t : State, registryLawful s = true → step s = .next t → registryLawful t = true

/-- Every step keeps the tables naming JOINED addresses only (R40). -/
def Obligations.StepsKeepMembersJoined : Prop :=
  ∀ s t : State, membersJoined s → step s = .next t → membersJoined t

/-- Every step keeps the watch table's law: one record for a pair, ranks and attempts in range, and a live role behind every watch that is not final (R123). -/
def Obligations.StepsKeepWatchesLawful : Prop :=
  ∀ s t : State, watchesLawful s = true → step s = .next t → watchesLawful t = true

/-- Every step keeps the law of the link: what each link state asks of the mark, the epoch, the Lease Clock, the frame record and, before the first announcement, the roles (R16, R18, R69, R139); and that no answer of the directory is due or being sent in OFFLINE, in SILENT or with RESET low, nor while a frame of its own is on the line or in its slot (R6, R9). That an answer still due at a STOP, a START or a reset is dropped is the model's reading (log 5), and that one being sent, or a frame on the line, ends within the event is its choice (log 6). -/
def Obligations.StepsKeepTheLinkLawful : Prop :=
  ∀ s t : State, linkLawful s = true → unannouncedVacant s = true → step s = .next t →
    linkLawful t = true ∧ unannouncedVacant t = true

/-- Every step keeps an offer IN FLIGHT tied to the frame record: its frame is there, to its offeree, and not of a purged target (R41, R108). -/
def Obligations.StepsKeepOffersInFlight : Prop :=
  ∀ s t : State, flightLawful s = true → step s = .next t → flightLawful t = true

/-- Every step keeps the frame record, the attention records, the response buffer and the pins within their laws (R139, R153, R164, R165). That TDE is asserted exactly while an answer or a frame of the directory is on the line is the model's reading (log 18), and that it falls within the event that ends them its choice (log 6). -/
def Obligations.StepsKeepPortAndPinsLawful : Prop :=
  ∀ s t : State, step s = .next t →
    (frameLawful s = true → frameLawful t = true) ∧ (attentionLawful s = true → attentionLawful t = true)
    ∧ (pinsLawful s = true → pinsLawful t = true)
    ∧ (rolesLawful s = true → responseLawful s = true → responseLawful t = true)
end

