-- ==== Sys2Proof/Laws/State.lean ====
section
/-! SUPPORT. What each update of a record leaves alone: one lemma for each field and each update, true by unfolding. -/

namespace Sys2Proof.Machine.State

/-! `putRole` changes `roles` alone. -/

@[simp] theorem putRole_link (s : State) (i : Nat) (r : Role) : (s.putRole i r).link = s.link := rfl
@[simp] theorem putRole_epoch (s : State) (i : Nat) (r : Role) : (s.putRole i r).epoch = s.epoch := rfl
@[simp] theorem putRole_announced (s : State) (i : Nat) (r : Role) : (s.putRole i r).announced = s.announced := rfl
@[simp] theorem putRole_receiver (s : State) (i : Nat) (r : Role) : (s.putRole i r).receiver = s.receiver := rfl
@[simp] theorem putRole_answer (s : State) (i : Nat) (r : Role) : (s.putRole i r).answer = s.answer := rfl
@[simp] theorem putRole_stations (s : State) (i : Nat) (r : Role) : (s.putRole i r).stations = s.stations := rfl
@[simp] theorem putRole_clock (s : State) (i : Nat) (r : Role) : (s.putRole i r).clock = s.clock := rfl
@[simp] theorem putRole_watches (s : State) (i : Nat) (r : Role) : (s.putRole i r).watches = s.watches := rfl
@[simp] theorem putRole_frame (s : State) (i : Nat) (r : Role) : (s.putRole i r).frame = s.frame := rfl
@[simp] theorem putRole_config (s : State) (i : Nat) (r : Role) : (s.putRole i r).config = s.config := rfl
@[simp] theorem putRole_enables (s : State) (i : Nat) (r : Role) : (s.putRole i r).enables = s.enables := rfl
@[simp] theorem putRole_attention (s : State) (i : Nat) (r : Role) : (s.putRole i r).attention = s.attention := rfl
@[simp] theorem putRole_response (s : State) (i : Nat) (r : Role) : (s.putRole i r).response = s.response := rfl
@[simp] theorem putRole_clearing (s : State) (i : Nat) (r : Role) : (s.putRole i r).clearing = s.clearing := rfl
@[simp] theorem putRole_pins (s : State) (i : Nat) (r : Role) : (s.putRole i r).pins = s.pins := rfl
@[simp] theorem putRole_pending (s : State) (i : Nat) (r : Role) : (s.putRole i r).pending = s.pending := rfl

/-! `freeEntry` changes `roles` alone. -/

@[simp] theorem freeEntry_link (s : State) (i : Nat) : (s.freeEntry i).link = s.link := rfl
@[simp] theorem freeEntry_epoch (s : State) (i : Nat) : (s.freeEntry i).epoch = s.epoch := rfl
@[simp] theorem freeEntry_announced (s : State) (i : Nat) : (s.freeEntry i).announced = s.announced := rfl
@[simp] theorem freeEntry_receiver (s : State) (i : Nat) : (s.freeEntry i).receiver = s.receiver := rfl
@[simp] theorem freeEntry_answer (s : State) (i : Nat) : (s.freeEntry i).answer = s.answer := rfl
@[simp] theorem freeEntry_stations (s : State) (i : Nat) : (s.freeEntry i).stations = s.stations := rfl
@[simp] theorem freeEntry_clock (s : State) (i : Nat) : (s.freeEntry i).clock = s.clock := rfl
@[simp] theorem freeEntry_watches (s : State) (i : Nat) : (s.freeEntry i).watches = s.watches := rfl
@[simp] theorem freeEntry_frame (s : State) (i : Nat) : (s.freeEntry i).frame = s.frame := rfl
@[simp] theorem freeEntry_config (s : State) (i : Nat) : (s.freeEntry i).config = s.config := rfl
@[simp] theorem freeEntry_enables (s : State) (i : Nat) : (s.freeEntry i).enables = s.enables := rfl
@[simp] theorem freeEntry_attention (s : State) (i : Nat) : (s.freeEntry i).attention = s.attention := rfl
@[simp] theorem freeEntry_response (s : State) (i : Nat) : (s.freeEntry i).response = s.response := rfl
@[simp] theorem freeEntry_clearing (s : State) (i : Nat) : (s.freeEntry i).clearing = s.clearing := rfl
@[simp] theorem freeEntry_pins (s : State) (i : Nat) : (s.freeEntry i).pins = s.pins := rfl
@[simp] theorem freeEntry_pending (s : State) (i : Nat) : (s.freeEntry i).pending = s.pending := rfl

/-! `create` changes `roles` alone. -/

@[simp] theorem create_link (s : State) (i : Nat) (t : Tag) (k : Kind) (n : Nat) : (s.create i t k n).link = s.link := rfl
@[simp] theorem create_epoch (s : State) (i : Nat) (t : Tag) (k : Kind) (n : Nat) : (s.create i t k n).epoch = s.epoch := rfl
@[simp] theorem create_announced (s : State) (i : Nat) (t : Tag) (k : Kind) (n : Nat) : (s.create i t k n).announced = s.announced := rfl
@[simp] theorem create_receiver (s : State) (i : Nat) (t : Tag) (k : Kind) (n : Nat) : (s.create i t k n).receiver = s.receiver := rfl
@[simp] theorem create_answer (s : State) (i : Nat) (t : Tag) (k : Kind) (n : Nat) : (s.create i t k n).answer = s.answer := rfl
@[simp] theorem create_stations (s : State) (i : Nat) (t : Tag) (k : Kind) (n : Nat) : (s.create i t k n).stations = s.stations := rfl
@[simp] theorem create_clock (s : State) (i : Nat) (t : Tag) (k : Kind) (n : Nat) : (s.create i t k n).clock = s.clock := rfl
@[simp] theorem create_watches (s : State) (i : Nat) (t : Tag) (k : Kind) (n : Nat) : (s.create i t k n).watches = s.watches := rfl
@[simp] theorem create_frame (s : State) (i : Nat) (t : Tag) (k : Kind) (n : Nat) : (s.create i t k n).frame = s.frame := rfl
@[simp] theorem create_config (s : State) (i : Nat) (t : Tag) (k : Kind) (n : Nat) : (s.create i t k n).config = s.config := rfl
@[simp] theorem create_enables (s : State) (i : Nat) (t : Tag) (k : Kind) (n : Nat) : (s.create i t k n).enables = s.enables := rfl
@[simp] theorem create_attention (s : State) (i : Nat) (t : Tag) (k : Kind) (n : Nat) : (s.create i t k n).attention = s.attention := rfl
@[simp] theorem create_response (s : State) (i : Nat) (t : Tag) (k : Kind) (n : Nat) : (s.create i t k n).response = s.response := rfl
@[simp] theorem create_clearing (s : State) (i : Nat) (t : Tag) (k : Kind) (n : Nat) : (s.create i t k n).clearing = s.clearing := rfl
@[simp] theorem create_pins (s : State) (i : Nat) (t : Tag) (k : Kind) (n : Nat) : (s.create i t k n).pins = s.pins := rfl
@[simp] theorem create_pending (s : State) (i : Nat) (t : Tag) (k : Kind) (n : Nat) : (s.create i t k n).pending = s.pending := rfl

/-! `purgeClaims` changes `roles` alone. -/

@[simp] theorem purgeClaims_link (s : State) (a : Byte) : (s.purgeClaims a).link = s.link := rfl
@[simp] theorem purgeClaims_epoch (s : State) (a : Byte) : (s.purgeClaims a).epoch = s.epoch := rfl
@[simp] theorem purgeClaims_announced (s : State) (a : Byte) : (s.purgeClaims a).announced = s.announced := rfl
@[simp] theorem purgeClaims_receiver (s : State) (a : Byte) : (s.purgeClaims a).receiver = s.receiver := rfl
@[simp] theorem purgeClaims_answer (s : State) (a : Byte) : (s.purgeClaims a).answer = s.answer := rfl
@[simp] theorem purgeClaims_stations (s : State) (a : Byte) : (s.purgeClaims a).stations = s.stations := rfl
@[simp] theorem purgeClaims_clock (s : State) (a : Byte) : (s.purgeClaims a).clock = s.clock := rfl
@[simp] theorem purgeClaims_watches (s : State) (a : Byte) : (s.purgeClaims a).watches = s.watches := rfl
@[simp] theorem purgeClaims_frame (s : State) (a : Byte) : (s.purgeClaims a).frame = s.frame := rfl
@[simp] theorem purgeClaims_config (s : State) (a : Byte) : (s.purgeClaims a).config = s.config := rfl
@[simp] theorem purgeClaims_enables (s : State) (a : Byte) : (s.purgeClaims a).enables = s.enables := rfl
@[simp] theorem purgeClaims_attention (s : State) (a : Byte) : (s.purgeClaims a).attention = s.attention := rfl
@[simp] theorem purgeClaims_response (s : State) (a : Byte) : (s.purgeClaims a).response = s.response := rfl
@[simp] theorem purgeClaims_clearing (s : State) (a : Byte) : (s.purgeClaims a).clearing = s.clearing := rfl
@[simp] theorem purgeClaims_pins (s : State) (a : Byte) : (s.purgeClaims a).pins = s.pins := rfl
@[simp] theorem purgeClaims_pending (s : State) (a : Byte) : (s.purgeClaims a).pending = s.pending := rfl

/-! `markPending` changes `watches` alone. -/

@[simp] theorem markPending_link (s : State) (h : Handle) : (s.markPending h).link = s.link := rfl
@[simp] theorem markPending_epoch (s : State) (h : Handle) : (s.markPending h).epoch = s.epoch := rfl
@[simp] theorem markPending_announced (s : State) (h : Handle) : (s.markPending h).announced = s.announced := rfl
@[simp] theorem markPending_receiver (s : State) (h : Handle) : (s.markPending h).receiver = s.receiver := rfl
@[simp] theorem markPending_answer (s : State) (h : Handle) : (s.markPending h).answer = s.answer := rfl
@[simp] theorem markPending_stations (s : State) (h : Handle) : (s.markPending h).stations = s.stations := rfl
@[simp] theorem markPending_roles (s : State) (h : Handle) : (s.markPending h).roles = s.roles := rfl
@[simp] theorem markPending_clock (s : State) (h : Handle) : (s.markPending h).clock = s.clock := rfl
@[simp] theorem markPending_frame (s : State) (h : Handle) : (s.markPending h).frame = s.frame := rfl
@[simp] theorem markPending_config (s : State) (h : Handle) : (s.markPending h).config = s.config := rfl
@[simp] theorem markPending_enables (s : State) (h : Handle) : (s.markPending h).enables = s.enables := rfl
@[simp] theorem markPending_attention (s : State) (h : Handle) : (s.markPending h).attention = s.attention := rfl
@[simp] theorem markPending_response (s : State) (h : Handle) : (s.markPending h).response = s.response := rfl
@[simp] theorem markPending_clearing (s : State) (h : Handle) : (s.markPending h).clearing = s.clearing := rfl
@[simp] theorem markPending_pins (s : State) (h : Handle) : (s.markPending h).pins = s.pins := rfl
@[simp] theorem markPending_pending (s : State) (h : Handle) : (s.markPending h).pending = s.pending := rfl

/-! `finalWatches` changes `watches` alone. -/

@[simp] theorem finalWatches_link (s : State) (h : Handle) (g : Half) : (s.finalWatches h g).link = s.link := rfl
@[simp] theorem finalWatches_epoch (s : State) (h : Handle) (g : Half) : (s.finalWatches h g).epoch = s.epoch := rfl
@[simp] theorem finalWatches_announced (s : State) (h : Handle) (g : Half) : (s.finalWatches h g).announced = s.announced := rfl
@[simp] theorem finalWatches_receiver (s : State) (h : Handle) (g : Half) : (s.finalWatches h g).receiver = s.receiver := rfl
@[simp] theorem finalWatches_answer (s : State) (h : Handle) (g : Half) : (s.finalWatches h g).answer = s.answer := rfl
@[simp] theorem finalWatches_stations (s : State) (h : Handle) (g : Half) : (s.finalWatches h g).stations = s.stations := rfl
@[simp] theorem finalWatches_roles (s : State) (h : Handle) (g : Half) : (s.finalWatches h g).roles = s.roles := rfl
@[simp] theorem finalWatches_clock (s : State) (h : Handle) (g : Half) : (s.finalWatches h g).clock = s.clock := rfl
@[simp] theorem finalWatches_frame (s : State) (h : Handle) (g : Half) : (s.finalWatches h g).frame = s.frame := rfl
@[simp] theorem finalWatches_config (s : State) (h : Handle) (g : Half) : (s.finalWatches h g).config = s.config := rfl
@[simp] theorem finalWatches_enables (s : State) (h : Handle) (g : Half) : (s.finalWatches h g).enables = s.enables := rfl
@[simp] theorem finalWatches_attention (s : State) (h : Handle) (g : Half) : (s.finalWatches h g).attention = s.attention := rfl
@[simp] theorem finalWatches_response (s : State) (h : Handle) (g : Half) : (s.finalWatches h g).response = s.response := rfl
@[simp] theorem finalWatches_clearing (s : State) (h : Handle) (g : Half) : (s.finalWatches h g).clearing = s.clearing := rfl
@[simp] theorem finalWatches_pins (s : State) (h : Handle) (g : Half) : (s.finalWatches h g).pins = s.pins := rfl
@[simp] theorem finalWatches_pending (s : State) (h : Handle) (g : Half) : (s.finalWatches h g).pending = s.pending := rfl

/-! `purgeWatches` changes `watches` alone. -/

@[simp] theorem purgeWatches_link (s : State) (a : Byte) : (s.purgeWatches a).link = s.link := rfl
@[simp] theorem purgeWatches_epoch (s : State) (a : Byte) : (s.purgeWatches a).epoch = s.epoch := rfl
@[simp] theorem purgeWatches_announced (s : State) (a : Byte) : (s.purgeWatches a).announced = s.announced := rfl
@[simp] theorem purgeWatches_receiver (s : State) (a : Byte) : (s.purgeWatches a).receiver = s.receiver := rfl
@[simp] theorem purgeWatches_answer (s : State) (a : Byte) : (s.purgeWatches a).answer = s.answer := rfl
@[simp] theorem purgeWatches_stations (s : State) (a : Byte) : (s.purgeWatches a).stations = s.stations := rfl
@[simp] theorem purgeWatches_roles (s : State) (a : Byte) : (s.purgeWatches a).roles = s.roles := rfl
@[simp] theorem purgeWatches_clock (s : State) (a : Byte) : (s.purgeWatches a).clock = s.clock := rfl
@[simp] theorem purgeWatches_frame (s : State) (a : Byte) : (s.purgeWatches a).frame = s.frame := rfl
@[simp] theorem purgeWatches_config (s : State) (a : Byte) : (s.purgeWatches a).config = s.config := rfl
@[simp] theorem purgeWatches_enables (s : State) (a : Byte) : (s.purgeWatches a).enables = s.enables := rfl
@[simp] theorem purgeWatches_attention (s : State) (a : Byte) : (s.purgeWatches a).attention = s.attention := rfl
@[simp] theorem purgeWatches_response (s : State) (a : Byte) : (s.purgeWatches a).response = s.response := rfl
@[simp] theorem purgeWatches_clearing (s : State) (a : Byte) : (s.purgeWatches a).clearing = s.clearing := rfl
@[simp] theorem purgeWatches_pins (s : State) (a : Byte) : (s.purgeWatches a).pins = s.pins := rfl
@[simp] theorem purgeWatches_pending (s : State) (a : Byte) : (s.purgeWatches a).pending = s.pending := rfl

/-! `setWatch` changes `watches` alone. -/

@[simp] theorem setWatch_link (s : State) (n : Nat) (o : Option Watch) : (s.setWatch n o).link = s.link := rfl
@[simp] theorem setWatch_epoch (s : State) (n : Nat) (o : Option Watch) : (s.setWatch n o).epoch = s.epoch := rfl
@[simp] theorem setWatch_announced (s : State) (n : Nat) (o : Option Watch) : (s.setWatch n o).announced = s.announced := rfl
@[simp] theorem setWatch_receiver (s : State) (n : Nat) (o : Option Watch) : (s.setWatch n o).receiver = s.receiver := rfl
@[simp] theorem setWatch_answer (s : State) (n : Nat) (o : Option Watch) : (s.setWatch n o).answer = s.answer := rfl
@[simp] theorem setWatch_stations (s : State) (n : Nat) (o : Option Watch) : (s.setWatch n o).stations = s.stations := rfl
@[simp] theorem setWatch_roles (s : State) (n : Nat) (o : Option Watch) : (s.setWatch n o).roles = s.roles := rfl
@[simp] theorem setWatch_clock (s : State) (n : Nat) (o : Option Watch) : (s.setWatch n o).clock = s.clock := rfl
@[simp] theorem setWatch_frame (s : State) (n : Nat) (o : Option Watch) : (s.setWatch n o).frame = s.frame := rfl
@[simp] theorem setWatch_config (s : State) (n : Nat) (o : Option Watch) : (s.setWatch n o).config = s.config := rfl
@[simp] theorem setWatch_enables (s : State) (n : Nat) (o : Option Watch) : (s.setWatch n o).enables = s.enables := rfl
@[simp] theorem setWatch_attention (s : State) (n : Nat) (o : Option Watch) : (s.setWatch n o).attention = s.attention := rfl
@[simp] theorem setWatch_response (s : State) (n : Nat) (o : Option Watch) : (s.setWatch n o).response = s.response := rfl
@[simp] theorem setWatch_clearing (s : State) (n : Nat) (o : Option Watch) : (s.setWatch n o).clearing = s.clearing := rfl
@[simp] theorem setWatch_pins (s : State) (n : Nat) (o : Option Watch) : (s.setWatch n o).pins = s.pins := rfl
@[simp] theorem setWatch_pending (s : State) (n : Nat) (o : Option Watch) : (s.setWatch n o).pending = s.pending := rfl

/-! `raise` changes `attention` alone. -/

@[simp] theorem raise_link (s : State) (c : Cause) (x : AttentionSubject) : (s.raise c x).link = s.link := rfl
@[simp] theorem raise_epoch (s : State) (c : Cause) (x : AttentionSubject) : (s.raise c x).epoch = s.epoch := rfl
@[simp] theorem raise_announced (s : State) (c : Cause) (x : AttentionSubject) : (s.raise c x).announced = s.announced := rfl
@[simp] theorem raise_receiver (s : State) (c : Cause) (x : AttentionSubject) : (s.raise c x).receiver = s.receiver := rfl
@[simp] theorem raise_answer (s : State) (c : Cause) (x : AttentionSubject) : (s.raise c x).answer = s.answer := rfl
@[simp] theorem raise_stations (s : State) (c : Cause) (x : AttentionSubject) : (s.raise c x).stations = s.stations := rfl
@[simp] theorem raise_roles (s : State) (c : Cause) (x : AttentionSubject) : (s.raise c x).roles = s.roles := rfl
@[simp] theorem raise_clock (s : State) (c : Cause) (x : AttentionSubject) : (s.raise c x).clock = s.clock := rfl
@[simp] theorem raise_watches (s : State) (c : Cause) (x : AttentionSubject) : (s.raise c x).watches = s.watches := rfl
@[simp] theorem raise_frame (s : State) (c : Cause) (x : AttentionSubject) : (s.raise c x).frame = s.frame := rfl
@[simp] theorem raise_config (s : State) (c : Cause) (x : AttentionSubject) : (s.raise c x).config = s.config := rfl
@[simp] theorem raise_enables (s : State) (c : Cause) (x : AttentionSubject) : (s.raise c x).enables = s.enables := rfl
@[simp] theorem raise_response (s : State) (c : Cause) (x : AttentionSubject) : (s.raise c x).response = s.response := rfl
@[simp] theorem raise_clearing (s : State) (c : Cause) (x : AttentionSubject) : (s.raise c x).clearing = s.clearing := rfl
@[simp] theorem raise_pins (s : State) (c : Cause) (x : AttentionSubject) : (s.raise c x).pins = s.pins := rfl
@[simp] theorem raise_pending (s : State) (c : Cause) (x : AttentionSubject) : (s.raise c x).pending = s.pending := rfl

/-! `drive` changes `pins` alone. -/

@[simp] theorem drive_link (s : State) : (s.drive).link = s.link := rfl
@[simp] theorem drive_epoch (s : State) : (s.drive).epoch = s.epoch := rfl
@[simp] theorem drive_announced (s : State) : (s.drive).announced = s.announced := rfl
@[simp] theorem drive_receiver (s : State) : (s.drive).receiver = s.receiver := rfl
@[simp] theorem drive_answer (s : State) : (s.drive).answer = s.answer := rfl
@[simp] theorem drive_stations (s : State) : (s.drive).stations = s.stations := rfl
@[simp] theorem drive_roles (s : State) : (s.drive).roles = s.roles := rfl
@[simp] theorem drive_clock (s : State) : (s.drive).clock = s.clock := rfl
@[simp] theorem drive_watches (s : State) : (s.drive).watches = s.watches := rfl
@[simp] theorem drive_frame (s : State) : (s.drive).frame = s.frame := rfl
@[simp] theorem drive_config (s : State) : (s.drive).config = s.config := rfl
@[simp] theorem drive_enables (s : State) : (s.drive).enables = s.enables := rfl
@[simp] theorem drive_attention (s : State) : (s.drive).attention = s.attention := rfl
@[simp] theorem drive_response (s : State) : (s.drive).response = s.response := rfl
@[simp] theorem drive_clearing (s : State) : (s.drive).clearing = s.clearing := rfl
@[simp] theorem drive_pending (s : State) : (s.drive).pending = s.pending := rfl

/-! `respond` changes `response` alone. -/

@[simp] theorem respond_link (s : State) (x : HostStatus) (q : Byte) (d : List Byte) : (s.respond x q d).link = s.link := rfl
@[simp] theorem respond_epoch (s : State) (x : HostStatus) (q : Byte) (d : List Byte) : (s.respond x q d).epoch = s.epoch := rfl
@[simp] theorem respond_announced (s : State) (x : HostStatus) (q : Byte) (d : List Byte) : (s.respond x q d).announced = s.announced := rfl
@[simp] theorem respond_receiver (s : State) (x : HostStatus) (q : Byte) (d : List Byte) : (s.respond x q d).receiver = s.receiver := rfl
@[simp] theorem respond_answer (s : State) (x : HostStatus) (q : Byte) (d : List Byte) : (s.respond x q d).answer = s.answer := rfl
@[simp] theorem respond_stations (s : State) (x : HostStatus) (q : Byte) (d : List Byte) : (s.respond x q d).stations = s.stations := rfl
@[simp] theorem respond_roles (s : State) (x : HostStatus) (q : Byte) (d : List Byte) : (s.respond x q d).roles = s.roles := rfl
@[simp] theorem respond_clock (s : State) (x : HostStatus) (q : Byte) (d : List Byte) : (s.respond x q d).clock = s.clock := rfl
@[simp] theorem respond_watches (s : State) (x : HostStatus) (q : Byte) (d : List Byte) : (s.respond x q d).watches = s.watches := rfl
@[simp] theorem respond_frame (s : State) (x : HostStatus) (q : Byte) (d : List Byte) : (s.respond x q d).frame = s.frame := rfl
@[simp] theorem respond_config (s : State) (x : HostStatus) (q : Byte) (d : List Byte) : (s.respond x q d).config = s.config := rfl
@[simp] theorem respond_enables (s : State) (x : HostStatus) (q : Byte) (d : List Byte) : (s.respond x q d).enables = s.enables := rfl
@[simp] theorem respond_attention (s : State) (x : HostStatus) (q : Byte) (d : List Byte) : (s.respond x q d).attention = s.attention := rfl
@[simp] theorem respond_clearing (s : State) (x : HostStatus) (q : Byte) (d : List Byte) : (s.respond x q d).clearing = s.clearing := rfl
@[simp] theorem respond_pins (s : State) (x : HostStatus) (q : Byte) (d : List Byte) : (s.respond x q d).pins = s.pins := rfl
@[simp] theorem respond_pending (s : State) (x : HostStatus) (q : Byte) (d : List Byte) : (s.respond x q d).pending = s.pending := rfl

/-! `unsynchronise` changes `receiver` alone. -/

@[simp] theorem unsynchronise_link (s : State) : (s.unsynchronise).link = s.link := rfl
@[simp] theorem unsynchronise_epoch (s : State) : (s.unsynchronise).epoch = s.epoch := rfl
@[simp] theorem unsynchronise_announced (s : State) : (s.unsynchronise).announced = s.announced := rfl
@[simp] theorem unsynchronise_answer (s : State) : (s.unsynchronise).answer = s.answer := rfl
@[simp] theorem unsynchronise_stations (s : State) : (s.unsynchronise).stations = s.stations := rfl
@[simp] theorem unsynchronise_roles (s : State) : (s.unsynchronise).roles = s.roles := rfl
@[simp] theorem unsynchronise_clock (s : State) : (s.unsynchronise).clock = s.clock := rfl
@[simp] theorem unsynchronise_watches (s : State) : (s.unsynchronise).watches = s.watches := rfl
@[simp] theorem unsynchronise_frame (s : State) : (s.unsynchronise).frame = s.frame := rfl
@[simp] theorem unsynchronise_config (s : State) : (s.unsynchronise).config = s.config := rfl
@[simp] theorem unsynchronise_enables (s : State) : (s.unsynchronise).enables = s.enables := rfl
@[simp] theorem unsynchronise_attention (s : State) : (s.unsynchronise).attention = s.attention := rfl
@[simp] theorem unsynchronise_response (s : State) : (s.unsynchronise).response = s.response := rfl
@[simp] theorem unsynchronise_clearing (s : State) : (s.unsynchronise).clearing = s.clearing := rfl
@[simp] theorem unsynchronise_pins (s : State) : (s.unsynchronise).pins = s.pins := rfl
@[simp] theorem unsynchronise_pending (s : State) : (s.unsynchronise).pending = s.pending := rfl

/-! `withQueue` changes `pending` alone. -/

@[simp] theorem withQueue_link (s : State) (q : List Instr) : (s.withQueue q).link = s.link := rfl
@[simp] theorem withQueue_epoch (s : State) (q : List Instr) : (s.withQueue q).epoch = s.epoch := rfl
@[simp] theorem withQueue_announced (s : State) (q : List Instr) : (s.withQueue q).announced = s.announced := rfl
@[simp] theorem withQueue_receiver (s : State) (q : List Instr) : (s.withQueue q).receiver = s.receiver := rfl
@[simp] theorem withQueue_answer (s : State) (q : List Instr) : (s.withQueue q).answer = s.answer := rfl
@[simp] theorem withQueue_stations (s : State) (q : List Instr) : (s.withQueue q).stations = s.stations := rfl
@[simp] theorem withQueue_roles (s : State) (q : List Instr) : (s.withQueue q).roles = s.roles := rfl
@[simp] theorem withQueue_clock (s : State) (q : List Instr) : (s.withQueue q).clock = s.clock := rfl
@[simp] theorem withQueue_watches (s : State) (q : List Instr) : (s.withQueue q).watches = s.watches := rfl
@[simp] theorem withQueue_frame (s : State) (q : List Instr) : (s.withQueue q).frame = s.frame := rfl
@[simp] theorem withQueue_config (s : State) (q : List Instr) : (s.withQueue q).config = s.config := rfl
@[simp] theorem withQueue_enables (s : State) (q : List Instr) : (s.withQueue q).enables = s.enables := rfl
@[simp] theorem withQueue_attention (s : State) (q : List Instr) : (s.withQueue q).attention = s.attention := rfl
@[simp] theorem withQueue_response (s : State) (q : List Instr) : (s.withQueue q).response = s.response := rfl
@[simp] theorem withQueue_clearing (s : State) (q : List Instr) : (s.withQueue q).clearing = s.clearing := rfl
@[simp] theorem withQueue_pins (s : State) (q : List Instr) : (s.withQueue q).pins = s.pins := rfl

end Sys2Proof.Machine.State
end

