-- ==== Sys2Proof/Laws/Tables.lean ====
section
/-! SUPPORT. Reading tables after an operation: rows of `mapRows`, `modifyRow`, `findRow`; roles, stations and watches after each update. -/

namespace Sys2Proof.Machine

/-! ### Tables -/

@[simp] theorem mapRows_getElem? {α : Type} {n : Nat} (f : α → α) (v : Vector α n) (i : Nat) :
    (mapRows f v)[i]? = (v[i]?).map f := by
  simp [mapRows]

@[simp] theorem mapRows_toList {α : Type} {n : Nat} (f : α → α) (v : Vector α n) :
    (mapRows f v).toList = v.toList.map f := by
  simp [mapRows, Vector.toList]

theorem modifyRow_getElem? {α : Type} {n : Nat} (v : Vector α n) (i j : Nat) (f : α → α) :
    (modifyRow v i f)[j]? = if j = i then (v[i]?).map f else v[j]? := by
  unfold modifyRow
  cases h : v[i]? with
  | none => by_cases hj : j = i <;> simp [hj, h]
  | some a =>
    have hi : i < n := by
      by_contra hc
      rw [Vector.getElem?_eq_none (by omega)] at h
      simp at h
    by_cases hj : j = i
    · subst hj; simp [hi]
    · simp [hj, Ne.symm hj]

theorem rows_ext {α : Type} {n : Nat} {v w : Vector α n} (h : ∀ i : Nat, v[i]? = w[i]?) : v = w := by
  apply Vector.ext
  intro i hi
  have := h i
  simpa [Vector.getElem?_eq_getElem hi] using this

theorem row_lt {α : Type} {n : Nat} {v : Vector α n} {i : Nat} {a : α} (h : v[i]? = some a) : i < n := by
  by_contra hc
  rw [Vector.getElem?_eq_none (by omega)] at h
  simp at h

theorem row_of_lt {α : Type} {n : Nat} (v : Vector α n) {i : Nat} (h : i < n) : ∃ a, v[i]? = some a :=
  ⟨v[i], Vector.getElem?_eq_getElem h⟩

@[simp] theorem toList_getElem? {α : Type} {n : Nat} (v : Vector α n) (i : Nat) : v.toList[i]? = v[i]? := by
  simp [Vector.toList]

theorem findRow_eq_none_iff {α : Type} {n : Nat} (p : α → Bool) (v : Vector α n) :
    findRow p v = none ↔ ∀ (i : Nat) (a : α), v[i]? = some a → p a = false := by
  unfold findRow
  rw [List.findIdx?_eq_none_iff]
  constructor
  · intro h i a ha
    apply h
    rw [List.mem_iff_getElem?]
    exact ⟨i, by simpa using ha⟩
  · intro h x hx
    obtain ⟨i, hi⟩ := List.mem_iff_getElem?.1 hx
    exact h i x (by simpa using hi)

theorem findRow_eq_some_iff {α : Type} {n : Nat} (p : α → Bool) (v : Vector α n) (i : Nat) :
    findRow p v = some i ↔
      (∃ a, v[i]? = some a ∧ p a = true) ∧ ∀ (j : Nat) (b : α), j < i → v[j]? = some b → p b = false := by
  unfold findRow
  rw [List.findIdx?_eq_some_iff_getElem]
  constructor
  · rintro ⟨hi, hp, hlt⟩
    have hi' : i < n := by simpa using hi
    refine ⟨⟨v[i], Vector.getElem?_eq_getElem hi', by simpa using hp⟩, ?_⟩
    intro j b hj hb
    have hjn : j < n := by omega
    have := hlt j hj
    rw [Vector.getElem?_eq_getElem hjn] at hb
    simp at hb
    subst hb
    simpa using this
  · rintro ⟨⟨a, ha, hp⟩, hlt⟩
    have hi' := row_lt ha
    refine ⟨by simpa using hi', ?_, ?_⟩
    · rw [Vector.getElem?_eq_getElem hi'] at ha
      simp at ha
      simpa [ha] using hp
    · intro j hj
      have hjn : j < n := by omega
      have := hlt j v[j] hj (Vector.getElem?_eq_getElem hjn)
      simpa using this

theorem mapRows_mapRows {α : Type} {n : Nat} (f g : α → α) (v : Vector α n) :
    mapRows f (mapRows g v) = mapRows (fun a => f (g a)) v := by
  apply rows_ext; intro i; cases h : v[i]? <;> simp [h]

theorem modifyRow_modifyRow {α : Type} {n : Nat} (v : Vector α n) (i : Nat) (f g : α → α) :
    modifyRow (modifyRow v i f) i g = modifyRow v i (fun a => g (f a)) := by
  apply rows_ext; intro j
  simp only [modifyRow_getElem?]
  by_cases h : j = i
  · cases h' : v[i]? <;> simp [h]
  · simp [h]

/-! ### Bytes that are small numbers -/

theorem byteOf_toNat {n : Nat} (h : n < 256) : (byteOf n).toNat = n := by
  simp [byteOf]; omega

@[simp] theorem byteOf_toNat_self (b : Byte) : byteOf b.toNat = b := by
  simp [byteOf]

/-! ### Roles -/

theorem roleAt_lt {s : State} {i : Nat} {r : Role} (h : s.roleAt i = some r) : i < 96 := by
  unfold State.roleAt at h
  cases hr : s.roles[i]? with
  | none => simp [hr] at h
  | some e => exact row_lt hr

theorem roleAt_of_roles {s t : State} (h : s.roles = t.roles) (i : Nat) : s.roleAt i = t.roleAt i := by
  simp [State.roleAt, h]

theorem handleAt_of_roles {s t : State} (h : s.roles = t.roles) (i : Nat) : s.handleAt i = t.handleAt i := by
  simp [State.handleAt, h]

theorem named_of_roles {s t : State} (h : s.roles = t.roles) (x : Handle) : s.named x = t.named x := by
  simp [State.named, h]

theorem named_eq_some_iff (s : State) (h : Handle) (r : Role) :
    s.named h = some r ↔ s.roles[h.index.toNat]? = some ⟨h.incarnation, some r⟩ := by
  unfold State.named
  cases he : s.roles[h.index.toNat]? with
  | none => simp
  | some e =>
    obtain ⟨n, o⟩ := e
    by_cases hn : n = h.incarnation <;> simp [hn]

theorem roleAt_of_named {s : State} {h : Handle} {r : Role} (hn : s.named h = some r) :
    s.roleAt h.index.toNat = some r := by
  rw [named_eq_some_iff] at hn
  simp [State.roleAt, hn]

theorem handleAt_of_named {s : State} {h : Handle} {r : Role} (hn : s.named h = some r) :
    s.handleAt h.index.toNat = h := by
  rw [named_eq_some_iff] at hn
  obtain ⟨i, n⟩ := h
  simp only [] at hn
  simp [State.handleAt, hn]

theorem handleAt_index {s : State} {i : Nat} (h : i < 96) : (s.handleAt i).index.toNat = i :=
  byteOf_toNat (by omega)

theorem row_of_roleAt {s : State} {i : Nat} {r : Role} (h : s.roleAt i = some r) :
    s.roles[i]? = some ⟨(s.handleAt i).incarnation, some r⟩ := by
  unfold State.roleAt at h
  cases hr : s.roles[i]? with
  | none => simp [hr] at h
  | some e =>
    obtain ⟨n, o⟩ := e
    simp [hr] at h
    simp [State.handleAt, hr, h]

theorem named_handleAt {s : State} {i : Nat} {r : Role} (h : s.roleAt i = some r) :
    s.named (s.handleAt i) = some r := by
  rw [named_eq_some_iff, handleAt_index (roleAt_lt h)]
  exact row_of_roleAt h

theorem roleAt_putRole (s : State) (i j : Nat) (r : Role) :
    (s.putRole i r).roleAt j = if j = i ∧ i < 96 then some r else s.roleAt j := by
  unfold State.roleAt State.putRole
  simp only [modifyRow_getElem?]
  by_cases h : j = i
  · subst h
    by_cases hj : j < 96
    · obtain ⟨e, he⟩ := row_of_lt s.roles hj
      simp [hj]
    · rw [Vector.getElem?_eq_none (show 96 ≤ j by omega)]
      simp [hj]
  · simp [h]

theorem roleAt_freeEntry (s : State) (i j : Nat) :
    (s.freeEntry i).roleAt j = if j = i then none else s.roleAt j := by
  unfold State.roleAt State.freeEntry
  simp only [modifyRow_getElem?]
  by_cases h : j = i
  · subst h
    cases he : s.roles[j]? <;> simp
  · simp [h]

theorem incarnation_putRole (s : State) (i j : Nat) (r : Role) :
    ((s.putRole i r).roles[j]?).map Entry.incarnation = (s.roles[j]?).map Entry.incarnation := by
  unfold State.putRole
  simp only [modifyRow_getElem?]
  by_cases h : j = i
  · subst h; cases he : s.roles[j]? <;> simp
  · simp [h]

theorem incarnation_freeEntry (s : State) (i j : Nat) :
    ((s.freeEntry i).roles[j]?).map Entry.incarnation = (s.roles[j]?).map Entry.incarnation := by
  unfold State.freeEntry
  simp only [modifyRow_getElem?]
  by_cases h : j = i
  · subst h; cases he : s.roles[j]? <;> simp
  · simp [h]

@[simp] theorem handleAt_putRole (s : State) (i j : Nat) (r : Role) : (s.putRole i r).handleAt j = s.handleAt j := by
  simp [State.handleAt, incarnation_putRole]

@[simp] theorem handleAt_freeEntry (s : State) (i j : Nat) : (s.freeEntry i).handleAt j = s.handleAt j := by
  simp [State.handleAt, incarnation_freeEntry]

theorem putRole_putRole (s : State) (i : Nat) (r r' : Role) : (s.putRole i r).putRole i r' = s.putRole i r' := by
  simp [State.putRole, modifyRow_modifyRow]

theorem freeEntry_putRole (s : State) (i : Nat) (r : Role) : (s.putRole i r).freeEntry i = s.freeEntry i := by
  simp [State.putRole, State.freeEntry, modifyRow_modifyRow]

/-! ### Reading roles and stations after an update of another record -/

@[simp] theorem roleAt_markPending (s : State) (h : Handle) (i : Nat) : (s.markPending h).roleAt i = s.roleAt i := rfl
@[simp] theorem handleAt_markPending (s : State) (h : Handle) (i : Nat) : (s.markPending h).handleAt i = s.handleAt i := rfl
@[simp] theorem named_markPending (s : State) (h : Handle) (y : Handle) : (s.markPending h).named y = s.named y := rfl
@[simp] theorem station_markPending (s : State) (h : Handle) (b : Byte) : (s.markPending h).station b = s.station b := rfl
@[simp] theorem roleAt_finalWatches (s : State) (h : Handle) (g : Half) (i : Nat) : (s.finalWatches h g).roleAt i = s.roleAt i := rfl
@[simp] theorem handleAt_finalWatches (s : State) (h : Handle) (g : Half) (i : Nat) : (s.finalWatches h g).handleAt i = s.handleAt i := rfl
@[simp] theorem named_finalWatches (s : State) (h : Handle) (g : Half) (y : Handle) : (s.finalWatches h g).named y = s.named y := rfl
@[simp] theorem station_finalWatches (s : State) (h : Handle) (g : Half) (b : Byte) : (s.finalWatches h g).station b = s.station b := rfl
@[simp] theorem roleAt_setWatch (s : State) (n : Nat) (o : Option Watch) (i : Nat) : (s.setWatch n o).roleAt i = s.roleAt i := rfl
@[simp] theorem handleAt_setWatch (s : State) (n : Nat) (o : Option Watch) (i : Nat) : (s.setWatch n o).handleAt i = s.handleAt i := rfl
@[simp] theorem named_setWatch (s : State) (n : Nat) (o : Option Watch) (y : Handle) : (s.setWatch n o).named y = s.named y := rfl
@[simp] theorem station_setWatch (s : State) (n : Nat) (o : Option Watch) (b : Byte) : (s.setWatch n o).station b = s.station b := rfl
@[simp] theorem roleAt_purgeWatches (s : State) (a : Byte) (i : Nat) : (s.purgeWatches a).roleAt i = s.roleAt i := rfl
@[simp] theorem handleAt_purgeWatches (s : State) (a : Byte) (i : Nat) : (s.purgeWatches a).handleAt i = s.handleAt i := rfl
@[simp] theorem named_purgeWatches (s : State) (a : Byte) (y : Handle) : (s.purgeWatches a).named y = s.named y := rfl
@[simp] theorem station_purgeWatches (s : State) (a : Byte) (b : Byte) : (s.purgeWatches a).station b = s.station b := rfl
@[simp] theorem roleAt_raise (s : State) (c : Cause) (x : AttentionSubject) (i : Nat) : (s.raise c x).roleAt i = s.roleAt i := rfl
@[simp] theorem handleAt_raise (s : State) (c : Cause) (x : AttentionSubject) (i : Nat) : (s.raise c x).handleAt i = s.handleAt i := rfl
@[simp] theorem named_raise (s : State) (c : Cause) (x : AttentionSubject) (y : Handle) : (s.raise c x).named y = s.named y := rfl
@[simp] theorem station_raise (s : State) (c : Cause) (x : AttentionSubject) (b : Byte) : (s.raise c x).station b = s.station b := rfl
@[simp] theorem roleAt_drive (s : State) (i : Nat) : (s.drive).roleAt i = s.roleAt i := rfl
@[simp] theorem handleAt_drive (s : State) (i : Nat) : (s.drive).handleAt i = s.handleAt i := rfl
@[simp] theorem named_drive (s : State) (y : Handle) : (s.drive).named y = s.named y := rfl
@[simp] theorem station_drive (s : State) (b : Byte) : (s.drive).station b = s.station b := rfl
@[simp] theorem roleAt_unsynchronise (s : State) (i : Nat) : (s.unsynchronise).roleAt i = s.roleAt i := rfl
@[simp] theorem handleAt_unsynchronise (s : State) (i : Nat) : (s.unsynchronise).handleAt i = s.handleAt i := rfl
@[simp] theorem named_unsynchronise (s : State) (y : Handle) : (s.unsynchronise).named y = s.named y := rfl
@[simp] theorem station_unsynchronise (s : State) (b : Byte) : (s.unsynchronise).station b = s.station b := rfl
@[simp] theorem station_putRole (s : State) (i : Nat) (r : Role) (b : Byte) : (s.putRole i r).station b = s.station b := rfl
@[simp] theorem station_freeEntry (s : State) (i : Nat) (b : Byte) : (s.freeEntry i).station b = s.station b := rfl
@[simp] theorem station_purgeClaims (s : State) (a : Byte) (b : Byte) : (s.purgeClaims a).station b = s.station b := rfl

/-! ### Watches -/

theorem finalWatches_markPending (s : State) (h : Handle) (g : Half) :
    (s.markPending h).finalWatches h g = s.finalWatches h g := by
  simp only [State.finalWatches, State.markPending, mapRows_mapRows]
  congr 2
  funext o
  cases o with
  | none => rfl
  | some w =>
    by_cases hw : w.handle = h
    · by_cases hf : w.final = none <;> simp [hw, hf, State.rankReaches]
    · simp [hw]

/-! ### Stations -/

theorem isStation_iff (a : Byte) : isStation a = true ↔ 1 ≤ a.toNat ∧ a.toNat ≤ 56 := by
  simp only [isStation, Bool.and_eq_true, decide_eq_true_eq, BitVec.le_def]
  constructor <;> intro h <;> simpa using h

theorem station_isStation {s : State} {a : Byte} {st : Station} (h : s.station a = some st) : isStation a = true := by
  unfold State.station at h
  split at h
  · assumption
  · simp at h

theorem station_setStation (s : State) (a b : Byte) (e : Option Station) :
    (s.setStation a e).station b = if b = a ∧ isStation a = true then e else s.station b := by
  unfold State.setStation
  by_cases ha : isStation a = true
  · simp only [ha, if_true]
    unfold State.station
    by_cases hb : isStation b = true
    · simp only [hb, if_true]
      have h1 := (isStation_iff a).1 ha
      have h2 := (isStation_iff b).1 hb
      by_cases hab : b = a
      · subst hab
        simp [show b.toNat - 1 < 56 by omega]
      · have : a.toNat - 1 ≠ b.toNat - 1 := by
          intro hc
          apply hab
          apply BitVec.eq_of_toNat_eq
          omega
        simp [this, hab]
    · have : b ≠ a := by rintro rfl; exact hb ha
      simp [hb, this]
  · simp [ha]

theorem setStation_only (s : State) (a : Byte) (e : Option Station) :
    s.setStation a e = { s with stations := (s.setStation a e).stations } := by
  unfold State.setStation; split <;> rfl

theorem setStation_setStation (s : State) (a : Byte) (e e' : Option Station) :
    (s.setStation a e).setStation a e' = s.setStation a e' := by
  unfold State.setStation
  by_cases ha : isStation a = true <;> simp [ha]

theorem clearStrikes_only (s : State) (a : Byte) :
    s.clearStrikes a = { s with stations := (s.clearStrikes a).stations } := by
  unfold State.clearStrikes
  split
  · exact setStation_only _ _ _
  · rfl

theorem station_clearStrikes (s : State) (a b : Byte) :
    (s.clearStrikes a).station b =
      if b = a then (s.station a).map (fun st => { st with strikes := 0 }) else s.station b := by
  unfold State.clearStrikes
  cases h : s.station a with
  | none => by_cases hb : b = a <;> simp [hb, h]
  | some st => simp [station_setStation, station_isStation h]

theorem isSome_station_clearStrikes (s : State) (a b : Byte) :
    ((s.clearStrikes a).station b).isSome = (s.station b).isSome := by
  rw [station_clearStrikes]; split <;> simp_all

/-- Nothing but the station table depends on a strike reset. -/
theorem clearStrikes_eq_iff (s : State) (a : Byte) :
    (s.clearStrikes a).roles = s.roles ∧ (s.clearStrikes a).watches = s.watches
      ∧ (s.clearStrikes a).frame = s.frame ∧ (s.clearStrikes a).link = s.link
      ∧ (s.clearStrikes a).epoch = s.epoch ∧ (s.clearStrikes a).config = s.config
      ∧ (s.clearStrikes a).attention = s.attention ∧ (s.clearStrikes a).answer = s.answer
      ∧ (s.clearStrikes a).pins = s.pins ∧ (s.clearStrikes a).clearing = s.clearing := by
  rw [clearStrikes_only]; exact ⟨rfl, rfl, rfl, rfl, rfl, rfl, rfl, rfl, rfl, rfl⟩

end Sys2Proof.Machine
end

