-- ==== Sys2Proof/Laws/Events.lean ====
section
/-! SUPPORT. One lemma for each shared operation at a role: what a grant, a retirement, a loss of the holder, a skip, a failed attempt and an offer's outcome make of the state, in the words of Safety. -/

namespace Sys2Proof.Machine

open Sys2Proof.Safety

theorem onRole_some {s : State} {i : Nat} {r : Role} (h : s.roleAt i = some r) (f : Role → State) :
    s.onRole i f = f r := by
  simp [State.onRole, h]

theorem onRole_none {s : State} {i : Nat} (h : s.roleAt i = none) (f : Role → State) :
    s.onRole i f = s := by
  simp [State.onRole, h]

theorem raise_eq (s : State) (c : Cause) (x : AttentionSubject) :
    s.raise c x = { s with attention := s.attention.raise c x } := rfl

theorem changeRole_eq {s : State} {i : Nat} (hi : i < 96) (r : Role) :
    s.changeRole i r =
      (s.putRole (s.handleAt i).index.toNat { r with generation := r.generation + 1 }).markPending (s.handleAt i) := by
  simp [State.changeRole, handleAt_index hi]

/-- R73. -/
theorem grant_eq {s : State} {i : Nat} {r : Role} (h : s.roleAt i = some r) (a : Byte) :
    s.grant i a = afterGrant s (s.handleAt i) r a := by
  simp [State.grant, onRole_some h, changeRole_eq (roleAt_lt h), afterGrant]

/-- R57. -/
theorem retire_eq {s : State} {i : Nat} {r : Role} (h : s.roleAt i = some r) :
    s.retire i = afterRetirement s (s.handleAt i) (r.generation + 1) := by
  simp [State.retire, onRole_some h, afterRetirement, handleAt_index (roleAt_lt h)]

/-- R117, R103. -/
theorem skip_eq {s : State} {i : Nat} {r : Role} (h : s.roleAt i = some r) :
    s.skip i = afterSkip s (s.handleAt i) r := by
  have hi := handleAt_index (s := s) (roleAt_lt h)
  unfold State.skip State.passOn afterSkip roleAfterSkip offerToHead
  rw [onRole_some h]
  cases hc : r.chain with
  | cons c rest => simp [Role.offerTo, hi]
  | nil =>
    simp only [State.leaveEmpty, onRole_some h]
    cases hk : r.kind with
    | transient => simp [retire_eq h]
    | pinned => simp [changeRole_eq (roleAt_lt h), hi, hc]

/-- R74, R102, R103. -/
theorem loseHolder_eq {s : State} {i : Nat} {r : Role} (h : s.roleAt i = some r) :
    s.loseHolder i = afterLoss s (s.handleAt i) r := by
  have hi := roleAt_lt h
  have hh := handleAt_index (s := s) hi
  unfold State.loseHolder
  rw [onRole_some h]
  have h1 : (s.changeRole i { r with tenure := .vacant }).roleAt i =
      some { r with tenure := .vacant, generation := r.generation + 1 } := by
    simp [State.changeRole, roleAt_putRole, hi]
  have hha : (s.changeRole i { r with tenure := .vacant }).handleAt i = s.handleAt i := by
    simp [State.changeRole]
  unfold State.handover State.passOn afterLoss roleAfterLoss offerToHead
  rw [onRole_some h1]
  cases hc : r.chain with
  | cons c rest =>
    simp only [noteVacancy, Role.offerTo, hh]
    show ((s.putRole i _).putRole i _).markPending _ = _
    rw [putRole_putRole]
    simp
  | nil =>
    rw [hc] at h1
    have h2 := h1
    simp only [hc] at hha
    simp only [State.leaveEmpty, onRole_some h1]
    cases hk : r.kind with
    | transient =>
      rw [hk] at h1 hha
      simp only [retire_eq h1, hha, afterRetirement, hh]
      show (((s.putRole i _).freeEntry i).markPending _).finalWatches _ _ = _
      rw [freeEntry_putRole, finalWatches_markPending]
      rfl
    | pinned =>
      rw [hk] at hha
      simp only [noteVacancy, hh, hha, if_true]
      show (((s.putRole i _).putRole i _).markPending _).raise _ _ = _
      rw [putRole_putRole]

/-- R111. -/
theorem failOffer_eq {s : State} {h : Handle} {r : Role} {o : Offer} (hn : s.named h = some r) :
    s.failOffer h.index.toNat r o = afterFailure s h r o := by
  unfold State.failOffer afterFailure Config.attemptLimit
  rw [skip_eq (roleAt_of_named hn), handleAt_of_named hn]
  by_cases ho : o.attempts + 1 < 3
  · simp [ho, show o.attempts ≤ 1 by omega]
  · simp [ho, show ¬ o.attempts ≤ 1 by omega]

theorem currentOffer_eq_some_iff (s : State) (h : Handle) (number : Byte) (r : Role) (o : Offer) :
    s.currentOffer h number = some (r, o) ↔
      s.named h = some r ∧ r.tenure = .offered o ∧ o.number = number ∧ o.phase = .inFlight := by
  unfold State.currentOffer
  cases hn : s.named h with
  | none => simp
  | some r' =>
    obtain ⟨tag, kind, tenure, term, g, on, chain⟩ := r'
    cases tenure with
    | vacant =>
      simp only [Option.some.injEq]
      constructor
      · simp
      · rintro ⟨rfl, h2, -⟩; simp at h2
    | held _ _ _ =>
      simp only [Option.some.injEq]
      constructor
      · simp
      · rintro ⟨rfl, h2, -⟩; simp at h2
    | offered o' =>
      by_cases hc : o'.number = number ∧ o'.phase = .inFlight
      · simp only [hc, and_self, if_true, Option.some.injEq, Prod.mk.injEq]
        constructor
        · rintro ⟨rfl, rfl⟩; exact ⟨rfl, rfl, hc.1, hc.2⟩
        · rintro ⟨rfl, h2, -⟩; injection h2 with h2; exact ⟨rfl, h2⟩
      · simp only [hc, if_false, Option.some.injEq]
        constructor
        · simp
        · rintro ⟨rfl, h2, h3⟩; injection h2 with h2; subst h2; exact absurd h3 hc

/-- R110, R111. -/
theorem offerOutcome_valid {s : State} {h : Handle} {number : Byte} {r : Role} {o : Offer}
    (hc : s.currentOffer h number = some (r, o)) (status : Byte) :
    s.offerOutcome h number (.valid status) = afterOfferAnswer s h r o status := by
  have h1 := (currentOffer_eq_some_iff _ _ _ _ _).1 hc
  have hr := roleAt_of_named h1.1
  unfold State.offerOutcome afterOfferAnswer
  rw [hc]
  simp only [grant_eq hr, skip_eq hr, handleAt_of_named h1.1, failOffer_eq h1.1, State.setOfferPhase,
    onRole_some hr, h1.2.1, slotAccept, slotDecline, slotWait]

/-- R110, R111. -/
theorem offerOutcome_failed {s : State} {h : Handle} {number : Byte} {r : Role} {o : Offer}
    (hc : s.currentOffer h number = some (r, o)) (outcome : FrameOutcome) (hv : ∀ x, outcome ≠ .valid x) :
    s.offerOutcome h number outcome = afterFailure s h r o := by
  have h1 := (currentOffer_eq_some_iff _ _ _ _ _).1 hc
  unfold State.offerOutcome
  rw [hc]
  cases outcome with
  | valid x => exact absurd rfl (hv x)
  | _ => simp [failOffer_eq h1.1]

/-- R132, R133, R135. -/
theorem noticeOutcome_valid {s : State} {n : Nat} {watcher : Byte} {h : Handle} {w : Watch} (final : Bool)
    (hw : s.watchNamed n watcher h = some w) (status : Byte) :
    s.noticeOutcome n watcher h final (.valid status) = s.setWatch n (watchAfterAnswer w final status) := by
  unfold State.noticeOutcome watchAfterAnswer
  simp only [hw, slotAck, FrameOutcome.valid.injEq]
  by_cases hs : status = 0x83
  · simp only [hs, if_true]; split <;> rfl
  · simp only [hs, if_false, State.failNotice, watchAfterFailure, Config.attemptLimit]
    by_cases h1 : w.attempts + 1 < 3
    · simp [h1, show w.attempts ≤ 1 by omega]
    · simp only [h1, show ¬ w.attempts ≤ 1 by omega, if_false]; split <;> rfl

/-- R132, R133, R135. -/
theorem noticeOutcome_failed {s : State} {n : Nat} {watcher : Byte} {h : Handle} {w : Watch} (final : Bool)
    (hw : s.watchNamed n watcher h = some w) (outcome : FrameOutcome) (hv : ∀ x, outcome ≠ .valid x) :
    s.noticeOutcome n watcher h final outcome = s.setWatch n (watchAfterFailure w) := by
  unfold State.noticeOutcome
  simp only [hw, hv, if_false, State.failNotice, watchAfterFailure, Config.attemptLimit]
  by_cases h1 : w.attempts + 1 < 3
  · simp [h1, show w.attempts ≤ 1 by omega]
  · simp only [h1, show ¬ w.attempts ≤ 1 by omega, if_false]; split <;> rfl

end Sys2Proof.Machine
end

