-- ==== Sys2Proof/Laws/Gate.lean ====
section
/-! SUPPORT. How a request and a command come to their meanings: what the readers make of the layouts of R169 and R171, and what `request` and `command` answer. -/

namespace Sys2Proof.Machine

open Sys2Proof.Safety

/-! ### Layouts -/

theorem halfOf_extract (h : Half) : halfOf (h.extractLsb' 8 8) (h.extractLsb' 0 8) = h := by
  unfold halfOf
  ext i hi
  simp only [BitVec.getElem_append, BitVec.getElem_extractLsb']
  split
  · simp [BitVec.getLsbD_eq_getElem (show i < 16 by omega)]
  · rw [show 8 + (i - 8) = i by omega, BitVec.getLsbD_eq_getElem (show i < 16 by omega)]

theorem halfOf_halfBytes (a b : Byte) : halfBytes (halfOf a b) = [a, b] := by
  unfold halfBytes halfOf
  have h1 : ∀ i : Nat, i < 8 → (a ++ b : BitVec (8 + 8)).getLsbD (8 + i) = a.getLsbD i := by
    intro i hi; simp only [BitVec.getLsbD_append]; rw [if_neg (by omega), show 8 + i - 8 = i by omega]
  have h2 : ∀ i : Nat, i < 8 → (a ++ b : BitVec (8 + 8)).getLsbD (0 + i) = b.getLsbD i := by
    intro i hi; simp only [BitVec.getLsbD_append]; rw [if_pos (by omega), show 0 + i = i by omega]
  congr 1
  · ext i hi
    rw [BitVec.getElem_extractLsb', ← BitVec.getLsbD_eq_getElem hi]
    exact h1 i hi
  · congr 1
    ext i hi
    rw [BitVec.getElem_extractLsb', ← BitVec.getLsbD_eq_getElem hi]
    exact h2 i hi

theorem halfBytes_eq_cons (h : Half) : halfBytes h = [h.extractLsb' 8 8, h.extractLsb' 0 8] := rfl

theorem serialOf_extract (w : Serial) :
    serialOf (w.extractLsb' 24 8) (w.extractLsb' 16 8) (w.extractLsb' 8 8) (w.extractLsb' 0 8) = w := by
  unfold serialOf
  ext i hi
  simp only [BitVec.getElem_append, BitVec.getElem_extractLsb']
  repeat' split
  all_goals (rw [BitVec.getLsbD_eq_getElem (by omega)]; congr 1; omega)

theorem serialBytes_serialOf (a b c d : Byte) : serialBytes (serialOf a b c d) = [a, b, c, d] := by
  unfold serialBytes serialOf
  have h : ∀ k i : Nat, i < 8 → (a ++ b ++ c ++ d : BitVec (8 + 8 + 8 + 8)).getLsbD (k + i) =
      if k + i < 8 then d.getLsbD (k + i) else if k + i - 8 < 8 then c.getLsbD (k + i - 8) else
      if k + i - 8 - 8 < 8 then b.getLsbD (k + i - 8 - 8) else a.getLsbD (k + i - 8 - 8 - 8) := by
    intro k i hi; simp only [BitVec.getLsbD_append]
  simp only [List.cons.injEq, and_true]
  refine ⟨?_, ?_, ?_, ?_⟩ <;> ext i hi <;> rw [BitVec.getElem_extractLsb', ← BitVec.getLsbD_eq_getElem hi] <;>
    refine (h _ i hi).trans ?_ <;>
    (first
      | (rw [if_neg (by omega), if_neg (by omega), if_neg (by omega)]; congr 1; omega)
      | (rw [if_neg (by omega), if_neg (by omega), if_pos (by omega)]; congr 1; omega)
      | (rw [if_neg (by omega), if_pos (by omega)]; congr 1; omega)
      | (rw [if_pos (by omega)]; congr 1; omega))

theorem termOf_termBytes {n : Nat} (h1 : 1 ≤ n) (h2 : n ≤ 4095) :
    ∃ a b, termBytes n = [a, b] ∧ termOf a b = some n := by
  refine ⟨_, _, halfBytes_eq_cons _, ?_⟩
  unfold termOf
  simp only [halfOf_extract]
  rw [show (BitVec.ofNat 16 n).toNat = n by simp; omega]
  simp [Config.termMax, h1, h2]

theorem isTagChar_ne_zero {c : Byte} (h : isTagChar c = true) : c ≠ 0 := by
  rintro rfl
  revert h
  decide

theorem tagBytes_length {t : Tag} (h : t.legal = true) : (tagBytes t).length = 8 := by
  unfold Tag.legal at h
  simp only [Bool.and_eq_true, decide_eq_true_eq] at h
  simp [tagBytes, padTo]; omega

theorem takeWhile_tagBytes {t : Tag} (h : t.legal = true) :
    (tagBytes t).takeWhile (· != 0) = t := by
  unfold Tag.legal at h
  simp only [Bool.and_eq_true, List.all_eq_true, decide_eq_true_eq] at h
  unfold tagBytes padTo
  rw [List.takeWhile_append_of_pos]
  · have : List.takeWhile (fun x : Byte => x != 0) (List.replicate (8 - t.length) 0) = [] := by
      cases 8 - t.length <;> simp [List.replicate]
    rw [this]; simp
  · intro c hc
    simpa using isTagChar_ne_zero (h.2 c hc)

theorem tagOf_tagBytes {t : Tag} (h : t.legal = true) : tagOf (tagBytes t) = some t := by
  unfold tagOf
  simp only [takeWhile_tagBytes h, tagBytes_length h, h]
  have : (tagBytes t).drop t.length = List.replicate (8 - t.length) 0 := by
    simp [tagBytes, padTo]
  simp [this]

theorem tagBytes_of_tagOf {field : List Byte} {t : Tag} (h : tagOf field = some t) :
    t.legal = true ∧ field = tagBytes t := by
  unfold tagOf at h
  simp only [Bool.and_eq_true, beq_iff_eq, List.all_eq_true] at h
  split at h
  · rename_i hc
    injection h with h
    obtain ⟨⟨h8, hl⟩, hz⟩ := hc
    rw [h] at hl hz
    refine ⟨hl, ?_⟩
    have h1 : field = t ++ field.drop t.length := by
      conv_lhs => rw [← List.takeWhile_append_dropWhile (p := fun x : Byte => x != 0) (l := field)]
      rw [h]
      congr 1
      have := List.takeWhile_append_dropWhile (p := fun x : Byte => x != 0) (l := field)
      rw [h] at this
      conv_rhs => rw [← this]
      simp
    have h2 : field.drop t.length = List.replicate (8 - t.length) 0 := by
      rw [List.eq_replicate_iff]
      refine ⟨by simp [h8], ?_⟩
      intro b hb
      exact hz b hb
    unfold tagBytes padTo
    rw [← h2]
    exact h1
  · simp at h

theorem handleBody_pair {i : Byte} (n : Byte) (h : i.toNat ≤ 95) : handleBody [i, n] = some ⟨i, n⟩ := by
  simp [handleBody, isRoleIndex, Config.roleCount, show i.toNat < 96 by omega]

theorem handleBody_bytes {s : State} {i : Nat} {r : Role} (h : s.roleAt i = some r) :
    handleBody (s.handleAt i).bytes = some (s.handleAt i) := by
  have := handleAt_index (s := s) (roleAt_lt h)
  have := roleAt_lt h
  exact handleBody_pair _ (by omega)

theorem claimBody_tag {t : Tag} {rank : Byte} (h : t.legal = true) (h1 : 1 ≤ rank.toNat) (h7 : rank.toNat ≤ 7) :
    claimBody (tagBytes t ++ [rank]) = some (t, rank.toNat) := by
  have h8 := tagBytes_length h
  unfold claimBody
  rw [List.take_left' h8, List.drop_left' h8]
  simp [tagOf_tagBytes h, h1, h7]

theorem changeBody_fields {i : Byte} (n : Byte) (g : Half) {attr : List Byte} (h : i.toNat ≤ 95) (ha : attr.length ≤ 8) :
    changeBody ([i, n] ++ halfBytes g ++ attr) = some (⟨i, n⟩, g, attr) := by
  simp [changeBody, halfBytes, isRoleIndex, Config.roleCount, show i.toNat < 96 by omega, ha, halfOf_extract]

theorem watchBody_fields {i : Byte} (n : Byte) {rank : Byte} (h : i.toNat ≤ 95) (hr : rank.toNat ≤ 7) :
    watchBody [i, n, rank] = some (⟨i, n⟩, rank.toNat) := by
  simp [watchBody, isRoleIndex, Config.roleCount, show i.toNat < 96 by omega, hr]

theorem serialBody_bytes {w : Serial} (h : w ≠ 0) : serialBody (serialBytes w) = some w := by
  unfold serialBody serialBytes
  simp only [serialOf_extract, h, if_false]

theorem setTermOperands_fields {i : Byte} (n : Byte) {term : Nat} (h : i.toNat ≤ 95) (h1 : 1 ≤ term)
    (h2 : term ≤ 4095) : setTermOperands ([i, n] ++ termBytes term) = some (⟨i, n⟩, term) := by
  obtain ⟨a, b, hb, ht⟩ := termOf_termBytes h1 h2
  simp [setTermOperands, hb, ht, isRoleIndex, Config.roleCount, show i.toNat < 96 by omega]

theorem defineOperands_fields {t : Tag} {term : Nat} (h : t.legal = true) (h1 : 1 ≤ term) (h2 : term ≤ 4095) :
    defineOperands (tagBytes t ++ termBytes term) = some (t, term) := by
  obtain ⟨a, b, hb, ht⟩ := termOf_termBytes h1 h2
  have h8 := tagBytes_length h
  unfold defineOperands
  rw [List.take_left' h8, List.drop_left' h8]
  simp [tagOf_tagBytes h, hb, ht]

/-- A field that is no legal tag's is not read as one. -/
theorem tagOf_none {body : List Byte} (h : ∀ t : Tag, t.legal = true → body ≠ tagBytes t) : tagOf body = none := by
  cases ht : tagOf body with
  | none => rfl
  | some t => exact absurd (tagBytes_of_tagOf ht).2 (h t (tagBytes_of_tagOf ht).1)

/-! ### Passing the gate and the port -/

theorem isStation_ne_zero {a : Byte} (h : isStation a = true) : a ≠ 0 := by
  rintro rfl; revert h; decide

/-- A request that R12 admits reaches its owning block. -/
theorem request_passed {α : Type} {s : State} {read : List Byte → Option α} {owner : Owner α} {src epoch : Byte}
    {body : List Byte} {x : α} (h : admits s src epoch) (hl : body.length ≤ 24) (hr : read body = some x) :
    s.request false read owner src epoch body =
      withAnswer (owner x src (s.clearStrikes src)).1 (owner x src (s.clearStrikes src)).2.status
        (owner x src (s.clearStrikes src)).2.body := by
  obtain ⟨h1, h2, h3, h4, h5⟩ := h
  have hs : (s.clearStrikes src).station src ≠ none := by
    have := isSome_station_clearStrikes s src src
    rw [show (s.station src).isSome = true from h5] at this
    exact Option.isSome_iff_ne_none.1 this
  have hq := clearStrikes_eq_iff s src
  unfold State.request
  simp only [h1, Bool.true_eq_false, if_false, Config.bodyMax, show ¬ 24 < body.length by omega,
    isStation_ne_zero h3]
  simp only [State.gate, hr, hq, h2, h3, h4, hs]
  simp [withAnswer]

/-- A request that R12 admits and whose body its CODE does not allow is refused. -/
theorem request_bad {α : Type} {s : State} {read : List Byte → Option α} {owner : Owner α} {src epoch : Byte}
    {body : List Byte} (h : admits s src epoch) (hl : body.length ≤ 24) (hr : read body = none) :
    s.request false read owner src epoch body = withAnswer (s.clearStrikes src) .badRequest [] := by
  obtain ⟨h1, h2, h3, h4, h5⟩ := h
  have hs : (s.clearStrikes src).station src ≠ none := by
    have := isSome_station_clearStrikes s src src
    rw [show (s.station src).isSome = true from h5] at this
    exact Option.isSome_iff_ne_none.1 this
  have hq := clearStrikes_eq_iff s src
  unfold State.request
  simp only [h1, Bool.true_eq_false, if_false, Config.bodyMax, show ¬ 24 < body.length by omega,
    isStation_ne_zero h3]
  simp only [State.gate, hr, hq, h2, h3, h4, hs]
  simp [withAnswer, hq, h2]


/-- A JOIN with a legal body reaches the Station Registry in ONLINE. -/
theorem join_passed {s : State} {owner : Owner Serial} {src epoch : Byte} {w : Serial} (h1 : s.listening = true)
    (h2 : s.link = .online) (h3 : isStation src = true ∨ src = 62) (hw : w ≠ 0) :
    s.request true serialBody owner src epoch (serialBytes w) =
      withAnswer (owner w src (s.clearStrikes src)).1 (owner w src (s.clearStrikes src)).2.status
        (owner w src (s.clearStrikes src)).2.body := by
  have hq := clearStrikes_eq_iff s src
  have h0 : src ≠ 0 := by
    rcases h3 with h | rfl
    · exact isStation_ne_zero h
    · decide
  unfold State.request
  simp only [h1, Bool.true_eq_false, if_false, Config.bodyMax, show ¬ 24 < (serialBytes w).length by simp [serialBytes], h0]
  simp only [State.gate, serialBody_bytes hw, hq, h2]
  rcases h3 with h | rfl
  · simp [h, withAnswer]
  · simp [isStation, withAnswer]

/-- A request that R12 does not pass: unanswered, or answered by the gate (R13). -/
theorem request_refused {α : Type} {s : State} {isJoin : Bool} {read : List Byte → Option α} {owner : Owner α} {src epoch : Byte}
    {body : List Byte} {r : Option Request} (hj : isJoin = decide (r = some .join))
    (hr : (read body).isSome = (r.map (fun r => bodyLegal r body)).getD false)
    (h1 : s.listening = true) (h2 : body.length ≤ 24) (h3 : src ≠ 0) :
    (gateAnswer s r src epoch body = some none → s.request isJoin read owner src epoch body = s.clearStrikes src)
    ∧ ∀ a, gateAnswer s r src epoch body = some (some a) →
      s.request isJoin read owner src epoch body = withAnswer (s.clearStrikes src) a.status a.body := by
  have hq := clearStrikes_eq_iff s src
  have hst : (isStation src = false ∧ src ≠ Config.unaddressed) ↔ (57#8 ≤ src ∧ src ≤ 61#8) ∨ 63#8 ≤ src := by
    have := (isStation_iff src).not
    rw [Bool.not_eq_true] at this
    rw [this]
    have h0 : src.toNat ≠ 0 := fun h => h3 (BitVec.eq_of_toNat_eq h)
    have h62 : src ≠ Config.unaddressed ↔ src.toNat ≠ 62 := by
      rw [not_iff_not]; exact ⟨fun h => by rw [h]; rfl, fun h => BitVec.eq_of_toNat_eq h⟩
    rw [h62]
    simp only [BitVec.le_def]
    show _ ↔ ((57 ≤ _ ∧ _ ≤ 61) ∨ 63 ≤ _)
    omega
  have hs : (s.clearStrikes src).station src = none ↔ joined s src = false := by
    have := isSome_station_clearStrikes s src src
    unfold joined; rw [← this]; simp
  have h62 : ∀ x : State, src = 62#8 → x.station src = none := by
    rintro x rfl; rfl
  unfold State.request
  simp only [h1, Bool.true_eq_false, if_false, Config.bodyMax, show ¬ 24 < body.length by omega, h3, State.gate, hq]
  unfold gateAnswer
  have hl1 : ∀ x : Option Answer, (some x : Option (Option Answer)) = some none ↔ x = none := by intro x; simp
  by_cases c1 : s.link = .offline ∨ s.link = .silent
  · simp [c1]
  simp only [c1, if_false]
  by_cases c2 : isStation src = false ∧ src ≠ Config.unaddressed
  · simp only [if_pos c2, if_pos (hst.1 c2)]; simp
  simp only [if_neg c2, if_neg (hst.not.1 c2)]
  by_cases c3 : s.link = .announcing
  · simp [c3, withAnswer, hq]
  simp only [c3, if_false]
  by_cases c4 : r = some .join
  · subst c4
    simp only [decide_true] at hj; subst hj
    simp only [Option.map_some, Option.getD_some] at hr
    simp only [if_true]
    cases hb : read body with
    | none => simp [hb] at hr; simp [← hr, withAnswer, hq]
    | some x => simp [hb] at hr; simp [← hr]
  have hj' : isJoin = false := by rw [hj]; simp [c4]
  subst hj'
  simp only [Bool.false_eq_true, if_false, c4]
  by_cases c5 : epoch ≠ s.epoch
  · simp [c5, withAnswer, hq]
  simp only [if_neg c5]
  by_cases c6 : src = 62#8 ∨ joined s src = false
  · have : (s.clearStrikes src).station src = none := by
      rcases c6 with h | h
      · exact h62 _ h
      · exact hs.2 h
    simp [c6, this, withAnswer, hq]
  have : (s.clearStrikes src).station src ≠ none := fun h => c6 (Or.inr (hs.1 h))
  simp only [this, c6, if_false]
  cases r with
  | none =>
    simp only [Option.map_none, Option.getD_none] at hr
    cases hb : read body with
    | none => simp [withAnswer, hq]
    | some x => simp [hb] at hr
  | some r =>
    simp only [Option.map_some, Option.getD_some] at hr
    cases hb : read body with
    | none => simp [hb] at hr; simp [← hr, withAnswer, hq]
    | some x => simp [hb] at hr; simp [← hr]

/-- A command that the port admits acts, and its response is written. -/
theorem command_passed {α : Type} {s : State} {c : Command} {read : List Byte → Option α} {act : Action α} {seq : Byte}
    {ops : List Byte} {x : α} (h : portOpen s) (hl : c.lenLegal ops.length = true) (hr : read ops = some x) :
    s.command c read act seq ops = (act x s).1.respond (act x s).2.1 seq (act x s).2.2 := by
  simp [State.command, State.powered, h.1, h.2, hl, hr]

/-! ### What does not depend on strikes, and finding roles -/

theorem named_clearStrikes (s : State) (a : Byte) (h : Handle) : (s.clearStrikes a).named h = s.named h :=
  named_of_roles (clearStrikes_eq_iff s a).1 h

theorem roleAt_clearStrikes (s : State) (a : Byte) (i : Nat) : (s.clearStrikes a).roleAt i = s.roleAt i :=
  roleAt_of_roles (clearStrikes_eq_iff s a).1 i

theorem handleAt_clearStrikes (s : State) (a : Byte) (i : Nat) : (s.clearStrikes a).handleAt i = s.handleAt i :=
  handleAt_of_roles (clearStrikes_eq_iff s a).1 i

theorem roleOfTag_clearStrikes (s : State) (a : Byte) (t : Tag) :
    (s.clearStrikes a).roleOfTag t = s.roleOfTag t := by
  simp [State.roleOfTag, (clearStrikes_eq_iff s a).1]

theorem roleOfTag_some {s : State} {i : Nat} {t : Tag} {r : Role} (h : carries s i t r) :
    s.roleOfTag t = some i := by
  unfold State.roleOfTag
  rw [findRow_eq_some_iff]
  refine ⟨⟨_, row_of_roleAt h.1, by simp [h.2.1]⟩, ?_⟩
  intro j e hj he
  by_contra hc
  simp only [Bool.not_eq_false, Option.any_eq_true] at hc
  obtain ⟨r', hr, ht⟩ := hc
  have := h.2.2 j r' (by simp [State.roleAt, he, hr]) (by simpa using ht)
  omega

theorem roleOfTag_none {s : State} {t : Tag} (h : uncarried s t) : s.roleOfTag t = none := by
  unfold State.roleOfTag
  rw [findRow_eq_none_iff]
  intro j e he
  by_contra hc
  simp only [Bool.not_eq_false, Option.any_eq_true] at hc
  obtain ⟨r', hr, ht⟩ := hc
  exact h j r' (by simp [State.roleAt, he, hr]) (by simpa using ht)

theorem freeIndex_some {s : State} {i : Nat} {n : Byte} (h : s.roleAt i = none) (hn : incarnationAt s i = some n)
    (hl : ∀ j, j < i → (s.roleAt j).isSome = true) : s.freeIndex = some i := by
  unfold State.freeIndex
  rw [findRow_eq_some_iff]
  unfold incarnationAt at hn
  cases he : s.roles[i]? with
  | none => simp [he] at hn
  | some e =>
    refine ⟨⟨e, rfl, ?_⟩, ?_⟩
    · simpa [State.roleAt, he] using h
    · intro j b hj hb
      have := hl j hj
      simpa [State.roleAt, hb, Option.isSome_iff_ne_none] using this

theorem freeIndex_none {s : State} (h : ∀ j, j < 96 → (s.roleAt j).isSome = true) : s.freeIndex = none := by
  unfold State.freeIndex
  rw [findRow_eq_none_iff]
  intro j e he
  have := h j (row_lt he)
  simpa [State.roleAt, he, Option.isSome_iff_ne_none] using this

end Sys2Proof.Machine
end

