-- ==== Sys2Proof/Laws/Lookup.lean ====
section
/-! SUPPORT. What the owning blocks look up: a claimant's place in a chain, which test of R86 a CLAIM meets, a station's watch record, an address for a serial. -/

namespace Sys2Proof.Machine

open Sys2Proof.Safety

/-- The holder of R65, R75 and R77 in the words of Safety. -/
theorem isStation_holder {r : Role} {src : Byte} (h : isStation src = true) : (r.tenure.holder ≠ src) ↔ heldBy r src = false := by
  have := isStation_ne_zero h
  unfold heldBy Tenure.holder
  cases r.tenure <;> simp
  all_goals exact fun h => this h.symm


/-- The offeree of R96, R113 and R115 in the words of Safety. -/
theorem offeredTo_eq (r : Role) (a : Byte) : r.offeredTo a = Safety.offeredTo r a := by
  unfold Role.offeredTo Tenure.offer Safety.offeredTo
  cases r.tenure <;> rfl

/-- A claimant's place behind those before it (R85). -/
theorem positionOf_append {src : Byte} {before after : List Claim} {c : Claim} (hc : c.claimant = src)
    (hb : ∀ d ∈ before, d.claimant ≠ src) : positionOf src (before ++ c :: after) = some (before.length + 1) := by
  unfold positionOf
  rw [List.findIdx?_append]
  have : before.findIdx? (fun c => c.claimant == src) = none := by
    rw [List.findIdx?_eq_none_iff]; intro x hx; simpa using hb x hx
  simp [this, List.findIdx?_cons, hc]

/-- No place for a station that is not in the chain. -/
theorem positionOf_none {src : Byte} {chain : List Claim} (h : ∀ d ∈ chain, d.claimant ≠ src) : positionOf src chain = none := by
  simpa [positionOf, List.findIdx?_eq_none_iff] using h

/-- The place of a new record: behind the last of equal or higher rank (R84). -/
theorem insertClaim_split {c : Claim} {ahead behind : List Claim} (ha : ∀ d ∈ ahead, c.rank ≤ d.rank)
    (hb : ∀ d ∈ behind, d.rank < c.rank) : insertClaim c (ahead ++ behind) = ahead ++ c :: behind := by
  induction ahead with
  | nil =>
    cases behind with
    | nil => rfl
    | cons d rest =>
      have := hb d (by simp)
      simp [insertClaim, show ¬ c.rank ≤ d.rank by omega]
  | cons d rest ih =>
    have := ha d (by simp)
    simp [insertClaim, this, ih (fun d hd => ha d (by simp [hd]))]

/-- A CLAIM of a role that another holds or is offered meets conditions 5 to 8 of R86. -/
theorem claim_queues {s : State} {src epoch : Byte} {i : Nat} {r : Role} {rank : Byte}
    (h : admits s src epoch) (ht : r.tag.legal = true) (h1 : 1 ≤ rank.toNat) (h7 : rank.toNat ≤ 7) (hc : carries s i r.tag r)
    (hv : r.tenure ≠ .vacant) (hh : heldBy r src = false) (ho : Safety.offeredTo r src = false) :
    exec (.claim src epoch (tagBytes r.tag ++ [rank])) s =
      .next (withAnswer (queueClaim i r rank.toNat src (s.clearStrikes src)).1
        (queueClaim i r rank.toNat src (s.clearStrikes src)).2.status (queueClaim i r rank.toNat src (s.clearStrikes src)).2.body) := by
  simp only [exec, execClaim]
  rw [request_passed h (by simp [tagBytes_length ht]) (claimBody_tag ht h1 h7)]
  obtain ⟨tag, kind, tenure, term, gen, on, chain⟩ := r
  simp only [claimOwner, roleOfTag_clearStrikes, roleOfTag_some hc, roleAt_clearStrikes, hc.1, Option.elim]
  cases tenure with
  | vacant => exact absurd rfl hv
  | held a l at' =>
    have : a ≠ src := by simpa [heldBy] using hh
    simp [this]
  | offered o =>
    have : o.offeree ≠ src := by simpa [Safety.offeredTo] using ho
    simp [this]

/-- A request's grant, with its answer (R73, R86). -/
theorem grantTo_eq {s : State} {i : Nat} {r : Role} (hr : s.roleAt i = some r) (src : Byte) :
    s.grantTo i src = ((afterGrant s (s.handleAt i) r src).settle s,
      ⟨.granted, (s.handleAt i).bytes ++ halfBytes (r.generation + 1) ++ termBytes r.term⟩) := by
  have hi := roleAt_lt hr
  simp only [State.grantTo, grant_eq hr, State.granted]
  congr 2
  simp [afterGrant, roleAt_putRole, handleAt_index hi, hi, grantedBody]

/-! ### Watch records and addresses -/

theorem watchOf_some {s : State} {src : Byte} {h : Handle} {k : Nat} {w : Watch} (hw : watchAt s k = some w)
    (h1 : w.watcher = src) (h2 : w.handle = h) (hu : ∀ m w', watchAt s m = some w' → w'.watcher = src → w'.handle = h → m = k) :
    s.watchOf src h = some k := by
  unfold State.watchOf
  rw [findRow_eq_some_iff]
  have hw' : s.watches[k]? = some (some w) := by
    simpa [watchAt, Option.join_eq_some_iff] using hw
  refine ⟨⟨_, hw', by simp [h1, h2]⟩, ?_⟩
  intro j b hj hb
  by_contra hc
  simp only [Bool.not_eq_false, Option.any_eq_true, Bool.and_eq_true, beq_iff_eq] at hc
  obtain ⟨w', rfl, h3, h4⟩ := hc
  have := hu j w' (by simp [watchAt, hb]) h3 h4
  omega

theorem watchOf_none {s : State} {src : Byte} {h : Handle}
    (hu : ∀ m w', watchAt s m = some w' → w'.watcher = src → w'.handle ≠ h) : s.watchOf src h = none := by
  unfold State.watchOf
  rw [findRow_eq_none_iff]
  intro j b hb
  by_contra hc
  simp only [Bool.not_eq_false, Option.any_eq_true, Bool.and_eq_true, beq_iff_eq] at hc
  obtain ⟨w', rfl, h3, h4⟩ := hc
  exact hu j w' (by simp [watchAt, hb]) h3 h4

theorem watchOf_clearStrikes (s : State) (a b : Byte) (h : Handle) : (s.clearStrikes a).watchOf b h = s.watchOf b h := by
  simp [State.watchOf, clearStrikes_eq_iff]

theorem addressOf_none {s : State} {w : Serial} (h : ∀ a st, s.station a = some st → st.serial ≠ w) : s.addressOf w = none := by
  unfold State.addressOf
  rw [Option.map_eq_none_iff, findRow_eq_none_iff]
  intro i o ho
  by_contra hc
  simp only [Bool.not_eq_false, Option.any_eq_true, beq_iff_eq] at hc
  obtain ⟨st, rfl, hs⟩ := hc
  have hi : i < 56 := row_lt ho
  refine h (byteOf (i+1)) st ?_ hs
  have hb : (byteOf (i+1)).toNat = i + 1 := byteOf_toNat (by omega)
  have : isStation (byteOf (i+1)) = true := by rw [isStation_iff, hb]; omega
  simp [State.station, this, hb, ho]

theorem freeAddress_some {s : State} {a : Byte} (ha : isStation a = true) (hf : s.station a = none)
    (hl : ∀ b, isStation b = true → b < a → joined s b = true) : s.freeAddress = some a := by
  have h1 := (isStation_iff a).1 ha
  unfold State.freeAddress
  have : findRow Option.isNone s.stations = some (a.toNat - 1) := by
    rw [findRow_eq_some_iff]
    obtain ⟨o, ho⟩ := row_of_lt s.stations (i := a.toNat - 1) (by change _ < 56; omega)
    refine ⟨⟨o, ho, by simpa [State.station, ha, ho] using hf⟩, ?_⟩
    intro j b hj hb
    have hb' : (byteOf (j+1)).toNat = j + 1 := byteOf_toNat (by omega)
    have := hl (byteOf (j+1)) (by rw [isStation_iff, hb']; omega) (by rw [BitVec.lt_def, hb']; omega)
    have h3 : isStation (byteOf (j+1)) = true := by rw [isStation_iff, hb']; omega
    simpa [joined, State.station, h3, hb', hb, Option.isSome_iff_ne_none] using this
  simp [this, show a.toNat - 1 + 1 = a.toNat by omega]

theorem freeAddress_none {s : State} (hl : ∀ b, isStation b = true → joined s b = true) : s.freeAddress = none := by
  unfold State.freeAddress
  rw [Option.map_eq_none_iff, findRow_eq_none_iff]
  intro j b hb
  have hj : j < 56 := row_lt hb
  have hb' : (byteOf (j+1)).toNat = j + 1 := byteOf_toNat (by omega)
  have h3 : isStation (byteOf (j+1)) = true := by rw [isStation_iff, hb']; omega
  simpa [joined, State.station, h3, hb', hb, Option.isSome_iff_ne_none] using hl _ h3

/-- The address of a serial that one entry alone holds (R29). -/
theorem addressOf_some {s : State} {w : Serial} {a : Byte} {st : Station} (h : s.station a = some st) (hw : st.serial = w)
    (hu : ∀ b st', s.station b = some st' → st'.serial = w → b = a) : s.addressOf w = some a := by
  have ha := (isStation_iff a).1 (station_isStation h)
  unfold State.addressOf
  have hrow : s.stations[a.toNat - 1]? = some (some st) := by
    unfold State.station at h
    rw [if_pos (station_isStation h)] at h
    simpa [Option.join_eq_some_iff] using h
  have : findRow (fun e => e.any (fun st => st.serial == w)) s.stations = some (a.toNat - 1) := by
    rw [findRow_eq_some_iff]
    refine ⟨⟨_, hrow, by simp [hw]⟩, ?_⟩
    intro j b hj hb
    by_contra hc
    simp only [Bool.not_eq_false, Option.any_eq_true, beq_iff_eq] at hc
    obtain ⟨st', rfl, h2⟩ := hc
    have hb' : (byteOf (j+1)).toNat = j + 1 := byteOf_toNat (by omega)
    have h3 : isStation (byteOf (j+1)) = true := by rw [isStation_iff, hb']; omega
    have := hu (byteOf (j+1)) st' (by simp [State.station, h3, hb', hb]) h2
    have := congrArg BitVec.toNat this
    omega
  simp [this, show a.toNat - 1 + 1 = a.toNat by omega]

end Sys2Proof.Machine
end

