-- ==== Sys2Proof/Laws/Reach.lean ====
section
/-! SUPPORT. What each shared operation can reach: the fields that it may change, said once for each operation, so that every other field is read through it. -/

namespace Sys2Proof.Machine

open Sys2Proof.Safety

/-- `t` differs from `s` in the role table, the watch table and the attention records at most. -/
abbrev ReachesRoles (s t : State) : Prop :=
  t = { s with roles := t.roles, watches := t.watches, attention := t.attention }

/-- `t` differs from `s` in the role table, the watch table, the attention records and the frame record at most. -/
abbrev ReachesTables (s t : State) : Prop :=
  t = { s with roles := t.roles, watches := t.watches, attention := t.attention, frame := t.frame }

/-- `t` differs from `s` in the frame record, the role table, the watch table and the pins at most. -/
abbrev ReachesFrame (s t : State) : Prop :=
  t = { s with frame := t.frame, roles := t.roles, watches := t.watches, pins := t.pins }

theorem ReachesRoles.trans {s t u : State} (h1 : ReachesRoles s t) (h2 : ReachesRoles t u) : ReachesRoles s u := by
  cases s; cases t; cases u
  simp only [ReachesRoles, State.mk.injEq, true_and] at h1 h2 ⊢
  simp only [h1, h2, and_self]

theorem ReachesRoles.tables {s t : State} (h : ReachesRoles s t) : ReachesTables s t := by
  cases s; cases t
  simp only [ReachesRoles, ReachesTables, State.mk.injEq, true_and] at h ⊢
  simp only [h, and_self]

theorem ReachesTables.trans {s t u : State} (h1 : ReachesTables s t) (h2 : ReachesTables t u) : ReachesTables s u := by
  cases s; cases t; cases u
  simp only [ReachesTables, State.mk.injEq, true_and] at h1 h2 ⊢
  simp only [h1, h2, and_self]

theorem ReachesFrame.trans {s t u : State} (h1 : ReachesFrame s t) (h2 : ReachesFrame t u) : ReachesFrame s u := by
  cases s; cases t; cases u
  simp only [ReachesFrame, State.mk.injEq, true_and] at h1 h2 ⊢
  simp only [h1, h2, and_self]

/-! ### Roles and the purge -/

theorem onRole_reaches {s : State} {i : Nat} {f : Role → State} (h : ∀ r, s.roleAt i = some r → ReachesRoles s (f r)) :
    ReachesRoles s (s.onRole i f) := by
  unfold State.onRole
  split
  · exact h _ (by assumption)
  · rfl

theorem putRole_reaches (s : State) (i : Nat) (r : Role) : ReachesRoles s (s.putRole i r) := rfl
theorem freeEntry_reaches (s : State) (i : Nat) : ReachesRoles s (s.freeEntry i) := rfl
theorem markPending_reaches (s : State) (h : Handle) : ReachesRoles s (s.markPending h) := rfl
theorem finalWatches_reaches (s : State) (h : Handle) (g : Half) : ReachesRoles s (s.finalWatches h g) := rfl
theorem raise_reaches (s : State) (c : Cause) (x : AttentionSubject) : ReachesRoles s (s.raise c x) := rfl
theorem setWatch_reaches (s : State) (n : Nat) (o : Option Watch) : ReachesRoles s (s.setWatch n o) := rfl

theorem vacancyAtLeast_reaches (s : State) (h : Handle) : ReachesRoles s (s.vacancyAtLeast h) := by
  unfold State.vacancyAtLeast
  split
  · split <;> rfl
  · rfl

theorem afterSkip_reaches (s : State) (h : Handle) (r : Role) : ReachesRoles s (afterSkip s h r) := by
  unfold afterSkip
  repeat' split
  all_goals rfl

theorem afterLoss_reaches (s : State) (h : Handle) (r : Role) : ReachesRoles s (afterLoss s h r) := by
  unfold afterLoss noteVacancy
  repeat' split
  all_goals rfl

theorem afterFailure_reaches (s : State) (h : Handle) (r : Role) (o : Offer) : ReachesRoles s (afterFailure s h r o) := by
  unfold afterFailure
  split
  · rfl
  · exact afterSkip_reaches _ _ _

theorem afterOfferAnswer_reaches (s : State) (h : Handle) (r : Role) (o : Offer) (status : Byte) :
    ReachesRoles s (afterOfferAnswer s h r o status) := by
  unfold afterOfferAnswer
  repeat' split
  · rfl
  · exact afterSkip_reaches _ _ _
  · rfl
  · exact afterFailure_reaches _ _ _ _

theorem skip_reaches (s : State) (i : Nat) : ReachesRoles s (s.skip i) := by
  cases h : s.roleAt i with
  | none => simp [State.skip, State.passOn, onRole_none h]
  | some r => rw [skip_eq h]; exact afterSkip_reaches _ _ _

theorem loseHolder_reaches (s : State) (i : Nat) : ReachesRoles s (s.loseHolder i) := by
  cases h : s.roleAt i with
  | none => simp [State.loseHolder, onRole_none h]
  | some r => rw [loseHolder_eq h]; exact afterLoss_reaches _ _ _

theorem tickRole_reaches (s : State) (i : Nat) : ReachesRoles s (s.tickRole i) := by
  unfold State.tickRole
  apply onRole_reaches
  intro r hr
  repeat' split
  · exact (raise_reaches _ _ _).trans (loseHolder_reaches _ _)
  · rfl
  · exact skip_reaches _ _
  · rfl
  · rfl
  · rfl

theorem foldl_reaches {f : State → Nat → State} (h : ∀ s i, ReachesRoles s (f s i)) (l : List Nat) (s : State) :
    ReachesRoles s (l.foldl f s) := by
  induction l generalizing s with
  | nil => rfl
  | cons a l ih => exact (h s a).trans (ih _)

theorem tick_reaches (s : State) : ReachesRoles s s.tick := foldl_reaches tickRole_reaches _ _

theorem purgeFrame_reaches (s : State) (a : Byte) : ReachesTables s (s.purgeFrame a) := by
  unfold State.purgeFrame
  repeat' split
  all_goals rfl

theorem purgeRole_reaches (a : Byte) (s : State) (i : Nat) : ReachesRoles s (State.purgeRole a s i) := by
  unfold State.purgeRole
  apply onRole_reaches
  intro r hr
  repeat' split
  all_goals first | rfl | exact loseHolder_reaches _ _ | exact skip_reaches _ _

theorem purge_reaches (s : State) (a : Byte) : ReachesTables s (s.purge a) := by
  have h1 : ReachesTables s (((s.purgeFrame a).purgeClaims a).purgeWatches a) :=
    (purgeFrame_reaches s a).trans rfl
  exact h1.trans (foldl_reaches (purgeRole_reaches a) _ _).tables

/-! ### The frame record -/

theorem setOfferPhase_reaches (s : State) (i : Nat) (p : OfferPhase) :
    s.setOfferPhase i p = { s with roles := (s.setOfferPhase i p).roles } := by
  cases h : s.roleAt i with
  | none => simp [State.setOfferPhase, onRole_none h]
  | some r =>
    simp only [State.setOfferPhase, onRole_some h]
    split <;> rfl

theorem selectOffer_reaches (s : State) (i : Nat) :
    s.selectOffer i = { s with roles := (s.selectOffer i).roles, frame := (s.selectOffer i).frame } := by
  cases h : s.roleAt i with
  | none => simp [State.selectOffer, onRole_none h]
  | some r =>
    simp only [State.selectOffer, onRole_some h]
    split
    · rw [setOfferPhase_reaches]
    · rfl

/-- The frame record is emptied, and its owner's offer or watch may be a candidate again (R143, R149). -/
theorem dropFrame_reaches (s : State) :
    s.dropFrame = { s with frame := none, roles := s.dropFrame.roles, watches := s.dropFrame.watches } := by
  unfold State.dropFrame
  split
  · rename_i h
    rw [← h]
  · dsimp only
    split
    · rfl
    · split
      · rw [setOfferPhase_reaches]
      · rfl
    · split
      · split <;> rfl
      · rfl

theorem withdrawStale_reaches (s before : State) : ReachesFrame s (s.withdrawStale before) := by
  unfold State.withdrawStale
  repeat' split
  all_goals first | rfl | (rw [dropFrame_reaches])

theorem withdrawNotice_reaches (s : State) (concerned : Nat → Bool) : ReachesFrame s (s.withdrawNotice concerned) := by
  unfold State.withdrawNotice
  repeat' split
  all_goals first | rfl | (rw [dropFrame_reaches])

theorem select_reaches (s : State) : ReachesFrame s s.select := by
  unfold State.select
  split
  · rfl
  · split
    · split <;> rfl
    · split
      · rw [selectOffer_reaches]
      · split <;> rfl
    · rfl

theorem settle_reaches (s before : State) : ReachesFrame s (s.settle before) :=
  ((withdrawStale_reaches s before).trans (select_reaches _)).trans rfl

theorem confirm_reaches (s : State) (f : Frame) : ReachesFrame s (s.confirm f) := by
  have hb : ∀ (t : State) (g : Frame), ReachesFrame t (t.beginFrame g) := by
    intro t g
    unfold State.beginFrame State.takeMark
    repeat' split
    all_goals rfl
  unfold State.confirm
  split
  · exact hb _ _
  · dsimp only
    have hd : ReachesFrame s s.dropFrame := by unfold ReachesFrame; rw [dropFrame_reaches]
    split
    · exact (hd.trans (select_reaches _)).trans (hb _ _)
    · exact hd.trans (select_reaches _)

theorem offerOutcome_reaches (s : State) (h : Handle) (n : Byte) (o : FrameOutcome) :
    ReachesRoles s (s.offerOutcome h n o) := by
  cases hc : s.currentOffer h n with
  | none => simp [State.offerOutcome, hc]
  | some p =>
    obtain ⟨r, o'⟩ := p
    cases o with
    | valid x => rw [offerOutcome_valid hc]; exact afterOfferAnswer_reaches _ _ _ _ _
    | emptySlot => rw [offerOutcome_failed hc _ (by simp)]; exact afterFailure_reaches _ _ _ _
    | badAnswer => rw [offerOutcome_failed hc _ (by simp)]; exact afterFailure_reaches _ _ _ _
    | collisionLimit => rw [offerOutcome_failed hc _ (by simp)]; exact afterFailure_reaches _ _ _ _

theorem noticeOutcome_reaches (s : State) (n : Nat) (watcher : Byte) (h : Handle) (final : Bool) (o : FrameOutcome) :
    ReachesRoles s (s.noticeOutcome n watcher h final o) := by
  unfold State.noticeOutcome State.failNotice
  repeat' split
  all_goals rfl

/-- The pins follow the state (R165). -/
theorem pinsLawful_drive (s : State) : pinsLawful s.drive = true := by
  simp only [pinsLawful, Bool.and_eq_true, beq_iff_eq]
  exact ⟨rfl, rfl⟩

theorem pinsLawful_settle (s before : State) : pinsLawful (s.settle before) = true := pinsLawful_drive _

theorem settle_resetLow (s before : State) : (s.settle before).pins.resetLow = s.pins.resetLow := by
  have h1 : (s.withdrawStale before).pins = s.pins := by
    unfold State.withdrawStale
    repeat' split
    all_goals first | rfl | (rw [dropFrame_reaches])
  have h2 : ∀ t : State, t.select.pins = t.pins := by
    intro t
    unfold State.select
    repeat' split
    all_goals first | rfl | (rw [selectOffer_reaches])
  show (s.withdrawStale before).select.pins.resetLow = _
  rw [h2, h1]

end Sys2Proof.Machine
end

