-- ==== Sys2Proof/Laws/Completion.lean ====
section
/-! SUPPORT. The completion of a frame of the directory: what its outcome and its delivery report make of the state, and that the correction of VACANCY's subject (R164) acts only where a purge followed. -/

namespace Sys2Proof.Machine

open Sys2Proof.Safety

/-- The vacancy record names the role at `h`. -/
abbrev vacancyNames (s : State) (h : Handle) : Prop := ∃ k, s.attention.vacancy = some ⟨k, .role h⟩

theorem vacancyAtLeast_of_names {s : State} {h : Handle} (hv : vacancyNames s h) : s.vacancyAtLeast h = s := by
  obtain ⟨k, hk⟩ := hv
  simp [State.vacancyAtLeast, hk]

theorem vacancyNames_raise (s : State) (h : Handle) : vacancyNames (s.raise .vacancy (.role h)) h := by
  unfold vacancyNames
  simp only [State.raise, Attention.raise, Attention.set, raisedRecord]
  split <;> exact ⟨_, rfl⟩

theorem isVacant_putRole {s : State} {i : Nat} {r : Role} (h : (s.putRole i r).isVacant i = true) :
    r.tenure = .vacant ∨ s.roleAt i = none := by
  unfold State.isVacant at h
  rw [roleAt_putRole] at h
  split at h
  · left; simpa using h
  · rename_i hi
    right
    cases hr : s.roleAt i with
    | none => rfl
    | some r' => exact absurd ⟨rfl, roleAt_lt hr⟩ hi

/-- After a skip that leaves the role VACANT, VACANCY names the role (R117, R103). -/
theorem afterSkip_vacant {s : State} {h : Handle} {r : Role} (hn : s.named h = some r)
    (hv : (afterSkip s h r).isVacant h.index.toNat = true) : vacancyNames (afterSkip s h r) h := by
  have hr := roleAt_of_named hn
  unfold afterSkip at hv ⊢
  cases ha : roleAfterSkip r with
  | none =>
    simp [ha, afterRetirement, State.isVacant, roleAt_freeEntry] at hv
  | some r' =>
    simp only [ha] at hv ⊢
    by_cases ht : r'.tenure = .vacant
    · simp only [ht, if_true]; exact vacancyNames_raise _ _
    · simp only [ht, if_false] at hv
      rcases isVacant_putRole hv with h1 | h1
      · exact absurd h1 ht
      · rw [hr] at h1; simp at h1

theorem afterFailure_vacant {s : State} {h : Handle} {r : Role} {o : Offer} (hn : s.named h = some r)
    (hv : (afterFailure s h r o).isVacant h.index.toNat = true) : vacancyNames (afterFailure s h r o) h := by
  have hr := roleAt_of_named hn
  unfold afterFailure at hv ⊢
  split at hv
  · rcases isVacant_putRole hv with h1 | h1
    · simp at h1
    · rw [hr] at h1; simp at h1
  · rename_i ho
    rw [if_neg ho]; exact afterSkip_vacant hn hv

theorem afterOfferAnswer_vacant {s : State} {h : Handle} {r : Role} {o : Offer} {status : Byte} (hn : s.named h = some r)
    (hv : (afterOfferAnswer s h r o status).isVacant h.index.toNat = true) :
    vacancyNames (afterOfferAnswer s h r o status) h := by
  have hr := roleAt_of_named hn
  unfold afterOfferAnswer at hv ⊢
  by_cases h1 : status = 0x80
  · simp only [h1, if_true] at hv
    have hv' : (s.putRole h.index.toNat { r with tenure := .held o.offeree r.term [], generation := r.generation + 1 }).isVacant
        h.index.toNat = true := hv
    rcases isVacant_putRole hv' with h2 | h2
    · simp at h2
    · rw [hr] at h2; simp at h2
  · by_cases h2 : status = 0x81
    · subst h2
      exact afterSkip_vacant hn hv
    · by_cases h3 : status = 0x82
      · subst h3
        rcases isVacant_putRole hv with h4 | h4
        · simp at h4
        · rw [hr] at h4; simp at h4
      · simp only [h1, h2, h3, if_false] at hv ⊢
        exact afterFailure_vacant hn hv

/-- The report of a completed frame at the Station Registry, short of a third strike (R34, R35). -/
def reported (s : State) (a : Byte) (outcome : FrameOutcome) : State :=
  match outcome with
  | .collisionLimit => s
  | .valid _ => s.clearStrikes a
  | .emptySlot | .badAnswer => withStrike s a

theorem report_eq {s : State} {a : Byte} {outcome : FrameOutcome}
    (h : outcome = .emptySlot ∨ outcome = .badAnswer → ∀ st, s.station a = some st → st.strikes ≤ 1) :
    s.report a outcome = reported s a outcome := by
  have hs : ∀ (_ : ∀ st, s.station a = some st → st.strikes ≤ 1),
      (match s.station a with
      | none => s
      | some st =>
        if st.strikes + 1 < Config.strikeLimit then s.setStation a (some { st with strikes := st.strikes + 1 })
        else (s.removeStation a).raise .stationLost (.station a)) = withStrike s a := by
    intro h
    unfold withStrike
    cases hst : s.station a with
    | none => rfl
    | some st =>
      have := h st hst
      simp [Config.strikeLimit, show st.strikes + 1 < 3 by omega]
  cases outcome with
  | valid x => rfl
  | collisionLimit => rfl
  | emptySlot => exact hs (h (Or.inl rfl))
  | badAnswer => exact hs (h (Or.inr rfl))

theorem setStation_attention (s : State) (a : Byte) (e : Option Station) : (s.setStation a e).attention = s.attention := by
  rw [setStation_only]

theorem reported_attention (s : State) (a : Byte) (outcome : FrameOutcome) :
    (reported s a outcome).attention = s.attention := by
  unfold reported
  split
  · rfl
  · exact (clearStrikes_eq_iff s a).2.2.2.2.2.2.1
  · unfold withStrike; split
    · exact setStation_attention _ _ _
    · rfl
  · unfold withStrike; split
    · exact setStation_attention _ _ _
    · rfl

/-- What the outcome of a current OFFER makes of the state (R110, R111). -/
def offerApplied (s : State) (h : Handle) (r : Role) (o : Offer) (outcome : FrameOutcome) : State :=
  match outcome with
  | .valid status => afterOfferAnswer s h r o status
  | _ => afterFailure s h r o

/-- What the outcome of a NOTICE makes of its watch (R132, R133, R135). -/
def watchApplied (w : Watch) (final : Bool) (outcome : FrameOutcome) : Option Watch :=
  match outcome with
  | .valid status => watchAfterAnswer w final status
  | _ => watchAfterFailure w

/-- A completed OFFER whose offer is current: the outcome, then the report (R37, R148). -/
theorem completeFrame_current {s : State} {f : Frame} {h : Handle} {number : Byte} {r : Role} {o : Offer} (final : Bool) {outcome : FrameOutcome}
    (hs : f.subject = .offer h number) (hc : s.currentOffer h number = some (r, o))
    (hp : f.purgedTarget = false)
    (hst : outcome = .emptySlot ∨ outcome = .badAnswer → ∀ st, s.station f.dest = some st → st.strikes ≤ 1) :
    s.completeFrame f final outcome = reported (offerApplied { s with frame := none } h r o outcome) f.dest outcome := by
  have hc' : ({ s with frame := none } : State).currentOffer h number = some (r, o) := hc
  have hn : ({ s with frame := none } : State).named h = some r := ((currentOffer_eq_some_iff _ _ _ _ _).1 hc').1
  generalize hA : (offerApplied { s with frame := none } h r o outcome) = A
  have hout : ({ s with frame := none } : State).offerOutcome h number outcome = A := by
    rw [← hA]; unfold offerApplied
    cases outcome with
    | valid x => exact offerOutcome_valid hc' x
    | _ => exact offerOutcome_failed hc' _ (by simp)
  have hreach : ReachesRoles { s with frame := none } A := by rw [← hout]; exact offerOutcome_reaches _ _ _ _
  have hstA : A.station f.dest = s.station f.dest := by
    have : A.stations = s.stations := by rw [hreach]
    simp [State.station, this]
  have hrep : A.report f.dest outcome = reported A f.dest outcome := report_eq (by rw [hstA]; exact hst)
  have hv : A.isVacant h.index.toNat = true → vacancyNames A h := by
    rw [← hA]; unfold offerApplied
    cases outcome with
    | valid x => exact afterOfferAnswer_vacant hn
    | _ => exact afterFailure_vacant hn
  simp only [State.completeFrame, hs, hp, hout, hc', hrep, Option.isSome_some, Bool.true_and, Bool.false_eq_true, if_false]
  split
  · rename_i h1
    apply vacancyAtLeast_of_names
    obtain ⟨k, hk⟩ := hv h1
    exact ⟨k, by rw [reported_attention]; exact hk⟩
  · rfl

/-- A completed frame of a purged target: outcome and report are disregarded (R41, R148). -/
theorem completeFrame_purged {s : State} {f : Frame} (hp : f.purgedTarget = true) (final : Bool) (outcome : FrameOutcome) :
    s.completeFrame f final outcome = { s with frame := none } := by
  simp [State.completeFrame, hp]

/-- A completed OFFER whose offer is not current: the report alone (R106, R148). -/
theorem completeFrame_stale {s : State} {f : Frame} {h : Handle} {number : Byte} (final : Bool)
    (hs : f.subject = .offer h number) (hc : s.currentOffer h number = none) (hp : f.purgedTarget = false) (outcome : FrameOutcome) :
    s.completeFrame f final outcome = ({ s with frame := none } : State).report f.dest outcome := by
  have hc' : ({ s with frame := none } : State).currentOffer h number = none := hc
  simp [State.completeFrame, hs, hp, State.offerOutcome, hc']

/-- A completed NOTICE at its watch: the outcome, then the report (R37, R148). -/
theorem completeFrame_watch {s : State} {f : Frame} {n : Nat} {watcher : Byte} {h : Handle} {w : Watch} (final : Bool) {outcome : FrameOutcome}
    (hs : f.subject = .watch n watcher h) (hw : s.watchNamed n watcher h = some w)
    (hp : f.purgedTarget = false)
    (hst : outcome = .emptySlot ∨ outcome = .badAnswer → ∀ st, s.station f.dest = some st → st.strikes ≤ 1) :
    s.completeFrame f final outcome = reported (({ s with frame := none } : State).setWatch n (watchApplied w final outcome)) f.dest outcome := by
  have hw' : ({ s with frame := none } : State).watchNamed n watcher h = some w := hw
  have hout : ({ s with frame := none } : State).noticeOutcome n watcher h final outcome =
      ({ s with frame := none } : State).setWatch n (watchApplied w final outcome) := by
    cases outcome with
    | valid x => exact noticeOutcome_valid final hw' x
    | _ => exact noticeOutcome_failed final hw' _ (by simp)
  simp only [State.completeFrame, hs, hout, hp, Bool.false_eq_true, if_false]
  exact report_eq hst

/-- A completed NOTICE whose watch is gone: the report alone (R132, R148). -/
theorem completeFrame_unwatched {s : State} {f : Frame} {n : Nat} {watcher : Byte} {h : Handle} (final : Bool)
    (hs : f.subject = .watch n watcher h) (hw : s.watchNamed n watcher h = none) (hp : f.purgedTarget = false) (outcome : FrameOutcome) :
    s.completeFrame f final outcome = ({ s with frame := none } : State).report f.dest outcome := by
  have hw' : ({ s with frame := none } : State).watchNamed n watcher h = none := hw
  simp [State.completeFrame, hs, hp, State.noticeOutcome, hw']

/-- A delivery that failed, in any way, ends with the failure at the owner of its subject, and then the report (R111, R132, R147). -/
theorem completeFrame_failed {s : State} {f : Frame} {final : Bool} {o : FrameOutcome} (hr : f.subject ≠ .restart)
    (ho : ∀ x, o ≠ .valid x) (hp : f.purgedTarget = false)
    (hst : o = .emptySlot ∨ o = .badAnswer → ∀ st, s.station f.dest = some st → st.strikes ≤ 1) :
    s.completeFrame f final o = reported (afterFailedDelivery { s with frame := none } f.subject) f.dest o := by
  have hrep : ({ s with frame := none } : State).report f.dest o = reported { s with frame := none } f.dest o :=
    report_eq (s := { s with frame := none }) hst
  cases hs : f.subject with
  | restart => exact absurd hs hr
  | offer h number =>
    cases hc : s.currentOffer h number with
    | none =>
      have hc' : ({ s with frame := none } : State).currentOffer h number = none := hc
      rw [completeFrame_stale final hs hc hp, hrep]; simp [afterFailedDelivery, hc']
    | some p =>
      obtain ⟨r, of⟩ := p
      have hc' : ({ s with frame := none } : State).currentOffer h number = some (r, of) := hc
      rw [completeFrame_current final hs hc hp hst]
      simp only [afterFailedDelivery, hc', offerApplied]
  | watch n watcher h =>
    cases hw : s.watchNamed n watcher h with
    | none =>
      have hw' : ({ s with frame := none } : State).watchNamed n watcher h = none := hw
      rw [completeFrame_unwatched final hs hw hp, hrep]; simp [afterFailedDelivery, hw']
    | some w =>
      have hw' : ({ s with frame := none } : State).watchNamed n watcher h = some w := hw
      rw [completeFrame_watch final hs hw hp hst]
      simp only [afterFailedDelivery, hw', watchApplied]

/-- A failed delivery leaves the station table to the report. -/
theorem failed_stations (s : State) (subject : Subject) : (afterFailedDelivery s subject).stations = s.stations := by
  unfold afterFailedDelivery
  split
  · rfl
  · split
    · rw [afterFailure_reaches]
    · rfl
  · split <;> rfl

end Sys2Proof.Machine
end

