-- ==== Sys2Proof/Laws/Selection.lean ====
section
/-! SUPPORT. Which candidate stands first (R141): the lowest role index among the offers, the highest rank and lowest number among the notices. -/

namespace Sys2Proof.Machine

open Sys2Proof.Safety

/-- The lowest role index whose offer is in PENDING SEND (R141). -/
theorem firstOffer_some {s : State} {i : Nat} {r : Role} {o : Offer} (hr : s.roleAt i = some r) (ht : r.tenure = .offered o)
    (hp : o.phase = .pendingSend)
    (hl : ∀ j r' o', j < i → s.roleAt j = some r' → r'.tenure = .offered o' → o'.phase ≠ .pendingSend) :
    s.firstOffer = some i := by
  unfold State.firstOffer
  rw [findRow_eq_some_iff]
  refine ⟨⟨_, row_of_roleAt hr, by simp [Entry.offerPending, ht, hp]⟩, ?_⟩
  intro j e hj he
  by_contra hc
  simp only [Bool.not_eq_false, Entry.offerPending, Option.any_eq_true] at hc
  obtain ⟨r', h1, h2⟩ := hc
  cases ht' : r'.tenure with
  | offered o' =>
    rw [ht'] at h2
    exact hl j r' o' hj (by simp [State.roleAt, he, h1]) ht' (by simpa using h2)
  | _ => simp [ht'] at h2

theorem firstOffer_none {s : State}
    (hl : ∀ j r' o', s.roleAt j = some r' → r'.tenure = .offered o' → o'.phase ≠ .pendingSend) : s.firstOffer = none := by
  unfold State.firstOffer
  rw [findRow_eq_none_iff]
  intro j e he
  by_contra hc
  simp only [Bool.not_eq_false, Entry.offerPending, Option.any_eq_true] at hc
  obtain ⟨r', h1, h2⟩ := hc
  cases ht' : r'.tenure with
  | offered o' =>
    rw [ht'] at h2
    exact hl j r' o' (by simp [State.roleAt, he, h1]) ht' (by simpa using h2)
  | _ => simp [ht'] at h2

theorem firstOffer_lt {s : State} {i k : Nat} (h : s.firstOffer = some k)
    (hl : ∀ j r' o', j < i → s.roleAt j = some r' → r'.tenure = .offered o' → o'.phase ≠ .pendingSend) : ¬ k < i := by
  unfold State.firstOffer at h
  rw [findRow_eq_some_iff] at h
  obtain ⟨⟨e, he, hp⟩, -⟩ := h
  intro hk
  simp only [Entry.offerPending, Option.any_eq_true] at hp
  obtain ⟨r', h1, h2⟩ := hp
  cases ht' : r'.tenure with
  | offered o' =>
    rw [ht'] at h2
    exact hl k r' o' hk (by simp [State.roleAt, he, h1]) ht' (by simpa using h2)
  | _ => simp [ht'] at h2

/-- One record's part in the choice of the first notice. -/
def bestStep (s : State) (best : Option (Nat × Watch)) (n : Nat) : Option (Nat × Watch) :=
    match (s.watches[n]?).join with
    | some w =>
      if s.eligible w then
        match best with
        | none => some (n, w)
        | some (_, b) => if b.rank < w.rank then some (n, w) else best
      else best
    | none => best

/-- The choice among the first records: none is eligible, or the best of them by rank and number. -/
theorem best_spec (s : State) (n : Nat) :
    match (List.range n).foldl (bestStep s) none with
    | none => ∀ m w, m < n → watchAt s m = some w → s.eligible w = false
    | some (k, w) => k < n ∧ watchAt s k = some w ∧ s.eligible w = true ∧
        ∀ m v, m < n → watchAt s m = some v → s.eligible v = true → v.rank < w.rank ∨ (v.rank = w.rank ∧ k ≤ m) := by
  induction n with
  | zero => simp
  | succ n ih =>
    rw [List.range_succ, List.foldl_append, List.foldl_cons, List.foldl_nil]
    generalize (List.range n).foldl (bestStep s) none = best at ih
    unfold bestStep
    cases hw : (s.watches[n]?).join with
    | none =>
      have hn : watchAt s n = none := hw
      cases best with
      | none =>
        intro m w hm hmw
        rcases Nat.lt_succ_iff_lt_or_eq.1 hm with h | h
        · exact ih m w h hmw
        · subst h; rw [hn] at hmw; simp at hmw
      | some p =>
        obtain ⟨k, b⟩ := p
        obtain ⟨h1, h2, h3, h4⟩ := ih
        refine ⟨by omega, h2, h3, fun m v hm hmw he => ?_⟩
        rcases Nat.lt_succ_iff_lt_or_eq.1 hm with h | h
        · exact h4 m v h hmw he
        · subst h; rw [hn] at hmw; simp at hmw
    | some w0 =>
      have hn : watchAt s n = some w0 := hw
      by_cases he0 : s.eligible w0 = true
      · simp only [he0, if_true]
        cases best with
        | none =>
          refine ⟨by omega, hn, he0, fun m v hm hmw he => ?_⟩
          rcases Nat.lt_succ_iff_lt_or_eq.1 hm with h | h
          · rw [ih m v h hmw] at he; simp at he
          · subst h; rw [hn] at hmw; injection hmw with hmw; subst hmw; right; exact ⟨rfl, le_refl _⟩
        | some p =>
          obtain ⟨k, b⟩ := p
          obtain ⟨h1, h2, h3, h4⟩ := ih
          by_cases hb : b.rank < w0.rank
          · simp only [hb, if_true]
            refine ⟨by omega, hn, he0, fun m v hm hmw he => ?_⟩
            rcases Nat.lt_succ_iff_lt_or_eq.1 hm with h | h
            · have := h4 m v h hmw he; left; omega
            · subst h; rw [hn] at hmw; injection hmw with hmw; subst hmw; right; exact ⟨rfl, le_refl _⟩
          · simp only [hb, if_false]
            refine ⟨by omega, h2, h3, fun m v hm hmw he => ?_⟩
            rcases Nat.lt_succ_iff_lt_or_eq.1 hm with h | h
            · exact h4 m v h hmw he
            · subst h; rw [hn] at hmw; injection hmw with hmw; subst hmw; omega
      · simp only [he0]
        cases best with
        | none =>
          intro m w hm hmw
          rcases Nat.lt_succ_iff_lt_or_eq.1 hm with h | h
          · exact ih m w h hmw
          · subst h; rw [hn] at hmw; injection hmw with hmw; subst hmw; simpa using he0
        | some p =>
          obtain ⟨k, b⟩ := p
          obtain ⟨h1, h2, h3, h4⟩ := ih
          refine ⟨by omega, h2, h3, fun m v hm hmw he => ?_⟩
          rcases Nat.lt_succ_iff_lt_or_eq.1 hm with h | h
          · exact h4 m v h hmw he
          · subst h; rw [hn] at hmw; injection hmw with hmw; subst hmw; exact absurd he he0

theorem watchAt_lt {s : State} {n : Nat} {w : Watch} (h : watchAt s n = some w) : n < 64 := by
  unfold watchAt at h
  cases hr : s.watches[n]? with
  | none => simp [hr] at h
  | some o => exact row_lt hr

theorem firstNotice_none {s : State} (h : ∀ n w, watchAt s n = some w → s.eligible w = false) : s.firstNotice = none := by
  have := best_spec s 64
  have he : s.firstNotice = (List.range 64).foldl (bestStep s) none := rfl
  rw [he]
  split at this
  · assumption
  · rename_i k w hk
    have h2 := h k w this.2.1
    rw [this.2.2.1] at h2; simp at h2

theorem firstNotice_some {s : State} {n : Nat} {w : Watch} (hw : watchAt s n = some w) (he : s.eligible w = true)
    (hb : ∀ m v, watchAt s m = some v → s.eligible v = true → v.rank < w.rank ∨ (v.rank = w.rank ∧ n ≤ m)) :
    s.firstNotice = some (n, w) := by
  have := best_spec s 64
  have heq : s.firstNotice = (List.range 64).foldl (bestStep s) none := rfl
  rw [heq]
  split at this
  · have h2 := this n w (watchAt_lt hw) hw
    rw [he] at h2; simp at h2
  · rename_i k v hk
    rw [hk]
    obtain ⟨h1, h2, h3, h4⟩ := this
    have a1 := hb k v h2 h3
    have a2 := h4 n w (watchAt_lt hw) hw he
    have : k = n := by omega
    subst this
    rw [hw] at h2; injection h2 with h2; subst h2; rfl

end Sys2Proof.Machine
end

