-- ==== Sys2Proof/Laws/Sweeps.lean ====
section
/-! SUPPORT. Events that visit every role: what a lease tick and a purge make of each role, whatever the order, by one law of sweeps over the role table. -/

namespace Sys2Proof.Machine

open Sys2Proof.Safety

/-! ### One role's event leaves the other roles and every incarnation alone -/

theorem incarnationAt_of_roles {s t : State} (h : s.roles = t.roles) (i : Nat) : incarnationAt s i = incarnationAt t i := by
  simp [incarnationAt, h]

theorem roleAt_afterSkip {s : State} {i : Nat} (hi : i < 96) (r : Role) (j : Nat) :
    (afterSkip s (s.handleAt i) r).roleAt j = if j = i then roleAfterSkip r else s.roleAt j := by
  have hh := handleAt_index (s := s) hi
  unfold afterSkip
  cases h : roleAfterSkip r with
  | none => simp [afterRetirement, roleAt_freeEntry, hh]
  | some r' =>
    simp only
    split
    · simp [roleAt_putRole, hh, hi]
    · simp [roleAt_putRole, hh, hi]

theorem incarnationAt_afterSkip (s : State) (h : Handle) (r : Role) (j : Nat) :
    incarnationAt (afterSkip s h r) j = incarnationAt s j := by
  unfold afterSkip
  cases roleAfterSkip r with
  | none => exact incarnation_freeEntry _ _ _
  | some r' =>
    simp only
    split
    · exact incarnation_putRole _ _ _ _
    · exact incarnation_putRole _ _ _ _

theorem roleAt_afterLoss {s : State} {i : Nat} (hi : i < 96) (h : Handle) (hh : h.index.toNat = i) (r : Role) (j : Nat) :
    (afterLoss s h r).roleAt j = if j = i then roleAfterLoss r else s.roleAt j := by
  unfold afterLoss
  cases roleAfterLoss r with
  | none => simp [afterRetirement, roleAt_freeEntry, hh]
  | some r' =>
    simp only [noteVacancy]
    split
    · simp [roleAt_putRole, hh, hi]
    · simp [roleAt_putRole, hh, hi]

theorem incarnationAt_afterLoss (s : State) (h : Handle) (r : Role) (j : Nat) :
    incarnationAt (afterLoss s h r) j = incarnationAt s j := by
  unfold afterLoss
  cases roleAfterLoss r with
  | none => exact incarnation_freeEntry _ _ _
  | some r' =>
    simp only [noteVacancy]
    split
    · exact incarnation_putRole _ _ _ _
    · exact incarnation_putRole _ _ _ _

theorem handleAt_of_incarnation {s t : State} {i : Nat} (h : incarnationAt t i = incarnationAt s i) :
    t.handleAt i = s.handleAt i := by
  simp only [incarnationAt] at h
  simp [State.handleAt, h]

/-! ### Sweeps -/

/-- `f` acts at its index alone, as `g` says, and keeps every incarnation. -/
def ActsLocally (f : State → Nat → State) (g : Role → Option Role) : Prop :=
  ∀ (s : State) (i j : Nat), (f s i).roleAt j = (if j = i then (s.roleAt i).bind g else s.roleAt j)
    ∧ incarnationAt (f s i) j = incarnationAt s j

theorem sweep_roles {f : State → Nat → State} {g : Role → Option Role} (h : ActsLocally f g) (s : State) (n j : Nat) :
    ((List.range n).foldl f s).roleAt j = (if j < n then (s.roleAt j).bind g else s.roleAt j)
    ∧ incarnationAt ((List.range n).foldl f s) j = incarnationAt s j := by
  induction n generalizing j with
  | zero => simp
  | succ n ih =>
    rw [List.range_succ, List.foldl_append]
    simp only [List.foldl_cons, List.foldl_nil]
    refine ⟨?_, ((h _ _ _).2).trans (ih j).2⟩
    rw [(h _ _ _).1]
    by_cases hj : j = n
    · subst hj; simp [(ih j).1]
    · rw [if_neg hj, (ih j).1]
      by_cases h1 : j < n
      · simp [h1, show j < n + 1 by omega]
      · simp [h1, show ¬ j < n + 1 by omega]

/-- One role's part in a lease tick (R70). -/
theorem tickRole_eq {s : State} {i : Nat} {r : Role} (hr : s.roleAt i = some r) :
    s.tickRole i =
      if lapses r then afterLoss (s.raise .lapse (.role (s.handleAt i))) (s.handleAt i) r
      else if expires r then afterSkip s (s.handleAt i) r
      else match roleAfterTick r with
        | some r' => if r' = r then s else s.putRole i r'
        | none => s := by
  have hl : (s.raise .lapse (.role (s.handleAt i))).roleAt i = some r := hr
  unfold State.tickRole
  rw [onRole_some hr]
  obtain ⟨tag, kind, tenure, term, gen, on, chain⟩ := r
  cases tenure with
  | vacant => simp [lapses, expires, roleAfterTick]
  | held a lease attr =>
    by_cases h : lease ≤ 1
    · simp only [h, if_true, lapses, decide_true, State.lapseRole, loseHolder_eq hl]
      rfl
    · simp [h, lapses, expires, roleAfterTick, show 2 ≤ lease by omega, show lease - 1 ≠ lease by omega]
  | offered o =>
    obtain ⟨offeree, rank, number, phase, attempts⟩ := o
    cases phase with
    | pendingSend => simp [lapses, expires, roleAfterTick]
    | inFlight => simp [lapses, expires, roleAfterTick]
    | waiting window =>
      by_cases h : window ≤ 1
      · simp [h, lapses, expires, skip_eq hr]
      · simp [h, lapses, expires, roleAfterTick, show 2 ≤ window by omega, show window - 1 ≠ window by omega]

theorem tickRole_acts : ActsLocally State.tickRole roleAfterTick := by
  intro s i j
  cases hr : s.roleAt i with
  | none =>
    simp only [State.tickRole, onRole_none hr]
    refine ⟨?_, trivial⟩
    split
    · rename_i h; rw [h, hr]; rfl
    · rfl
  | some r =>
    have hi := roleAt_lt hr
    rw [tickRole_eq hr]
    by_cases hl : lapses r = true
    · rw [if_pos hl]
      refine ⟨?_, incarnationAt_afterLoss _ _ _ _⟩
      rw [roleAt_afterLoss hi _ (handleAt_index hi)]
      have : roleAfterTick r = roleAfterLoss r := by
        unfold lapses at hl
        unfold roleAfterTick
        split at hl
        · rename_i lease _ ht
          rw [ht]; simp at hl; simp [show ¬ 2 ≤ lease by omega]
        · simp at hl
      simp [this]
    · rw [if_neg hl]
      by_cases he : expires r = true
      · rw [if_pos he]
        refine ⟨?_, incarnationAt_afterSkip _ _ _ _⟩
        rw [roleAt_afterSkip hi]
        have : roleAfterTick r = roleAfterSkip r := by
          unfold expires at he
          unfold roleAfterTick
          split at he
          · rename_i o ht
            rw [ht]
            split at he
            · rename_i window hw
              simp only [hw]; simp at he; simp [show ¬ 2 ≤ window by omega]
            · simp at he
          · simp at he
        simp [this]
      · rw [if_neg he]
        have hsome : ∃ r', roleAfterTick r = some r' := by
          unfold lapses at hl
          unfold expires at he
          unfold roleAfterTick
          cases ht : r.tenure with
          | vacant => simp
          | held a lease attr => simp only [ht] at hl; simp at hl; simp [show 2 ≤ lease by omega]
          | offered o =>
            simp only [ht] at he
            cases hp : o.phase with
            | waiting window => simp only [hp] at he; simp at he; simp [hp, show 2 ≤ window by omega]
            | _ => simp [hp]
        obtain ⟨r', h'⟩ := hsome
        simp only [h']
        split
        · rename_i h; subst h
          refine ⟨?_, rfl⟩
          split
          · rename_i hj; rw [hj, hr]; simp [h']
          · rfl
        · refine ⟨?_, incarnation_putRole _ _ _ _⟩
          rw [roleAt_putRole]
          simp [hi, h']

/-- A lease tick makes of every role what R70 says. -/
theorem tick_roles (s : State) (j : Nat) :
    s.tick.roleAt j = (s.roleAt j).bind roleAfterTick ∧ incarnationAt s.tick j = incarnationAt s j := by
  have h := sweep_roles tickRole_acts s 96 j
  refine ⟨?_, h.2⟩
  have h1 := h.1
  split at h1
  · exact h1
  · rename_i hj
    have : s.roleAt j = none := by
      cases hr : s.roleAt j with
      | none => rfl
      | some r => exact absurd (roleAt_lt hr) hj
    rw [this] at h1 ⊢
    exact h1

/-- What the second part of a purge makes of a role whose chain the station has left. -/
def roleAfterPass (a : Byte) (r : Role) : Option Role :=
  if heldBy r a then roleAfterLoss r else if Safety.offeredTo r a then roleAfterSkip r else some r

theorem purgeRole_acts (a : Byte) : ActsLocally (State.purgeRole a) (roleAfterPass a) := by
  intro s i j
  cases hr : s.roleAt i with
  | none =>
    simp only [State.purgeRole, onRole_none hr]
    refine ⟨?_, trivial⟩
    split
    · rename_i h; rw [h, hr]; rfl
    · rfl
  | some r =>
    have hi := roleAt_lt hr
    have hself : j = i → s.roleAt j = some r := by
      intro h; rw [h, hr]
    unfold State.purgeRole
    rw [onRole_some hr]
    simp only [Option.bind_some, roleAfterPass]
    cases ht : r.tenure with
    | vacant => simp [heldBy, Safety.offeredTo, ht]; exact hself
    | held b lease attr =>
      by_cases hb : b = a
      · simp only [hb, if_true, loseHolder_eq hr]
        refine ⟨?_, incarnationAt_afterLoss _ _ _ _⟩
        rw [roleAt_afterLoss hi _ (handleAt_index hi)]
        simp [heldBy, ht, hb]
      · simp [hb, heldBy, Safety.offeredTo, ht]; exact hself
    | offered o =>
      by_cases hb : o.offeree = a
      · simp only [hb, if_true, skip_eq hr]
        refine ⟨?_, incarnationAt_afterSkip _ _ _ _⟩
        rw [roleAt_afterSkip hi]
        simp [heldBy, Safety.offeredTo, ht, hb]
      · simp [hb, heldBy, Safety.offeredTo, ht]; exact hself

/-- A purge makes of every role what R39, R99 and R119 say. -/
theorem purge_roles (s : State) (a : Byte) (j : Nat) :
    (s.purge a).roleAt j = (s.roleAt j).bind (roleAfterPurge a) ∧ incarnationAt (s.purge a) j = incarnationAt s j := by
  have hfr : (s.purgeFrame a).roles = s.roles := by
    unfold State.purgeFrame
    repeat' split
    all_goals rfl
  have h := sweep_roles (purgeRole_acts a) (((s.purgeFrame a).purgeClaims a).purgeWatches a) 96 j
  have hc : (((s.purgeFrame a).purgeClaims a).purgeWatches a).roleAt j =
      (s.roleAt j).map (fun r => { r with chain := r.chain.filter (fun c => c.claimant != a) }) := by
    simp only [State.roleAt, State.purgeWatches, State.purgeClaims, mapRows_getElem?, hfr]
    cases s.roles[j]? <;> rfl
  have hi : incarnationAt (((s.purgeFrame a).purgeClaims a).purgeWatches a) j = incarnationAt s j := by
    simp only [incarnationAt, State.purgeWatches, State.purgeClaims, mapRows_getElem?, hfr]
    cases s.roles[j]? <;> rfl
  refine ⟨?_, h.2.trans hi⟩
  have h1 := h.1
  rw [hc] at h1
  have hp : (s.purge a).roleAt j = _ := h1
  rw [hp]
  cases hr : s.roleAt j with
  | none => simp
  | some r =>
    rw [if_pos (roleAt_lt hr)]
    simp only [Option.map_some, Option.bind_some, roleAfterPass, roleAfterPurge]
    rfl

/-! ### After a purge no table names the station (R39, R40) -/

/-- Whether a role names an address as holder, offeree or claimant. -/
def roleNames (r : Role) (a : Byte) : Bool :=
  r.chain.any (fun c => c.claimant == a) || heldBy r a || Safety.offeredTo r a

theorem entryNames_eq (e : Entry) (a : Byte) : entryNames e a = e.role.any (fun r => roleNames r a) := by
  obtain ⟨n, o⟩ := e
  cases o with
  | none => rfl
  | some r =>
    obtain ⟨tag, kind, tenure, term, gen, on, chain⟩ := r
    cases tenure <;> simp [entryNames, roleNames, heldBy, Safety.offeredTo]

/-- `names` read through roles and watch records. -/
theorem names_eq_false_iff (s : State) (a : Byte) :
    names s a = false ↔ (∀ i r, s.roleAt i = some r → roleNames r a = false)
      ∧ ∀ n w, watchAt s n = some w → w.watcher ≠ a := by
  unfold names
  simp only [Bool.or_eq_false_iff, List.any_eq_false]
  constructor
  · rintro ⟨h1, h2⟩
    constructor
    · intro i r hr
      have := h1 _ (List.mem_iff_getElem?.2 ⟨i, (toList_getElem? _ _).trans (row_of_roleAt hr)⟩)
      rw [entryNames_eq] at this
      simpa using this
    · intro n w hw
      have hw' : s.watches[n]? = some (some w) := by simpa [watchAt, Option.join_eq_some_iff] using hw
      have := h2 _ (List.mem_iff_getElem?.2 ⟨n, (toList_getElem? _ _).trans hw'⟩)
      simpa using this
  · rintro ⟨h1, h2⟩
    constructor
    · intro e he
      obtain ⟨i, hi⟩ := List.mem_iff_getElem?.1 he
      rw [toList_getElem?] at hi
      rw [entryNames_eq]
      cases hr : e.role with
      | none => simp
      | some r => simp [h1 i r (by simp [State.roleAt, hi, hr])]
    · intro o ho
      obtain ⟨n, hn⟩ := List.mem_iff_getElem?.1 ho
      rw [toList_getElem?] at hn
      cases o with
      | none => simp
      | some w => simpa using h2 n w (by simp [watchAt, hn])

/-- A watch record that is still in use has its watcher. -/
def KeepsWatchers (s t : State) : Prop :=
  ∀ n w, watchAt t n = some w → ∃ w', watchAt s n = some w' ∧ w'.watcher = w.watcher

theorem KeepsWatchers.refl (s : State) : KeepsWatchers s s := fun _ w h => ⟨w, h, rfl⟩

theorem KeepsWatchers.trans {s t u : State} (h1 : KeepsWatchers s t) (h2 : KeepsWatchers t u) : KeepsWatchers s u := by
  intro n w hw
  obtain ⟨w', h3, h4⟩ := h2 n w hw
  obtain ⟨w'', h5, h6⟩ := h1 n w' h3
  exact ⟨w'', h5, h6.trans h4⟩

theorem markPending_keeps (s : State) (h : Handle) : KeepsWatchers s (s.markPending h) := by
  intro n w hw
  simp only [State.markPending, watchAt, mapRows_getElem?] at hw ⊢
  cases ho : s.watches[n]? with
  | none => simp [ho] at hw
  | some o =>
    cases o with
    | none => simp [ho] at hw
    | some w' =>
      refine ⟨w', rfl, ?_⟩
      simp [ho] at hw
      rw [← hw]; split <;> rfl

theorem finalWatches_keeps (s : State) (h : Handle) (g : Half) : KeepsWatchers s (s.finalWatches h g) := by
  intro n w hw
  simp only [State.finalWatches, watchAt, mapRows_getElem?] at hw ⊢
  cases ho : s.watches[n]? with
  | none => simp [ho] at hw
  | some o =>
    cases o with
    | none => simp [ho] at hw
    | some w' =>
      refine ⟨w', rfl, ?_⟩
      simp only [ho, Option.map_some, Option.bind_some, Option.join_some] at hw
      split at hw
      · split at hw
        · injection hw with hw; rw [← hw]
        · simp at hw
      · injection hw with hw; rw [← hw]

theorem afterSkip_keeps (s : State) (h : Handle) (r : Role) : KeepsWatchers s (afterSkip s h r) := by
  unfold afterSkip
  split
  · split
    · exact (KeepsWatchers.refl s).trans (markPending_keeps (s.putRole _ _) h)
    · exact KeepsWatchers.refl s
  · exact finalWatches_keeps s h _

theorem afterLoss_keeps (s : State) (h : Handle) (r : Role) : KeepsWatchers s (afterLoss s h r) := by
  unfold afterLoss noteVacancy
  split
  · split
    · exact (KeepsWatchers.refl s).trans (markPending_keeps (s.putRole _ _) h)
    · exact (KeepsWatchers.refl s).trans (markPending_keeps (s.putRole _ _) h)
  · exact finalWatches_keeps s h _

theorem purgeRole_keeps (a : Byte) (s : State) (i : Nat) : KeepsWatchers s (State.purgeRole a s i) := by
  cases hr : s.roleAt i with
  | none => simp only [State.purgeRole, onRole_none hr]; exact KeepsWatchers.refl s
  | some r =>
    simp only [State.purgeRole, onRole_some hr]
    split
    · split
      · rw [loseHolder_eq hr]; exact afterLoss_keeps _ _ _
      · exact KeepsWatchers.refl s
    · split
      · rw [skip_eq hr]; exact afterSkip_keeps _ _ _
      · exact KeepsWatchers.refl s
    · exact KeepsWatchers.refl s

theorem foldl_keeps {f : State → Nat → State} (h : ∀ s i, KeepsWatchers s (f s i)) (l : List Nat) (s : State) :
    KeepsWatchers s (l.foldl f s) := by
  induction l generalizing s with
  | nil => exact KeepsWatchers.refl s
  | cons a l ih => exact (h s a).trans (ih _)

theorem offerToHead_names {r r' : Role} {g : Half} {a : Byte} (h : offerToHead r g = some r')
    (hc : ∀ c ∈ r.chain, c.claimant ≠ a) : roleNames r' a = false := by
  unfold offerToHead at h
  split at h
  · rename_i c rest hch
    injection h with h
    subst h
    have h1 := hc c (by simp [hch])
    have h2 : ∀ d ∈ rest, d.claimant ≠ a := fun d hd => hc d (by simp [hch, hd])
    simp [roleNames, heldBy, Safety.offeredTo, h1]
    exact h2
  · simp at h

theorem roleAfterPurge_names {a : Byte} {r r' : Role} (h : roleAfterPurge a r = some r') : roleNames r' a = false := by
  have hk : ∀ c ∈ r.chain.filter (fun c => c.claimant != a), c.claimant ≠ a := by
    intro c hc
    simpa using (List.mem_filter.1 hc).2
  have hleft : ∀ g, roleNames { r with tenure := .vacant, generation := g, chain := r.chain.filter (fun c => c.claimant != a) } a = false := by
    intro g
    simp [roleNames, heldBy, Safety.offeredTo]
  unfold roleAfterPurge at h
  split at h
  · unfold roleAfterLoss at h
    dsimp only at h
    split at h
    · rename_i r1 _ ho
      injection h with h; subst h
      exact offerToHead_names ho hk
    · injection h with h; subst h
      exact hleft _
    · simp at h
  · rename_i hh
    split at h
    · unfold roleAfterSkip at h
      dsimp only at h
      split at h
      · rename_i r1 _ ho
        injection h with h; subst h
        exact offerToHead_names ho hk
      · injection h with h; subst h
        exact hleft _
      · simp at h
    · rename_i hoff
      injection h with h; subst h
      have h1 : heldBy r a = false := by simpa using hh
      have h2 : Safety.offeredTo r a = false := by simpa using hoff
      unfold roleNames
      have h1' : heldBy { r with chain := r.chain.filter (fun c => c.claimant != a) } a = false := h1
      have h2' : Safety.offeredTo { r with chain := r.chain.filter (fun c => c.claimant != a) } a = false := h2
      rw [h1', h2']
      simp

/-- After the purge of a station no table names it (R40). -/
theorem names_purge (s : State) (a : Byte) : names (s.purge a) a = false := by
  rw [names_eq_false_iff]
  constructor
  · intro i r' hr'
    rw [(purge_roles s a i).1] at hr'
    cases hr : s.roleAt i with
    | none => simp [hr] at hr'
    | some r =>
      rw [hr] at hr'
      exact roleAfterPurge_names hr'
  · intro n w hw
    obtain ⟨w', h1, h2⟩ := foldl_keeps (purgeRole_keeps a) (List.range 96) (((s.purgeFrame a).purgeClaims a).purgeWatches a) n w hw
    rw [← h2]
    intro hc
    simp only [State.purgeWatches, watchAt, mapRows_getElem?] at h1
    generalize ((s.purgeFrame a).purgeClaims a).watches[n]? = o at h1
    cases o with
    | none => simp at h1
    | some o =>
      cases o with
      | none => simp at h1
      | some w0 =>
        by_cases h0 : w0.watcher = a
        · simp [Option.filter, h0] at h1
        · simp [Option.filter, h0] at h1
          rw [h1] at h0
          exact h0 hc

/-! ### Watches under a sweep (R128, R134) -/

theorem watchAt_markPending (s : State) (h : Handle) (n : Nat) :
    watchAt (s.markPending h) n = (watchAt s n).map (fun w => if w.handle = h then marked w else w) := by
  simp only [State.markPending, watchAt, mapRows_getElem?]
  cases s.watches[n]? with
  | none => rfl
  | some o =>
    cases o with
    | none => rfl
    | some w =>
      simp only [Option.map_some, Option.join_some, marked]
      by_cases h1 : w.handle = h <;> by_cases h2 : w.final = none <;> simp [h1, h2]

theorem watchAt_finalWatches (s : State) (h : Handle) (g : Half) (n : Nat) :
    watchAt (s.finalWatches h g) n = (watchAt s n).bind (fun w => if w.handle = h then finalled s g w else some w) := by
  simp only [State.finalWatches, watchAt, mapRows_getElem?]
  cases s.watches[n]? with
  | none => rfl
  | some o =>
    cases o with
    | none => rfl
    | some w => simp [finalled, State.rankReaches]

theorem watchAt_afterLoss (s : State) (h : Handle) (r : Role) (n : Nat) :
    watchAt (afterLoss s h r) n =
      (watchAt s n).bind (fun w => if w.handle = h then watchAfterLoss s r w else some w) := by
  unfold afterLoss watchAfterLoss
  cases roleAfterLoss r with
  | none => exact watchAt_finalWatches s h _ n
  | some r' =>
    have : watchAt (noteVacancy ((s.putRole h.index.toNat r').markPending h) h r') n =
        watchAt ((s.putRole h.index.toNat r').markPending h) n := by
      unfold noteVacancy; split <;> rfl
    simp only [this, watchAt_markPending]
    show (watchAt s n).map _ = _
    cases watchAt s n with
    | none => rfl
    | some w => simp only [Option.map_some, Option.bind_some]; split <;> rfl

theorem watchAt_afterSkip (s : State) (h : Handle) (r : Role) (n : Nat) :
    watchAt (afterSkip s h r) n =
      (watchAt s n).bind (fun w => if w.handle = h then watchAfterSkip s r w else some w) := by
  unfold afterSkip watchAfterSkip
  cases roleAfterSkip r with
  | none => exact watchAt_finalWatches s h _ n
  | some r' =>
    simp only
    by_cases hv : r'.tenure = .vacant
    · simp only [hv, if_true]
      show watchAt ((s.putRole h.index.toNat r').markPending h) n = _
      rw [watchAt_markPending]
      show (watchAt s n).map _ = _
      cases watchAt s n with
      | none => rfl
      | some w => simp only [Option.map_some, Option.bind_some]; split <;> rfl
    · simp only [hv, if_false, ite_self]
      show watchAt s n = _
      cases watchAt s n <;> rfl

/-- `f` acts on the watches of the role at its index alone, as `k` says, and keeps the configuration. -/
def ActsOnWatches (f : State → Nat → State) (k : State → Role → Watch → Option Watch) : Prop :=
  (∀ (s : State) (i n : Nat), watchAt (f s i) n = (watchAt s n).bind (fun w =>
    match s.roleAt i with
    | some r => if w.handle = s.handleAt i then k s r w else some w
    | none => some w))
  ∧ (∀ s i, (f s i).config = s.config)
  ∧ (∀ s t : State, s.config = t.config → k s = k t)
  ∧ ∀ s r w w', k s r w = some w' → w'.handle = w.handle

theorem sweep_watches {f : State → Nat → State} {g : Role → Option Role} {k : State → Role → Watch → Option Watch}
    (hl : ActsLocally f g) (h : ActsOnWatches f k) (s : State) (n m : Nat) :
    watchAt ((List.range n).foldl f s) m = (watchAt s m).bind (fun w =>
      match s.named w.handle with
      | some r => if w.handle.index.toNat < n then k s r w else some w
      | none => some w) := by
  obtain ⟨h1, h2, h3, h4⟩ := h
  have hcfg : ∀ n, ((List.range n).foldl f s).config = s.config := by
    intro n
    induction n with
    | zero => rfl
    | succ n ih => rw [List.range_succ, List.foldl_append]; exact (h2 _ _).trans ih
  induction n with
  | zero =>
    simp only [List.range_zero, List.foldl_nil]
    cases watchAt s m with
    | none => rfl
    | some w => simp only [Option.bind_some]; split <;> simp
  | succ n ih =>
    rw [List.range_succ, List.foldl_append, List.foldl_cons, List.foldl_nil, h1, ih]
    have hs := sweep_roles hl s n n
    have hr : ((List.range n).foldl f s).roleAt n = s.roleAt n := by simpa using hs.1
    have hh : ((List.range n).foldl f s).handleAt n = s.handleAt n := handleAt_of_incarnation hs.2
    rw [hr, hh, h3 _ _ (hcfg n)]
    cases hw : watchAt s m with
    | none => rfl
    | some w =>
      simp only [Option.bind_some]
      cases hn : s.named w.handle with
      | none =>
        simp only [Option.bind_some]
        cases hrn : s.roleAt n with
        | none => rfl
        | some r2 =>
          simp only
          rw [if_neg]
          intro hc
          rw [hc, named_handleAt hrn] at hn
          simp at hn
      | some r =>
        simp only
        by_cases hlt : w.handle.index.toNat < n
        · rw [if_pos hlt, if_pos (by omega)]
          cases hk : k s r w with
          | none => rfl
          | some w' =>
            simp only [Option.bind_some]
            cases hrn : s.roleAt n with
            | none => rfl
            | some r2 =>
              simp only
              rw [if_neg]
              intro hc
              rw [h4 _ _ _ _ hk] at hc
              have : w.handle.index.toNat = n := by rw [hc]; exact handleAt_index (roleAt_lt hrn)
              omega
        · rw [if_neg hlt]
          simp only [Option.bind_some]
          by_cases heq : w.handle.index.toNat = n
          · rw [if_pos (by omega)]
            have hra := roleAt_of_named hn
            have hha := handleAt_of_named hn
            rw [heq] at hra hha
            simp [hra, hha]
          · rw [if_neg (by omega)]
            cases hrn : s.roleAt n with
            | none => rfl
            | some r2 =>
              simp only
              rw [if_neg]
              intro hc
              apply heq
              rw [hc]
              exact handleAt_index (roleAt_lt hrn)

theorem finalled_config {s t : State} (h : s.config = t.config) : finalled s = finalled t := by
  funext g w; simp [finalled, h]

theorem watchAfterLoss_config {s t : State} (h : s.config = t.config) : watchAfterLoss s = watchAfterLoss t := by
  funext r w; simp [watchAfterLoss, finalled_config h]

theorem watchAfterSkip_config {s t : State} (h : s.config = t.config) : watchAfterSkip s = watchAfterSkip t := by
  funext r w; simp [watchAfterSkip, finalled_config h]

theorem finalled_handle {s : State} {g : Half} {w w' : Watch} (h : finalled s g w = some w') : w'.handle = w.handle := by
  unfold finalled at h
  split at h
  · injection h with h; rw [← h]
  · simp at h

theorem marked_handle (w : Watch) : (marked w).handle = w.handle := by
  unfold marked; split <;> rfl

theorem watchAfterLoss_handle {s : State} {r : Role} {w w' : Watch} (h : watchAfterLoss s r w = some w') :
    w'.handle = w.handle := by
  unfold watchAfterLoss at h
  split at h
  · injection h with h; rw [← h]; exact marked_handle w
  · exact finalled_handle h

theorem watchAfterSkip_handle {s : State} {r : Role} {w w' : Watch} (h : watchAfterSkip s r w = some w') :
    w'.handle = w.handle := by
  unfold watchAfterSkip at h
  split at h
  · split at h
    · injection h with h; rw [← h]; exact marked_handle w
    · injection h with h; rw [← h]
  · exact finalled_handle h

/-- What a lease tick does at a watch of a role. -/
def tickWatch (s : State) (r : Role) (w : Watch) : Option Watch :=
  if lapses r then watchAfterLoss s r w else if expires r then watchAfterSkip s r w else some w

theorem tickRole_watches : ActsOnWatches State.tickRole tickWatch := by
  refine ⟨fun s i n => ?_, fun s i => by rw [tickRole_reaches], fun s t h => ?_, fun s r w w' h => ?_⟩
  · cases hr : s.roleAt i with
    | none =>
      simp only [State.tickRole, onRole_none hr]
      cases watchAt s n <;> rfl
    | some r =>
      rw [tickRole_eq hr]
      unfold tickWatch
      by_cases hl : lapses r = true
      · simp only [hl, if_true]
        exact watchAt_afterLoss (s.raise .lapse (.role (s.handleAt i))) _ _ _
      · simp only [hl, Bool.false_eq_true, if_false]
        by_cases he : expires r = true
        · simp only [he, if_true]
          exact watchAt_afterSkip _ _ _ _
        · simp only [he, Bool.false_eq_true, if_false, ite_self]
          have : ∀ t : State, t.watches = s.watches → watchAt t n = (watchAt s n).bind some := by
            intro t ht
            simp [watchAt, ht]
          split
          · split
            · exact this _ rfl
            · exact this _ rfl
          · exact this _ rfl
  · funext r w
    simp [tickWatch, watchAfterLoss_config h, watchAfterSkip_config h]
  · unfold tickWatch at h
    split at h
    · exact watchAfterLoss_handle h
    · split at h
      · exact watchAfterSkip_handle h
      · injection h with h; rw [← h]

/-- A lease tick makes of every watch what R70, R74 and R117 say. -/
theorem tick_watches (s : State) (n : Nat) : watchAt s.tick n = (watchAt s n).bind (watchAfterTick s) := by
  have h := sweep_watches tickRole_acts tickRole_watches s 96 n
  have ht : watchAt s.tick n = _ := h
  rw [ht]
  congr 1
  funext w
  unfold watchAfterTick tickWatch
  cases hn : s.named w.handle with
  | none => rfl
  | some r =>
    have := roleAt_lt (roleAt_of_named hn)
    simp [this]

/-- What the second part of a purge does at a watch of a role. -/
def passWatch (a : Byte) (s : State) (r : Role) (w : Watch) : Option Watch :=
  if heldBy r a then watchAfterLoss s r w else if Safety.offeredTo r a then watchAfterSkip s r w else some w

theorem purgeRole_eq {a : Byte} {s : State} {i : Nat} {r : Role} (hr : s.roleAt i = some r) :
    State.purgeRole a s i =
      if heldBy r a then afterLoss s (s.handleAt i) r
      else if Safety.offeredTo r a then afterSkip s (s.handleAt i) r else s := by
  unfold State.purgeRole heldBy Safety.offeredTo
  rw [onRole_some hr]
  cases ht : r.tenure with
  | vacant => simp
  | held b lease attr => simp [loseHolder_eq hr]
  | offered o => simp [skip_eq hr]

theorem purgeRole_watches (a : Byte) : ActsOnWatches (State.purgeRole a) (passWatch a) := by
  refine ⟨fun s i n => ?_, fun s i => by rw [purgeRole_reaches], fun s t h => ?_, fun s r w w' h => ?_⟩
  · cases hr : s.roleAt i with
    | none =>
      simp only [State.purgeRole, onRole_none hr]
      cases watchAt s n <;> rfl
    | some r =>
      rw [purgeRole_eq hr]
      unfold passWatch
      by_cases hl : heldBy r a = true
      · simp only [hl, if_true]
        exact watchAt_afterLoss _ _ _ _
      · simp only [hl, Bool.false_eq_true, if_false]
        by_cases he : Safety.offeredTo r a = true
        · simp only [he, if_true]
          exact watchAt_afterSkip _ _ _ _
        · simp only [he, Bool.false_eq_true, if_false, ite_self]
          simp
  · funext r w
    simp [passWatch, watchAfterLoss_config h, watchAfterSkip_config h]
  · unfold passWatch at h
    split at h
    · exact watchAfterLoss_handle h
    · split at h
      · exact watchAfterSkip_handle h
      · injection h with h; rw [← h]

/-! ### Attention under a sweep (R164) -/

theorem foldl_raises (s : State) (p : Nat → Bool) (r : Option AttentionRecord) (n : Nat) :
    (List.range n).foldl (fun r i => if p i then some (raisedRecord r (.role (s.handleAt i))) else r) r =
      raisedForRoles s r ((List.range n).filter p) := by
  induction n with
  | zero => rfl
  | succ n ih =>
    rw [List.range_succ, List.foldl_append, List.filter_append, List.foldl_cons, List.foldl_nil, ih]
    by_cases hp : p n = true
    · simp only [hp, if_true, List.filter_cons, List.filter_nil, raisedForRoles]
      cases hl : ((List.range n).filter p).getLast? with
      | none =>
        have he : (List.range n).filter p = [] := by simpa using hl
        rw [he]
        cases r with
        | none => simp [raisedRecord]
        | some x => simp [raisedRecord, Config.attentionMax]
      | some k =>
        simp only [raisedRecord, Config.attentionMax, List.getLast?_append, List.getLast?_singleton, Option.some_or,
          List.length_append, List.length_singleton]
        congr 2
        omega
    · simp [hp]

/-- `f` raises VACANCY, and with `l` LAPSE, for the role at its index alone. -/
def RaisesLocally (f : State → Nat → State) (l v : Role → Bool) : Prop :=
  ∀ (s : State) (i : Nat), (f s i).attention = { s.attention with
    lapse := if (s.roleAt i).any l then some (raisedRecord s.attention.lapse (.role (s.handleAt i))) else s.attention.lapse
    vacancy := if (s.roleAt i).any v then some (raisedRecord s.attention.vacancy (.role (s.handleAt i)))
      else s.attention.vacancy }

theorem sweep_attention {f : State → Nat → State} {g : Role → Option Role} {l v : Role → Bool} (hl : ActsLocally f g)
    (h : RaisesLocally f l v) (s : State) (n : Nat) :
    ((List.range n).foldl f s).attention = { s.attention with
      lapse := raisedForRoles s s.attention.lapse ((List.range n).filter (fun i => (s.roleAt i).any l))
      vacancy := raisedForRoles s s.attention.vacancy ((List.range n).filter (fun i => (s.roleAt i).any v)) } := by
  rw [← foldl_raises, ← foldl_raises]
  induction n with
  | zero => rfl
  | succ n ih =>
    have hs := sweep_roles hl s n n
    have hr : ((List.range n).foldl f s).roleAt n = s.roleAt n := by simpa using hs.1
    have hh : ((List.range n).foldl f s).handleAt n = s.handleAt n := handleAt_of_incarnation hs.2
    rw [List.range_succ, List.foldl_append, List.foldl_append, List.foldl_append]
    simp only [List.foldl_cons, List.foldl_nil]
    rw [h, hr, hh, ih]

theorem afterLoss_attention (s : State) (h : Handle) (r : Role) :
    (afterLoss s h r).attention = { s.attention with
      vacancy := if (roleAfterLoss r).any (fun r' => r'.tenure == .vacant) then
        some (raisedRecord s.attention.vacancy (.role h)) else s.attention.vacancy } := by
  unfold afterLoss noteVacancy
  cases roleAfterLoss r with
  | none => rfl
  | some r' =>
    simp only [Option.any_some, beq_iff_eq]
    split <;> rfl

theorem afterSkip_attention (s : State) (h : Handle) (r : Role) :
    (afterSkip s h r).attention = { s.attention with
      vacancy := if (roleAfterSkip r).any (fun r' => r'.tenure == .vacant) then
        some (raisedRecord s.attention.vacancy (.role h)) else s.attention.vacancy } := by
  unfold afterSkip
  cases roleAfterSkip r with
  | none => rfl
  | some r' =>
    simp only [Option.any_some, beq_iff_eq]
    split <;> rfl

theorem roleAfterTick_of_lapses {r : Role} (hl : lapses r = true) : roleAfterTick r = roleAfterLoss r := by
  unfold lapses at hl
  unfold roleAfterTick
  split at hl
  · rename_i lease _ ht
    rw [ht]; simp at hl; simp [show ¬ 2 ≤ lease by omega]
  · simp at hl

theorem roleAfterTick_of_expires {r : Role} (he : expires r = true) : roleAfterTick r = roleAfterSkip r := by
  unfold expires at he
  unfold roleAfterTick
  split at he
  · rename_i o ht
    rw [ht]
    split at he
    · rename_i window hw
      simp only [hw]; simp at he; simp [show ¬ 2 ≤ window by omega]
    · simp at he
  · simp at he

theorem tickRole_raises : RaisesLocally State.tickRole lapses
    (fun r => (lapses r || expires r) && (roleAfterTick r).any (fun r' => r'.tenure == .vacant)) := by
  intro s i
  cases hr : s.roleAt i with
  | none => simp [State.tickRole, onRole_none hr]
  | some r =>
    rw [tickRole_eq hr]
    simp only [Option.any_some]
    by_cases hl : lapses r = true
    · simp only [hl, if_true, Bool.true_or, Bool.true_and, roleAfterTick_of_lapses hl, afterLoss_attention]
      rfl
    · by_cases he : expires r = true
      · simp only [hl, he, if_true, Bool.or_true, Bool.true_and, roleAfterTick_of_expires he, afterSkip_attention,
          Bool.false_eq_true, if_false]
      · simp only [hl, he, if_false, Bool.false_eq_true, Bool.or_self, Bool.false_and]
        split
        · split <;> rfl
        · rfl

theorem purgeRole_raises (a : Byte) : RaisesLocally (State.purgeRole a) (fun _ => false)
    (fun r => (heldBy r a || Safety.offeredTo r a) && (roleAfterPass a r).any (fun r' => r'.tenure == .vacant)) := by
  intro s i
  cases hr : s.roleAt i with
  | none => simp [State.purgeRole, onRole_none hr]
  | some r =>
    rw [purgeRole_eq hr]
    simp only [Option.any_some, roleAfterPass]
    by_cases hl : heldBy r a = true
    · simp only [hl, if_true, Bool.true_or, Bool.true_and, afterLoss_attention, Bool.false_eq_true, if_false]
    · by_cases he : Safety.offeredTo r a = true
      · simp only [hl, he, if_true, Bool.or_true, Bool.true_and, afterSkip_attention, Bool.false_eq_true, if_false]
      · simp only [hl, he, if_false, Bool.false_eq_true, Bool.or_self, Bool.false_and]

/-! ### The whole purge -/

theorem purgeFrame_frame (s : State) (a : Byte) : (s.purgeFrame a).frame = s.frame.bind (frameAfterPurge a) := by
  unfold State.purgeFrame
  cases hf : s.frame with
  | none => simp [hf]
  | some f =>
    simp only [Option.bind_some, frameAfterPurge]
    split
    · split
      · simp_all
      · rename_i hp
        rw [if_neg hp]
    · simp [hf]

/-- What a purge makes of a state: R39 whole. -/
theorem purge_purged (s : State) (a : Byte) : purged s (s.purge a) a := by
  have hP := purgeFrame_reaches s a
  have hroles : (s.purgeFrame a).roles = s.roles := by
    unfold State.purgeFrame
    repeat' split
    all_goals rfl
  have hwat : (s.purgeFrame a).watches = s.watches := by
    unfold State.purgeFrame
    repeat' split
    all_goals rfl
  have hatt : (s.purgeFrame a).attention = s.attention := by
    unfold State.purgeFrame
    repeat' split
    all_goals rfl
  have hcfg : (s.purgeFrame a).config = s.config := by rw [hP]
  generalize hT : ((s.purgeFrame a).purgeClaims a).purgeWatches a = T
  have hpass : s.purge a = (List.range 96).foldl (State.purgeRole a) T := by rw [← hT]; rfl
  have hTcfg : T.config = s.config := by rw [← hT]; exact hcfg
  have hTatt : T.attention = s.attention := by rw [← hT]; exact hatt
  have hTrole : ∀ j, T.roleAt j = (s.roleAt j).map (fun r => { r with chain := r.chain.filter (fun c => c.claimant != a) }) := by
    intro j
    rw [← hT]
    simp only [State.roleAt, State.purgeWatches, State.purgeClaims, mapRows_getElem?, hroles]
    cases s.roles[j]? <;> rfl
  have hTinc : ∀ j, incarnationAt T j = incarnationAt s j := by
    intro j
    rw [← hT]
    simp only [incarnationAt, State.purgeWatches, State.purgeClaims, mapRows_getElem?, hroles]
    cases s.roles[j]? <;> rfl
  have hTnamed : ∀ h : Handle, T.named h = (s.named h).map (fun r => { r with chain := r.chain.filter (fun c => c.claimant != a) }) := by
    intro h
    rw [← hT]
    simp only [State.named, State.purgeWatches, State.purgeClaims, mapRows_getElem?, hroles]
    cases s.roles[h.index.toNat]? with
    | none => rfl
    | some e => simp only [Option.map_some]; split <;> rfl
  refine ⟨?_, fun i => (purge_roles s a i).1, fun i => (purge_roles s a i).2, fun n => ?_, ?_, ?_, names_purge s a⟩
  · have := purge_reaches s a
    exact this
  · rw [hpass, sweep_watches (purgeRole_acts a) (purgeRole_watches a) T 96 n]
    have hTw : watchAt T n = (watchAt s n).filter (fun w => w.watcher != a) := by
      rw [← hT]
      simp only [watchAt, State.purgeWatches, State.purgeClaims, mapRows_getElem?, hwat]
      cases s.watches[n]? with
      | none => rfl
      | some o => cases o <;> rfl
    rw [hTw]
    cases hw : watchAt s n with
    | none => rfl
    | some w =>
      simp only [Option.bind_some, watchAfterPurge]
      by_cases hwa : w.watcher = a
      · simp [Option.filter, hwa]
      · simp only [Option.filter, hwa, bne_iff_ne, ne_eq, not_false_eq_true, if_true, if_false, Option.bind_some, hTnamed]
        cases hn : s.named w.handle with
        | none => rfl
        | some r =>
          have := roleAt_lt (roleAt_of_named hn)
          simp only [Option.map_some, this, if_true, passWatch, watchAfterLoss_config hTcfg, watchAfterSkip_config hTcfg]
          rfl
  · rw [hpass]
    have h1 := foldl_reaches (purgeRole_reaches a) (List.range 96) T
    generalize (List.range 96).foldl (State.purgeRole a) T = P at h1
    have h2 : P.frame = T.frame := by rw [h1]
    rw [h2, ← hT]
    exact purgeFrame_frame s a
  · rw [hpass, sweep_attention (purgeRole_acts a) (purgeRole_raises a) T 96, hTatt]
    have e1 : (List.range 96).filter (fun i => (T.roleAt i).any (fun _ => false)) = [] := by
      rw [List.filter_eq_nil_iff]; intro i _; cases T.roleAt i <;> simp
    have e2 : (List.range 96).filter (fun i => (T.roleAt i).any (fun r =>
        (heldBy r a || Safety.offeredTo r a) && (roleAfterPass a r).any (fun r' => r'.tenure == .vacant))) = vacatedByPurge s a := by
      unfold vacatedByPurge
      apply List.filter_congr
      intro i _
      rw [hTrole]
      cases s.roleAt i <;> rfl
    rw [e1, e2]
    have e3 : ∀ r l, raisedForRoles T r l = raisedForRoles s r l := by
      intro r l
      unfold raisedForRoles
      cases l.getLast? with
      | none => rfl
      | some j => simp only [handleAt_of_incarnation (hTinc j)]
    simp only [e3]
    rfl

/-- The purge does not look at the station table (R39). -/
theorem purge_stations (s : State) (x) (a : Byte) : ({ s with stations := x } : State).purge a = { s.purge a with stations := x } := by
  have hf : ∀ (l : List Nat) (t : State), l.foldl (State.purgeRole a) { t with stations := x } = { l.foldl (State.purgeRole a) t with stations := x } := by
    intro l
    induction l with
    | nil => intro t; rfl
    | cons i l ih =>
      intro t
      simp only [List.foldl_cons]
      have : State.purgeRole a { t with stations := x } i = { State.purgeRole a t i with stations := x } := by
        cases hr : t.roleAt i with
        | none =>
          have hr' : ({ t with stations := x } : State).roleAt i = none := hr
          simp only [State.purgeRole, onRole_none hr, onRole_none hr']
        | some r =>
          have hr' : ({ t with stations := x } : State).roleAt i = some r := hr
          rw [purgeRole_eq hr, purgeRole_eq hr']
          split
          · unfold afterLoss noteVacancy
            repeat' split
            all_goals rfl
          · split
            · unfold afterSkip
              repeat' split
              all_goals rfl
            · rfl
      rw [this, ih]
  have hg : ∀ t : State, ({ t with stations := x } : State).purgeFrame a = { t.purgeFrame a with stations := x } := by
    intro t
    unfold State.purgeFrame
    repeat' split
    all_goals first | rfl | simp_all
  unfold State.purge
  rw [show ((({ s with stations := x } : State).purgeFrame a).purgeClaims a).purgeWatches a = { ((s.purgeFrame a).purgeClaims a).purgeWatches a with stations := x } from by rw [hg]; rfl, ← hf]

end Sys2Proof.Machine
end

