-- ==== Sys2Proof/Laws/Strike.lean ====
section
/-! SUPPORT. The third strike: the VACANCY record that the failed OFFER and the purge after it leave. -/

namespace Sys2Proof.Machine

open Sys2Proof.Safety

/-- One row more in a filtered range: the length goes up by one, and the last row is the greater of the two. -/
theorem filter_one_more (q : Nat → Bool) (k : Nat) (hk : q k = false) (n : Nat) :
    (∀ j, ((List.range n).filter q).getLast? = some j → j < n) ∧
    (n ≤ k → (List.range n).filter (fun i => i == k || q i) = (List.range n).filter q) ∧
    (k < n → ((List.range n).filter (fun i => i == k || q i)).length = ((List.range n).filter q).length + 1 ∧
      ((List.range n).filter (fun i => i == k || q i)).getLast? = some (match ((List.range n).filter q).getLast? with
        | none => k | some j => max j k)) := by
  induction n with
  | zero => simp
  | succ n ih =>
    obtain ⟨h0, h1, h2⟩ := ih
    simp only [List.range_succ, List.filter_append]
    refine ⟨fun j hj => ?_, fun hn => ?_, fun hn => ?_⟩
    · by_cases hq : q n = true
      · simp [hq] at hj; omega
      · simp [hq] at hj
        have := h0 j (by simpa using hj); omega
    · rw [h1 (by omega)]
      have : (n == k) = false := by simp; omega
      simp only [List.filter_cons, this, Bool.false_or, List.filter_nil]
    · by_cases hnk : n = k
      · subst hnk
        rw [h1 (le_refl _)]
        simp only [List.filter_cons, hk, beq_self_eq_true, Bool.true_or, if_true, List.filter_nil, List.append_nil, Bool.false_eq_true, if_false, List.getLast?_append, List.getLast?_singleton, Option.some_or, List.length_append, List.length_singleton, true_and]
        cases hl : ((List.range n).filter q).getLast? with
        | none => rfl
        | some j => have := h0 j hl; simp; omega
      · have hb : (n == k) = false := by simp [hnk]
        obtain ⟨h3, h4⟩ := h2 (by omega)
        by_cases hq : q n = true
        · have hk2 : max n k = n := by omega
          simp [hq, h3, hk2]
        · have hq' : q n = false := by simpa using hq
          simp [hb, hq', h3, h4]


/-- A skip that leaves its role VACANT raises VACANCY for it, and nothing else. -/
theorem attention_afterSkip {s : State} {h : Handle} {r : Role} (hn : s.named h = some r)
    (hv : (afterSkip s h r).isVacant h.index.toNat = true) :
    (afterSkip s h r).attention = (s.raise .vacancy (.role h)).attention := by
  have hr := roleAt_of_named hn
  unfold afterSkip at hv ⊢
  cases ha : roleAfterSkip r with
  | none => simp [ha, afterRetirement, State.isVacant, roleAt_freeEntry] at hv
  | some r' =>
    simp only [ha] at hv ⊢
    split at hv
    · rename_i h1
      rw [if_pos h1]; rfl
    · rename_i h1
      rcases isVacant_putRole hv with h2 | h2
      · exact absurd h2 h1
      · rw [hr] at h2; simp at h2

/-- A failed OFFER that leaves its role VACANT raises VACANCY for it, and keeps every handle. -/
theorem attention_failed {s : State} {h : Handle} {number : Byte} {r : Role} {o : Offer} (hc : s.currentOffer h number = some (r, o))
    (hv : (afterFailedDelivery s (.offer h number)).isVacant h.index.toNat = true) :
    (afterFailedDelivery s (.offer h number)).attention = (s.raise .vacancy (.role h)).attention
    ∧ ∀ j, (afterFailedDelivery s (.offer h number)).handleAt j = s.handleAt j := by
  have hn := ((currentOffer_eq_some_iff _ _ _ _ _).1 hc).1
  have e : afterFailedDelivery s (.offer h number) = afterFailure s h r o := by simp [afterFailedDelivery, hc]
  rw [e] at hv ⊢
  have hr := roleAt_of_named hn
  unfold afterFailure at hv ⊢
  split at hv
  · rcases isVacant_putRole hv with h1 | h1
    · simp at h1
    · rw [hr] at h1; simp at h1
  · rename_i ho
    rw [if_neg ho]
    exact ⟨attention_afterSkip hn hv, fun j => handleAt_of_incarnation (incarnationAt_afterSkip _ _ _ _)⟩

/-- What `vacancyAtLeast` makes of the raises of a third strike: the record of one raise for each role that the failed OFFER and the purge left VACANT (R37, R164). -/
theorem strike_vacancy {s F u : State} {a : Byte} {h : Handle} (hl : h.index.toNat < 96) (hh : s.handleAt h.index.toNat = h)
    (hF : F.attention = (s.raise .vacancy (.role h)).attention) (hha : ∀ j, F.handleAt j = s.handleAt j)
    (hvac : F.isVacant h.index.toNat = true) (hp : purged F u a) (e : Option Station) :
    let v := (u.setStation a e).raise .stationLost (.station a)
    v.vacancyAtLeast h = { v with attention := { v.attention with
      vacancy := raisedForRoles s s.attention.vacancy (vacatedByStrike F a h) } } := by
  intro v
  have hatt := hp.2.2.2.2.2.1
  have hk : (vacatedByPurge F a).contains h.index.toNat = false := by
    rw [List.contains_eq_mem]
    simp only [vacatedByPurge, List.mem_filter, decide_eq_false_iff_not, not_and]
    intro _ hany
    unfold State.isVacant at hvac
    cases hr : F.roleAt h.index.toNat with
    | none => simp [hr] at hvac
    | some r =>
      simp only [hr, Option.any_some, beq_iff_eq, Bool.and_eq_true, Bool.or_eq_true] at hvac hany
      simp [heldBy, offeredTo, hvac] at hany
  have hq : vacatedByPurge F a = (List.range 96).filter (fun i => (vacatedByPurge F a).contains i) := by
    conv_lhs => rw [vacatedByPurge]
    apply List.filter_congr
    intro i hi
    simp only [List.mem_range] at hi
    rw [Bool.eq_iff_iff]
    simp [vacatedByPurge, hi]
  obtain ⟨hlt, -, hmore⟩ := filter_one_more (fun i => (vacatedByPurge F a).contains i) h.index.toNat hk 96
  obtain ⟨hlen, hlast⟩ := hmore hl
  rw [← hq] at hlen hlast hlt
  have hva : v.attention.vacancy = raisedForRoles F F.attention.vacancy (vacatedByPurge F a) := by
    have : v.attention.vacancy = u.attention.vacancy := by
      simp only [v, State.raise, Attention.raise, Attention.set, setStation_attention]
    rw [this, hatt]
  have hr : ∀ w : State, w.vacancyAtLeast h = { w with attention := { w.attention with vacancy := (w.vacancyAtLeast h).attention.vacancy } } := by
    intro w
    unfold State.vacancyAtLeast
    repeat' split
    all_goals rfl
  rw [hr]
  congr 2
  have hFv : F.attention.vacancy = some ⟨min ((s.attention.vacancy.map AttentionRecord.count).getD 0 + 1) 255, .role h⟩ := by
    rw [hF]
    simp only [State.raise, Attention.raise, Attention.set, Attention.get, raisedRecord, Config.attentionMax]
    cases s.attention.vacancy <;> rfl
  rw [show vacatedByStrike F a h = (List.range 96).filter (fun i => i == h.index.toNat || (vacatedByPurge F a).contains i) from rfl]
  simp only [State.vacancyAtLeast, hva, raisedForRoles, hlast, hlen, hFv]
  cases hg : (vacatedByPurge F a).getLast? with
  | none =>
    have : vacatedByPurge F a = [] := by simpa using hg
    simp [hva, raisedForRoles, hFv, this, hh]
  | some j =>
    have hj := hlt j hg
    have hji : (F.handleAt j).index.toNat = j := by rw [handleAt_index hj]
    simp only [Option.map_some, Option.getD_some]
    have hcount : ∀ c n : Nat, min (min (c + 1) 255 + n) 255 = min (c + (n + 1)) 255 := by intro c n; omega
    split
    · rename_i hlt'
      rw [BitVec.lt_def, hji] at hlt'
      simp only [hcount, show max j h.index.toNat = h.index.toNat by omega, hh]
    · rename_i hge
      rw [BitVec.lt_def, hji] at hge
      simp only [hva, raisedForRoles, hg, hFv, Option.map_some, Option.getD_some, hcount, show max j h.index.toNat = j by omega, hha]

end Sys2Proof.Machine
end

