-- ==== Sys2Proof/Laws/Words.lean ====
section
/-! SUPPORT. The model's tests and blocks in the words of Safety: one lemma for each test of the state that a statement speaks of, and for each run of bytes that it spells. -/

namespace Sys2Proof.Machine

open Sys2Proof.Safety

/-! ### The line and the clock -/

theorem lineTaken_iff (s : State) :
    s.lineTaken = true ↔ s.answer ≠ .idle ∨ ∃ f, s.frame = some f ∧ f.phase ≠ .selected := by
  simp [State.lineTaken, Option.any_eq_true]

theorem listening_iff (s : State) : s.listening = true ↔ hears s := by
  have h : s.lineTaken = false ↔ s.answer = .idle ∧ ∀ f, s.frame = some f → f.phase = .selected := by
    rw [← Bool.not_eq_true, lineTaken_iff]
    push Not
    rfl
  simp only [State.listening, Bool.and_eq_true, Bool.not_eq_true', Option.isNone_iff_eq_none, beq_iff_eq, h, hears,
    and_assoc]

theorem ticking_iff (s : State) : s.ticking = true ↔ clockRuns s := by
  unfold State.ticking clockRuns
  cases s.clock <;> simp [and_assoc]

theorem slot_eq_some_iff (s : State) (f : Frame) (final : Bool) :
    s.slot = some (f, final) ↔ s.frame = some f ∧ ∃ formed, f.phase = .awaitingAnswer formed final := by
  unfold State.slot
  cases hf : s.frame with
  | none => simp
  | some g =>
    simp only [Option.some.injEq]
    cases hp : g.phase with
    | awaitingAnswer formed b =>
      simp only [Option.some.injEq, Prod.mk.injEq]
      constructor
      · rintro ⟨rfl, rfl⟩; exact ⟨rfl, formed, hp⟩
      · rintro ⟨rfl, x, hx⟩
        rw [hp] at hx
        injection hx with _ h2
        exact ⟨rfl, h2⟩
    | _ =>
      simp only [reduceCtorEq, false_iff]
      rintro ⟨rfl, x, hx⟩
      rw [hp] at hx
      simp at hx

/-! ### Candidates and subjects -/

theorem rankReaches_iff (s : State) (rank : Nat) : s.rankReaches rank = true ↔ rankSent s rank := by
  simp [State.rankReaches, rankSent]

theorem eligible_iff (s : State) (n : Nat) (w : Watch) :
    watchAt s n = some w ∧ s.eligible w = true ↔ noticeWaits s n w := by
  simp [State.eligible, noticeWaits, rankReaches_iff]

theorem watchNamed_eq_some_iff (s : State) (n : Nat) (watcher : Byte) (h : Handle) (w : Watch) :
    s.watchNamed n watcher h = some w ↔ watchOn s n watcher h w := by
  unfold State.watchNamed watchOn watchAt
  cases (s.watches[n]?).join with
  | none => simp
  | some v =>
    simp only [Option.some.injEq]
    by_cases hv : v.watcher = watcher ∧ v.handle = h
    · simp only [hv, and_self, if_true, Option.some.injEq]
      constructor
      · rintro rfl; exact ⟨rfl, hv⟩
      · exact And.left
    · simp only [hv, if_false, reduceCtorEq, false_iff]
      rintro ⟨rfl, h2⟩
      exact hv h2

theorem currentOffer_iff (s : State) (h : Handle) (number : Byte) (r : Role) (o : Offer) :
    s.currentOffer h number = some (r, o) ↔ offerOn s h number r o := currentOffer_eq_some_iff s h number r o

theorem subjectCurrent_iff (s : State) (subject : Subject) : s.subjectCurrent subject = true ↔ current s subject := by
  cases subject with
  | restart => simp [State.subjectCurrent, current]
  | offer h number =>
    simp only [State.subjectCurrent, current, Option.isSome_iff_exists, Prod.exists, currentOffer_iff]
  | watch n watcher h =>
    simp only [State.subjectCurrent, current, Option.any_eq_true, watchNamed_eq_some_iff, rankReaches_iff]

theorem subjectRecorded_iff (s : State) (subject : Subject) : s.subjectRecorded subject = true ↔ recorded s subject := by
  cases subject with
  | restart => simp [State.subjectRecorded, recorded]
  | offer h number => simp only [State.subjectRecorded, recorded, Option.isSome_iff_exists]
  | watch n watcher h =>
    simp only [State.subjectRecorded, recorded, Option.isSome_iff_exists, watchNamed_eq_some_iff]

theorem subjectEnded_iff (s before : State) (subject : Subject) :
    s.subjectEnded before subject = true ↔ endedBy before s subject := by
  simp only [State.subjectEnded, endedBy, Bool.or_eq_true, Bool.and_eq_true, Bool.not_eq_true', ← Bool.not_eq_true,
    subjectCurrent_iff, subjectRecorded_iff]

theorem offerPending_iff (s : State) (j : Nat) :
    (∃ e, s.roles[j]? = some e ∧ e.offerPending = true) ↔ offerWaits s j := by
  constructor
  · rintro ⟨e, he, hp⟩
    simp only [Entry.offerPending, Option.any_eq_true] at hp
    obtain ⟨r, h1, h2⟩ := hp
    cases ht : r.tenure with
    | offered o =>
      rw [ht] at h2
      exact ⟨r, o, by simp [State.roleAt, he, h1], ht, by simpa using h2⟩
    | _ => simp [ht] at h2
  · rintro ⟨r, o, hr, ht, hp⟩
    exact ⟨_, row_of_roleAt hr, by simp [Entry.offerPending, ht, hp]⟩

/-- The first offer is the waiting one of lowest index (R141). -/
theorem firstOffer_eq_some_iff (s : State) (i : Nat) :
    s.firstOffer = some i ↔ offerWaits s i ∧ ∀ j, j < i → ¬ offerWaits s j := by
  unfold State.firstOffer
  rw [findRow_eq_some_iff]
  simp only [← offerPending_iff]
  refine and_congr_right fun _ => forall_congr' fun j => ?_
  constructor
  · rintro h hj ⟨e, he, hp⟩
    rw [h e hj he] at hp
    simp at hp
  · intro h e hj he
    by_contra hc
    exact h hj ⟨e, he, by simpa using hc⟩

theorem firstOffer_isSome_iff (s : State) : s.firstOffer.isSome = true ↔ ∃ j, offerWaits s j := by
  rw [← Bool.not_eq_false, Option.isSome_eq_false_iff, Option.isNone_iff_eq_none]
  unfold State.firstOffer
  rw [findRow_eq_none_iff]
  simp only [← offerPending_iff]
  constructor
  · intro h
    by_contra hc
    refine h fun j e he => ?_
    by_contra hp
    exact hc ⟨j, e, he, by simpa using hp⟩
  · rintro ⟨j, e, he, hp⟩ h
    rw [h j e he] at hp
    simp at hp

/-- The first notice is a waiting one, and none stands ahead of it by rank and number (R141). -/
theorem firstNotice_spec {s : State} {n : Nat} {w : Watch} (h : s.firstNotice = some (n, w)) :
    noticeWaits s n w ∧ ∀ m v, noticeWaits s m v → v.rank < w.rank ∨ (v.rank = w.rank ∧ n ≤ m) := by
  have hs := best_spec s 64
  have he : s.firstNotice = (List.range 64).foldl (bestStep s) none := rfl
  rw [← he, h] at hs
  obtain ⟨-, h2, h3, h4⟩ := hs
  refine ⟨(eligible_iff _ _ _).1 ⟨h2, h3⟩, fun m v hv => ?_⟩
  have hv' := (eligible_iff _ _ _).2 hv
  exact h4 m v (watchAt_lt hv'.1) hv'.1 hv'.2

theorem firstNotice_eq_none {s : State} (h : s.firstNotice = none) (n : Nat) (w : Watch) : ¬ noticeWaits s n w := by
  intro hw
  have hs := best_spec s 64
  have he : s.firstNotice = (List.range 64).foldl (bestStep s) none := rfl
  rw [← he, h] at hs
  have hw' := (eligible_iff _ _ _).2 hw
  rw [hs n w (watchAt_lt hw'.1) hw'.1] at hw'
  simp at hw'

theorem overtaken_iff (s : State) (subject : Subject) : s.overtaken subject = true ↔ ahead s subject := by
  cases subject with
  | restart => simp [State.overtaken, ahead]
  | offer h number =>
    simp only [State.overtaken, ahead, Option.any_eq_true, decide_eq_true_eq]
    constructor
    · rintro ⟨i, hi, hl⟩
      exact ⟨i, hl, ((firstOffer_eq_some_iff _ _).1 hi).1⟩
    · rintro ⟨j, hj, hw⟩
      obtain ⟨i, hi⟩ := Option.isSome_iff_exists.1 ((firstOffer_isSome_iff s).2 ⟨j, hw⟩)
      refine ⟨i, hi, ?_⟩
      have := ((firstOffer_eq_some_iff _ _).1 hi).2 j
      by_contra hc
      exact this (by omega) hw
  | watch n watcher h =>
    simp only [State.overtaken, ahead, Bool.or_eq_true, firstOffer_isSome_iff]
    refine or_congr_right ?_
    cases hn : s.firstNotice with
    | none =>
      simp only [Bool.false_eq_true, false_iff]
      rintro ⟨m, v, w, hv, -⟩
      exact firstNotice_eq_none hn m v hv
    | some p =>
      obtain ⟨m, v⟩ := p
      obtain ⟨h1, h2⟩ := firstNotice_spec hn
      cases hw : s.watchNamed n watcher h with
      | none =>
        simp only [Bool.false_eq_true, false_iff]
        rintro ⟨_, _, w, -, hw', -⟩
        rw [(watchNamed_eq_some_iff _ _ _ _ _).2 hw'] at hw
        simp at hw
      | some w =>
        have hw' := (watchNamed_eq_some_iff _ _ _ _ _).1 hw
        simp only [Bool.or_eq_true, Bool.and_eq_true, decide_eq_true_eq, beq_iff_eq]
        constructor
        · intro hc
          exact ⟨m, v, w, h1, hw', hc⟩
        · rintro ⟨m', v', w'', hv', hw'', hc⟩
          rw [(watchNamed_eq_some_iff _ _ _ _ _).2 hw''] at hw
          injection hw with hw
          subst hw
          have := h2 m' v' hv'
          omega

/-- The frame that a selection fills in is new, its subject is current, and no candidate stands ahead of it (R139, R141). -/
theorem select_spec {s : State} {g : Frame} (hf : s.frame = none) (hg : s.select.frame = some g) :
    g.phase = .selected ∧ g.collisions = 0 ∧ g.begun = false ∧ current s.select g.subject ∧ ¬ ahead s.select g.subject := by
  unfold State.select at hg ⊢
  split at hg
  · rw [hf] at hg; simp at hg
  · rename_i hopen
    rw [if_neg hopen]
    split at hg
    · rename_i hl
      split at hg
      · rw [hf] at hg; simp at hg
      · rename_i ha
        injection hg with hg
        subst hg
        refine ⟨rfl, rfl, rfl, ?_, id⟩
        rw [hl, if_neg ha]
        exact ⟨rfl, by simpa using ha⟩
    · rename_i hl
      rw [hl]
      split at hg
      · rename_i i hi
        obtain ⟨⟨r, o, hr, ht, hp⟩, hlow⟩ := (firstOffer_eq_some_iff _ _).1 hi
        have hi96 := roleAt_lt hr
        have hsel : s.selectOffer i = { s.putRole i { r with tenure := .offered { o with phase := .inFlight } } with
            frame := some (newFrame (.offer (s.handleAt i) o.number) o.offeree) } := by
          simp only [State.selectOffer, onRole_some hr, ht, State.setOfferPhase]
        have hroles : (s.selectOffer i).roles = (s.putRole i { r with tenure := .offered { o with phase := .inFlight } }).roles := by
          rw [hsel]
        rw [hsel] at hg
        injection hg with hg
        subst hg
        have hrow := fun j => (roleAt_of_roles hroles j).trans (roleAt_putRole s i j _)
        have hh : (s.selectOffer i).handleAt i = s.handleAt i := by
          rw [handleAt_of_roles hroles]
          simp only [State.handleAt, incarnation_putRole]
        refine ⟨rfl, rfl, rfl, ⟨{ r with tenure := .offered { o with phase := .inFlight } }, { o with phase := .inFlight },
          ?_, rfl, rfl, rfl⟩, ?_⟩
        · rw [← hh]
          exact named_handleAt (by rw [hrow]; simp [hi96])
        · rintro ⟨j, hj, r', o', hr', ht', hp'⟩
          rw [handleAt_index hi96] at hj
          rw [hrow, if_neg (by omega)] at hr'
          exact hlow j hj ⟨r', o', hr', ht', hp'⟩
      · rename_i hno
        have hno' : ∀ j, ¬ offerWaits s j := by
          intro j hj
          have := (firstOffer_isSome_iff s).2 ⟨j, hj⟩
          rw [hno] at this
          simp at this
        split at hg
        · rename_i n w hn
          obtain ⟨hw, hb⟩ := firstNotice_spec hn
          injection hg with hg
          subst hg
          refine ⟨rfl, rfl, rfl, ⟨w, ⟨hw.1, rfl, rfl⟩, hw.2.2⟩, ?_⟩
          rintro (⟨j, hj⟩ | ⟨m, v, w', hv, hw', hc⟩)
          · exact hno' j hj
          · have h1 : watchAt s n = some w' := hw'.1
            rw [hw.1] at h1
            injection h1 with h1
            subst h1
            have := hb m v hv
            omega
        · rw [hf] at hg; simp at hg
    · rw [hf] at hg; simp at hg

/-! ### What is sent of the records -/

theorem roleView_eq (h : Handle) (r : Role) : roleView h r = viewOf h r := by
  unfold roleView viewOf stateFields kindByte
  cases r.kind <;> cases r.tenure <;> rfl

theorem offerBytes_eq (t : Tenure) : offerBytes t.offer = offerFields t := by
  cases t with
  | offered o =>
    obtain ⟨_, _, _, phase, _⟩ := o
    cases phase <;> rfl
  | _ => rfl

theorem entryBytes_eq (index : Byte) (e : Entry) : entryBytes index e = roleRecord index e := by
  unfold entryBytes roleRecord
  cases e.role with
  | none => rfl
  | some r =>
    simp only [offerBytes_eq, chainBytes, tagBytes]
    unfold stateFields kindByte
    cases r.kind <;> cases r.tenure <;> rfl

theorem attentionBytes_eq (r : Option AttentionRecord) : attentionBytes r = attentionRecord r := by
  match r with
  | none => rfl
  | some ⟨_, .none⟩ => rfl
  | some ⟨_, .role _⟩ => rfl
  | some ⟨_, .refusal _ _⟩ => rfl
  | some ⟨_, .station _⟩ => rfl

/-! ### The characters of the trunk (R1, R167) -/

theorem byteOfLsb_trunkCharacter (b : Byte) : byteOfLsb (trunkCharacter b).data = b := by
  revert b
  decide +kernel

theorem goodBytes_append (chars : List Byte) (line : List TrunkCharacter) :
    goodBytes (chars.map trunkCharacter ++ line) = chars ++ goodBytes line := by
  induction chars with
  | nil => rfl
  | cons b chars ih =>
    rw [List.map_cons, List.cons_append, List.cons_append, ← ih]
    conv_rhs => rw [← byteOfLsb_trunkCharacter b]
    rfl

theorem goodBytes_characters (chars : List Byte) : goodBytes (chars.map trunkCharacter) = chars := by
  have h := goodBytes_append chars []
  rwa [List.append_nil, show goodBytes [] = [] from rfl, List.append_nil] at h

theorem goodBytes_bad {bad : TrunkCharacter} (h : bad.stop = .space) (rest : List TrunkCharacter) :
    goodBytes (bad :: rest) = [] := by
  simp [goodBytes, TrunkCharacter.isBad, h]

theorem characters_good (chars : List Byte) : (chars.map trunkCharacter).any TrunkCharacter.isBad = false := by
  simp [trunkCharacter, TrunkCharacter.isBad]

/-! ### The bits of a transaction (R151) -/

theorem wholeBytes_fragment {fragment : List Bool} (h : fragment.length < 8) : wholeBytes fragment = [] := by
  unfold wholeBytes
  split
  · simp at h; omega
  · rfl

theorem wholeBytes_cons (b : Byte) (rest : List Bool) : wholeBytes (byteBits b ++ rest) = b :: wholeBytes rest := by
  have h : ∀ b : Byte, (BitVec.ofBoolListBE [b.getMsbD 0, b.getMsbD 1, b.getMsbD 2, b.getMsbD 3, b.getMsbD 4, b.getMsbD 5, b.getMsbD 6, b.getMsbD 7] : BitVec 8) = b := by
    decide
  exact congrArg (· :: wholeBytes rest) (h b)

theorem wholeBytes_bits (bytes : List Byte) {fragment : List Bool} (h : fragment.length < 8) :
    wholeBytes (bytes.flatMap byteBits ++ fragment) = bytes := by
  induction bytes with
  | nil => exact wholeBytes_fragment h
  | cons b bytes ih => rw [List.flatMap_cons, List.append_assoc, wholeBytes_cons, ih]

theorem bits_get (l : List Byte) (k : Nat) : (l.flatMap byteBits)[k]? = (l[k / 8]?).map (fun b => b.getMsbD (k % 8)) := by
  induction l generalizing k with
  | nil => simp
  | cons b l ih =>
    have hl : (byteBits b).length = 8 := rfl
    rw [List.flatMap_cons]
    by_cases hk : k < 8
    · rw [List.getElem?_append_left (by omega)]
      simp [byteBits, Nat.div_eq_of_lt hk, Nat.mod_eq_of_lt hk, hk]
    · rw [List.getElem?_append_right (by omega), hl, ih]
      obtain ⟨m, rfl⟩ : ∃ m, k = m + 8 := ⟨k - 8, by omega⟩
      simp

theorem bits_length (l : List Byte) : (l.flatMap byteBits).length = 8 * l.length := by
  induction l with
  | nil => rfl
  | cons b l ih => rw [List.flatMap_cons, List.length_append, ih, List.length_cons, show (byteBits b).length = 8 from rfl]; omega

end Sys2Proof.Machine
end

