-- ==== Sys2Proof/Tests/Slice0.lean ====
section
/-! SUPPORT. The model's own tests: the checks of WellFormed refuse, the checks of R168, single steps on small states, and for every statement with hypotheses a concrete state and operands that meet them. -/

namespace Sys2Proof.Tests

set_option Elab.async false

open Sys2Proof.Machine Sys2Proof.Safety

/-! ### Small states -/

/-- The part in ONLINE at epoch 7 with empty tables. -/
def online : State :=
  { State.reset with
    link := .online, epoch := 7, announced := true, receiver := .synchronised, clock := .running 20, clearing := none }

/-- The part in OFFLINE after the reset clear. -/
def offline : State := { State.reset with clearing := none }

/-- A live role put into an entry. -/
def withRole (i : Nat) (n : Byte) (r : Role) (s : State) : State :=
  { s with roles := s.roles.setIfInBounds i ⟨n, some r⟩ }

/-- A station put at an address. -/
def withStation (a : Byte) (serial : Serial) (strikes : Nat) (s : State) : State :=
  s.setStation a (some ⟨serial, strikes⟩)

/-- The state after a command. -/
def after (c : Instr) (s : State) : State :=
  match exec c s with
  | .next t => t
  | _ => s

def tagA : Tag := [0x41]
def tagB : Tag := [0x42]
def tagC : Tag := [0x43]
def tagD : Tag := [0x44]
def tagE : Tag := [0x45]
def tagF : Tag := [0x46]

/-- HELD by 3 with its last lease tick to run, and one claim behind. -/
def heldRole : Role := ⟨tagA, .transient, .held 3 1 [0x55], 50, 9, 0, [⟨4, 5⟩]⟩
/-- PINNED and VACANT. -/
def vacantRole : Role := ⟨tagB, .pinned, .vacant, 60, 2, 0, []⟩
/-- OFFERED to 4, WAITING in its last lease tick, with no one behind. -/
def waitingRole : Role := ⟨tagC, .pinned, .offered ⟨4, 3, 7, .waiting 1, 0⟩, 70, 5, 7, []⟩
/-- OFFERED to 5, waiting to be sent. -/
def offeredRole : Role := ⟨tagD, .transient, .offered ⟨5, 2, 2, .pendingSend, 1⟩, 80, 6, 2, [⟨3, 1⟩]⟩
/-- HELD by 6 with a full chain of six. -/
def fullRole : Role :=
  ⟨tagE, .pinned, .held 6 2 [], 4095, 1, 0, [⟨3, 7⟩, ⟨4, 7⟩, ⟨5, 6⟩, ⟨7, 6⟩, ⟨8, 1⟩, ⟨9, 1⟩]⟩
/-- HELD by 3, whose lease exceeds a term of 1. -/
def lastRole : Role := ⟨tagF, .pinned, .held 3 90 [], 90, 1, 0, []⟩

/-- Stations, roles in each state and watches. -/
def crowd : State :=
  let s := online
    |> withStation 3 30 0 |> withStation 4 40 1 |> withStation 5 50 2 |> withStation 6 60 0
    |> withStation 7 70 0 |> withStation 8 80 0 |> withStation 9 90 0
    |> withRole 0 1 heldRole |> withRole 1 2 vacantRole |> withRole 2 1 waitingRole |> withRole 3 255 offeredRole
    |> withRole 4 1 fullRole |> withRole 95 1 lastRole
  (s.setWatch 0 (some ⟨3, ⟨0, 1⟩, 2, false, 0, none⟩)).setWatch 63 (some ⟨4, ⟨0, 1⟩, 7, true, 2, none⟩)

/-- An OFFER frame to 5 in its slot. -/
def offerInSlot : State :=
  { crowd with
    roles := crowd.roles.setIfInBounds 3 ⟨255, some { offeredRole with tenure := .offered ⟨5, 2, 2, .inFlight, 1⟩ }⟩
    frame := some ⟨.offer ⟨3, 255⟩ 2, 5, .awaitingAnswer ⟨5, 0, 0x41, 7, []⟩ false, 7, true, false⟩ }

/-- A NOTICE frame to 4 in its slot. -/
def noticeInSlot : State :=
  { crowd with frame := some ⟨.watch 63 4 ⟨0, 1⟩, 4, .awaitingAnswer ⟨4, 0, 0x42, 7, []⟩ false, 0, true, false⟩ }

/-- The frame of a state in another phase. -/
def inPhase (p : FramePhase) (s : State) : State := { s with frame := s.frame.map (fun f => { f with phase := p }) }

/-- A state with an answer of the part due. -/
def answering : State := { crowd with answer := .due ⟨.ok, []⟩ }

/-- RESTART on the line in ANNOUNCING. -/
def announcing : State :=
  { online with
    link := .announcing, announced := false, clock := .stopped
    frame := some ⟨.restart, 63, .onLine ⟨63, 0, 0x40, 7, []⟩ false, 8, true, false⟩ }

/-! ### From tests to quantifiers -/

theorem roles_all {s : State} {P : Nat → Role → Bool}
    (h : (List.range 96).all (fun j => (s.roleAt j).all (P j)) = true) : ∀ j r, s.roleAt j = some r → P j r = true := by
  intro j r hr
  rw [List.all_eq_true] at h
  have := h j (List.mem_range.2 (roleAt_lt hr))
  simpa [hr] using this

theorem stations_all {s : State} {P : Byte → Station → Bool}
    (h : (List.range 256).all (fun n => (s.station (byteOf n)).all (P (byteOf n))) = true) :
    ∀ a st, s.station a = some st → P a st = true := by
  intro a st ha
  rw [List.all_eq_true] at h
  have := h a.toNat (List.mem_range.2 a.isLt)
  simpa [ha] using this

theorem watches_all {s : State} {P : Nat → Watch → Bool}
    (h : (List.range 64).all (fun n => (watchAt s n).all (P n)) = true) : ∀ n w, watchAt s n = some w → P n w = true := by
  intro n w hw
  rw [List.all_eq_true] at h
  have hn : n < 64 := by
    unfold watchAt at hw
    cases hr : s.watches[n]? with
    | none => simp [hr] at hw
    | some o => exact row_lt hr
  have := h n (List.mem_range.2 hn)
  simpa [hw] using this

theorem notices_all {s : State} {P : Nat → Watch → Prop} [∀ n w, Decidable (P n w)]
    (h : (List.range 64).all (fun n => (watchAt s n).all (fun w => !s.eligible w || decide (P n w))) = true) :
    ∀ n w, noticeWaits s n w → P n w := by
  intro n w hw
  obtain ⟨h1, h2⟩ := (eligible_iff s n w).2 hw
  have := watches_all (P := fun n w => !s.eligible w || decide (P n w)) h n w h1
  simpa [h2] using this

/-- The role at an index alone carries its tag. -/
theorem carries_of {s : State} {i : Nat} {t : Tag} {r : Role} (h1 : s.roleAt i = some r) (h2 : r.tag = t)
    (h : (List.range 96).all (fun j => (s.roleAt j).all (fun r' => r'.tag != t || j == i)) = true) : carries s i t r := by
  refine ⟨h1, h2, fun j r' hr ht => ?_⟩
  have := roles_all (P := fun j r' => r'.tag != t || j == i) h j r' hr
  simpa [ht] using this

theorem uncarried_of {s : State} {t : Tag}
    (h : (List.range 96).all (fun j => (s.roleAt j).all (fun r' => r'.tag != t)) = true) : uncarried s t := by
  intro j r hr ht
  have := roles_all (P := fun _ r' => r'.tag != t) h j r hr
  simp [ht] at this

/-- A set of roles that names no offer waiting to be sent below an index. -/
theorem noOfferBelow_of {s : State} {i : Nat}
    (h : (List.range 96).all (fun j => (s.roleAt j).all (fun r' => match r'.tenure with
      | .offered o => o.phase != .pendingSend || !decide (j < i)
      | _ => true)) = true) :
    ∀ j r' o', j < i → s.roleAt j = some r' → r'.tenure = .offered o' → o'.phase ≠ .pendingSend := by
  intro j r' o' hj hr ht hp
  have := roles_all (P := fun j r' => match r'.tenure with
    | .offered o => o.phase != .pendingSend || !decide (j < i)
    | _ => true) h j r' hr
  simp [ht, hp] at this
  omega

/-! ### The checks of WellFormed refuse -/

theorem test_request_needs_a_sender :
    ([Instr.join 0 7 [], .leave 0 7 [], .find 0 7 [], .lookup 0 7 [], .claim 0 7 [], .renew 0 7 [], .release 0 7 [], .change 0 7 [], .retire 0 7 [], .withdraw 0 7 [], .accept 0 7 [], .decline 0 7 [], .watch 0 7 [], .unwatch 0 7 []].all (fun i => !i.wellFormed)) = true := by decide

theorem test_request_body_is_bounded :
    ([Instr.join 3 7 (List.replicate 25 0), .leave 3 7 (List.replicate 25 0), .find 3 7 (List.replicate 25 0), .lookup 3 7 (List.replicate 25 0), .claim 3 7 (List.replicate 25 0), .renew 3 7 (List.replicate 25 0), .release 3 7 (List.replicate 25 0), .change 3 7 (List.replicate 25 0), .retire 3 7 (List.replicate 25 0), .withdraw 3 7 (List.replicate 25 0), .accept 3 7 (List.replicate 25 0), .decline 3 7 (List.replicate 25 0), .watch 3 7 (List.replicate 25 0), .unwatch 3 7 (List.replicate 25 0)].all (fun i => !i.wellFormed)) = true := by
  decide

theorem test_requests_with_24_bytes_are_sent : (Instr.join 1 7 (List.replicate 24 0)).wellFormed = true := by decide
theorem test_illegal_code_is_none_of_the_requests : (Instr.illegalCode 3 0x0E 7 []).wellFormed = false := by decide
theorem test_illegal_code_0F : (Instr.illegalCode 3 0x0F 7 []).wellFormed = true := by decide
theorem test_illegal_code_needs_a_sender : (Instr.illegalCode 0 0x0F 7 []).wellFormed = false := by decide
theorem test_heard_frame_is_not_for_the_directory : (Instr.stationFrameHeard 0 3).wellFormed = false := by decide
theorem test_heard_frame_is_not_foreign : (Instr.stationFrameHeard 63 0).wellFormed = false := by decide
theorem test_foreign_frame_has_a_dest_of_the_trunk : (Instr.foreignFrame 64).wellFormed = false := by decide
theorem test_answer_body_is_bounded : (Instr.validAnswer 0x80 (List.replicate 25 0)).wellFormed = false := by decide
theorem test_lapse_has_a_role_index : (Instr.lapse 96).wellFormed = false := by decide
theorem test_expiry_has_a_role_index : (Instr.windowExpiry 96).wellFormed = false := by decide

theorem test_commands_have_the_lengths_of_R171 :
    ([Instr.nop 0 (List.replicate 1 0), .readStatus 0 (List.replicate 1 0), .readAttention 0 (List.replicate 2 0), .setAttentionEnable 0 (List.replicate 0 0), .configure 0 (List.replicate 7 0), .start 0 (List.replicate 2 0), .stop 0 (List.replicate 1 0), .resume 0 (List.replicate 1 0), .directoryReset 0 (List.replicate 1 0), .defineRole 0 (List.replicate 9 0), .retireRole 0 (List.replicate 1 0), .setTerm 0 (List.replicate 3 0), .forceHandover 0 (List.replicate 3 0), .evictStation 0 (List.replicate 0 0), .readRole 0 (List.replicate 0 0), .readStation 0 (List.replicate 2 0), .readWatch 0 (List.replicate 0 0)].all (fun i => !i.wellFormed)) = true := by decide

theorem test_bad_command_is_refused_by_R152 : (Instr.badCommand (commandBytes .nop 5 [])).wellFormed = false := by
  decide +kernel
theorem test_no_word_spells_a_command : decodeTableWord 8 1 = none := rfl

/-! ### Checks and bytes (R167, R168) -/

theorem test_crc16 : crc16 [0x31, 0x32, 0x33, 0x34, 0x35, 0x36, 0x37, 0x38, 0x39] = 0x29B1#16 := by decide +kernel
theorem test_crc8 : crc8 [0x31, 0x32, 0x33, 0x34, 0x35, 0x36, 0x37, 0x38, 0x39] = 0xF4#8 := by decide +kernel
theorem test_tag_field : tagBytes tagA = [0x41, 0, 0, 0, 0, 0, 0, 0] := rfl
theorem test_tag_with_a_gap_is_illegal : tagOf [0x41, 0, 0x42, 0, 0, 0, 0, 0] = none := by decide
theorem test_empty_tag_is_illegal : tagOf [0, 0, 0, 0, 0, 0, 0, 0] = none := by decide
theorem test_serial_order : serialBytes 0x01020304#32 = [1, 2, 3, 4] := by decide
theorem test_frame_is_read_back :
    (Instr.lookup 3 7 [0, 1]).frameBytes.map decodeFrame = some (.lookup 3 7 [0, 1]) := by decide +kernel
theorem test_answer_is_read_from_its_characters :
    decodeAnswer true [0x80, 0x00, 0x06, 0x97, 0xFF] = .validAnswer 0x80 []
      ∧ decodeAnswer true [0x80, 0x00, 0x06, 0x96] = .badAnswer .badCheck := by decide +kernel
theorem test_answer_ends_where_LEN_says : answerLength [0x83, 0x02, 1, 2, 3, 4, 5] = some 6 := by decide
theorem test_trunk_bits_are_sent_least_significant_first :
    trunkCharacter 0x83 = ⟨.space, [true, true, false, false, false, false, false, true], .mark⟩
      ∧ byteOfLsb [true, true, false, false, false, false, false, true] = 0x83 := by decide
theorem test_a_bad_character_spoils_the_frame :
    decodeFrameCharacters ((((Instr.lookup 3 7 [0, 1]).frameBytes.getD []).take 8).map trunkCharacter
      ++ [{ trunkCharacter 0x55 with stop := .space }]) = .badCharacter := by decide +kernel
theorem test_bits_are_taken_most_significant_first :
    wholeBytes [true, false, false, false, false, false, true, true, true, true, true] = [0x83] := by decide
theorem test_transaction_is_read_back :
    (Instr.readRole 9 [95]).transactionBytes.map decodeTransaction = some (.readRole 9 [95]) := by decide +kernel

/-! ### Single steps -/

theorem test_join_takes_the_lowest_address :
    (after (.join 62 0 [0, 0, 0, 99]) crowd).answer = .due ⟨.ok, [1, 7, 0, 0, 0, 99]⟩ := by decide +kernel
theorem test_rejoin_keeps_the_address :
    (after (.join 62 0 [0, 0, 0, 30]) crowd).answer = .due ⟨.ok, [3, 7, 0, 0, 0, 30]⟩ := by decide +kernel
theorem test_leave_passes_the_role_on :
    ((after (.leave 3 7 []) crowd).roleAt 0).map Role.tenure = some (.offered ⟨4, 5, 1, .inFlight, 0⟩) := by
  decide +kernel
theorem test_find_returns_the_view :
    (after (.find 9 7 (tagBytes tagB)) crowd).answer =
      .due ⟨.ok, [1, 2, 0x42, 0, 0, 0, 0, 0, 0, 0, 2, 1, 0, 0, 2, 0]⟩ := by decide +kernel
theorem test_lookup_of_an_old_handle :
    (after (.lookup 9 7 [1, 1]) crowd).answer = .due ⟨.staleHandle, []⟩ := by decide +kernel
theorem test_claim_of_a_vacant_role :
    (after (.claim 9 7 (tagBytes tagB ++ [1])) crowd).answer = .due ⟨.granted, [1, 2, 0, 3, 0, 60]⟩ := by decide +kernel
theorem test_claim_is_queued_behind_equal_rank :
    (after (.claim 9 7 (tagBytes tagA ++ [5])) crowd).answer = .due ⟨.queued, [0, 1, 2]⟩ := by decide +kernel
theorem test_renew_restores_the_term :
    ((after (.renew 3 7 [0, 1]) crowd).roleAt 0).map (fun r => r.tenure.lease) = some 50 := by decide +kernel
theorem test_release_leaves_a_pinned_role_vacant :
    ((after (.release 3 7 [95, 1]) crowd).attention.vacancy) = some ⟨1, .role ⟨95, 1⟩⟩ := by decide +kernel
theorem test_change_with_an_old_generation :
    (after (.change 3 7 [0, 1, 0, 8, 1]) crowd).answer = .due ⟨.conflict, [0, 9]⟩ := by decide +kernel
theorem test_change_publishes :
    ((after (.change 3 7 [0, 1, 0, 9, 0xAA, 0xBB]) crowd).roleAt 0).map (fun r => (r.tenure.attr, r.generation)) =
      some ([0xAA, 0xBB], 10) := by decide +kernel
theorem test_retire_frees_the_entry : (after (.retire 3 7 [0, 1]) crowd).roleAt 0 = none := by decide +kernel
theorem test_retire_of_a_pinned_role :
    (after (.retire 3 7 [95, 1]) crowd).answer = .due ⟨.notPermitted, []⟩ := by decide +kernel
theorem test_withdraw_shortens_the_chain :
    ((after (.withdraw 4 7 [0, 1]) crowd).roleAt 0).map Role.chain = some [] := by decide +kernel
theorem test_accept_grants :
    (after (.accept 4 7 [2, 1]) crowd).answer = .due ⟨.granted, [2, 1, 0, 6, 0, 70]⟩ := by decide +kernel
theorem test_decline_offers_to_the_next :
    ((after (.decline 5 7 [3, 255]) crowd).roleAt 3).map Role.tenure = some (.offered ⟨3, 1, 3, .inFlight, 0⟩) := by
  decide +kernel
theorem test_watch_takes_the_lowest_record :
    (after (.watch 9 7 [1, 2, 7]) crowd).answer = .due ⟨.ok, [1, 0, 2]⟩ := by decide +kernel
theorem test_unwatch_without_a_record :
    (after (.unwatch 9 7 [0, 1]) crowd).answer = .due ⟨.notWatching, []⟩ := by decide +kernel
theorem test_heard_frame_clears_strikes :
    ((after (.stationFrameHeard 63 5) crowd).station 5).map Station.strikes = some 0 := by decide +kernel
theorem test_foreign_frame_silences : (after (.foreignFrame 63) crowd).link = .silent := by decide +kernel
theorem test_restart_done_goes_online :
    (after .restartCompletesClean announcing).attention.online = some ⟨1, .none⟩ := by decide +kernel
theorem test_restart_keeps_its_count : (after .collision announcing).frame.map Frame.collisions = some 8 := by
  decide +kernel
theorem test_accept_in_the_slot :
    ((after (.validAnswer 0x80 []) offerInSlot).roleAt 3).map Role.tenure = some (.held 5 80 []) := by decide +kernel
theorem test_wait_in_the_slot :
    ((after (.validAnswer 0x82 []) offerInSlot).roleAt 3).map (fun r => r.tenure.offer.map Offer.phase) =
      some (some (.waiting 10)) := by decide +kernel
theorem test_third_strike_loses_the_station :
    (after .emptySlot offerInSlot).attention.stationLost = some ⟨1, .station 5⟩ := by decide +kernel
theorem test_third_failed_delivery_pauses_the_watch :
    (watchAt (after (.badAnswer .badCheck) noticeInSlot) 63).map (fun w => (w.rank, w.isPending, w.attempts)) =
      some (0, true, 0) := by decide +kernel
theorem test_lapse_hands_over :
    ((after (.lapse 0) crowd).attention.lapse) = some ⟨1, .role ⟨0, 1⟩⟩ := by decide +kernel
theorem test_window_expiry_leaves_the_role_vacant :
    ((after (.windowExpiry 2) crowd).roleAt 2).map (fun r => (r.tenure, r.generation)) = some (.vacant, 6) := by
  decide +kernel
theorem test_lease_tick_counts_every_role :
    ((after .leaseTick crowd).roleAt 95).map (fun r => r.tenure.lease) = some 89 := by decide +kernel
theorem test_set_term_clamps :
    ((after (.setTerm 1 [95, 1, 0, 1]) crowd).roleAt 95).map (fun r => r.tenure.lease) = some 1 := by decide +kernel
theorem test_define_pins_a_transient_role :
    ((after (.defineRole 1 (tagBytes tagA ++ [0, 1])) crowd).roleAt 0).map Role.kind = some .pinned := by decide +kernel
theorem test_define_takes_a_new_incarnation :
    (after (.defineRole 1 (tagBytes [0x5A] ++ [0, 1])) crowd).response = ⟨.ok, 1, [5, 1]⟩ := by decide +kernel
theorem test_force_handover_without_a_standby :
    (after (.forceHandover 1 [95, 1]) crowd).response.status = .noStandby := by decide +kernel
theorem test_evict_of_a_free_address : (after (.evictStation 1 [1]) crowd).response.status = .notJoined := by
  decide +kernel
theorem test_start_after_255 :
    (after (.start 1 []) { crowd with epoch := 255 }).response = ⟨.ok, 1, [1]⟩ := by decide +kernel
theorem test_read_status_while_the_clear_runs :
    (after (.readStatus 4 []) State.reset).response.data =
      [0, 0, 0, 0, 0, 0, 0, 0, 2, 20, 0, 50, 10, 1, 1, 8, 0] := by decide +kernel
theorem test_busy_while_the_clear_runs : (after (.stop 4 []) State.reset).response = ⟨.busy, 4, []⟩ := by decide +kernel
theorem test_bad_command_echoes : (after (.badCommand [0x55, 9]) crowd).response = ⟨.badCommand, 9, []⟩ := by
  decide +kernel

/-! ### States and operands that meet the hypotheses of each statement, at the ends of their ranges -/

/-- RESET held low. -/
def heldLow : State := after .resetInputLow crowd

/-- A state in which the part listens to no one. -/
def deaf : State := { crowd with receiver := .unsynchronised }

/-- All 56 addresses JOINED. -/
def fullHouse : State :=
  (List.range 56).foldl (fun s n => s.setStation (byteOf (n + 1)) (some ⟨BitVec.ofNat 32 (n + 1), 0⟩)) online

/-- All 96 entries live, of six claims each as far as the pool reaches. -/
def fullTables : State :=
  { crowd with
    roles := Vector.ofFn (fun i : Fin 96 =>
      ⟨1, some ⟨[0x30 + byteOf (i / 10), 0x30 + byteOf (i % 10)], .pinned, .held 3 5 [], 5, 0, 0,
        if i.val < 10 then [⟨4, 7⟩, ⟨5, 6⟩, ⟨6, 5⟩, ⟨7, 4⟩, ⟨8, 3⟩, ⟨9, 1⟩]
        else if i.val = 10 then [⟨4, 7⟩, ⟨5, 6⟩, ⟨6, 5⟩, ⟨7, 4⟩] else []⟩⟩)
    watches := Vector.ofFn (fun i : Fin 64 => some ⟨4, ⟨byteOf i, 1⟩, 1, false, 0, none⟩) }

/-- Creation CLOSED. -/
def closed : State := { crowd with config := { crowd.config with creation := .closed } }

/-- No offer waits to be sent. -/
def noOffers : State := { crowd with roles := crowd.roles.setIfInBounds 3 ⟨255, none⟩ }

/-- The NOTICE for watch 63 is SELECTED. -/
def noticeSelected : State :=
  { noOffers with frame := some ⟨.watch 63 4 ⟨0, 1⟩, 4, .selected, 0, false, false⟩ }

/-- The OFFER of role 3 is SELECTED after one collision. -/
def offerSelected : State :=
  { offerInSlot with frame := some ⟨.offer ⟨3, 255⟩ 2, 5, .selected, 1, true, false⟩ }

/-- The NOTICE for watch 0, of rank 2, is SELECTED after one collision. -/
def lowSelected : State :=
  { noOffers with frame := some ⟨.watch 0 3 ⟨0, 1⟩, 3, .selected, 1, true, false⟩ }

/-- The same, with the floor raised above its rank while the frame was on the line. -/
def belowFloor : State := { lowSelected with config := { lowSelected.config with noticeFloor := 3 } }

/-- No offer waits, and the NOTICE of watch 63 is SELECTED while watch 5 is pending at the same rank. -/
def rivalSelected : State := noticeSelected.setWatch 5 (some ⟨3, ⟨0, 1⟩, 7, true, 0, none⟩)

/-- The third attempt of the last OFFER of a PINNED role is in its slot, at a station with two strikes that holds role 95. -/
def lastOfferInSlot : State :=
  { (crowd |> withRole 95 1 { lastRole with tenure := .held 5 90 [] }
      |> withRole 2 1 { waitingRole with tenure := .offered ⟨5, 3, 7, .inFlight, 2⟩ }) with
    frame := some ⟨.offer ⟨2, 1⟩ 7, 5, .awaitingAnswer ⟨5, 0, 0x41, 7, []⟩ false, 0, true, false⟩ }

/-- The NOTICE to 4 is in its slot, and station 4 has been evicted and has come back with the same watch. -/
def purgedNoticeInSlot : State :=
  { noticeInSlot with frame := noticeInSlot.frame.map (fun f => { f with purgedTarget := true }) }

/-! ### Single steps on the directory's own frames -/

theorem test_unwatch_withdraws_a_notice_below_the_floor :
    belowFloor.frame.map Frame.subject = some (.watch 0 3 ⟨0, 1⟩)
      ∧ (after (.unwatch 3 7 [0, 1]) belowFloor).frame.map Frame.subject = some (.watch 63 4 ⟨0, 1⟩) := by decide +kernel
theorem test_watch_at_rank_0_withdraws_a_notice_below_the_floor :
    (after (.watch 3 7 [0, 1, 0]) belowFloor).frame.map Frame.subject = some (.watch 63 4 ⟨0, 1⟩) := by decide +kernel
theorem test_retirement_withdraws_the_notice_of_a_watch_it_frees :
    watchAt (after (.retireRole 1 [0, 1]) belowFloor) 0 = none
      ∧ (after (.retireRole 1 [0, 1]) belowFloor).frame.map Frame.subject = some (.watch 63 4 ⟨0, 1⟩) := by decide +kernel
theorem test_outcome_of_a_purged_target_is_disregarded :
    watchAt (after .emptySlot purgedNoticeInSlot) 63 = watchAt purgedNoticeInSlot 63 := by decide +kernel
theorem test_third_strike_names_the_last_vacancy :
    (after .emptySlot lastOfferInSlot).attention.vacancy = some ⟨2, .role ⟨95, 1⟩⟩ := by decide +kernel

theorem test_meets_StepRunsTheFrontCommand :
    (crowd.withQueue [.leaseTick, .emptySlot]).pending = .leaseTick :: [.emptySlot] ∧ crowd.pending = [] := ⟨rfl, rfl⟩

theorem test_meets_ResetsSetTheirValues : portOpen crowd := by decide +kernel

theorem test_meets_ResetClearFreesTheTables :
    State.reset.pins.resetLow = false ∧ State.reset.clearing = some .powerOn
      ∧ (after (.directoryReset 1 []) crowd).pins.resetLow = false
      ∧ (after (.directoryReset 1 []) crowd).clearing = some .directory
      ∧ crowd.pins.resetLow = false ∧ crowd.clearing = none := by decide +kernel

theorem test_meets_ResetLowStopsThePart :
    heldLow.pins.resetLow = true ∧ Instr.leaseTick ≠ .resetInputLow ∧ Instr.leaseTick ≠ .powerOnReset := by
  decide +kernel

theorem test_meets_ReceiverFollowsTheLine :
    (crowd.pins.resetLow = false ∧ crowd.lineTaken = false ∧ crowd.slot = none)
      ∧ (offerInSlot.pins.resetLow = false ∧ offerInSlot.lineTaken = true)
      ∧ (answering.pins.resetLow = false ∧ answering.lineTaken = true ∧ answering.slot = none) := by decide +kernel

theorem test_meets_AnswersOnTheLine :
    answering.pins.resetLow = false ∧ answering.answer = .due ⟨.ok, []⟩
      ∧ (after .answerBegin answering).pins.resetLow = false
      ∧ (after .answerBegin answering).answer = .sending ⟨.ok, []⟩
      ∧ crowd.pins.resetLow = false ∧ crowd.answer = .idle := by decide +kernel

theorem test_meets_HeardFramesClearStrikes :
    hears crowd ∧ (63 : Byte) ≤ 63#8 ∧ (0 : Byte) ≤ 63#8 ∧ 63#8 < (64 : Byte) ∧ ¬ hears deaf := by
  simp only [← listening_iff]
  decide +kernel

theorem test_meets_ForeignFramesSilenceTheLink :
    (hears crowd ∧ (63 : Byte) ≤ 63#8 ∧ crowd.link = .online)
      ∧ (hears { announcing with frame := none } ∧ announcing.link = .announcing)
      ∧ (¬ hears deaf ∧ 63#8 < (64 : Byte) ∧ offline.link = .offline
        ∧ (after (.foreignFrame 0) crowd).link = .silent) := by
  simp only [← listening_iff]
  decide +kernel

theorem test_meets_GateAppliesItsConditionsInOrder_untaken :
    gateFrame (.leave 3 7 []) = some (some .leave, 3, 7, []) ∧ deaf.listening = false
      ∧ gateFrame (.leave 3 7 (List.replicate 25 0)) = some (some .leave, 3, 7, List.replicate 25 0)
      ∧ 24 < (List.replicate 25 (0 : Byte)).length
      ∧ gateFrame (.illegalCode 0 0x0F 7 []) = some (none, 0, 7, []) ∧ crowd.listening = true := by decide +kernel

theorem test_meets_GateAppliesItsConditionsInOrder :
    crowd.listening = true
      ∧ gateAnswer { crowd with link := .offline } (some .leave) 3 7 [] = some none
      ∧ gateAnswer { crowd with link := .silent } (some .leave) 3 7 [] = some none
      ∧ gateAnswer crowd (some .leave) 57 7 [] = some none ∧ gateAnswer crowd (some .leave) 61 7 [] = some none
      ∧ gateAnswer crowd (some .leave) 63 7 [] = some none ∧ gateAnswer crowd (some .leave) 255 7 [] = some none
      ∧ gateAnswer { crowd with link := .announcing } (some .join) 62 0 [0, 0, 0, 1] = some (some ⟨.notReady, []⟩)
      ∧ gateAnswer crowd (some .join) 62 0 [0, 0, 0, 0] = some (some ⟨.badRequest, []⟩)
      ∧ gateAnswer crowd (some .join) 62 0 [0, 0, 0, 1] = none
      ∧ gateAnswer crowd (some .leave) 62 6 [] = some (some ⟨.staleEpoch, [7]⟩)
      ∧ gateAnswer crowd (some .leave) 62 7 [] = some (some ⟨.notJoined, []⟩)
      ∧ gateAnswer crowd (some .leave) 56 7 [] = some (some ⟨.notJoined, []⟩)
      ∧ gateAnswer crowd none 3 7 [] = some (some ⟨.badRequest, []⟩)
      ∧ gateAnswer crowd (some .lookup) 3 7 [96, 0] = some (some ⟨.badRequest, []⟩)
      ∧ gateAnswer crowd (some .lookup) 3 7 [95, 0] = none := by decide +kernel

theorem test_meets_JoinGivesTheLowestFreeAddress :
    crowd.listening = true ∧ crowd.link = .online ∧ (isStation 56 = true ∨ (56 : Byte) = 62) ∧ (99 : Serial) ≠ 0
      ∧ (∀ a st, crowd.station a = some st → st.serial ≠ 99)
      ∧ (isStation 1 = true ∧ crowd.station 1 = none ∧ ∀ b : Byte, isStation b = true → b < 1 → joined crowd b = true) := by
  refine ⟨by decide +kernel, by decide +kernel, by decide, by decide, ?_, by decide +kernel, by decide +kernel, by decide⟩
  intro a st h
  simpa using stations_all (P := fun _ st => st.serial != 99) (by decide +kernel) a st h

theorem test_meets_JoinGivesTheLowestFreeAddress_full :
    fullHouse.listening = true ∧ fullHouse.link = .online ∧ (62 : Byte) = 62
      ∧ (∀ a st, fullHouse.station a = some st → st.serial ≠ 99)
      ∧ ∀ b : Byte, isStation b = true → joined fullHouse b = true := by
  refine ⟨by decide +kernel, by decide +kernel, rfl, ?_, by decide +kernel⟩
  intro a st h
  simpa using stations_all (P := fun _ st => st.serial != 99) (by decide +kernel) a st h

theorem test_meets_RejoinPurgesTheStation :
    crowd.listening = true ∧ crowd.link = .online ∧ (62 : Byte) = 62 ∧ (30 : Serial) ≠ 0
      ∧ crowd.station 3 = some ⟨30, 0⟩ ∧ ∀ b st, crowd.station b = some st → st.serial = 30 → b = 3 := by
  refine ⟨by decide +kernel, by decide +kernel, rfl, by decide, by decide +kernel, ?_⟩
  intro b st h hs
  have := stations_all (P := fun b st => st.serial != 30 || b == 3) (by decide +kernel) b st h
  simpa [hs] using this

theorem test_meets_DepartureLeavesNoTrace :
    joined crowd 3 = true ∧ crowd.listening = true ∧ crowd.link = .online ∧ portOpen crowd ∧ crowd.link ≠ .offline
      ∧ (portOpen offline ∧ isStation 56 = true ∧ offline.link = .offline) ∧ crowd.station 56 = none := by
  decide +kernel

theorem test_meets_FindReturnsTheView :
    admits crowd 3 7 ∧ Tag.legal tagF = true ∧ carries crowd 95 tagF lastRole ∧ uncarried crowd [0x5A]
      ∧ ∀ t : Tag, t.legal = true → ([0] : List Byte) ≠ tagBytes t := by
  refine ⟨by decide +kernel, by decide, carries_of (by decide +kernel) rfl (by decide +kernel),
    uncarried_of (by decide +kernel), ?_⟩
  intro t ht h
  have := congrArg List.length h
  rw [tagBytes_length ht] at this
  simp at this

theorem test_meets_LookupReturnsTheView :
    admits crowd 3 7 ∧ (95 : Byte).toNat ≤ 95 ∧ crowd.named ⟨95, 1⟩ = some lastRole ∧ crowd.named ⟨95, 0⟩ = none := by
  decide +kernel

theorem test_meets_HandlesNameOneLife :
    rolesLawful crowd = true ∧ (⟨3, 0⟩ : Handle).incarnation = 0
      ∧ (∃ r o, offerOn offerInSlot ⟨3, 255⟩ 2 r o) ∧ watchOn noticeInSlot 63 4 ⟨0, 1⟩ ⟨4, ⟨0, 1⟩, 7, true, 2, none⟩ := by
  refine ⟨by decide +kernel, rfl, ?_, by decide +kernel⟩
  exact (subjectCurrent_iff offerInSlot (.offer ⟨3, 255⟩ 2)).1 (by decide +kernel)

theorem test_meets_ChangeReplacesTheAttribute :
    admits crowd 3 7 ∧ (0 : Byte).toNat ≤ 95 ∧ ([1, 2, 3, 4, 5, 6, 7, 8] : List Byte).length ≤ 8
      ∧ crowd.named ⟨0, 1⟩ = some heldRole := by decide +kernel

theorem test_meets_RetirementEndsTheRole :
    (0 : Byte).toNat ≤ 95 ∧ admits crowd 3 7 ∧ portOpen crowd ∧ heldBy heldRole 3 = true
      ∧ crowd.named ⟨0, 1⟩ = some heldRole := by decide +kernel

theorem test_meets_HoldersRenewAndRelease :
    admits crowd 3 7 ∧ (95 : Byte).toNat ≤ 95 ∧ crowd.named ⟨95, 1⟩ = some lastRole ∧ heldBy lastRole 3 = true := by
  decide +kernel

theorem test_meets_SetTermClampsTheLease :
    portOpen crowd ∧ (95 : Byte).toNat ≤ 95 ∧ crowd.named ⟨95, 1⟩ = some lastRole ∧ 1 ≤ 1 ∧ 4095 ≤ 4095 := by
  decide +kernel

theorem test_meets_LeaseTickCountsEveryRole :
    clockRuns crowd ∧ crowd.ticking = true ∧ offline.ticking = false
      ∧ ((List.range 96).filter (fun i => (crowd.roleAt i).any lapses)).getLast? = some 0
      ∧ ((List.range 96).filter (fun i => (crowd.roleAt i).any (fun r =>
        (lapses r || expires r) && (roleAfterTick r).any (fun r' => r'.tenure == .vacant)))).getLast? = some 2 := by
  rw [← ticking_iff]
  decide +kernel

theorem test_meets_LapseAndExpiryPassTheRoleOn :
    crowd.ticking = true ∧ crowd.roleAt (0 : Byte).toNat = some heldRole ∧ heldRole.tenure = .held 3 1 [0x55]
      ∧ crowd.roleAt (4 : Byte).toNat = some fullRole ∧ fullRole.tenure = .held 6 2 []
      ∧ crowd.roleAt (2 : Byte).toNat = some waitingRole
      ∧ waitingRole.tenure = .offered ⟨4, 3, 7, .waiting 1, 0⟩ := by decide +kernel

theorem test_meets_ClaimCreatesARole :
    (admits closed 3 7 ∧ Tag.legal [0x5A] = true ∧ uncarried closed [0x5A] ∧ closed.config.creation = .closed)
      ∧ (admits crowd 3 7 ∧ uncarried crowd [0x5A] ∧ crowd.config.creation = .open ∧ crowd.roleAt 5 = none
        ∧ incarnationAt crowd 5 = some 0 ∧ ∀ j, j < 5 → (crowd.roleAt j).isSome = true)
      ∧ (admits fullTables 3 7 ∧ uncarried fullTables [0x5A] ∧ fullTables.config.creation = .open
        ∧ ∀ j, j < 96 → (fullTables.roleAt j).isSome = true) := by
  refine ⟨⟨by decide +kernel, by decide, uncarried_of (by decide +kernel), by decide +kernel⟩,
    ⟨by decide +kernel, uncarried_of (by decide +kernel), by decide +kernel, by decide +kernel, by decide +kernel,
      by decide +kernel⟩,
    ⟨by decide +kernel, uncarried_of (by decide +kernel), by decide +kernel, by decide +kernel⟩⟩

theorem test_meets_GrantsMakeTheHolder :
    admits crowd 4 7 ∧ crowd.roleAt 2 = some waitingRole ∧ offeredTo waitingRole 4 = true
      ∧ crowd.roleAt 1 = some vacantRole ∧ vacantRole.tenure = .vacant ∧ vacantRole.tag.legal = true
      ∧ carries crowd 1 vacantRole.tag vacantRole ∧ carries crowd 2 waitingRole.tag waitingRole
      ∧ 1 ≤ (1 : Byte).toNat ∧ (7 : Byte).toNat ≤ 7 :=
  ⟨by decide +kernel, by decide +kernel, rfl, by decide +kernel, rfl, by decide,
    carries_of (by decide +kernel) rfl (by decide +kernel), carries_of (by decide +kernel) rfl (by decide +kernel),
    by decide, by decide⟩

theorem test_meets_ClaimsAgainKeepThePlace :
    (admits crowd 3 7 ∧ heldRole.tag.legal = true ∧ carries crowd 0 heldRole.tag heldRole
      ∧ heldRole.tenure = .held 3 1 [0x55])
      ∧ (admits crowd 9 7 ∧ carries crowd 4 fullRole.tag fullRole ∧ fullRole.tenure ≠ .vacant
        ∧ heldBy fullRole 9 = false ∧ offeredTo fullRole 9 = false
        ∧ fullRole.chain = [⟨3, 7⟩, ⟨4, 7⟩, ⟨5, 6⟩, ⟨7, 6⟩, ⟨8, 1⟩] ++ (⟨9, 1⟩ : Claim) :: []
        ∧ ∀ d ∈ ([⟨3, 7⟩, ⟨4, 7⟩, ⟨5, 6⟩, ⟨7, 6⟩, ⟨8, 1⟩] : List Claim), d.claimant ≠ 9) :=
  ⟨⟨by decide +kernel, by decide, carries_of (by decide +kernel) rfl (by decide +kernel), rfl⟩,
    ⟨by decide +kernel, carries_of (by decide +kernel) rfl (by decide +kernel), by decide, by decide, by decide, rfl,
      by decide⟩⟩

theorem test_meets_ClaimQueuesByRankAndArrival :
    (admits crowd 9 7 ∧ carries crowd 0 heldRole.tag heldRole ∧ heldRole.tenure ≠ .vacant ∧ heldBy heldRole 9 = false
      ∧ offeredTo heldRole 9 = false ∧ (∀ d ∈ heldRole.chain, d.claimant ≠ 9) ∧ heldRole.chain.length < 6
      ∧ crowd.claimsInUse < 64 ∧ heldRole.chain = [⟨4, 5⟩] ++ []
      ∧ (∀ d ∈ ([⟨4, 5⟩] : List Claim), (5 : Byte).toNat ≤ d.rank))
      ∧ (6 ≤ fullRole.chain.length ∧ heldBy fullRole 56 = false ∧ ∀ d ∈ fullRole.chain, d.claimant ≠ 56)
      ∧ (admits fullTables 9 7 ∧ 64 ≤ fullTables.claimsInUse
        ∧ (fullTables.roleAt 95).map (fun r => r.chain.length) = some 0) :=
  ⟨⟨by decide +kernel, carries_of (by decide +kernel) rfl (by decide +kernel), by decide, by decide, by decide,
      by decide, by decide, by decide +kernel, rfl, by decide⟩,
    by decide, ⟨by decide +kernel, by decide +kernel, by decide +kernel⟩⟩

theorem test_meets_WithdrawAndDeclineLeaveTheirPlace :
    admits crowd 4 7 ∧ (2 : Byte).toNat ≤ 95 ∧ crowd.named ⟨2, 1⟩ = some waitingRole ∧ offeredTo waitingRole 4 = true
      ∧ crowd.named ⟨2, 0⟩ = none ∧ crowd.named ⟨0, 1⟩ = some heldRole ∧ offeredTo heldRole 4 = false := by
  decide +kernel

theorem test_meets_ForceHandoverTakesTheRole :
    portOpen crowd ∧ (0 : Byte).toNat ≤ 95 ∧ crowd.link ≠ .offline ∧ crowd.named ⟨0, 1⟩ = some heldRole
      ∧ heldRole.chain ≠ [] := by decide +kernel

theorem test_meets_WatchesAreTakenAndFreed :
    admits crowd 4 7 ∧ (0 : Byte).toNat ≤ 95 ∧ (7 : Byte).toNat ≤ 7 ∧ crowd.named ⟨0, 1⟩ = some heldRole
      ∧ crowd.named ⟨0, 2⟩ = none
      ∧ (watchAt crowd 63 = some ⟨4, ⟨0, 1⟩, 7, true, 2, none⟩
        ∧ ∀ m w', watchAt crowd m = some w' → w'.watcher = 4 → w'.handle = ⟨0, 1⟩ → m = 63)
      ∧ ((∀ m w', watchAt crowd m = some w' → w'.watcher = 9 → w'.handle ≠ ⟨0, 1⟩) ∧ watchAt crowd 1 = none
        ∧ ∀ m, m < 1 → (watchAt crowd m).isSome = true)
      ∧ (admits fullTables 9 7 ∧ (∀ m w', watchAt fullTables m = some w' → w'.watcher = 9 → w'.handle ≠ ⟨0, 1⟩)
        ∧ ∀ m, m < 64 → (watchAt fullTables m).isSome = true)
      ∧ (admits noticeSelected 4 7 ∧ ¬ rankSent noticeSelected 0 ∧ rankSent noticeSelected 7
        ∧ ∃ f, noticeSelected.frame = some f ∧ f.phase = .selected ∧ f.subject = .watch 63 4 ⟨0, 1⟩)
      ∧ ∀ f, crowd.frame = some f → f.phase = .selected → f.subject ≠ .watch 63 4 ⟨0, 1⟩ := by
  refine ⟨by decide +kernel, by decide, by decide, by decide +kernel, by decide +kernel, ⟨by decide +kernel, ?_⟩,
    ⟨?_, by decide +kernel, by decide +kernel⟩, ⟨by decide +kernel, ?_, by decide +kernel⟩,
    ⟨by decide +kernel, by decide +kernel, by decide +kernel, _, rfl, rfl, rfl⟩, fun f h => nomatch h⟩
  · intro m w' h h1 h2
    have := watches_all (P := fun m w => w.watcher != 4 || m == 63) (by decide +kernel) m w' h
    simpa [h1] using this
  · intro m w' h h1
    have := watches_all (P := fun _ w => w.watcher != 9) (by decide +kernel) m w' h
    simp [h1] at this
  · intro m w' h h1
    have := watches_all (P := fun _ w => w.watcher != 9) (by decide +kernel) m w' h
    simp [h1] at this

theorem test_meets_SelectionFollowsTheOrder :
    (({ announcing with frame := none } : State).frame = none ∧ portOpen { announcing with frame := none }
      ∧ announcing.link = .announcing ∧ announcing.announced = false)
      ∧ (crowd.frame = none ∧ portOpen crowd ∧ crowd.link = .online ∧ crowd.roleAt 3 = some offeredRole
        ∧ ∀ j r' o', j < 3 → crowd.roleAt j = some r' → r'.tenure = .offered o' → o'.phase ≠ .pendingSend)
      ∧ (portOpen noOffers
        ∧ (∀ j r' o', j < 96 → noOffers.roleAt j = some r' → r'.tenure = .offered o' → o'.phase ≠ .pendingSend)
        ∧ noticeWaits noOffers 63 ⟨4, ⟨0, 1⟩, 7, true, 2, none⟩
        ∧ ∀ m v, noticeWaits noOffers m v → v.rank < 7 ∨ (v.rank = 7 ∧ 63 ≤ m))
      ∧ (online.link = .online ∧ ∀ n w, ¬ noticeWaits online n w)
      ∧ portOpen offline := by
  refine ⟨by decide +kernel, ⟨by decide +kernel, by decide +kernel, by decide +kernel, by decide +kernel,
    noOfferBelow_of (by decide +kernel)⟩, ⟨by decide +kernel, noOfferBelow_of (by decide +kernel), by decide +kernel,
    notices_all (by decide +kernel)⟩, ⟨rfl, ?_⟩, by decide +kernel⟩
  intro n w h
  have := notices_all (P := fun _ _ => False) (by decide +kernel) n w h
  exact this

theorem test_meets_SettlingTouchesTheFrameAlone :
    ((∃ f, (offerSelected.freeEntry 3).frame = some f ∧ f.phase = .selected
        ∧ endedBy offerSelected (offerSelected.freeEntry 3) f.subject)
      ∧ (∃ f, (belowFloor.setWatch 0 none).frame = some f ∧ f.phase = .selected ∧ ¬ current belowFloor f.subject
        ∧ endedBy belowFloor (belowFloor.setWatch 0 none) f.subject))
      ∧ (∃ f, belowFloor.frame = some f ∧ f.phase = .selected ∧ ¬ endedBy belowFloor belowFloor f.subject)
      ∧ crowd.frame = none ∧ offerInSlot.frame ≠ none := by
  refine ⟨⟨⟨⟨.offer ⟨3, 255⟩ 2, 5, .selected, 1, true, false⟩, by decide +kernel, rfl, ?_⟩,
    ⟨⟨.watch 0 3 ⟨0, 1⟩, 3, .selected, 1, true, false⟩, by decide +kernel, rfl, ?_, ?_⟩⟩,
    ⟨⟨.watch 0 3 ⟨0, 1⟩, 3, .selected, 1, true, false⟩, by decide +kernel, rfl, ?_⟩, by decide +kernel, by decide +kernel⟩
  all_goals simp only [← subjectEnded_iff, ← subjectCurrent_iff]
  all_goals decide +kernel

theorem test_meets_ConfirmedFramesBegin :
    (offerSelected.pins.resetLow = false ∧ offerSelected.answer = .idle
      ∧ offerSelected.frame = some ⟨.offer ⟨3, 255⟩ 2, 5, .selected, 1, true, false⟩ ∧ 4 + offerSelected.config.spacing + 2 * 1 ≤ 14
      ∧ (offerSelected.currentOffer ⟨3, 255⟩ 2).isSome = true
      ∧ ∀ j r' o', j < 3 → offerSelected.roleAt j = some r' → r'.tenure = .offered o' → o'.phase ≠ .pendingSend)
      ∧ (noticeSelected.frame = some ⟨.watch 63 4 ⟨0, 1⟩, 4, .selected, 0, false, false⟩
        ∧ watchOn noticeSelected 63 4 ⟨0, 1⟩ ⟨4, ⟨0, 1⟩, 7, true, 2, none⟩ ∧ rankSent noticeSelected 7
        ∧ noticeSelected.named ⟨0, 1⟩ = some heldRole
        ∧ (∀ j r' o', j < 96 → noticeSelected.roleAt j = some r' → r'.tenure = .offered o' → o'.phase ≠ .pendingSend)
        ∧ ∀ m v, noticeWaits noticeSelected m v → v.rank < 7 ∨ (v.rank = 7 ∧ 63 ≤ m))
      ∧ ((inPhase .selected announcing).frame = some ⟨.restart, 63, .selected, 8, true, false⟩
        ∧ announcing.link = .announcing ∧ announcing.announced = false) := by
  refine ⟨⟨by decide +kernel, by decide +kernel, by decide +kernel, by decide +kernel, by decide +kernel,
    noOfferBelow_of (by decide +kernel)⟩, ⟨by decide +kernel, by decide +kernel, by decide +kernel, by decide +kernel,
    noOfferBelow_of (by decide +kernel), notices_all (by decide +kernel)⟩, by decide +kernel⟩

theorem test_meets_StaleAndOvertakenFramesGiveWay_ended :
    ¬ current offerSelected (.offer ⟨3, 254⟩ 2) ∧ ¬ current offerSelected (.offer ⟨3, 255⟩ 1)
      ∧ ¬ current crowd (.offer ⟨3, 255⟩ 2) ∧ ¬ current online .restart ∧ ¬ current crowd (.watch 63 5 ⟨0, 1⟩)
      ∧ ¬ current (belowFloor.setWatch 63 (some ⟨4, ⟨0, 1⟩, 0, true, 0, none⟩)) (.watch 63 4 ⟨0, 1⟩)
      ∧ (belowFloor.pins.resetLow = false ∧ belowFloor.answer = .idle
        ∧ ∃ f, belowFloor.frame = some f ∧ f.phase = .selected ∧ 4 + belowFloor.config.spacing + 2 * f.collisions ≤ 14
          ∧ ¬ current belowFloor f.subject) := by
  refine ⟨?_, ?_, ?_, ?_, ?_, ?_, by decide +kernel, by decide +kernel, _, rfl, rfl, by decide +kernel, ?_⟩
  all_goals simp only [← subjectCurrent_iff]
  all_goals decide +kernel

theorem test_meets_StaleAndOvertakenFramesGiveWay_ahead :
    ahead crowd (.offer ⟨4, 1⟩ 1) ∧ ahead crowd (.watch 63 4 ⟨0, 1⟩) ∧ ahead lowSelected (.watch 0 3 ⟨0, 1⟩)
      ∧ ahead rivalSelected (.watch 63 4 ⟨0, 1⟩) ∧ ¬ ahead noticeSelected (.watch 63 4 ⟨0, 1⟩)
      ∧ (rivalSelected.pins.resetLow = false ∧ rivalSelected.answer = .idle
        ∧ rivalSelected.frame = some ⟨.watch 63 4 ⟨0, 1⟩, 4, .selected, 0, false, false⟩
        ∧ 4 + rivalSelected.config.spacing + 2 * 0 ≤ 12 ∧ 11 < 4 + rivalSelected.config.spacing + 2 * 0)
      ∧ offerInSlot.frame.all (fun f => f.phase != .selected) = true := by
  simp only [← overtaken_iff]
  decide +kernel

theorem test_meets_CollisionsBackOff :
    (announcing.pins.resetLow = false ∧ announcing.frame =
        some ⟨.restart, 63, .onLine ⟨63, 0, 0x40, 7, []⟩ false, 8, true, false⟩)
      ∧ (inPhase (.onLine ⟨5, 0, 0x41, 7, []⟩ false) offerInSlot).frame =
        some ⟨.offer ⟨3, 255⟩ 2, 5, .onLine ⟨5, 0, 0x41, 7, []⟩ false, 7, true, false⟩
      ∧ (offerInSlot.currentOffer ⟨3, 255⟩ 2).isSome = true ∧ offerInSlot.currentOffer ⟨3, 254⟩ 2 = none
      ∧ (inPhase (.onLine ⟨4, 0, 0x42, 7, []⟩ false) noticeInSlot).frame =
        some ⟨.watch 63 4 ⟨0, 1⟩, 4, .onLine ⟨4, 0, 0x42, 7, []⟩ false, 0, true, false⟩
      ∧ (noticeInSlot.watchNamed 63 4 ⟨0, 1⟩).isSome = true ∧ noticeInSlot.watchNamed 63 5 ⟨0, 1⟩ = none
      ∧ (after (.evictStation 1 [5]) (inPhase (.onLine ⟨5, 0, 0x41, 7, []⟩ false) offerInSlot)).frame =
        some ⟨.offer ⟨3, 255⟩ 2, 5, .onLine ⟨5, 0, 0x41, 7, []⟩ false, 7, true, true⟩ := by
  decide +kernel

theorem test_meets_CleanFramesEndTheirPhase :
    announcing.pins.resetLow = false ∧ announcing.frame.map Frame.subject = some .restart
      ∧ (inPhase (.onLine ⟨5, 0, 0x41, 7, []⟩ false) offerInSlot).frame.map Frame.subject =
        some (.offer ⟨3, 255⟩ 2) := by decide +kernel

theorem test_meets_AnswersToFramesAreApplied :
    (∃ f, awaiting offerInSlot f (.offer ⟨3, 255⟩ 2) false ∧ f.purgedTarget = false)
      ∧ (∃ f, awaiting noticeInSlot f (.watch 63 4 ⟨0, 1⟩) false ∧ f.purgedTarget = false)
      ∧ (List.replicate 24 (0 : Byte)).length ≤ 24
      ∧ (offerInSlot.currentOffer ⟨3, 255⟩ 2).isSome = true ∧ (noticeInSlot.watchNamed 63 4 ⟨0, 1⟩).isSome = true :=
  ⟨⟨_, ⟨rfl, rfl, rfl, _, rfl⟩, rfl⟩, ⟨_, ⟨rfl, rfl, rfl, _, rfl⟩, rfl⟩, by decide, by decide +kernel, by decide +kernel⟩

theorem test_meets_FailedDeliveriesCountStrikes :
    ∃ f, awaiting noticeInSlot f (.watch 63 4 ⟨0, 1⟩) false ∧ f.purgedTarget = false
      ∧ ∀ st, noticeInSlot.station f.dest = some st → st.strikes ≤ 1 := by
  refine ⟨_, ⟨rfl, rfl, rfl, _, rfl⟩, rfl, ?_⟩
  intro st h
  have h1 : noticeInSlot.station 4 = some ⟨40, 1⟩ := by decide +kernel
  have h2 := h1.symm.trans h
  injection h2 with h2
  subst h2
  decide

theorem test_meets_ThirdStrikeRemovesTheStation :
    ∃ f, awaiting offerInSlot f (.offer ⟨3, 255⟩ 2) false ∧ f.purgedTarget = false
      ∧ offerInSlot.station f.dest = some ⟨50, 2⟩ ∧ 2 ≤ (⟨50, 2⟩ : Station).strikes
      ∧ ((afterFailedDelivery { offerInSlot with frame := none } (.offer ⟨3, 255⟩ 2)).roleAt 3).any
        (fun r => r.tenure == .vacant) = false :=
  ⟨_, ⟨rfl, rfl, rfl, _, rfl⟩, rfl, by decide +kernel, by decide, by decide +kernel⟩

theorem test_meets_ThirdStrikeRemovesTheStation_vacant :
    ∃ f, awaiting lastOfferInSlot f (.offer ⟨2, 1⟩ 7) false ∧ f.purgedTarget = false
      ∧ lastOfferInSlot.station f.dest = some ⟨50, 2⟩ ∧ (lastOfferInSlot.currentOffer ⟨2, 1⟩ 7).isSome = true
      ∧ ((afterFailedDelivery { lastOfferInSlot with frame := none } (.offer ⟨2, 1⟩ 7)).roleAt 2).any
        (fun r => r.tenure == .vacant) = true
      ∧ vacatedByStrike (afterFailedDelivery { lastOfferInSlot with frame := none } (.offer ⟨2, 1⟩ 7)) f.dest ⟨2, 1⟩ = [2, 95] :=
  ⟨_, ⟨rfl, rfl, rfl, _, rfl⟩, rfl, by decide +kernel, by decide +kernel, by decide +kernel, by decide +kernel⟩

theorem test_meets_PurgedTargetsAreDisregarded :
    (∃ f, awaiting (after (.evictStation 1 [5]) offerInSlot) f (.offer ⟨3, 255⟩ 2) false ∧ f.purgedTarget = true)
      ∧ (after (.evictStation 1 [5]) offerInSlot).currentOffer ⟨3, 255⟩ 2 = none ∧ crowd.slot = none := by
  have h : (after (.evictStation 1 [5]) offerInSlot).frame =
      some ⟨.offer ⟨3, 255⟩ 2, 5, .awaitingAnswer ⟨5, 0, 0x41, 7, []⟩ false, 7, true, true⟩ := by decide +kernel
  exact ⟨⟨_, ⟨by decide +kernel, h, rfl, _, rfl⟩, rfl⟩, by decide +kernel, by decide +kernel⟩

theorem test_meets_PortTestsACommandInOrder :
    crowd.pins.resetLow = false ∧ transactionRefusal [0, 0, 33] = some .badCommand
      ∧ transactionRefusal (commandBytes .nop 5 []) = none
      ∧ (Instr.readRole 1 []).asCommand = some (.readRole, 1, []) ∧ Command.lenLegal .readRole 0 = false
      ∧ State.reset.clearing.isSome = true ∧ Command.readRole ≠ .nop
      ∧ operandsLegal .readRole [96] = false ∧ operandsLegal .readRole [95] = true
      ∧ operandsLegal .evictStation [57] = false ∧ operandsLegal .evictStation [56] = true
      ∧ operandsLegal .setTerm [95, 1, 0x10, 0] = false ∧ operandsLegal .setTerm [95, 1, 0x0F, 0xFF] = true
      ∧ operandsLegal .configure [3, 200, 0x0F, 0xFF, 255, 7, 1, 255] = true
      ∧ operandsLegal .configure [3, 201, 0x0F, 0xFF, 255, 7, 1, 255] = false := by decide +kernel

theorem test_meets_PortTestsACommandInOrder_frames :
    ([] : List Byte).length < (0 : Byte).toNat + 1
      ∧ ((33 : Byte).toNat + 1 ≤ (List.replicate 34 (0 : Byte)).length ∧ 32 < (33 : Byte).toNat)
      ∧ ([5, crc8 [0x30, 9, 1, 5]] : List Byte) = [5] ++ crc8 [0x30, 9, 1, 5] :: [] ∧ ([5] : List Byte).length = (1 : Byte).toNat
      ∧ commandOf 0x30 = some .readRole ∧ commandOf 0x33 = none := by decide +kernel

theorem test_meets_ReadsChangeOnlyTheResponse :
    crowd.pins.resetLow = false ∧ crowd.clearing = none
      ∧ crowd.roles[(95 : Byte).toNat]? = some ⟨1, some lastRole⟩ ∧ isStation 56 = true ∧ isStation 1 = true
      ∧ (63 : Byte).toNat ≤ 63 := by decide +kernel

theorem test_meets_AttentionIsReadAndCleared :
    portOpen crowd ∧ (0x3F : Byte) &&& 0xC0#8 = 0 ∧ (0x3F : Byte) ≠ 0 := by decide +kernel

theorem test_meets_ConfigureTakesEveryValue :
    portOpen crowd ∧ configSound ⟨.r19200, 200, 4095, 255, 7, .closed, 255⟩ = true ∧ crowd.link ≠ .offline
      ∧ (⟨.r19200, 200, 4095, 255, 7, .closed, 255⟩ : Configuration).rate ≠ crowd.config.rate
      ∧ portOpen offline ∧ configSound ⟨.r115200, 1, 1, 1, 0, .open, 0⟩ = true ∧ offline.link = .offline
      ∧ (portOpen lowSelected ∧ configSound belowFloor.config = true
        ∧ lowSelected.config.noticeFloor < belowFloor.config.noticeFloor
        ∧ belowFloor.config.rate = lowSelected.config.rate ∧ belowFloor.config.tickPeriod = lowSelected.config.tickPeriod
        ∧ ∃ f n watcher h w, lowSelected.frame = some f ∧ f.phase = .selected ∧ f.subject = .watch n watcher h
          ∧ watchOn belowFloor n watcher h w ∧ ¬ rankSent belowFloor w.rank) :=
  ⟨by decide +kernel, by decide, by decide +kernel, by decide +kernel, by decide +kernel, by decide, by decide +kernel,
    by decide +kernel, by decide +kernel, by decide +kernel, by decide +kernel, by decide +kernel,
    _, 0, 3, ⟨0, 1⟩, ⟨3, ⟨0, 1⟩, 2, false, 0, none⟩, rfl, rfl, rfl, by decide +kernel, by decide +kernel⟩

theorem test_meets_StartRestartsTheTables :
    portOpen crowd ∧ crowd.epoch ≠ 0 ∧ (255 : Byte) ≠ 0 ∧ (255 : Byte) ≠ crowd.epoch := by decide +kernel

theorem test_meets_StopAndResumeMoveTheLink :
    portOpen offline ∧ offline.link = .offline ∧ portOpen offerInSlot ∧ offerInSlot.link ≠ .offline
      ∧ offerInSlot.frame.isSome = true ∧ (offerInSlot.currentOffer ⟨3, 255⟩ 2).isSome = true
      ∧ (noticeInSlot.watchNamed 63 4 ⟨0, 1⟩).isSome = true
      ∧ portOpen (after (.foreignFrame 0) crowd) ∧ (after (.foreignFrame 0) crowd).link = .silent
      ∧ (after (.foreignFrame 0) crowd).announced = true
      ∧ (after (.foreignFrame 0) { announcing with frame := none }).link = .silent
      ∧ (after (.foreignFrame 0) { announcing with frame := none }).announced = false := by decide +kernel

theorem test_meets_DefineRolePinsTheTag :
    portOpen crowd ∧ 1 ≤ 4095 ∧ carries crowd 95 tagF lastRole ∧ lastRole.kind = .pinned
      ∧ carries crowd 0 tagA heldRole ∧ heldRole.kind = .transient
      ∧ (uncarried crowd [0x5A] ∧ crowd.roleAt 5 = none ∧ incarnationAt crowd 5 = some 0
        ∧ ∀ j, j < 5 → (crowd.roleAt j).isSome = true)
      ∧ (portOpen fullTables ∧ uncarried fullTables [0x5A] ∧ ∀ j, j < 96 → (fullTables.roleAt j).isSome = true) :=
  ⟨by decide +kernel, by decide, carries_of (by decide +kernel) rfl (by decide +kernel), rfl,
    carries_of (by decide +kernel) rfl (by decide +kernel), rfl,
    ⟨uncarried_of (by decide +kernel), by decide +kernel, by decide +kernel, by decide +kernel⟩,
    ⟨by decide +kernel, uncarried_of (by decide +kernel), by decide +kernel⟩⟩

theorem test_meets_RequestFramesReadBack :
    (Instr.change 255 255 (List.replicate 24 0xFF)).wellFormed = true
      ∧ (Instr.change 255 255 (List.replicate 24 0xFF)).frameBytes.isSome = true
      ∧ ((List.replicate 24 (0 : Byte)).length ≤ 24 ∧ ([0x06, 0x96] : List Byte).length = 2
        ∧ ([0x06, 0x96] : List Byte) ≠ halfBytes (crc16 ([0x80, byteOf ([] : List Byte).length] ++ [])))
      ∧ (let f : TrunkFrame := ⟨0, 3, 0x01, 7, []⟩
        ([0, 0] : List Byte) ≠ halfBytes (crc16 ([f.dest, f.src, f.code, f.epoch, byteOf f.body.length] ++ f.body)))
      ∧ 24 < (25 : Byte).toNat ∧ (24 : Byte).toNat ≤ 24 ∧ (List.replicate 25 (0 : Byte)).length < (24 : Byte).toNat + 2
      ∧ ([0, 3, 1, 7] : List Byte).length < 5
      ∧ ({ trunkCharacter 0x55 with stop := .space } : TrunkCharacter).stop = .space := by
  decide +kernel

theorem test_meets_TransactionsReadBack :
    (Instr.defineRole 255 (List.replicate 10 0)).wellFormed = true
      ∧ (Instr.defineRole 255 (List.replicate 10 0)).transactionBytes.isSome = true
      ∧ (List.replicate 7 true).length < 8 ∧ ([] : List Bool).length < 8 := by decide +kernel

theorem test_meets_the_invariants :
    rolesLawful crowd = true ∧ tagsDistinct crowd = true ∧ poolLawful crowd = true ∧ registryLawful crowd = true
      ∧ (∀ a : Byte, names crowd a = true → joined crowd a = true) ∧ watchesLawful crowd = true
      ∧ linkLawful crowd = true ∧ unannouncedVacant crowd = true ∧ flightLawful crowd = true ∧ frameLawful crowd = true
      ∧ attentionLawful crowd = true ∧ pinsLawful crowd = true ∧ responseLawful crowd = true
      ∧ flightLawful offerInSlot = true ∧ frameLawful offerInSlot = true := by decide +kernel

end Sys2Proof.Tests
end

section
/-! PROOFS. The link at a foreign frame, a STOP and a RESUME (O10, O48): what the end of an event leaves to be done once the frame
record is empty and the link selects nothing, and what emptying the frame record gives back to the owner of its subject. -/

namespace Sys2Proof.Machine

open Sys2Proof.Safety

/-! ### The end of an event in OFFLINE and SILENT -/

theorem withdrawStale_of_no_frame {s : State} (hf : s.frame = none) (before : State) : s.withdrawStale before = s := by
  simp only [State.withdrawStale, hf]

/-- Without a session on the trunk no candidate is selected (R16, R141). -/
theorem select_of_offline_or_silent {s : State} (hl : s.link = .offline ∨ s.link = .silent) : s.select = s := by
  rcases hl with hl | hl <;> simp only [State.select, hl, ite_self]

theorem settle_of_offline_or_silent {s : State} (hf : s.frame = none) (hl : s.link = .offline ∨ s.link = .silent)
    (before : State) : s.settle before = s.drive := by
  rw [State.settle, withdrawStale_of_no_frame hf, select_of_offline_or_silent hl]

/-! ### The frame record emptied (R143, R149) -/

theorem dropFrame_frame (s : State) : s.dropFrame.frame = none := by
  rw [dropFrame_reaches]

theorem dropFrame_of_no_frame {s : State} (hf : s.frame = none) : s.dropFrame = s := by
  simp only [State.dropFrame, hf]

theorem dropFrame_restart {s : State} {f : Frame} (hf : s.frame = some f) (hs : f.subject = .restart) :
    s.dropFrame = { s with frame := none } := by
  simp only [State.dropFrame, hf, hs]

theorem currentOffer_without_frame (s : State) (h : Handle) (number : Byte) :
    ({ s with frame := none } : State).currentOffer h number = s.currentOffer h number := rfl

theorem watchNamed_without_frame (s : State) (n : Nat) (watcher : Byte) (h : Handle) :
    ({ s with frame := none } : State).watchNamed n watcher h = s.watchNamed n watcher h := rfl

theorem setOfferPhase_eq {s : State} {i : Nat} {r : Role} {o : Offer} (hr : s.roleAt i = some r)
    (ht : r.tenure = .offered o) (phase : OfferPhase) :
    s.setOfferPhase i phase = s.putRole i { r with tenure := .offered { o with phase := phase } } := by
  simp only [State.setOfferPhase, onRole_some hr, ht]

theorem dropFrame_stale_offer {s : State} {f : Frame} {h : Handle} {number : Byte} (hf : s.frame = some f)
    (hs : f.subject = .offer h number) (hc : s.currentOffer h number = none) :
    s.dropFrame = { s with frame := none } := by
  simp only [State.dropFrame, hf, hs, currentOffer_without_frame, hc]

/-- A current offer is in PENDING SEND again, its attempts as they were (R149). -/
theorem dropFrame_current_offer {s : State} {f : Frame} {h : Handle} {number : Byte} {r : Role} {o : Offer}
    (hf : s.frame = some f) (hs : f.subject = .offer h number) (hc : s.currentOffer h number = some (r, o)) :
    s.dropFrame = ({ s with frame := none } : State).putRole h.index.toNat
      { r with tenure := .offered { o with phase := .pendingSend } } := by
  obtain ⟨hnamed, htenure, -, -⟩ := (currentOffer_eq_some_iff s h number r o).1 hc
  have hr : ({ s with frame := none } : State).roleAt h.index.toNat = some r := roleAt_of_named hnamed
  simp only [State.dropFrame, hf, hs, currentOffer_without_frame, hc, setOfferPhase_eq hr htenure]

theorem dropFrame_idle_watch {s : State} {f : Frame} {n : Nat} {watcher : Byte} {h : Handle} (hf : s.frame = some f)
    (hs : f.subject = .watch n watcher h) (hw : s.watchNamed n watcher h = none ∨ f.begun = false) :
    s.dropFrame = { s with frame := none } := by
  simp only [State.dropFrame, hf, hs, watchNamed_without_frame]
  rcases hw with hw | hb
  · rw [hw]
  · cases s.watchNamed n watcher h with
    | none => rfl
    | some w => simp only [hb, Bool.false_eq_true, if_false]

/-- The watch of a NOTICE that had begun is pending again (R130, R149). -/
theorem dropFrame_begun_watch {s : State} {f : Frame} {n : Nat} {watcher : Byte} {h : Handle} {w : Watch}
    (hf : s.frame = some f) (hs : f.subject = .watch n watcher h) (hw : s.watchNamed n watcher h = some w)
    (hb : f.begun = true) :
    s.dropFrame = ({ s with frame := none } : State).setWatch n (some { w with isPending := true }) := by
  simp only [State.dropFrame, hf, hs, watchNamed_without_frame, hw, hb, if_true]

/-! ### A foreign frame (R11, R21) -/

theorem raisedRecord_eq (r : Option AttentionRecord) (x : AttentionSubject) :
    raisedRecord r x = ⟨raisedCount r, x⟩ := by
  cases r <;> rfl

/-- The state that a foreign frame makes of a session (R21), short of the pins that follow it. -/
def silenced (s : State) : State :=
  { s with
    link := .silent, clock := .frozen, frame := none, roles := s.dropFrame.roles, watches := s.dropFrame.watches,
    attention := { s.attention with foreignDirectory := some ⟨raisedCount s.attention.foreignDirectory, .none⟩ } }

theorem dropFrame_silent_raised (s : State) :
    ({ s.dropFrame with link := .silent, clock := .frozen } : State).raise .foreignDirectory .none = silenced s := by
  rw [raise_eq, dropFrame_reaches, Attention.raise, raisedRecord_eq]
  rfl

theorem hearForeign_in_session {s : State} {dest : Byte} (hd : dest ≤ 63#8) (hl : s.link = .announcing ∨ s.link = .online) :
    s.hearForeign dest = (silenced s).drive := by
  rw [State.hearForeign, if_pos ⟨hd, hl⟩, dropFrame_silent_raised,
    settle_of_offline_or_silent (s := silenced s) rfl (.inr rfl)]

theorem hearForeign_elsewhere {s : State} {dest : Byte} (h : 63#8 < dest ∨ s.link = .offline ∨ s.link = .silent) :
    s.hearForeign dest = s := by
  rw [State.hearForeign, if_neg]
  rintro ⟨hd, hl⟩
  rcases h with hlt | hoff | hsil
  · exact absurd hd (BitVec.not_le.2 hlt)
  · simp [hoff] at hl
  · simp [hsil] at hl

theorem execForeignFrame_heard {s : State} (hh : hears s) (dest : Byte) :
    exec (.foreignFrame dest) s = .next (s.hearForeign dest) := by
  simp only [exec, execForeignFrame, (listening_iff s).2 hh, if_true]

theorem execForeignFrame_unheard {s : State} (hh : ¬ hears s) (dest : Byte) : exec (.foreignFrame dest) s = .next s := by
  simp only [exec, execForeignFrame, listening_iff, hh, if_false]

/-- Settles O10: in a session the event comes down to `silenced` and the pins, and elsewhere `hearForeign` is not entered or does nothing. -/
theorem foreignFramesSilenceTheLink : Obligations.ForeignFramesSilenceTheLink := by
  unfold Obligations.ForeignFramesSilenceTheLink
  intro s dest
  constructor
  · intro hh hd hl
    refine ⟨(silenced s).drive, ?_, rfl, rfl, pinsLawful_drive _⟩
    rw [execForeignFrame_heard hh, hearForeign_in_session hd hl]
  · intro h
    by_cases hh : hears s
    · rw [execForeignFrame_heard hh, hearForeign_elsewhere (h.resolve_left (not_not.2 hh))]
    · exact execForeignFrame_unheard hh dest

/-! ### STOP and RESUME (R22, R23, R159) -/

theorem exec_stop {s : State} (h : portOpen s) (seq : Byte) :
    exec (.stop seq []) s = .next ((stopAction () s).1.respond (stopAction () s).2.1 seq (stopAction () s).2.2) := by
  rw [exec, execStop, command_passed (x := ()) h rfl rfl]

theorem exec_resume {s : State} (h : portOpen s) (seq : Byte) :
    exec (.resume seq []) s =
      .next ((resumeAction () s).1.respond (resumeAction () s).2.1 seq (resumeAction () s).2.2) := by
  rw [exec, execResume, command_passed (x := ()) h rfl rfl]

theorem stopAction_offline {s : State} (hl : s.link = .offline) : stopAction () s = (s, .ok, []) :=
  if_pos hl

/-- The state that STOP makes of any link state but OFFLINE (R23, R149), short of the pins that follow it and the response. -/
def stopped (s : State) : State := { s.dropFrame with answer := .idle, link := .offline, clock := .stopped }

/-- STOP leaves no frame and a link that selects none, so the pins alone follow. -/
theorem stopAction_not_offline {s : State} (hl : s.link ≠ .offline) : stopAction () s = ((stopped s).drive, .ok, []) := by
  have hpins : (stopped s).settle s = (stopped s).drive :=
    settle_of_offline_or_silent (s := stopped s) (dropFrame_frame s) (.inl rfl) s
  rw [← hpins]
  exact if_neg hl

theorem resumeAction_refused {s : State} (hl : s.link ≠ .silent) : resumeAction () s = (s, .notPermitted, []) :=
  if_pos hl

theorem resumeAction_announced {s : State} (hl : s.link = .silent) (ha : s.announced = true) :
    resumeAction () s =
      (({ s with link := .online, clock := .running s.config.tickPeriod } : State).settle s, .ok, [2]) := by
  rw [resumeAction, if_neg (not_not.2 hl), if_pos ha]
  rfl

theorem resumeAction_unannounced {s : State} (hl : s.link = .silent) (ha : s.announced = false) :
    resumeAction () s = (({ s with link := .announcing, clock := .stopped } : State).settle s, .ok, [1]) := by
  rw [resumeAction, if_neg (not_not.2 hl), if_neg (by simp [ha])]
  rfl

/-- Settles O48: the two commands by link state, and the frame that STOP abandons by its subject. -/
theorem stopAndResumeMoveTheLink : Obligations.StopAndResumeMoveTheLink := by
  unfold Obligations.StopAndResumeMoveTheLink
  refine ⟨fun s seq hp => ⟨fun hl => ?_, fun hl => ?_⟩, fun s => ⟨dropFrame_of_no_frame, fun f hf => ⟨?_, ?_, ?_⟩⟩,
    fun s seq hp => ⟨fun hl => ?_, fun hl ha => ?_, fun hl ha => ?_⟩⟩
  · rw [exec_stop hp, stopAction_offline hl]
    rfl
  · rw [exec_stop hp, stopAction_not_offline hl]
    rfl
  · exact dropFrame_restart hf
  · intro h number hs
    exact ⟨dropFrame_stale_offer hf hs, fun r o hc => dropFrame_current_offer hf hs hc⟩
  · intro n watcher h hs
    exact ⟨dropFrame_idle_watch hf hs, fun w hw hb => dropFrame_begun_watch hf hs hw hb⟩
  · rw [exec_resume hp, resumeAction_refused hl]
    rfl
  · rw [exec_resume hp, resumeAction_announced hl ha]
  · rw [exec_resume hp, resumeAction_unannounced hl ha]

end Sys2Proof.Machine
end

section
/-! PROOFS. Joining and leaving (O13, O14, O15): what the Station Registry does with a JOIN by what it finds of the serial, and that a
purge and the station table do not look at each other, so that the strike reset of a request's arrival is lost in its departure. -/

namespace Sys2Proof.Machine

open Sys2Proof.Safety

/-! ### The strike reset of an arrival (R10) -/

/-- A strike reset keeps every serial at its address. -/
theorem serial_clearStrikes (s : State) (a b : Byte) :
    ((s.clearStrikes a).station b).map Station.serial = (s.station b).map Station.serial := by
  rw [station_clearStrikes]
  split
  next hb => rw [hb, Option.map_map]; rfl
  next => rfl

/-- An entry after a strike reset is that of the same serial before it. -/
theorem station_of_clearStrikes {s : State} {a b : Byte} {st : Station} (h : (s.clearStrikes a).station b = some st) :
    ∃ st', s.station b = some st' ∧ st'.serial = st.serial := by
  have hserial := serial_clearStrikes s a b
  rw [h, Option.map_some, eq_comm, Option.map_eq_some_iff] at hserial
  exact hserial

theorem joined_clearStrikes (s : State) (a b : Byte) : joined (s.clearStrikes a) b = joined s b :=
  isSome_station_clearStrikes s a b

theorem epoch_clearStrikes (s : State) (a : Byte) : (s.clearStrikes a).epoch = s.epoch := by
  rw [clearStrikes_only]

/-- The reset of strikes at a JOINED address writes its serial with a strike count of 0. -/
theorem clearStrikes_of_joined {s : State} {a : Byte} {st : Station} (h : s.station a = some st) :
    s.clearStrikes a = s.setStation a (some { st with strikes := 0 }) := by
  simp only [State.clearStrikes, h]

/-! ### The purge and the station table (R39) -/

theorem purge_keeps_stations (s : State) (a : Byte) : (s.purge a).stations = s.stations := by
  rw [purge_reaches]

theorem station_purge (s : State) (a b : Byte) : (s.purge a).station b = s.station b := by
  simp only [State.station, purge_keeps_stations]

theorem setStation_purge (s : State) (a b : Byte) (e : Option Station) :
    (s.setStation b e).purge a = (s.purge a).setStation b e := by
  unfold State.setStation
  split
  · rw [purge_stations, purge_keeps_stations]
  · rfl

/-- The entry of a station that departs is FREE whatever its strikes were. -/
theorem removeStation_clearStrikes (s : State) (a : Byte) : (s.clearStrikes a).removeStation a = s.removeStation a := by
  cases h : s.station a with
  | none => simp only [State.clearStrikes, h]
  | some st =>
    rw [clearStrikes_of_joined h, State.removeStation, setStation_purge, setStation_setStation]
    rfl

/-! ### JOIN (R28 to R31) -/

theorem exec_join {s : State} {src : Byte} {w : Serial} (hlisten : s.listening = true) (hlink : s.link = .online)
    (hsrc : isStation src = true ∨ src = 62) (hw : w ≠ 0) (epoch : Byte) :
    exec (.join src epoch (serialBytes w)) s =
      .next (withAnswer (joinOwner w src (s.clearStrikes src)).1 (joinOwner w src (s.clearStrikes src)).2.status
        (joinOwner w src (s.clearStrikes src)).2.body) := by
  rw [exec, execJoin, join_passed hlisten hlink hsrc hw]

theorem joinOwner_allocates {s : State} {w : Serial} {a : Byte} (hnew : s.addressOf w = none)
    (hfree : s.freeAddress = some a) (src : Byte) :
    joinOwner w src s = (s.setStation a (some ⟨w, 0⟩), ⟨.ok, [a, s.epoch] ++ serialBytes w⟩) := by
  simp only [joinOwner, hnew, hfree]

theorem joinOwner_full {s : State} {w : Serial} (hnew : s.addressOf w = none) (hfull : s.freeAddress = none) (src : Byte) :
    joinOwner w src s = ((s.raise .capacity (.refusal .stationFull src)).drive, ⟨.stationFull, serialBytes w⟩) := by
  simp only [joinOwner, hnew, hfull]

theorem joinOwner_rejoins {s : State} {w : Serial} {a : Byte} (hknown : s.addressOf w = some a) (src : Byte) :
    joinOwner w src s = (((s.purge a).clearStrikes a).settle s, ⟨.ok, [a, s.epoch] ++ serialBytes w⟩) := by
  simp only [joinOwner, hknown]

/-- A station that a purge passed over stands at its address with a strike count of 0 (R31). -/
theorem clearStrikes_purge {s : State} {a : Byte} {st : Station} (h : s.station a = some st) :
    (s.purge a).clearStrikes a = (s.purge a).setStation a (some { st with strikes := 0 }) :=
  clearStrikes_of_joined ((station_purge s a a).trans h)

/-- Settles O13: the strike reset of the arrival makes no serial known and no address FREE, so the registry finds what it found before. -/
theorem joinGivesTheLowestFreeAddress : Obligations.JoinGivesTheLowestFreeAddress := by
  unfold Obligations.JoinGivesTheLowestFreeAddress
  intro s src epoch w hlisten hlink hsrc hw hnew
  have hunknown : (s.clearStrikes src).addressOf w = none := by
    refine addressOf_none fun b st hb => ?_
    obtain ⟨st', hst', hserial⟩ := station_of_clearStrikes hb
    exact hserial ▸ hnew b st' hst'
  refine ⟨fun a ha hfree hlow => ?_, fun hall => ?_⟩
  · have hlowest : (s.clearStrikes src).freeAddress = some a := by
      refine freeAddress_some ha ?_ fun b hb hlt => (joined_clearStrikes s src b).trans (hlow b hb hlt)
      have hsome := isSome_station_clearStrikes s src a
      rwa [hfree, Option.isSome_none, Option.isSome_eq_false_iff, Option.isNone_iff_eq_none] at hsome
    rw [exec_join hlisten hlink hsrc hw, joinOwner_allocates hunknown hlowest, epoch_clearStrikes]
  · have hfull : (s.clearStrikes src).freeAddress = none :=
      freeAddress_none fun b hb => (joined_clearStrikes s src b).trans (hall b hb)
    rw [exec_join hlisten hlink hsrc hw, joinOwner_full hunknown hfull]

/-- Settles O14: the serial's one address is found after the strike reset too, and its entry outlasts the purge. -/
theorem rejoinPurgesTheStation : Obligations.RejoinPurgesTheStation := by
  unfold Obligations.RejoinPurgesTheStation
  intro s src epoch a st hlisten hlink hsrc hserial hst honly
  obtain ⟨st', hst', hsame⟩ : ∃ st', (s.clearStrikes src).station a = some st' ∧ st'.serial = st.serial := by
    have hmap := serial_clearStrikes s src a
    rwa [hst, Option.map_some, Option.map_eq_some_iff] at hmap
  have hknown : (s.clearStrikes src).addressOf st.serial = some a := by
    refine addressOf_some hst' hsame fun b stb hb heq => ?_
    obtain ⟨stb', hstb', hkept⟩ := station_of_clearStrikes hb
    exact honly b stb' hstb' (hkept.trans heq)
  refine ⟨(s.clearStrikes src).purge a, purge_purged _ a, ?_⟩
  rw [exec_join hlisten hlink hsrc hserial, joinOwner_rejoins hknown, clearStrikes_purge hst', epoch_clearStrikes, hsame]

/-! ### LEAVE and EVICT STATION (R33, R42) -/

theorem exec_leave {s : State} {a : Byte} (hlisten : s.listening = true) (hlink : s.link = .online)
    (hjoined : joined s a = true) :
    exec (.leave a s.epoch []) s = .next (withAnswer ((s.removeStation a).settle (s.clearStrikes a)) .ok []) := by
  obtain ⟨st, hst⟩ := Option.isSome_iff_exists.1 hjoined
  have hadmits : admits s a s.epoch := ⟨hlisten, hlink, station_isStation hst, rfl, hjoined⟩
  rw [exec, execLeave, request_passed (x := ()) hadmits (by decide) rfl, leaveOwner, removeStation_clearStrikes]

theorem exec_evictStation {s : State} {a : Byte} (hport : portOpen s) (ha : isStation a = true) (seq : Byte) :
    exec (.evictStation seq [a]) s =
      .next ((evictAction a s).1.respond (evictAction a s).2.1 seq (evictAction a s).2.2) := by
  rw [exec, execEvictStation, command_passed (x := a) hport rfl (if_pos ha)]

theorem evictAction_offline {s : State} (hlink : s.link = .offline) (a : Byte) :
    evictAction a s = (s, .notPermitted, []) :=
  if_pos hlink

theorem evictAction_free {s : State} {a : Byte} (hlink : s.link ≠ .offline) (hfree : s.station a = none) :
    evictAction a s = (s, .notJoined, []) := by
  simp only [evictAction, if_neg hlink, hfree]

theorem evictAction_joined {s : State} {a : Byte} {st : Station} (hlink : s.link ≠ .offline) (hst : s.station a = some st) :
    evictAction a s = ((s.removeStation a).settle s, .ok, []) := by
  simp only [evictAction, if_neg hlink, hst]

/-- Settles O15: one purge serves both departures, since that of a LEAVE does not see the strike reset of its arrival. -/
theorem departureLeavesNoTrace : Obligations.DepartureLeavesNoTrace := by
  unfold Obligations.DepartureLeavesNoTrace
  refine ⟨fun s a hjoined => ?_, fun s seq a hport ha => ⟨fun hlink => ?_, fun hlink hfree => ?_⟩⟩
  · obtain ⟨st, hst⟩ := Option.isSome_iff_exists.1 hjoined
    refine ⟨s.purge a, purge_purged s a, fun hlisten hlink => exec_leave hlisten hlink hjoined, fun seq hport hlink => ?_⟩
    rw [exec_evictStation hport (station_isStation hst), evictAction_joined hlink hst]
    rfl
  · rw [exec_evictStation hport ha, evictAction_offline hlink]
    rfl
  · rw [exec_evictStation hport ha, evictAction_free hlink hfree]
    rfl

end Sys2Proof.Machine
end

section
/-! PROOFS. The Role Table's requests (O16, O17, O19, O20): each owner's answer by the test that decides it (R61 to R65, R161), found
by what a tag or a handle names, which the strike reset of the arrival leaves as it was. -/

namespace Sys2Proof.Machine

open Sys2Proof.Safety

theorem isStation_of_admits {s : State} {src epoch : Byte} (h : admits s src epoch) : isStation src = true := by
  obtain ⟨-, -, hsrc, -, -⟩ := h
  exact hsrc

/-! ### From what an owning block does to what its row does -/

theorem request_of_owner {α : Type} {s t : State} {read : List Byte → Option α} {owner : Owner α} {src epoch : Byte}
    {body : List Byte} {x : α} {a : Answer} (hadmits : admits s src epoch) (hlen : body.length ≤ 24)
    (hread : read body = some x) (howner : owner x src (s.clearStrikes src) = (t, a)) :
    s.request false read owner src epoch body = withAnswer t a.status a.body := by
  rw [request_passed hadmits hlen hread, howner]

theorem command_of_action {α : Type} {s t : State} {c : Command} {read : List Byte → Option α} {act : Action α}
    {seq : Byte} {ops data : List Byte} {x : α} {status : HostStatus} (hport : portOpen s)
    (hlen : c.lenLegal ops.length = true) (hread : read ops = some x) (hact : act x s = (t, status, data)) :
    s.command c read act seq ops = t.respond status seq data := by
  rw [command_passed hport hlen hread, hact]

/-! ### FIND (R61) -/

theorem findOwner_carried {s : State} {i : Nat} {t : Tag} {r : Role} (hc : carries s i t r) (src : Byte) :
    findOwner t src s = (s, ⟨.ok, viewOf (s.handleAt i) r⟩) := by
  simp only [findOwner, roleOfTag_some hc, hc.1, roleView_eq]

theorem findOwner_uncarried {s : State} {t : Tag} (hu : uncarried s t) (src : Byte) :
    findOwner t src s = (s, ⟨.noSuchRole, []⟩) := by
  simp only [findOwner, roleOfTag_none hu]

theorem carries_clearStrikes {s : State} {i : Nat} {t : Tag} {r : Role} (hc : carries s i t r) (a : Byte) :
    carries (s.clearStrikes a) i t r := by
  simpa only [carries, roleAt_clearStrikes] using hc

theorem uncarried_clearStrikes {s : State} {t : Tag} (hu : uncarried s t) (a : Byte) : uncarried (s.clearStrikes a) t := by
  simpa only [uncarried, roleAt_clearStrikes] using hu

/-- Settles O16: a legal tag is found or not, before the strike reset as after it, and any other body stops at the gate. -/
theorem findReturnsTheView : Obligations.FindReturnsTheView := by
  unfold Obligations.FindReturnsTheView
  intro s src epoch hadmits
  refine ⟨fun t ht => ?_, fun body hlen hbad => ?_⟩
  · have hlen : (tagBytes t).length ≤ 24 := by rw [tagBytes_length ht]; decide
    refine ⟨fun i r hc => ?_, fun hu => ?_⟩
    · rw [exec, execFind, request_of_owner hadmits hlen (tagOf_tagBytes ht)
        (findOwner_carried (carries_clearStrikes hc src) src), handleAt_clearStrikes]
    · rw [exec, execFind, request_of_owner hadmits hlen (tagOf_tagBytes ht)
        (findOwner_uncarried (uncarried_clearStrikes hu src) src)]
  · rw [exec, execFind, request_bad hadmits hlen (tagOf_none hbad)]

/-! ### The test of R50, and LOOKUP (R62) -/

theorem byHandle_stale {s : State} {h : Handle} (hn : s.named h = none) (owner : Role → Owner Handle) (src : Byte) :
    byHandle owner h src s = (s, ⟨.staleHandle, []⟩) := by
  simp only [byHandle, hn]

theorem byHandle_named {s : State} {h : Handle} {r : Role} (hn : s.named h = some r) (owner : Role → Owner Handle)
    (src : Byte) : byHandle owner h src s = owner r h src s := by
  simp only [byHandle, hn]

/-- Settles O17: the handle names after the strike reset what it named before, and the view tells it. -/
theorem lookupReturnsTheView : Obligations.LookupReturnsTheView := by
  unfold Obligations.LookupReturnsTheView
  intro s src epoch i n hadmits hi
  have hsame := named_clearStrikes s src ⟨i, n⟩
  cases hn : s.named ⟨i, n⟩ with
  | none =>
    rw [exec, execLookup, request_of_owner hadmits (by simp) (handleBody_pair n hi)
      (byHandle_stale (hsame.trans hn) _ src)]
  | some r =>
    rw [exec, execLookup, request_of_owner hadmits (by simp) (handleBody_pair n hi)
      (byHandle_named (hsame.trans hn) _ src), roleView_eq]

/-! ### CHANGE (R63) -/

theorem changeRole_of_named {s : State} {h : Handle} {r : Role} (hn : s.named h = some r) (r' : Role) :
    s.changeRole h.index.toNat r' =
      (s.putRole h.index.toNat { r' with generation := r'.generation + 1 }).markPending h := by
  rw [State.changeRole, handleAt_of_named hn]

theorem changeOwner_stale {s : State} {h : Handle} (hn : s.named h = none) (g : Half) (attr : List Byte) (src : Byte) :
    changeOwner (h, g, attr) src s = (s, ⟨.staleHandle, []⟩) := by
  simp only [changeOwner, hn]

theorem changeOwner_notHolder {s : State} {h : Handle} {r : Role} {src : Byte} (hn : s.named h = some r)
    (hother : heldBy r src = false) (g : Half) (attr : List Byte) :
    changeOwner (h, g, attr) src s = (s, ⟨.notHolder, []⟩) := by
  simp only [changeOwner, hn]
  cases ht : r.tenure with
  | vacant | offered => rfl
  | held a lease old =>
    have ha : a ≠ src := by simpa [heldBy, ht] using hother
    simp only [if_pos ha]

theorem changeOwner_conflict {s : State} {h : Handle} {r : Role} {src : Byte} {lease : Nat} {old : List Byte} {g : Half}
    (hn : s.named h = some r) (ht : r.tenure = .held src lease old) (hg : g ≠ r.generation) (attr : List Byte) :
    changeOwner (h, g, attr) src s = (s, ⟨.conflict, halfBytes r.generation⟩) := by
  simp only [changeOwner, hn, ht, ne_eq, not_true_eq_false, if_false, if_pos hg]

theorem changeOwner_taken {s : State} {h : Handle} {r : Role} {src : Byte} {lease : Nat} {old : List Byte}
    (hn : s.named h = some r) (ht : r.tenure = .held src lease old) (attr : List Byte) :
    changeOwner (h, r.generation, attr) src s =
      (((s.putRole h.index.toNat
          { r with tenure := .held src lease attr, generation := r.generation + 1 }).markPending h).settle s,
        ⟨.ok, halfBytes (r.generation + 1)⟩) := by
  simp only [changeOwner, hn, ht, ne_eq, not_true_eq_false, if_false, changeRole_of_named hn]

/-- The row CHANGE by what its owner answers on the state after the strike reset. -/
theorem exec_change {s t : State} {src epoch i n : Byte} {g : Half} {attr : List Byte} {a : Answer}
    (hadmits : admits s src epoch) (hi : i.toNat ≤ 95) (hattr : attr.length ≤ 8)
    (howner : changeOwner (⟨i, n⟩, g, attr) src (s.clearStrikes src) = (t, a)) :
    exec (.change src epoch ([i, n] ++ halfBytes g ++ attr)) s = .next (withAnswer t a.status a.body) := by
  have hlen : ([i, n] ++ halfBytes g ++ attr).length ≤ 24 := by
    simp only [halfBytes, List.length_append, List.length_cons, List.length_nil]
    omega
  rw [exec, execChange, request_of_owner hadmits hlen (changeBody_fields n g hi hattr) howner]

/-- Settles O19: the tests of R63 in order, each by its lemma about the owner. -/
theorem changeReplacesTheAttribute : Obligations.ChangeReplacesTheAttribute := by
  unfold Obligations.ChangeReplacesTheAttribute
  intro s src epoch i n g attr hadmits hi hattr
  have hsame := named_clearStrikes s src ⟨i, n⟩
  cases hn : s.named ⟨i, n⟩ with
  | none => exact exec_change hadmits hi hattr (changeOwner_stale (hsame.trans hn) g attr src)
  | some r =>
    have hnamed := hsame.trans hn
    cases ht : r.tenure with
    | vacant | offered =>
      have hother : heldBy r src = false := by simp only [heldBy, ht]
      simpa only [ht] using exec_change hadmits hi hattr (changeOwner_notHolder hnamed hother g attr)
    | held a lease old =>
      simp only [ht]
      split
      next ha =>
        have hother : heldBy r src = false := by simpa [heldBy, ht] using ha
        exact exec_change hadmits hi hattr (changeOwner_notHolder hnamed hother g attr)
      next ha =>
        obtain rfl := not_not.1 ha
        split
        next hg => exact exec_change hadmits hi hattr (changeOwner_conflict hnamed ht hg attr)
        next hg =>
          obtain rfl := not_not.1 hg
          exact exec_change hadmits hi hattr (changeOwner_taken hnamed ht attr)

/-! ### RETIRE (R65) and RETIRE ROLE (R161) -/

/-- R57, at the role that a handle names. -/
theorem retire_of_named {s : State} {h : Handle} {r : Role} (hn : s.named h = some r) :
    s.retire h.index.toNat = afterRetirement s h (r.generation + 1) := by
  rw [retire_eq (roleAt_of_named hn), handleAt_of_named hn]

theorem retireOwner_notHolder {r : Role} {src : Byte} (hsrc : isStation src = true) (hother : heldBy r src = false)
    (h : Handle) (s : State) : retireOwner r h src s = (s, ⟨.notHolder, []⟩) :=
  if_pos ((isStation_holder hsrc).2 hother)

theorem retireOwner_pinned {r : Role} {src : Byte} (hsrc : isStation src = true) (hheld : ¬ heldBy r src = false)
    (hkind : r.kind = .pinned) (h : Handle) (s : State) : retireOwner r h src s = (s, ⟨.notPermitted, []⟩) := by
  simp only [retireOwner, isStation_holder hsrc, if_neg hheld, hkind]

theorem retireOwner_taken {s : State} {h : Handle} {r : Role} {src : Byte} (hn : s.named h = some r)
    (hsrc : isStation src = true) (hheld : ¬ heldBy r src = false) (hkind : r.kind = .transient) :
    retireOwner r h src s =
      ((afterRetirement s h (r.generation + 1)).settle s, ⟨.ok, halfBytes (r.generation + 1)⟩) := by
  simp only [retireOwner, isStation_holder hsrc, if_neg hheld, hkind, retire_of_named hn]

/-- The row RETIRE by what its owner answers on the state after the strike reset. -/
theorem exec_retire {s t : State} {src epoch i n : Byte} {a : Answer} (hadmits : admits s src epoch) (hi : i.toNat ≤ 95)
    (howner : byHandle retireOwner ⟨i, n⟩ src (s.clearStrikes src) = (t, a)) :
    exec (.retire src epoch [i, n]) s = .next (withAnswer t a.status a.body) := by
  rw [exec, execRetire, request_of_owner hadmits (by simp) (handleBody_pair n hi) howner]

theorem retireRoleAction_stale {s : State} {h : Handle} (hn : s.named h = none) :
    retireRoleAction h s = (s, .staleHandle, []) := by
  simp only [retireRoleAction, hn]

theorem retireRoleAction_named {s : State} {h : Handle} {r : Role} (hn : s.named h = some r) :
    retireRoleAction h s =
      ((afterRetirement s h (r.generation + 1)).settle s, .ok, halfBytes (r.generation + 1)) := by
  simp only [retireRoleAction, hn, retire_of_named hn]

/-- The row RETIRE ROLE by what its action answers. -/
theorem exec_retireRole {s t : State} {i n : Byte} {status : HostStatus} {data : List Byte} (hport : portOpen s)
    (hi : i.toNat ≤ 95) (hact : retireRoleAction ⟨i, n⟩ s = (t, status, data)) (seq : Byte) :
    exec (.retireRole seq [i, n]) s = .next (t.respond status seq data) := by
  rw [exec, execRetireRole, command_of_action hport rfl (handleBody_pair n hi) hact]

/-- Settles O20: the tests of R65 and R161 in order, each by its lemma about the owner or the action. -/
theorem retirementEndsTheRole : Obligations.RetirementEndsTheRole := by
  unfold Obligations.RetirementEndsTheRole
  intro s i n hi
  refine ⟨fun src epoch hadmits => ?_, fun seq hport => ?_⟩
  · have hsame := named_clearStrikes s src ⟨i, n⟩
    have hsrc := isStation_of_admits hadmits
    cases hn : s.named ⟨i, n⟩ with
    | none => exact exec_retire hadmits hi (byHandle_stale (hsame.trans hn) retireOwner src)
    | some r =>
      have hnamed := hsame.trans hn
      have hown := byHandle_named hnamed retireOwner src
      dsimp only
      split
      next hother => exact exec_retire hadmits hi (hown.trans (retireOwner_notHolder hsrc hother _ _))
      next hheld =>
        cases hkind : r.kind with
        | pinned => exact exec_retire hadmits hi (hown.trans (retireOwner_pinned hsrc hheld hkind _ _))
        | transient => exact exec_retire hadmits hi (hown.trans (retireOwner_taken hnamed hsrc hheld hkind))
  · cases hn : s.named ⟨i, n⟩ with
    | none => exact exec_retireRole hport hi (retireRoleAction_stale hn) seq
    | some r => exact exec_retireRole hport hi (retireRoleAction_named hn) seq

end Sys2Proof.Machine
end

section
/-! PROOFS. Leases (O22, O24, O25): RENEW and RELEASE by whether the sender holds the role (R75, R77), the lease tick as one sweep over
the roles (R70), and the rows LAPSE and WINDOW EXPIRY as what the tick does at one role that lapses or expires. -/

namespace Sys2Proof.Machine

open Sys2Proof.Safety

/-! ### RENEW (R75) -/

/-- A lease is restored to the term, and its holder and attribute stay (R75). -/
theorem restored_held {r : Role} {a : Byte} {lease : Nat} {attr : List Byte} (ht : r.tenure = .held a lease attr) :
    r.restored = { r with tenure := .held a r.term attr } := by
  simp only [Role.restored, ht]

theorem renewOwner_notHolder {r : Role} {src : Byte} (hsrc : isStation src = true) (hother : heldBy r src = false)
    (h : Handle) (s : State) : renewOwner r h src s = (s, ⟨.notHolder, []⟩) :=
  if_pos ((isStation_holder hsrc).2 hother)

theorem renewOwner_taken {r : Role} {src : Byte} {lease : Nat} {attr : List Byte}
    (ht : r.tenure = .held src lease attr) (h : Handle) (s : State) :
    renewOwner r h src s =
      (s.putRole h.index.toNat { r with tenure := .held src r.term attr }, ⟨.ok, termBytes r.term⟩) := by
  have hsame : ¬ r.tenure.holder ≠ src := by simp only [ht, Tenure.holder, ne_eq, not_true_eq_false, not_false_eq_true]
  rw [renewOwner, if_neg hsame, restored_held ht]

/-- The row RENEW by what its owner answers on the state after the strike reset. -/
theorem exec_renew {s t : State} {src epoch i n : Byte} {a : Answer} (hadmits : admits s src epoch) (hi : i.toNat ≤ 95)
    (howner : byHandle renewOwner ⟨i, n⟩ src (s.clearStrikes src) = (t, a)) :
    exec (.renew src epoch [i, n]) s = .next (withAnswer t a.status a.body) := by
  rw [exec, execRenew, request_of_owner hadmits (by simp) (handleBody_pair n hi) howner]

/-! ### RELEASE (R77) -/

/-- R74, at the role that a handle names. -/
theorem loseHolder_of_named {s : State} {h : Handle} {r : Role} (hn : s.named h = some r) :
    s.loseHolder h.index.toNat = afterLoss s h r := by
  rw [loseHolder_eq (roleAt_of_named hn), handleAt_of_named hn]

theorem releaseOwner_notHolder {r : Role} {src : Byte} (hsrc : isStation src = true) (hother : heldBy r src = false)
    (h : Handle) (s : State) : releaseOwner r h src s = (s, ⟨.notHolder, []⟩) :=
  if_pos ((isStation_holder hsrc).2 hother)

theorem releaseOwner_taken {s : State} {h : Handle} {r : Role} {src : Byte} (hn : s.named h = some r)
    (hsrc : isStation src = true) (hheld : heldBy r src = true) :
    releaseOwner r h src s = ((afterLoss s h r).settle s, ⟨.ok, []⟩) := by
  have hsame : ¬ r.tenure.holder ≠ src := by rw [isStation_holder hsrc, hheld]; decide
  rw [releaseOwner, if_neg hsame, loseHolder_of_named hn]

/-- The row RELEASE by what its owner answers on the state after the strike reset. -/
theorem exec_release {s t : State} {src epoch i n : Byte} {a : Answer} (hadmits : admits s src epoch) (hi : i.toNat ≤ 95)
    (howner : byHandle releaseOwner ⟨i, n⟩ src (s.clearStrikes src) = (t, a)) :
    exec (.release src epoch [i, n]) s = .next (withAnswer t a.status a.body) := by
  rw [exec, execRelease, request_of_owner hadmits (by simp) (handleBody_pair n hi) howner]

/-- Settles O22: the tests of R75 and R77 in order, each by its lemma about the owner. -/
theorem holdersRenewAndRelease : Obligations.HoldersRenewAndRelease := by
  unfold Obligations.HoldersRenewAndRelease
  refine ⟨fun s src epoch i n hadmits hi => ?_, fun s src epoch i n hadmits hi => ?_⟩
  · have hsame := named_clearStrikes s src ⟨i, n⟩
    have hsrc := isStation_of_admits hadmits
    cases hn : s.named ⟨i, n⟩ with
    | none => exact exec_renew hadmits hi (byHandle_stale (hsame.trans hn) renewOwner src)
    | some r =>
      have hown := byHandle_named (hsame.trans hn) renewOwner src
      cases ht : r.tenure with
      | vacant | offered =>
        have hother : heldBy r src = false := by simp only [heldBy, ht]
        simpa only [ht] using exec_renew hadmits hi (hown.trans (renewOwner_notHolder hsrc hother _ _))
      | held a lease attr =>
        simp only [ht]
        split
        next ha =>
          subst ha
          exact exec_renew hadmits hi (hown.trans (renewOwner_taken ht _ _))
        next ha =>
          have hother : heldBy r src = false := by simpa [heldBy, ht] using ha
          exact exec_renew hadmits hi (hown.trans (renewOwner_notHolder hsrc hother _ _))
  · have hsame := named_clearStrikes s src ⟨i, n⟩
    have hsrc := isStation_of_admits hadmits
    cases hn : s.named ⟨i, n⟩ with
    | none => exact exec_release hadmits hi (byHandle_stale (hsame.trans hn) releaseOwner src)
    | some r =>
      have hnamed := hsame.trans hn
      have hown := byHandle_named hnamed releaseOwner src
      dsimp only
      split
      next hheld => exact exec_release hadmits hi (hown.trans (releaseOwner_taken hnamed hsrc hheld))
      next hother =>
        exact exec_release hadmits hi (hown.trans (releaseOwner_notHolder hsrc (Bool.eq_false_iff.2 hother) _ _))

/-! ### The lease tick (R70) -/

theorem exec_leaseTick_stopped {s : State} (hstopped : s.ticking = false) : exec .leaseTick s = .next s := by
  rw [exec, execLeaseTick, hstopped]
  rfl

theorem exec_leaseTick_running {s : State} (hticking : s.ticking = true) : exec .leaseTick s = .next (s.tick.settle s) := by
  rw [exec, execLeaseTick, if_pos hticking]

/-- A lease tick raises LAPSE and VACANCY once for each role concerned, and no other cause (R70, R74, R103, R164). -/
theorem tick_attention (s : State) :
    s.tick.attention = { s.attention with
      lapse := raisedForRoles s s.attention.lapse (lapsedByTick s)
      vacancy := raisedForRoles s s.attention.vacancy (vacatedByTick s) } :=
  sweep_attention tickRole_acts tickRole_raises s Config.roleCount

/-- Settles O24: a tick is one sweep over the roles, of which each table has its law. -/
theorem leaseTickCountsEveryRole : Obligations.LeaseTickCountsEveryRole := by
  unfold Obligations.LeaseTickCountsEveryRole
  intro s
  refine ⟨ticking_iff s, exec_leaseTick_stopped, fun hticking => ⟨s.tick, exec_leaseTick_running hticking, ?_⟩⟩
  exact ⟨tick_reaches s, fun i => (tick_roles s i).1, fun i => (tick_roles s i).2, tick_watches s, tick_attention s⟩

/-! ### Which roles lapse and which expire (R70) -/

theorem lapses_held {r : Role} {a : Byte} {lease : Nat} {attr : List Byte} (ht : r.tenure = .held a lease attr) :
    lapses r = decide (lease ≤ 1) := by
  simp only [lapses, ht]

theorem lapses_offered {r : Role} {o : Offer} (ht : r.tenure = .offered o) : lapses r = false := by
  simp only [lapses, ht]

theorem expires_held {r : Role} {a : Byte} {lease : Nat} {attr : List Byte} (ht : r.tenure = .held a lease attr) :
    expires r = false := by
  simp only [expires, ht]

theorem expires_waiting {r : Role} {o : Offer} {window : Nat} (ht : r.tenure = .offered o)
    (hphase : o.phase = .waiting window) : expires r = decide (window ≤ 1) := by
  simp only [expires, ht, hphase]

/-! ### The tick's part at one role: LAPSE (R74) and WINDOW EXPIRY (R116) -/

theorem tickRole_of_lapses {s : State} {i : Nat} {r : Role} (hr : s.roleAt i = some r) (hlapses : lapses r = true) :
    s.tickRole i = afterLoss (s.raise .lapse (.role (s.handleAt i))) (s.handleAt i) r := by
  rw [tickRole_eq hr, if_pos hlapses]

theorem tickRole_of_expires {s : State} {i : Nat} {r : Role} (hr : s.roleAt i = some r) (hlapses : lapses r = false)
    (hexpires : expires r = true) : s.tickRole i = afterSkip s (s.handleAt i) r := by
  rw [tickRole_eq hr, hlapses, if_neg Bool.false_ne_true, if_pos hexpires]

/-- The row LAPSE acts where the clock runs and the role at its index lapses. -/
theorem exec_lapse {s : State} {index : Byte} {r : Role} (hr : s.roleAt index.toNat = some r) :
    exec (.lapse index) s =
      .next (if s.ticking && lapses r then (s.tickRole index.toNat).settle s else s) := by
  rw [exec, execLapse, hr]
  rfl

/-- The row WINDOW EXPIRY acts where the clock runs and the window at its index expires. -/
theorem exec_windowExpiry {s : State} {index : Byte} {r : Role} (hr : s.roleAt index.toNat = some r) :
    exec (.windowExpiry index) s =
      .next (if s.ticking && expires r then (s.tickRole index.toNat).settle s else s) := by
  rw [exec, execWindowExpiry, hr]
  rfl

theorem exec_lapse_taken {s : State} {index : Byte} {r : Role} (hticking : s.ticking = true)
    (hr : s.roleAt index.toNat = some r) (hlapses : lapses r = true) :
    exec (.lapse index) s =
      .next ((afterLoss (s.raise .lapse (.role (s.handleAt index.toNat))) (s.handleAt index.toNat) r).settle s) := by
  rw [exec_lapse hr, if_pos (Bool.and_eq_true_iff.2 ⟨hticking, hlapses⟩), tickRole_of_lapses hr hlapses]

theorem exec_lapse_idle {s : State} {index : Byte} {r : Role} (hr : s.roleAt index.toNat = some r)
    (hlapses : lapses r = false) : exec (.lapse index) s = .next s := by
  rw [exec_lapse hr, hlapses, Bool.and_false, if_neg Bool.false_ne_true]

theorem exec_windowExpiry_taken {s : State} {index : Byte} {r : Role} (hticking : s.ticking = true)
    (hr : s.roleAt index.toNat = some r) (hlapses : lapses r = false) (hexpires : expires r = true) :
    exec (.windowExpiry index) s = .next ((afterSkip s (s.handleAt index.toNat) r).settle s) := by
  rw [exec_windowExpiry hr, if_pos (Bool.and_eq_true_iff.2 ⟨hticking, hexpires⟩), tickRole_of_expires hr hlapses hexpires]

theorem exec_windowExpiry_idle {s : State} {index : Byte} {r : Role} (hr : s.roleAt index.toNat = some r)
    (hexpires : expires r = false) : exec (.windowExpiry index) s = .next s := by
  rw [exec_windowExpiry hr, hexpires, Bool.and_false, if_neg Bool.false_ne_true]

/-- Settles O25: a HELD role may lapse and never expires, a WAITING offer's may expire and never lapses; the count decides. -/
theorem lapseAndExpiryPassTheRoleOn : Obligations.LapseAndExpiryPassTheRoleOn := by
  unfold Obligations.LapseAndExpiryPassTheRoleOn
  refine fun s index hticking => ⟨fun r a lease attr hr ht => ?_, fun r o window hr ht hphase => ?_⟩
  · have hlapses := lapses_held ht
    refine ⟨fun hlease => ?_, fun hlease => ?_, exec_windowExpiry_idle hr (expires_held ht)⟩
    · exact exec_lapse_taken hticking hr (hlapses.trans (decide_eq_true hlease))
    · exact exec_lapse_idle hr (hlapses.trans (decide_eq_false (by omega)))
  · have hexpires := expires_waiting ht hphase
    have hnever := lapses_offered ht
    refine ⟨fun hwindow => ?_, fun hwindow => ?_, exec_lapse_idle hr hnever⟩
    · exact exec_windowExpiry_taken hticking hr hnever (hexpires.trans (decide_eq_true hwindow))
    · exact exec_windowExpiry_idle hr (hexpires.trans (decide_eq_false (by omega)))

end Sys2Proof.Machine
end

section
/-! PROOFS. CLAIM (O26, O28, O29): the tests of R86 in order. A tag that no live role carries is created or refused (R56, R87);
a role that the sender holds is renewed (R89); a claim of a role that another holds or is offered comes to the queue, where the
sender has a place already (R91), is refused (R92, R93), or is put in by rank and arrival (R84). -/

namespace Sys2Proof.Machine

open Sys2Proof.Safety

/-- The row CLAIM by what its owner answers on the state after the strike reset. -/
theorem exec_claim {s u : State} {src epoch rank : Byte} {t : Tag} {a : Answer} (hadmits : admits s src epoch)
    (hlegal : t.legal = true) (h1 : 1 ≤ rank.toNat) (h7 : rank.toNat ≤ 7)
    (howner : claimOwner (t, rank.toNat) src (s.clearStrikes src) = (u, a)) :
    exec (.claim src epoch (tagBytes t ++ [rank])) s = .next (withAnswer u a.status a.body) := by
  have hlen : (tagBytes t ++ [rank]).length ≤ 24 := by simp [tagBytes_length hlegal]
  rw [exec, execClaim, request_of_owner hadmits hlen (claimBody_tag hlegal h1 h7) howner]

/-! ### Creation of an entry (R49, R55) and its grant (R56) -/

theorem modifyRow_of_row {α : Type} {n : Nat} {v : Vector α n} {i : Nat} {a : α} (h : v[i]? = some a) (f : α → α) :
    modifyRow v i f = v.setIfInBounds i (f a) := by
  simp only [modifyRow, h]

theorem row_of_incarnationAt {s : State} {i : Nat} {n : Byte} (hn : incarnationAt s i = some n) :
    ∃ e, s.roles[i]? = some e ∧ e.incarnation = n :=
  Option.map_eq_some_iff.1 hn

/-- The entry of a creation, whatever role the same event leaves in it. -/
theorem putRole_create {s : State} {i : Nat} {n : Byte} (hn : incarnationAt s i = some n) (t : Tag) (kind : Kind)
    (term : Nat) (r : Role) :
    (s.create i t kind term).putRole i r =
      { s with roles := s.roles.setIfInBounds i ⟨nextIncarnation n, some r⟩ } := by
  obtain ⟨e, he, rfl⟩ := row_of_incarnationAt hn
  simp only [State.putRole, State.create, modifyRow_modifyRow]
  rw [modifyRow_of_row he]

theorem roleAt_create {s : State} {i : Nat} {n : Byte} (hn : incarnationAt s i = some n) (t : Tag) (kind : Kind)
    (term : Nat) : (s.create i t kind term).roleAt i = some ⟨t, kind, .vacant, term, 0, 0, []⟩ := by
  obtain ⟨e, he, -⟩ := row_of_incarnationAt hn
  simp [State.roleAt, State.create, modifyRow_getElem?, he]

theorem handleAt_create {s : State} {i : Nat} {n : Byte} (hn : incarnationAt s i = some n) (t : Tag) (kind : Kind)
    (term : Nat) : (s.create i t kind term).handleAt i = ⟨byteOf i, nextIncarnation n⟩ := by
  obtain ⟨e, he, rfl⟩ := row_of_incarnationAt hn
  simp [State.handleAt, State.create, modifyRow_getElem?, he]

/-- The entry that a creation and a grant in one event leave, `n` being its incarnation before: HELD at generation 1 (R49, R55, R73). -/
def createdEntry (n : Byte) (t : Tag) (kind : Kind) (term : Nat) (src : Byte) : Entry :=
  ⟨nextIncarnation n, some ⟨t, kind, .held src term [], term, 1, 0, []⟩⟩

/-- The creation and its grant put one entry into the table, and the grant reaches the watches on its new handle (R54, R56). -/
theorem grant_create {s : State} {i : Nat} {n : Byte} (hn : incarnationAt s i = some n) (t : Tag) (kind : Kind)
    (term : Nat) (src : Byte) :
    (s.create i t kind term).grant i src =
      ({ s with roles := s.roles.setIfInBounds i (createdEntry n t kind term src) } : State).markPending
        ⟨byteOf i, nextIncarnation n⟩ := by
  have hrole := roleAt_create hn t kind term
  have hindex := handleAt_index (s := s.create i t kind term) (roleAt_lt hrole)
  rw [grant_eq hrole, afterGrant, hindex, putRole_create hn, handleAt_create hn]
  rfl

/-- The answer GRANTED, formed after the grant (R73, R86). -/
theorem granted_grant {s : State} {i : Nat} {r : Role} (hr : s.roleAt i = some r) (src : Byte) :
    (s.grant i src).granted i =
      ⟨.granted, (s.handleAt i).bytes ++ halfBytes (r.generation + 1) ++ termBytes r.term⟩ :=
  congrArg Prod.snd (grantTo_eq hr src)

theorem granted_create {s : State} {i : Nat} {n : Byte} (hn : incarnationAt s i = some n) (t : Tag) (kind : Kind)
    (term : Nat) (src : Byte) :
    ((s.create i t kind term).grant i src).granted i =
      ⟨.granted, Handle.bytes ⟨byteOf i, nextIncarnation n⟩ ++ halfBytes 1 ++ termBytes term⟩ := by
  rw [granted_grant (roleAt_create hn t kind term), handleAt_create hn, zero_add]

/-! ### CLAIM of a tag that no live role carries (R56, R87) -/

theorem claimOwner_uncarried {s : State} {t : Tag} (hu : uncarried s t) (rank : Nat) (src : Byte) :
    claimOwner (t, rank) src s = claimNewRole t src s := by
  simp only [claimOwner, roleOfTag_none hu]

theorem claimNewRole_closed {s : State} (hclosed : s.config.creation = .closed) (t : Tag) (src : Byte) :
    claimNewRole t src s = (s, ⟨.noSuchRole, []⟩) := by
  simp only [claimNewRole, hclosed]

theorem claimNewRole_full {s : State} (hopen : s.config.creation = .open) (hfull : s.freeIndex = none) (t : Tag)
    (src : Byte) :
    claimNewRole t src s = ((s.raise .capacity (.refusal .tableFull src)).drive, ⟨.tableFull, []⟩) := by
  simp only [claimNewRole, hopen, hfull]

theorem claimNewRole_created {s : State} {i : Nat} {n : Byte} (hopen : s.config.creation = .open)
    (hfree : s.freeIndex = some i) (hn : incarnationAt s i = some n) (t : Tag) (src : Byte) :
    claimNewRole t src s =
      ((({ s with
            roles := s.roles.setIfInBounds i (createdEntry n t .transient s.config.defaultTerm src) } : State).markPending
          ⟨byteOf i, nextIncarnation n⟩).settle s,
        ⟨.granted, Handle.bytes ⟨byteOf i, nextIncarnation n⟩ ++ halfBytes 1 ++ termBytes s.config.defaultTerm⟩) := by
  simp only [claimNewRole, hopen, hfree]
  rw [granted_create hn, grant_create hn]

/-- Settles O26: the strike reset of the arrival leaves the creation setting, the default term and the role table, and so the case. -/
theorem claimCreatesARole : Obligations.ClaimCreatesARole := by
  unfold Obligations.ClaimCreatesARole
  intro s src epoch t rank hadmits hlegal h1 h7 hu
  obtain ⟨hroles, -, -, -, -, hconfig, -⟩ := clearStrikes_eq_iff s src
  have hnew := claimOwner_uncarried (uncarried_clearStrikes hu src) rank.toNat src
  have hcreation := congrArg Configuration.creation hconfig
  have hterm := congrArg Configuration.defaultTerm hconfig
  refine ⟨fun hclosed => ?_, fun hopen hlive => ?_, fun hopen i n hfree hn hlow => ?_⟩
  · exact exec_claim hadmits hlegal h1 h7 (hnew.trans (claimNewRole_closed (hcreation.trans hclosed) t src))
  · have hfull := freeIndex_none (s := s.clearStrikes src) (by simpa only [roleAt_clearStrikes] using hlive)
    exact exec_claim hadmits hlegal h1 h7 (hnew.trans (claimNewRole_full (hcreation.trans hopen) hfull t src))
  · have hn' : incarnationAt (s.clearStrikes src) i = some n := by rw [incarnationAt, hroles]; exact hn
    have hindex := freeIndex_some (s := s.clearStrikes src) (by simpa only [roleAt_clearStrikes] using hfree) hn'
      (by simpa only [roleAt_clearStrikes] using hlow)
    have hmade := claimNewRole_created (hcreation.trans hopen) hindex hn' t src
    rw [hroles, hterm] at hmade
    exact exec_claim hadmits hlegal h1 h7 (hnew.trans hmade)

/-! ### CLAIM by the holder (R89) -/

theorem claimOwner_holder {s : State} {i : Nat} {t : Tag} {r : Role} {src : Byte} {lease : Nat} {attr : List Byte}
    (hc : carries s i t r) (ht : r.tenure = .held src lease attr) (rank : Nat) :
    claimOwner (t, rank) src s =
      (s.putRole i { r with tenure := .held src r.term attr }, ⟨.granted, grantedBody (s.handleAt i) r⟩) := by
  have hr : s.roleAt i = some r := hc.1
  simp only [claimOwner, roleOfTag_some hc, hr, Option.elim_some, ht, if_true, restored_held ht]

/-! ### The queue: conditions 5 to 8 of R86 -/

/-- R91: the rank of the new claim is not looked at. -/
theorem queueClaim_again {r : Role} {src : Byte} {p : Nat} (hplace : positionOf src r.chain = some p) (i rank : Nat)
    (s : State) : queueClaim i r rank src s = (s, ⟨.queued, (s.handleAt i).bytes ++ [byteOf p]⟩) := by
  simp only [queueClaim, hplace]

/-- R92. -/
theorem queueClaim_chainFull {r : Role} {src : Byte} (hplace : positionOf src r.chain = none) (hchain : 6 ≤ r.chain.length)
    (i rank : Nat) (s : State) :
    queueClaim i r rank src s =
      ((s.raise .capacity (.refusal .chainFull src)).drive, ⟨.chainFull, (s.handleAt i).bytes⟩) := by
  simp only [queueClaim, hplace, if_pos hchain]

/-- R93, tested after R92. -/
theorem queueClaim_poolFull {s : State} {r : Role} {src : Byte} (hplace : positionOf src r.chain = none)
    (hchain : r.chain.length < 6) (hpool : 64 ≤ s.claimsInUse) (i rank : Nat) :
    queueClaim i r rank src s =
      ((s.raise .capacity (.refusal .poolFull src)).drive, ⟨.poolFull, (s.handleAt i).bytes⟩) := by
  simp only [queueClaim, hplace, if_neg (Nat.not_le.2 hchain), if_pos hpool]

/-- R84, R85: the new record stands between those of equal or higher rank and those of lower rank, and its place is told. -/
theorem queueClaim_taken {s : State} {r : Role} {src : Byte} {rank : Nat} {ahead behind : List Claim}
    (hother : ∀ d ∈ r.chain, d.claimant ≠ src) (hchain : r.chain.length < 6) (hpool : s.claimsInUse < 64)
    (hsplit : r.chain = ahead ++ behind) (hahead : ∀ d ∈ ahead, rank ≤ d.rank) (hbehind : ∀ d ∈ behind, d.rank < rank)
    (i : Nat) :
    queueClaim i r rank src s =
      (s.putRole i { r with chain := ahead ++ ⟨src, rank⟩ :: behind },
        ⟨.queued, (s.handleAt i).bytes ++ [byteOf (ahead.length + 1)]⟩) := by
  have hinsert : insertClaim ⟨src, rank⟩ r.chain = ahead ++ ⟨src, rank⟩ :: behind :=
    hsplit ▸ insertClaim_split (c := ⟨src, rank⟩) hahead hbehind
  have hplace : positionOf src (ahead ++ ⟨src, rank⟩ :: behind) = some (ahead.length + 1) :=
    positionOf_append rfl fun d hd => hother d (hsplit ▸ List.mem_append_left behind hd)
  simp only [queueClaim, positionOf_none hother, if_neg (Nat.not_le.2 hchain), if_neg (Nat.not_le.2 hpool), hinsert,
    hplace, Option.getD_some]

/-- The row CLAIM of a role that another holds or is offered, by what the queue makes of it. -/
theorem exec_claim_queued {s u : State} {src epoch rank : Byte} {i : Nat} {r : Role} {a : Answer}
    (hadmits : admits s src epoch) (hlegal : r.tag.legal = true) (h1 : 1 ≤ rank.toNat) (h7 : rank.toNat ≤ 7)
    (hc : carries s i r.tag r) (hlive : r.tenure ≠ .vacant) (hheld : heldBy r src = false)
    (hoffered : offeredTo r src = false) (hqueue : queueClaim i r rank.toNat src (s.clearStrikes src) = (u, a)) :
    exec (.claim src epoch (tagBytes r.tag ++ [rank])) s = .next (withAnswer u a.status a.body) := by
  rw [claim_queues hadmits hlegal h1 h7 hc hlive hheld hoffered, hqueue]

theorem claimsInUse_clearStrikes (s : State) (a : Byte) : (s.clearStrikes a).claimsInUse = s.claimsInUse := by
  rw [State.claimsInUse, State.claimsInUse, (clearStrikes_eq_iff s a).1]

/-- Settles O28: the holder's claim is a renewal, and a claimant's place is that of its first record in the chain. -/
theorem claimsAgainKeepThePlace : Obligations.ClaimsAgainKeepThePlace := by
  unfold Obligations.ClaimsAgainKeepThePlace
  refine ⟨fun s src epoch i r rank lease attr hadmits hlegal h1 h7 hc ht => ?_,
    fun s src epoch i r rank before after c hadmits hlegal h1 h7 hc hlive hheld hoffered hchain hclaimant hbefore => ?_⟩
  · rw [exec_claim hadmits hlegal h1 h7 (claimOwner_holder (carries_clearStrikes hc src) ht rank.toNat),
      handleAt_clearStrikes, grantedBody]
  · have hplace : positionOf src r.chain = some (before.length + 1) := hchain ▸ positionOf_append hclaimant hbefore
    rw [exec_claim_queued hadmits hlegal h1 h7 hc hlive hheld hoffered (queueClaim_again hplace i rank.toNat _),
      handleAt_clearStrikes]

/-- Settles O29: with no record of the sender in the chain, the chain's length is tested first, then the pool's, and the place is found last. -/
theorem claimQueuesByRankAndArrival : Obligations.ClaimQueuesByRankAndArrival := by
  unfold Obligations.ClaimQueuesByRankAndArrival
  intro s src epoch i r rank hadmits hlegal h1 h7 hc hlive hheld hoffered hother
  have hplace := positionOf_none hother
  have hpool := claimsInUse_clearStrikes s src
  rw [← handleAt_clearStrikes s src i, ← hpool]
  refine ⟨fun hlong => ?_, fun hshort hfull => ?_, fun hshort hroom ahead behind hsplit hahead hbehind => ?_⟩
  · exact exec_claim_queued hadmits hlegal h1 h7 hc hlive hheld hoffered (queueClaim_chainFull hplace hlong i _ _)
  · exact exec_claim_queued hadmits hlegal h1 h7 hc hlive hheld hoffered (queueClaim_poolFull hplace hshort hfull i _)
  · exact exec_claim_queued hadmits hlegal h1 h7 hc hlive hheld hoffered
      (queueClaim_taken hother hshort hroom hsplit hahead hbehind i)

end Sys2Proof.Machine
end

section
/-! PROOFS. The offeree's requests (O27, O30): a CLAIM of a VACANT role, a CLAIM by the offeree and an ACCEPT come to one grant
(R73, R88, R90, R113), and a WITHDRAW by the offeree is its DECLINE, which skips the offer (R96, R115, R117). Each owner answers by
whether the role is offered to the sender; the strike reset of the arrival leaves what the handle names. -/

namespace Sys2Proof.Machine

open Sys2Proof.Safety

/-! ### A row that a handle addresses (R50) -/

theorem request_byHandle_stale {s : State} {src epoch i n : Byte} (hadmits : admits s src epoch) (hi : i.toNat ≤ 95)
    (hn : s.named ⟨i, n⟩ = none) (owner : Role → Owner Handle) :
    s.request false handleBody (byHandle owner) src epoch [i, n] = withAnswer (s.clearStrikes src) .staleHandle [] :=
  request_of_owner hadmits (by simp) (handleBody_pair n hi)
    (byHandle_stale ((named_clearStrikes s src ⟨i, n⟩).trans hn) owner src)

/-- The row by what its owner answers on the state after the strike reset. -/
theorem request_byHandle_named {s t : State} {src epoch i n : Byte} {r : Role} {a : Answer}
    {owner : Role → Owner Handle} (hadmits : admits s src epoch) (hi : i.toNat ≤ 95) (hn : s.named ⟨i, n⟩ = some r)
    (howner : owner r ⟨i, n⟩ src (s.clearStrikes src) = (t, a)) :
    s.request false handleBody (byHandle owner) src epoch [i, n] = withAnswer t a.status a.body :=
  request_of_owner hadmits (by simp) (handleBody_pair n hi)
    ((byHandle_named ((named_clearStrikes s src ⟨i, n⟩).trans hn) owner src).trans howner)

/-! ### The grants: CLAIM (R88, R90) and ACCEPT (R113) -/

theorem claimOwner_vacant {s : State} {i : Nat} {t : Tag} {r : Role} (hc : carries s i t r) (ht : r.tenure = .vacant)
    (rank : Nat) (src : Byte) : claimOwner (t, rank) src s = s.grantTo i src := by
  have hr : s.roleAt i = some r := hc.1
  simp only [claimOwner, roleOfTag_some hc, hr, Option.elim_some, ht]

/-- A role offered to a station is OFFERED, and the station is the offeree of its offer. -/
theorem offered_of_offeredTo {r : Role} {a : Byte} (ho : offeredTo r a = true) :
    ∃ o, r.tenure = .offered o ∧ o.offeree = a := by
  unfold Safety.offeredTo at ho
  cases ht : r.tenure with
  | vacant | held => simp only [ht, Bool.false_eq_true] at ho
  | offered o => exact ⟨o, rfl, by simpa only [ht, beq_iff_eq] using ho⟩

theorem claimOwner_offeree {s : State} {i : Nat} {t : Tag} {r : Role} {src : Byte} (hc : carries s i t r)
    (ho : offeredTo r src = true) (rank : Nat) : claimOwner (t, rank) src s = s.grantTo i src := by
  have hr : s.roleAt i = some r := hc.1
  obtain ⟨o, ht, hsrc⟩ := offered_of_offeredTo ho
  simp only [claimOwner, roleOfTag_some hc, hr, Option.elim_some, ht, if_pos hsrc]

theorem acceptOwner_offeree {r : Role} {src : Byte} (ho : offeredTo r src = true) (h : Handle) (s : State) :
    acceptOwner r h src s = s.grantTo h.index.toNat src :=
  if_pos ((offeredTo_eq r src).trans ho)

/-- The grant after the strike reset of the arrival, which leaves the role and its handle (R73, R86). -/
theorem grantTo_clearStrikes {s : State} {i : Nat} {r : Role} (hr : s.roleAt i = some r) (src : Byte) :
    (s.clearStrikes src).grantTo i src =
      ((afterGrant (s.clearStrikes src) (s.handleAt i) r src).settle (s.clearStrikes src),
        ⟨.granted, (s.handleAt i).bytes ++ halfBytes (r.generation + 1) ++ termBytes r.term⟩) := by
  rw [grantTo_eq ((roleAt_clearStrikes s src i).trans hr), handleAt_clearStrikes]

/-- Settles O27: the owners of CLAIM and ACCEPT come to the same grant of the role at its index. -/
theorem grantsMakeTheHolder : Obligations.GrantsMakeTheHolder := by
  unfold Obligations.GrantsMakeTheHolder
  intro s src epoch i r hadmits hr
  have hgrant := grantTo_clearStrikes hr src
  refine ⟨fun rank h1 h7 hlegal hc hcase => ?_, fun ho => ?_⟩
  · have hcarries := carries_clearStrikes hc src
    rcases hcase with hvacant | ho
    · exact exec_claim hadmits hlegal h1 h7 ((claimOwner_vacant hcarries hvacant rank.toNat src).trans hgrant)
    · exact exec_claim hadmits hlegal h1 h7 ((claimOwner_offeree hcarries ho rank.toNat).trans hgrant)
  · have hlt := roleAt_lt hr
    have hindex := handleAt_index (s := s) hlt
    have hi : (s.handleAt i).index.toNat ≤ 95 := by omega
    have howner := acceptOwner_offeree ho (s.handleAt i) (s.clearStrikes src)
    rw [hindex, hgrant] at howner
    rw [exec, execAccept]
    exact congrArg Host.Outcome.next (request_byHandle_named hadmits hi (named_handleAt hr) howner)

/-! ### ACCEPT and DECLINE by others, and the skip (R113, R115, R117) -/

/-- R117, at the role that a handle names. -/
theorem skip_of_named {s : State} {h : Handle} {r : Role} (hn : s.named h = some r) :
    s.skip h.index.toNat = afterSkip s h r := by
  rw [skip_eq (roleAt_of_named hn), handleAt_of_named hn]

theorem not_roleOfferedTo {r : Role} {src : Byte} (ho : offeredTo r src = false) : ¬ r.offeredTo src = true := by
  rw [offeredTo_eq, ho]
  exact Bool.false_ne_true

theorem acceptOwner_notOffered {r : Role} {src : Byte} (ho : offeredTo r src = false) (h : Handle) (s : State) :
    acceptOwner r h src s = (s, ⟨.notOffered, []⟩) :=
  if_neg (not_roleOfferedTo ho)

theorem declineOwner_notOffered {r : Role} {src : Byte} (ho : offeredTo r src = false) (h : Handle) (s : State) :
    declineOwner r h src s = (s, ⟨.notOffered, []⟩) :=
  if_neg (not_roleOfferedTo ho)

theorem declineOwner_offeree {s : State} {h : Handle} {r : Role} {src : Byte} (hn : s.named h = some r)
    (ho : offeredTo r src = true) : declineOwner r h src s = ((afterSkip s h r).settle s, ⟨.ok, []⟩) := by
  rw [declineOwner, if_pos ((offeredTo_eq r src).trans ho), skip_of_named hn]

/-! ### WITHDRAW (R96) -/

/-- A WITHDRAW by the offeree is a DECLINE (R96). -/
theorem withdrawOwner_offeree {r : Role} {src : Byte} (ho : offeredTo r src = true) (h : Handle) (s : State) :
    withdrawOwner r h src s = declineOwner r h src s := by
  have hoffered := (offeredTo_eq r src).trans ho
  rw [withdrawOwner, declineOwner, if_pos hoffered, if_pos hoffered]

/-- A station has a place in a chain where one of the chain's records is its own (R85). -/
theorem positionOf_isSome (a : Byte) (chain : List Claim) :
    (positionOf a chain).isSome = chain.any (fun c => c.claimant == a) := by
  rw [positionOf, Option.isSome_map, List.findIdx?_isSome]

theorem withdrawOwner_claimant {r : Role} {src : Byte} (ho : offeredTo r src = false)
    (hclaims : r.chain.any (fun c => c.claimant == src) = true) (h : Handle) (s : State) :
    withdrawOwner r h src s =
      (s.putRole h.index.toNat { r with chain := r.chain.filter (fun c => c.claimant != src) }, ⟨.ok, []⟩) := by
  rw [withdrawOwner, if_neg (not_roleOfferedTo ho), positionOf_isSome, if_pos hclaims]

theorem withdrawOwner_noClaim {r : Role} {src : Byte} (ho : offeredTo r src = false)
    (hclaims : ¬ r.chain.any (fun c => c.claimant == src) = true) (h : Handle) (s : State) :
    withdrawOwner r h src s = (s, ⟨.noClaim, []⟩) := by
  rw [withdrawOwner, if_neg (not_roleOfferedTo ho), positionOf_isSome, if_neg hclaims]

/-- Settles O30: the tests of R96, R113 and R115 in order, each by its lemma about the owner. -/
theorem withdrawAndDeclineLeaveTheirPlace : Obligations.WithdrawAndDeclineLeaveTheirPlace := by
  unfold Obligations.WithdrawAndDeclineLeaveTheirPlace
  refine ⟨fun s src epoch i n hadmits hi => ?_, fun s src epoch i n hadmits hi => ⟨fun hn => ?_, fun r hn => ?_⟩⟩
  · rw [exec, execWithdraw]
    cases hn : s.named ⟨i, n⟩ with
    | none => rw [request_byHandle_stale hadmits hi hn]
    | some r =>
      dsimp only
      split
      next ho =>
        have hnamed := (named_clearStrikes s src ⟨i, n⟩).trans hn
        have howner := (withdrawOwner_offeree ho _ _).trans (declineOwner_offeree hnamed ho)
        rw [request_byHandle_named hadmits hi hn howner]
      next ho =>
        have hother := Bool.eq_false_iff.2 ho
        split
        next hclaims => rw [request_byHandle_named hadmits hi hn (withdrawOwner_claimant hother hclaims _ _)]
        next hclaims => rw [request_byHandle_named hadmits hi hn (withdrawOwner_noClaim hother hclaims _ _)]
  · rw [exec, execAccept, exec, execDecline]
    rw [request_byHandle_stale hadmits hi hn, request_byHandle_stale hadmits hi hn]
    exact ⟨rfl, rfl⟩
  · rw [exec, execAccept, exec, execDecline]
    refine ⟨fun ho => ⟨?_, ?_⟩, fun ho => ?_⟩
    · rw [request_byHandle_named hadmits hi hn (acceptOwner_notOffered ho _ _)]
    · rw [request_byHandle_named hadmits hi hn (declineOwner_notOffered ho _ _)]
    · have hnamed := (named_clearStrikes s src ⟨i, n⟩).trans hn
      rw [request_byHandle_named hadmits hi hn (declineOwner_offeree hnamed ho)]

end Sys2Proof.Machine
end

section
/-! PROOFS. The end of a wait (O35, O36): what the confirmation does by what it finds of the frame's subject and of the candidates, the
bytes of each frame as it begins, and the frame that a selection in the confirmation puts in the place of another. -/

namespace Sys2Proof.Machine

open Sys2Proof.Safety

theorem powered_of_high {s : State} (hp : s.pins.resetLow = false) (event : State) : s.powered event = event := by
  simp only [State.powered, hp, Bool.false_eq_true, if_false]

theorem powered_self (s : State) : s.powered s = s := ite_self _

/-! ### The confirmation (R143) -/

theorem confirm_begins {s : State} {f : Frame} (hc : current s f.subject) (ha : ¬ ahead s f.subject) :
    s.confirm f = s.beginFrame f := by
  have hfree : s.overtaken f.subject = false := by rwa [← Bool.not_eq_true, overtaken_iff]
  simp only [State.confirm, (subjectCurrent_iff s f.subject).2 hc, hfree, Bool.not_false, Bool.and_self, if_true]

/-- The test of the confirmation fails for a frame whose subject has ended or that a candidate stands ahead of. -/
theorem not_confirmed {s : State} {subject : Subject} (h : ¬ current s subject ∨ ahead s subject) :
    ¬ (s.subjectCurrent subject && !s.overtaken subject) = true := by
  rw [Bool.and_eq_true, Bool.not_eq_true', subjectCurrent_iff, ← Bool.not_eq_true, overtaken_iff]
  rintro ⟨hc, ha⟩
  exact h.elim (absurd hc) ha

theorem confirm_selects_none {s : State} {f : Frame} (h : ¬ current s f.subject ∨ ahead s f.subject)
    (hg : s.dropFrame.select.frame = none) : s.confirm f = s.dropFrame.select := by
  rw [State.confirm, if_neg (not_confirmed h)]
  simp only [hg]

theorem confirm_selects {s : State} {f g : Frame} (h : ¬ current s f.subject ∨ ahead s f.subject)
    (hg : s.dropFrame.select.frame = some g) : s.confirm f = s.dropFrame.select.beginFrame g := by
  rw [State.confirm, if_neg (not_confirmed h)]
  simp only [hg]

/-! ### WAIT_END (R142, R143) -/

theorem exec_waitEnd_reached {s : State} {idle : Nat} {f : Frame} (hp : s.pins.resetLow = false) (hf : s.frame = some f)
    (hphase : f.phase = .selected) (ha : s.answer = .idle) (hw : 4 + s.config.spacing + 2 * f.collisions ≤ idle) :
    exec (.waitEnd idle) s = .next (({ s with receiver := .synchronised } : State).confirm f).drive := by
  rw [exec, execWaitEnd, powered_of_high hp, hf]
  exact congrArg _ (if_pos ⟨hphase, ha, hw⟩)

theorem exec_waitEnd_early {s : State} {idle : Nat} (h : ∀ f, s.frame = some f → f.phase ≠ .selected ∨ s.answer ≠ .idle ∨
    idle < 4 + s.config.spacing + 2 * f.collisions) : exec (.waitEnd idle) s = .next s := by
  rw [exec, execWaitEnd]
  cases hf : s.frame with
  | none => exact congrArg _ (powered_self s)
  | some f =>
    have hoff : ¬ (f.phase = .selected ∧ s.answer = .idle ∧ s.waitLength f ≤ idle) := by
      rintro ⟨hphase, ha, hw⟩
      rcases h f hf with h1 | h2 | h3
      · exact h1 hphase
      · exact h2 ha
      · exact Nat.not_le.2 h3 hw
    dsimp only
    rw [if_neg hoff, powered_self]

/-! ### The frames as they begin (R20, R109, R131) -/

theorem beginFrame_restart {s : State} {f : Frame} (hs : f.subject = .restart) :
    s.beginFrame f =
      { s with frame := some { f with phase := .onLine ⟨f.dest, 0, 0x40, s.epoch, []⟩ false, begun := true } } := by
  simp only [State.beginFrame, State.takeMark, State.formFrame, hs, restartCode]

theorem beginFrame_offer {s : State} {f : Frame} {h : Handle} {number : Byte} {r : Role}
    (hs : f.subject = .offer h number) (hn : s.named h = some r) :
    s.beginFrame f = { s with frame := some { f with
      phase := .onLine ⟨f.dest, 0, 0x41, s.epoch, h.bytes ++ tagBytes r.tag ++ [number] ++ termBytes r.term⟩ false,
      begun := true } } := by
  simp only [State.beginFrame, State.takeMark, State.formFrame, hs, hn, offerBody, offerCode]

theorem beginFrame_finalNotice {s : State} {f : Frame} {n : Nat} {watcher : Byte} {h : Handle} {w : Watch} {g : Half}
    (hs : f.subject = .watch n watcher h) (hw : s.watchNamed n watcher h = some w) (hg : w.final = some g) :
    s.beginFrame f = { s.setWatch n (some { w with isPending := false }) with frame := some { f with
      phase := .onLine ⟨f.dest, 0, 0x42, s.epoch, h.bytes ++ [4] ++ halfBytes g⟩ true, begun := true } } := by
  simp only [State.beginFrame, State.takeMark, State.formFrame, hs, hw, hg, finalForm, noticeCode]

theorem beginFrame_notice {s : State} {f : Frame} {n : Nat} {watcher : Byte} {h : Handle} {w : Watch} {r : Role}
    (hs : f.subject = .watch n watcher h) (hw : s.watchNamed n watcher h = some w) (hlive : w.final = none)
    (hn : s.named h = some r) :
    s.beginFrame f = { s.setWatch n (some { w with isPending := false }) with frame := some { f with
      phase := .onLine ⟨f.dest, 0, 0x42, s.epoch, viewOf h r⟩ false, begun := true } } := by
  simp only [State.beginFrame, State.takeMark, State.formFrame, hs, hw, hlive, hn, roleView_eq, noticeCode]

/-! ### Frames that no candidate stands ahead of (R141) -/

theorem not_ahead_offer {s : State} {h : Handle} (number : Byte) (hfirst : ∀ j r' o', j < h.index.toNat →
      s.roleAt j = some r' → r'.tenure = .offered o' → o'.phase ≠ .pendingSend) : ¬ ahead s (.offer h number) := by
  rintro ⟨j, hj, r', o', hr', ht', hphase⟩
  exact hfirst j r' o' hj hr' ht' hphase

theorem not_ahead_watch {s : State} {n : Nat} {watcher : Byte} {h : Handle} {w : Watch} (hw : watchOn s n watcher h w)
    (hoffers : ∀ j r' o', s.roleAt j = some r' → r'.tenure = .offered o' → o'.phase ≠ .pendingSend)
    (hfirst : ∀ m v, noticeWaits s m v → v.rank < w.rank ∨ (v.rank = w.rank ∧ n ≤ m)) :
    ¬ ahead s (.watch n watcher h) := by
  rintro (⟨j, r', o', hr', ht', hphase⟩ | ⟨m, v, w', hv, hw', hless⟩)
  · exact hoffers j r' o' hr' ht' hphase
  · obtain rfl : w = w' := Option.some.inj (hw.1.symm.trans hw'.1)
    have := hfirst m v hv
    omega

/-- Settles O35: each frame is current and first, so that the confirmation begins it. -/
theorem confirmedFramesBegin : Obligations.ConfirmedFramesBegin := by
  unfold Obligations.ConfirmedFramesBegin
  intro s idle f hp hf hphase ha hw u
  have hend := exec_waitEnd_reached hp hf hphase ha hw
  refine ⟨fun hs hl hnew => ?_, fun h number r o hs ho hfirst => ?_,
    fun n watcher h w hs hwatch hrank hoffers hfirst => ?_⟩
  · have hc : current u f.subject := by rw [hs]; exact ⟨hl, hnew⟩
    have hfree : ¬ ahead u f.subject := by rw [hs]; exact id
    rw [hend, confirm_begins hc hfree, beginFrame_restart hs]
  · have hc : current u f.subject := by rw [hs]; exact ⟨r, o, ho⟩
    have hfree : ¬ ahead u f.subject := by rw [hs]; exact not_ahead_offer (s := u) number hfirst
    rw [hend, confirm_begins hc hfree, beginFrame_offer (s := u) hs ho.1]
  · have hc : current u f.subject := by rw [hs]; exact ⟨w, hwatch, hrank⟩
    have hfree : ¬ ahead u f.subject := by rw [hs]; exact not_ahead_watch (s := u) hwatch hoffers hfirst
    have hnamed : u.watchNamed n watcher h = some w := (watchNamed_eq_some_iff u n watcher h w).2 hwatch
    rw [hend, confirm_begins hc hfree]
    exact ⟨fun g hg => by rw [beginFrame_finalNotice hs hnamed hg],
      fun r hlive hn => by rw [beginFrame_notice hs hnamed hlive hn]⟩

/-- What withdraws a frame and selects another leaves the link's own registers as they were. -/
theorem dropFrame_select_reaches (s : State) : ReachesFrame s s.dropFrame.select := by
  have hdrop : ReachesFrame s s.dropFrame := by unfold ReachesFrame; rw [dropFrame_reaches]
  exact hdrop.trans (select_reaches _)

theorem resetLow_dropFrame_select (s : State) : s.dropFrame.select.pins.resetLow = s.pins.resetLow := by
  have hdrop : s.dropFrame.pins = s.pins := by rw [dropFrame_reaches]
  have hsettle := settle_resetLow s.dropFrame s
  rwa [State.settle, withdrawStale_of_no_frame (dropFrame_frame s), hdrop] at hsettle

/-- A frame that the confirmation selects has been waited for already: it is new, and begins at the same end of the wait. -/
theorem exec_waitEnd_selected {u : State} {idle : Nat} {g : Frame} (hp : u.pins.resetLow = false)
    (hsync : u.receiver = .synchronised) (ha : u.answer = .idle) (hg : u.frame = some g) (hphase : g.phase = .selected)
    (hw : 4 + u.config.spacing + 2 * g.collisions ≤ idle) (hc : current u g.subject) (hfree : ¬ ahead u g.subject) :
    exec (.waitEnd idle) u = .next (u.beginFrame g).drive := by
  have hu : ({ u with receiver := .synchronised } : State) = u := by rw [← hsync]
  rw [exec_waitEnd_reached hp hg hphase ha hw, hu, confirm_begins hc hfree]

/-- Settles O36: by what the selection after the withdrawal finds. -/
theorem staleAndOvertakenFramesGiveWay : Obligations.StaleAndOvertakenFramesGiveWay := by
  unfold Obligations.StaleAndOvertakenFramesGiveWay
  refine ⟨fun s subject => ⟨subjectCurrent_iff s subject, overtaken_iff s subject⟩, fun s idle hp =>
    ⟨fun f hf hphase ha hw hlost => ?_, exec_waitEnd_early⟩⟩
  intro u
  have hend := exec_waitEnd_reached hp hf hphase ha hw
  refine ⟨fun hnone => ?_, fun g hg => ?_⟩
  · rw [hend, confirm_selects_none (s := { s with receiver := .synchronised }) hlost hnone]
  obtain ⟨hselected, hcollisions, hbegun, hc, hfree⟩ := select_spec (dropFrame_frame _) hg
  refine ⟨hselected, hcollisions, hbegun, hc, hfree, ?_⟩
  have hreach : ReachesFrame { s with receiver := .synchronised } u := dropFrame_select_reaches _
  have hpins : u.pins.resetLow = false := (resetLow_dropFrame_select _).trans hp
  have hsync : u.receiver = .synchronised := by rw [hreach]
  have hidle : u.answer = .idle := by rw [hreach]; exact ha
  have hwait : 4 + u.config.spacing + 2 * g.collisions ≤ idle := by
    have hconfig : u.config = s.config := by rw [hreach]
    rw [hconfig, hcollisions]
    omega
  rw [hend, confirm_selects (s := { s with receiver := .synchronised }) hlost hg,
    exec_waitEnd_selected hpins hsync hidle hg hselected hwait hc hfree]

end Sys2Proof.Machine
end

section
/-! PROOFS. A collision on a frame of the directory (O37): a backoff, or the end of the frame at the limit of its count. -/

namespace Sys2Proof.Machine

open Sys2Proof.Safety

theorem frameOnLine_eq {s : State} {f : Frame} {formed : TrunkFrame} {final : Bool} (hf : s.frame = some f)
    (hphase : f.phase = .onLine formed final) : s.frameOnLine = some (f, formed, final) := by
  simp only [State.frameOnLine, hf, hphase]

theorem exec_collision_backs_off {s : State} {f : Frame} {formed : TrunkFrame} {final : Bool}
    (hp : s.pins.resetLow = false) (hf : s.frame = some f) (hphase : f.phase = .onLine formed final)
    (hagain : f.subject = .restart ∨ f.collisions < 7) :
    exec .collision s = .next ({ s with receiver := .unsynchronised, frame := some { f with
      phase := .selected, collisions := min (f.collisions + 1) 8 } } : State).drive := by
  have hfew : ¬ (f.subject ≠ .restart ∧ 8 ≤ f.collisions + 1) := by
    rintro ⟨hs, hmany⟩
    rcases hagain with hr | hlt
    · exact hs hr
    · omega
  rw [exec, execCollision, powered_of_high hp, frameOnLine_eq hf hphase]
  exact congrArg _ (if_neg hfew)

theorem exec_collision_ends {s : State} {f : Frame} {formed : TrunkFrame} {final : Bool}
    (hp : s.pins.resetLow = false) (hf : s.frame = some f) (hphase : f.phase = .onLine formed final)
    (hs : f.subject ≠ .restart) (hmany : 7 ≤ f.collisions) :
    exec .collision s = .next ((({ s with receiver := .unsynchronised } : State).completeFrame f final
      .collisionLimit).settle { s with receiver := .unsynchronised }) := by
  rw [exec, execCollision, powered_of_high hp, frameOnLine_eq hf hphase]
  exact congrArg _ (if_pos ⟨hs, Nat.succ_le_succ hmany⟩)

/-- Settles O37: the count decides whether the frame ends, and the purged target field what its end does. -/
theorem collisionsBackOff : Obligations.CollisionsBackOff := by
  unfold Obligations.CollisionsBackOff
  intro s f formed final hp hf hphase u
  refine ⟨exec_collision_backs_off hp hf hphase, fun hmany hs => ⟨fun hkept => ?_, fun hpurged => ?_⟩⟩
  · have hdone : u.completeFrame f final .collisionLimit = afterFailedDelivery { u with frame := none } f.subject :=
      completeFrame_failed hs (by simp) hkept (by simp)
    rw [exec_collision_ends hp hf hphase hs hmany, hdone]
  · rw [exec_collision_ends hp hf hphase hs hmany, completeFrame_purged hpurged]

end Sys2Proof.Machine
end

section
/-! PROOFS. The slot of a frame of the directory (O39, O40, O41): which rows close it and how, and what the completion makes of the
subject's owner and of the station, a third strike included. -/

namespace Sys2Proof.Machine

open Sys2Proof.Safety

/-! ### The slot of a frame (R147) -/

theorem subject_of_awaiting {s : State} {f : Frame} {subject : Subject} {final : Bool}
    (h : awaiting s f subject final) : f.subject = subject := by
  obtain ⟨-, -, hs, -⟩ := h
  exact hs

theorem slot_of_awaiting {s : State} {f : Frame} {subject : Subject} {final : Bool} (h : awaiting s f subject final) :
    s.slot = some (f, final) := by
  obtain ⟨-, hf, -, hphase⟩ := h
  exact (slot_eq_some_iff s f final).2 ⟨hf, hphase⟩

theorem closeSlot_of_awaiting {s : State} {f : Frame} {subject : Subject} {final : Bool}
    (h : awaiting s f subject final) (outcome : FrameOutcome) :
    s.closeSlot outcome = (s.completeFrame f final outcome).settle s := by
  simp only [State.closeSlot, slot_of_awaiting h]

/-- In the slot a fault of the line is a bad answer that leaves the receiver unsynchronised (R1, R3, R147). -/
theorem lineFault_of_awaiting {s : State} {f : Frame} {subject : Subject} {final : Bool}
    (h : awaiting s f subject final) : s.lineFault = (s.closeSlot .badAnswer).unsynchronise := by
  simp only [State.lineFault, slot_of_awaiting h]

theorem exec_validAnswer {s : State} {f : Frame} {subject : Subject} {final : Bool} {body : List Byte}
    (h : awaiting s f subject final) (hlen : body.length ≤ 24) (status : Byte) :
    exec (.validAnswer status body) s = .next ((s.completeFrame f final (.valid status)).settle s) := by
  rw [exec, execValidAnswer, powered_of_high h.1, if_neg (Nat.not_lt.2 hlen), closeSlot_of_awaiting h]

/-- Settles O39: the outcome at the subject's owner, where there is one, and then the strike reset. -/
theorem answersToFramesAreApplied : Obligations.AnswersToFramesAreApplied := by
  unfold Obligations.AnswersToFramesAreApplied
  refine ⟨fun s f h number status body final hslot hlen hkept => ?_,
    fun s f n watcher h status body final hslot hlen hkept => ?_⟩
  · intro u
    have hs := subject_of_awaiting hslot
    rw [exec_validAnswer hslot hlen]
    refine ⟨fun r o hc => ?_, fun hc => ?_⟩
    · rw [completeFrame_current final hs hc hkept (by simp)]
      rfl
    · rw [completeFrame_stale final hs hc hkept]
      rfl
  · intro u
    have hs := subject_of_awaiting hslot
    rw [exec_validAnswer hslot hlen]
    refine ⟨fun w hw => ?_, fun hw => ?_⟩
    · rw [completeFrame_watch final hs hw hkept (by simp)]
      rfl
    · rw [completeFrame_unwatched final hs hw hkept]
      rfl

/-! ### Empty slots and bad answers (R35, R37, R147) -/

theorem offerOutcome_eq_failed (s : State) (h : Handle) (number : Byte) {outcome : FrameOutcome}
    (hv : ∀ x, outcome ≠ .valid x) : s.offerOutcome h number outcome = afterFailedDelivery s (.offer h number) := by
  cases hc : s.currentOffer h number with
  | none => simp only [State.offerOutcome, afterFailedDelivery, hc]
  | some p => simp only [offerOutcome_failed hc outcome hv, afterFailedDelivery, hc]

theorem noticeOutcome_eq_failed (s : State) (n : Nat) (watcher : Byte) (h : Handle) (final : Bool)
    {outcome : FrameOutcome} (hv : ∀ x, outcome ≠ .valid x) :
    s.noticeOutcome n watcher h final outcome = afterFailedDelivery s (.watch n watcher h) := by
  cases hw : s.watchNamed n watcher h with
  | none => simp only [State.noticeOutcome, afterFailedDelivery, hw]
  | some w => simp only [noticeOutcome_failed final hw outcome hv, afterFailedDelivery, hw]

/-- A bad answer does at the owner and at the registry what an empty slot does (R35, R111, R132). -/
theorem completeFrame_badAnswer (s : State) (f : Frame) (final : Bool) :
    s.completeFrame f final .badAnswer = s.completeFrame f final .emptySlot := by
  have hbad : ∀ x, FrameOutcome.badAnswer ≠ .valid x := by simp
  have hempty : ∀ x, FrameOutcome.emptySlot ≠ .valid x := by simp
  simp only [State.completeFrame, offerOutcome_eq_failed _ _ _ hbad, offerOutcome_eq_failed _ _ _ hempty,
    noticeOutcome_eq_failed _ _ _ _ _ hbad, noticeOutcome_eq_failed _ _ _ _ _ hempty, State.report]

theorem closeSlot_badAnswer (s : State) : s.closeSlot .badAnswer = s.closeSlot .emptySlot := by
  simp only [State.closeSlot, completeFrame_badAnswer]

/-- The rows that leave the receiver as it is: an empty slot and a bad check (R2, R7, R147). -/
theorem exec_failed_slot {s t : State} {f : Frame} {subject : Subject} {final : Bool} (h : awaiting s f subject final)
    (ht : s.closeSlot .emptySlot = t) :
    ∀ c ∈ [Instr.emptySlot, .badCheck, .badAnswer .badCheck], exec c s = .next t := by
  subst ht
  simp only [List.forall_mem_cons, exec, execEmptySlot, execBadCheck, execBadAnswer, slot_of_awaiting h,
    powered_of_high h.1, closeSlot_badAnswer, List.not_mem_nil, IsEmpty.forall_iff, implies_true, and_self]

/-- The rows of the other bad answers, which leave the receiver unsynchronised (R2, R147). -/
theorem exec_faulty_slot {s t : State} {f : Frame} {subject : Subject} {final : Bool} (h : awaiting s f subject final)
    (ht : s.closeSlot .emptySlot = t) :
    ∀ c ∈ [Instr.badCharacter, .truncatedFrame, .malformedFrame, .badAnswer .truncated, .badAnswer .malformed,
      .badAnswer .badCharacter], exec c s = .next { t with receiver := .unsynchronised } := by
  subst ht
  simp only [List.forall_mem_cons, exec, execBadCharacter, execTruncatedFrame, execMalformedFrame, execBadAnswer,
    slot_of_awaiting h, powered_of_high h.1, lineFault_of_awaiting h, closeSlot_badAnswer, State.unsynchronise,
    List.not_mem_nil, IsEmpty.forall_iff, implies_true, and_self]

/-- Settles O40: the empty slot below the third strike, and then the rows by what they leave of the receiver. -/
theorem failedDeliveriesCountStrikes : Obligations.FailedDeliveriesCountStrikes := by
  unfold Obligations.FailedDeliveriesCountStrikes
  intro s f subject final hslot hr hkept hfew t
  have hs := subject_of_awaiting hslot
  have hdone : s.completeFrame f final .emptySlot =
      withStrike (afterFailedDelivery { s with frame := none } f.subject) f.dest :=
    completeFrame_failed (hs ▸ hr) (by simp) hkept (fun _ => hfew)
  have ht : s.closeSlot .emptySlot = t := by rw [closeSlot_of_awaiting hslot, hdone, hs]
  have hplain := exec_failed_slot hslot ht
  have hfault := exec_faulty_slot hslot ht
  refine ⟨hplain _ (by simp), hplain _ (by simp), hplain _ (by simp), hfault _ (by simp), hfault _ (by simp),
    hfault _ (by simp), fun kind hkind => hfault _ ?_⟩
  cases kind with
  | badCheck => exact absurd rfl hkind
  | _ => simp

/-! ### The third strike (R36, R37, R40) -/

/-- A station that the registry removes at its third strike: the purge, the entry FREE, and STATION LOST (R36). -/
def afterRemoval (s : State) (a : Byte) : State := (s.removeStation a).raise .stationLost (.station a)

theorem report_third_strike {s : State} {a : Byte} {st : Station} (hst : s.station a = some st) (h2 : 2 ≤ st.strikes) :
    s.report a .emptySlot = afterRemoval s a := by
  have hlimit : ¬ st.strikes + 1 < Config.strikeLimit := Nat.not_lt.2 (Nat.succ_le_succ h2)
  simp only [State.report, hst, hlimit, if_false, afterRemoval]

theorem station_afterFailedDelivery (s : State) (subject : Subject) (a : Byte) :
    (afterFailedDelivery s subject).station a = s.station a := by
  simp only [State.station, failed_stations]

/-- The role of a current OFFER is left VACANT by the failed attempt of its frame (R103, R117). -/
abbrev leavesVacant (s : State) (h : Handle) (number : Byte) : Prop :=
  (s.currentOffer h number).isSome = true ∧
    (afterFailedDelivery { s with frame := none } (.offer h number)).isVacant h.index.toNat = true

/-- At the third strike VACANCY's last subject is looked at again only where the failed OFFER itself left its role VACANT (R164). -/
theorem completeFrame_third_strike {s : State} {f : Frame} {st : Station} (final : Bool) (hr : f.subject ≠ .restart)
    (hkept : f.purgedTarget = false) (hst : s.station f.dest = some st) (h2 : 2 ≤ st.strikes)
    (hno : ∀ h number, f.subject = .offer h number → ¬ leavesVacant s h number) :
    s.completeFrame f final .emptySlot =
      afterRemoval (afterFailedDelivery { s with frame := none } f.subject) f.dest := by
  have hempty : ∀ x, FrameOutcome.emptySlot ≠ .valid x := by simp
  have hreport := report_third_strike
    ((station_afterFailedDelivery { s with frame := none } f.subject f.dest).trans hst) h2
  cases hs : f.subject with
  | restart => exact absurd hs hr
  | offer h number =>
    rw [hs] at hreport
    have hnone := mt Bool.and_eq_true_iff.1 (hno h number hs)
    simp only [State.completeFrame, hs, hkept, Bool.false_eq_true, if_false, offerOutcome_eq_failed _ _ _ hempty,
      currentOffer_without_frame, hnone, hreport]
  | watch n watcher h =>
    rw [hs] at hreport
    simp only [State.completeFrame, hs, hkept, Bool.false_eq_true, if_false, noticeOutcome_eq_failed _ _ _ _ _ hempty,
      hreport]

theorem completeFrame_third_strike_vacant {s : State} {f : Frame} {h : Handle} {number : Byte} {st : Station}
    (final : Bool) (hs : f.subject = .offer h number) (hkept : f.purgedTarget = false)
    (hst : s.station f.dest = some st) (h2 : 2 ≤ st.strikes) (hvacant : leavesVacant s h number) :
    s.completeFrame f final .emptySlot =
      (afterRemoval (afterFailedDelivery { s with frame := none } (.offer h number)) f.dest).vacancyAtLeast h := by
  have hempty : ∀ x, FrameOutcome.emptySlot ≠ .valid x := by simp
  have hreport := report_third_strike
    ((station_afterFailedDelivery { s with frame := none } (.offer h number) f.dest).trans hst) h2
  obtain ⟨hcurrent, hleft⟩ := hvacant
  simp only [State.completeFrame, hs, hkept, Bool.false_eq_true, if_false, offerOutcome_eq_failed _ _ _ hempty,
    currentOffer_without_frame, hcurrent, hleft, Bool.and_self, if_true, hreport]

/-- The VACANCY record after such a third strike: one raise for the role of the OFFER and one for each that the purge left VACANT (R164). -/
theorem vacancyAtLeast_afterRemoval {s : State} {h : Handle} {number : Byte} (a : Byte)
    (hvacant : leavesVacant s h number) :
    let failed := afterFailedDelivery { s with frame := none } (.offer h number)
    let v := afterRemoval failed a
    v.vacancyAtLeast h = { v with attention := { v.attention with
      vacancy := raisedForRoles s s.attention.vacancy (vacatedByStrike failed a h) } } := by
  intro failed v
  obtain ⟨hcurrent, hleft⟩ := hvacant
  obtain ⟨⟨r, o⟩, hc⟩ := Option.isSome_iff_exists.1 hcurrent
  obtain ⟨hnamed, -⟩ := (currentOffer_eq_some_iff s h number r o).1 hc
  obtain ⟨hattention, hhandles⟩ := attention_failed (s := { s with frame := none }) hc hleft
  exact strike_vacancy (s := { s with frame := none }) (roleAt_lt (roleAt_of_named hnamed))
    (handleAt_of_named hnamed) hattention hhandles hleft (purge_purged failed a) none

/-- Settles O41: the purge is R39 whole, and the two clauses on VACANCY are the two forms of the completion. -/
theorem thirdStrikeRemovesTheStation : Obligations.ThirdStrikeRemovesTheStation := by
  unfold Obligations.ThirdStrikeRemovesTheStation
  intro s f subject final st hslot hr hkept hst h2
  obtain rfl := subject_of_awaiting hslot
  refine ⟨_, purge_purged _ f.dest, _, rfl, (s.completeFrame f final .emptySlot).settle s,
    exec_failed_slot hslot (closeSlot_of_awaiting hslot _), exec_faulty_slot hslot (closeSlot_of_awaiting hslot _),
    fun hno => ?_, fun h number hs hcurrent hleft => ?_⟩
  · have hno' : ∀ h number, f.subject = .offer h number → ¬ leavesVacant s h number := by
      rintro h number hs ⟨hcurrent, hleft⟩
      have hkeeps := hno h number hs hcurrent
      rw [hs] at hkeeps
      exact Bool.eq_false_iff.1 hkeeps hleft
    rw [completeFrame_third_strike final hr hkept hst h2 hno']
    rfl
  · rw [hs] at hleft ⊢
    have hvacant : leavesVacant s h number := ⟨hcurrent, hleft⟩
    rw [completeFrame_third_strike_vacant final hs hkept hst h2 hvacant, vacancyAtLeast_afterRemoval f.dest hvacant]
    rfl

end Sys2Proof.Machine
end

section
/-! PROOFS. START (O47): the restart as one event, after which the link selects RESTART and no other subject is left to select. -/

namespace Sys2Proof.Machine

open Sys2Proof.Safety

/-! ### The restart of the tables (R19) -/

theorem mapRows_const {α : Type} {n : Nat} (a : α) (v : Vector α n) : mapRows (fun _ => a) v = Vector.replicate n a :=
  Vector.ext fun i hi => by simp [mapRows]

/-- A live entry after the restart is that of its role; a FREE one stays FREE. -/
theorem restarted_role (e : Entry) : e.restarted.role = e.role.bind roleAfterRestart := rfl

theorem roleAt_restart (s : State) (e : Byte) (i : Nat) :
    (s.restart e).roleAt i = (s.roleAt i).bind roleAfterRestart := by
  cases hrow : s.roles[i]? with
  | none => simp only [State.roleAt, State.restart, mapRows_getElem?, hrow, Option.map_none, Option.bind_none]
  | some x =>
    simp only [State.roleAt, State.restart, mapRows_getElem?, hrow, Option.map_some, Option.bind_some, restarted_role]

theorem incarnationAt_restart (s : State) (e : Byte) (i : Nat) :
    incarnationAt (s.restart e) i = incarnationAt s i := by
  simp only [incarnationAt, State.restart, mapRows_getElem?, Option.map_map]
  rfl

/-- RESTART is the one candidate of a session that has not announced itself (R140, R141). -/
theorem select_restart {s : State} (hf : s.frame = none) (hport : portOpen s) (hl : s.link = .announcing)
    (ha : s.announced = false) : s.select = { s with frame := some (newFrame .restart Config.broadcast) } := by
  obtain ⟨hreset, hclear⟩ := hport
  simp only [State.select, hf, hclear, hreset, hl, ha, Option.isSome_none, Bool.or_self, Bool.false_eq_true, if_false]

/-- The state that START makes at the new epoch `e`, short of the pins that follow it and the response: the tables restarted and RESTART selected (R18, R19, R141). -/
def started (s : State) (e : Byte) : State :=
  { s with
    epoch := e, announced := false, link := .announcing, clock := .stopped, answer := .idle,
    stations := Vector.replicate _ none, watches := Vector.replicate _ none, roles := (s.restart e).roles,
    frame := some (newFrame .restart Config.broadcast) }

theorem restart_settle {s : State} (hport : portOpen s) (e : Byte) : (s.restart e).settle s = (started s e).drive := by
  have hselect : (s.restart e).select = { s.restart e with frame := some (newFrame .restart Config.broadcast) } :=
    select_restart rfl hport rfl rfl
  rw [State.settle, withdrawStale_of_no_frame rfl, hselect]
  simp only [State.restart, mapRows_const, started]

/-! ### START at the port (R18, R159) -/

theorem startAction_refused (s : State) : startAction (some s.epoch) s = (s, .notPermitted, []) :=
  if_pos rfl

theorem startAction_taken {s : State} {operand : Option Byte} (hport : portOpen s) (hnew : operand ≠ some s.epoch) :
    startAction operand s =
      ((started s (operand.getD (nextEpoch s.epoch))).drive, .ok, [operand.getD (nextEpoch s.epoch)]) := by
  rw [← restart_settle hport]
  exact if_neg hnew

theorem epochOperand_single {e : Byte} (he : e ≠ 0) : epochOperand [e] = some (some e) :=
  if_neg he

/-- The row START by what its action answers. -/
theorem exec_start {s t : State} {ops data : List Byte} {operand : Option Byte} {status : HostStatus}
    (hport : portOpen s) (hlen : Command.lenLegal .start ops.length = true) (hread : epochOperand ops = some operand)
    (hact : startAction operand s = (t, status, data)) (seq : Byte) :
    exec (.start seq ops) s = .next (t.respond status seq data) := by
  rw [exec, execStart, command_of_action hport hlen hread hact]

/-- A START that is taken sets the next epoch without an operand, and the operand's where it is another than the present one (R18). -/
theorem exec_start_taken {s : State} {ops : List Byte} {e : Byte} (hport : portOpen s)
    (h : ops = [] ∧ e = nextEpoch s.epoch ∨ ops = [e] ∧ e ≠ 0 ∧ e ≠ s.epoch) (seq : Byte) :
    exec (.start seq ops) s = .next ((started s e).drive.respond .ok seq [e]) := by
  rcases h with ⟨rfl, rfl⟩ | ⟨rfl, hzero, hother⟩
  · exact exec_start hport rfl rfl (startAction_taken (operand := none) hport (by simp)) seq
  · exact exec_start hport rfl (epochOperand_single hzero)
      (startAction_taken (operand := some e) hport (by simpa using hother)) seq

/-- Settles O47: the refusal by the operand alone, and otherwise one state for both forms of the operand. -/
theorem startRestartsTheTables : Obligations.StartRestartsTheTables := by
  unfold Obligations.StartRestartsTheTables
  intro s seq hport
  refine ⟨fun hzero => ?_, fun ops e h => ?_⟩
  · exact exec_start hport rfl (epochOperand_single hzero) (startAction_refused s) seq
  · exact ⟨_, exec_start_taken hport h seq, rfl, rfl, pinsLawful_drive (started s e), roleAt_restart s e,
      incarnationAt_restart s e⟩

end Sys2Proof.Machine
end

section
/-! PROOFS. DEFINE ROLE (O49): the four outcomes of R160 by what the role table holds of the tag, and the entry of a creation that no
grant follows. -/

namespace Sys2Proof.Machine

open Sys2Proof.Safety

/-- The row DEFINE ROLE by what its action answers. -/
theorem exec_defineRole {s u : State} {t : Tag} {term : Nat} {status : HostStatus} {data : List Byte}
    (hport : portOpen s) (hlegal : t.legal = true) (h1 : 1 ≤ term) (h2 : term ≤ 4095)
    (hact : defineAction (t, term) s = (u, status, data)) (seq : Byte) :
    exec (.defineRole seq (tagBytes t ++ termBytes term)) s = .next (u.respond status seq data) := by
  have hlen : Command.lenLegal .defineRole (tagBytes t ++ termBytes term).length = true := by
    rw [List.length_append, tagBytes_length hlegal]
    rfl
  rw [exec, execDefineRole, command_of_action hport hlen (defineOperands_fields hlegal h1 h2) hact]

/-! ### A tag that a live role carries (R45, R79) -/

theorem defineAction_exists {s : State} {i : Nat} {t : Tag} {r : Role} (hc : carries s i t r) (hk : r.kind = .pinned)
    (term : Nat) : defineAction (t, term) s = (s, .alreadyExists, (s.handleAt i).bytes) := by
  simp only [defineAction, roleOfTag_some hc, hc.1, Option.elim, hk]

/-- A TRANSIENT role as DEFINE ROLE converts it: PINNED at the new term, to which a longer lease is clamped (R45, R79). -/
def pinnedAt (term : Nat) (r : Role) : Role :=
  { r with
    kind := .pinned, term := term,
    tenure := match r.tenure with
      | .held a lease attr => .held a (if term < lease then term else lease) attr
      | other => other }

/-- The clamp of R79 as a comparison of the lease with the new term. -/
theorem min_eq_clamp (lease term : Nat) : min lease term = if term < lease then term else lease :=
  (min_comm lease term).trans (min_def_lt term lease)

theorem withTerm_pinned (r : Role) (term : Nat) : { r.withTerm term with kind := .pinned } = pinnedAt term r := by
  cases ht : r.tenure with
  | vacant => simp only [Role.withTerm, pinnedAt, ht]
  | held a lease attr => simp only [Role.withTerm, pinnedAt, ht, min_eq_clamp]
  | offered o => simp only [Role.withTerm, pinnedAt, ht]

theorem defineAction_converts {s : State} {i : Nat} {t : Tag} {r : Role} (hc : carries s i t r)
    (hk : r.kind = .transient) (term : Nat) :
    defineAction (t, term) s = (s.putRole i (pinnedAt term r), .ok, (s.handleAt i).bytes) := by
  simp only [defineAction, roleOfTag_some hc, hc.1, Option.elim, hk, withTerm_pinned]

/-! ### A tag that no live role carries (R55, R160) -/

/-- The entry of a creation alone: VACANT at generation 0 in the entry's next life (R49, R55). -/
theorem create_eq {s : State} {i : Nat} {n : Byte} (hn : incarnationAt s i = some n) (t : Tag) (kind : Kind) (term : Nat) :
    s.create i t kind term =
      { s with roles := s.roles.setIfInBounds i ⟨nextIncarnation n, some ⟨t, kind, .vacant, term, 0, 0, []⟩⟩ } := by
  obtain ⟨e, he, rfl⟩ := row_of_incarnationAt hn
  rw [State.create, modifyRow_of_row he]

theorem defineAction_creates {s : State} {i : Nat} {n : Byte} {t : Tag} (hu : uncarried s t)
    (hfree : s.freeIndex = some i) (hn : incarnationAt s i = some n) (term : Nat) :
    defineAction (t, term) s =
      ({ s with roles := s.roles.setIfInBounds i ⟨nextIncarnation n, some ⟨t, .pinned, .vacant, term, 0, 0, []⟩⟩ },
        .ok, Handle.bytes ⟨byteOf i, nextIncarnation n⟩) := by
  simp only [defineAction, roleOfTag_none hu, hfree]
  rw [handleAt_create hn, create_eq hn]

theorem defineAction_full {s : State} {t : Tag} (hu : uncarried s t) (hfull : s.freeIndex = none) (term : Nat) :
    defineAction (t, term) s = ((s.raise .capacity (.refusal .tableFull 0)).drive, .tableFull, []) := by
  simp only [defineAction, roleOfTag_none hu, hfull]

/-- Settles O49: each test of R160 by its lemma about the action. -/
theorem defineRolePinsTheTag : Obligations.DefineRolePinsTheTag := by
  unfold Obligations.DefineRolePinsTheTag
  intro s seq t term hport hlegal h1 h2
  refine ⟨fun i r hc => ⟨fun hk => ?_, fun hk => ?_⟩, fun hu => ⟨fun i n hfree hn hlow => ?_, fun hlive => ?_⟩⟩
  · exact exec_defineRole hport hlegal h1 h2 (defineAction_exists hc hk term) seq
  · exact exec_defineRole hport hlegal h1 h2 (defineAction_converts hc hk term) seq
  · exact exec_defineRole hport hlegal h1 h2 (defineAction_creates hu (freeIndex_some hfree hn hlow) hn term) seq
  · exact exec_defineRole hport hlegal h1 h2 (defineAction_full hu (freeIndex_none hlive) term) seq

end Sys2Proof.Machine
end

section
/-! PROOFS. The bodies of station requests (O12): what each reader takes, as an equivalence with the layouts of R169. -/

namespace Sys2Proof.Machine

open Sys2Proof.Safety

/-! ### Readers of bodies (R14, R169) -/

theorem isRoleIndex_iff (i : Byte) : isRoleIndex i = true ↔ i.toNat ≤ 95 := by
  simp only [isRoleIndex, Config.roleCount, decide_eq_true_eq]
  omega

theorem serialBody_eq_some_iff (body : List Byte) (w : Serial) :
    serialBody body = some w ↔ w ≠ 0 ∧ body = serialBytes w := by
  constructor
  · intro h
    unfold serialBody at h
    split at h
    · split at h
      · cases h
      · rename_i a b c d hw
        cases h
        exact ⟨hw, (serialBytes_serialOf a b c d).symm⟩
    · cases h
  · rintro ⟨hw, rfl⟩
    exact serialBody_bytes hw

theorem tagOf_eq_some_iff (body : List Byte) (t : Tag) : tagOf body = some t ↔ t.legal = true ∧ body = tagBytes t := by
  constructor
  · exact tagBytes_of_tagOf
  · rintro ⟨ht, rfl⟩
    exact tagOf_tagBytes ht

theorem handleBody_eq_some_iff (body : List Byte) (h : Handle) :
    handleBody body = some h ↔ h.index.toNat ≤ 95 ∧ body = [h.index, h.incarnation] := by
  constructor
  · intro hb
    unfold handleBody at hb
    split at hb
    · split at hb
      · rename_i i n hi
        cases hb
        exact ⟨(isRoleIndex_iff i).1 hi, rfl⟩
      · cases hb
    · cases hb
  · rintro ⟨hi, rfl⟩
    exact handleBody_pair _ hi

theorem claimBody_eq_some_iff (body : List Byte) (t : Tag) (n : Nat) :
    claimBody body = some (t, n) ↔
      t.legal = true ∧ 1 ≤ n ∧ n ≤ 7 ∧ ∃ rank : Byte, rank.toNat = n ∧ body = tagBytes t ++ [rank] := by
  constructor
  · intro h
    unfold claimBody at h
    split at h
    · rename_i t' rank ht hr
      split at h
      · rename_i hrank
        cases h
        obtain ⟨hlegal, hfield⟩ := tagBytes_of_tagOf ht
        refine ⟨hlegal, hrank.1, hrank.2, rank, rfl, ?_⟩
        rw [← hfield, ← hr, List.take_append_drop]
      · cases h
    · cases h
  · rintro ⟨ht, h1, h7, rank, rfl, rfl⟩
    exact claimBody_tag ht h1 h7

theorem changeBody_eq_some_iff (body : List Byte) (h : Handle) (g : Half) (attr : List Byte) :
    changeBody body = some (h, g, attr) ↔
      h.index.toNat ≤ 95 ∧ attr.length ≤ 8 ∧ body = [h.index, h.incarnation] ++ halfBytes g ++ attr := by
  constructor
  · intro hb
    unfold changeBody at hb
    split at hb
    · split at hb
      · rename_i i n high low attr' hok
        cases hb
        refine ⟨(isRoleIndex_iff i).1 hok.1, hok.2, ?_⟩
        rw [halfOf_halfBytes]
        rfl
      · cases hb
    · cases hb
  · rintro ⟨hi, ha, rfl⟩
    exact changeBody_fields _ _ hi ha

theorem watchBody_eq_some_iff (body : List Byte) (h : Handle) (n : Nat) :
    watchBody body = some (h, n) ↔
      h.index.toNat ≤ 95 ∧ n ≤ 7 ∧ ∃ rank : Byte, rank.toNat = n ∧ body = [h.index, h.incarnation, rank] := by
  constructor
  · intro hb
    unfold watchBody at hb
    split at hb
    · split at hb
      · rename_i i m rank hok
        cases hb
        exact ⟨(isRoleIndex_iff i).1 hok.1, hok.2, rank, rfl, rfl⟩
      · cases hb
    · cases hb
  · rintro ⟨hi, h7, rank, rfl, rfl⟩
    exact watchBody_fields _ hi h7

/-! ### The bodies that the gate finds legal -/

theorem bodyLegal_handle_iff {r : Request} {body : List Byte} (hr : bodyLegal r body = (handleBody body).isSome) :
    bodyLegal r body = true ↔ ∃ i n : Byte, i.toNat ≤ 95 ∧ body = [i, n] := by
  rw [hr, Option.isSome_iff_exists]
  constructor
  · rintro ⟨h, hb⟩
    exact ⟨_, _, (handleBody_eq_some_iff body h).1 hb⟩
  · rintro ⟨i, n, hi, hb⟩
    exact ⟨⟨i, n⟩, (handleBody_eq_some_iff body ⟨i, n⟩).2 ⟨hi, hb⟩⟩

/-- Settles O12: each request by the equivalence of its reader. -/
theorem legalBodiesAreTheLayouts : Obligations.LegalBodiesAreTheLayouts := by
  unfold Obligations.LegalBodiesAreTheLayouts
  intro body
  refine ⟨?join, ?leave, ?find, ?claim, ?change, ?watch, ?handle⟩
  case join => simp only [bodyLegal, Option.isSome_iff_exists, serialBody_eq_some_iff]
  case leave => simp only [bodyLegal, List.isEmpty_iff]
  case find => simp only [bodyLegal, Option.isSome_iff_exists, tagOf_eq_some_iff]
  case claim =>
    simp only [bodyLegal, Option.isSome_iff_exists, Prod.exists, claimBody_eq_some_iff]
    constructor
    · rintro ⟨t, _, ht, h1, h7, rank, rfl, hb⟩
      exact ⟨t, rank, ht, h1, h7, hb⟩
    · rintro ⟨t, rank, ht, h1, h7, hb⟩
      exact ⟨t, _, ht, h1, h7, rank, rfl, hb⟩
  case change =>
    simp only [bodyLegal, Option.isSome_iff_exists, Prod.exists, changeBody_eq_some_iff]
    constructor
    · rintro ⟨h, g, attr, hb⟩
      exact ⟨_, _, g, attr, hb⟩
    · rintro ⟨i, n, g, attr, hb⟩
      exact ⟨⟨i, n⟩, g, attr, hb⟩
  case watch =>
    simp only [bodyLegal, Option.isSome_iff_exists, Prod.exists, watchBody_eq_some_iff]
    constructor
    · rintro ⟨h, _, hi, h7, rank, rfl, hb⟩
      exact ⟨_, _, rank, hi, h7, hb⟩
    · rintro ⟨i, n, rank, hi, h7, hb⟩
      exact ⟨⟨i, n⟩, _, hi, h7, rank, rfl, hb⟩
  case handle =>
    intro r hr
    simp only [List.mem_cons, List.not_mem_nil, or_false] at hr
    apply bodyLegal_handle_iff
    rcases hr with rfl | rfl | rfl | rfl | rfl | rfl | rfl | rfl <;> rfl

end Sys2Proof.Machine
end

section
/-! PROOFS. What a step can do, said once: `TableDeed` and `Deed` list the single changes that the meanings are made of, each with what
its meaning has tested before it, and `Event` the way in which a whole event puts them together. Every invariant is then one case
split over the deeds. -/

namespace Sys2Proof.Machine

open Sys2Proof.Safety

/-! ### The changes that an event is made of -/

/-- An answer may become due: none is under way, RESET is high, the link has a session, and no frame of the directory's own has begun. -/
def canAnswer (s : State) : Prop :=
  s.answer = .idle ∧ s.pins.resetLow = false ∧ (s.link = .announcing ∨ s.link = .online) ∧
    ∀ f, s.frame = some f → f.phase = .selected

/-- One change of the tables, the attention records or the frame's selection, with what its meaning has found before it. -/
inductive TableDeed (s : State) : State → Prop
  -- the station table
  | clearStrikes (a : Byte) : TableDeed s (s.clearStrikes a)
  | strike {a : Byte} {st : Station} (hst : s.station a = some st) (hfew : st.strikes + 1 < 3) :
      TableDeed s (s.setStation a (some { st with strikes := st.strikes + 1 }))
  | allocate {w : Serial} {a : Byte} (hw : w ≠ 0) (hnew : s.addressOf w = none) (hfree : s.freeAddress = some a) :
      TableDeed s (s.setStation a (some ⟨w, 0⟩))
  | purge (a : Byte) : TableDeed s (s.purge a)
  | depart {a : Byte} (hgone : names s a = false) : TableDeed s (s.setStation a none)
  -- the role table
  | publish {i : Nat} {r : Role} {a : Byte} {lease : Nat} {old attr : List Byte} (hr : s.roleAt i = some r)
      (ht : r.tenure = .held a lease old) (hlen : attr.length ≤ 8) :
      TableDeed s (s.changeRole i { r with tenure := .held a lease attr })
  | restore {i : Nat} {r : Role} (hr : s.roleAt i = some r) : TableDeed s (s.putRole i r.restored)
  | setTerm {i : Nat} {r : Role} {term : Nat} {kind : Kind} (hr : s.roleAt i = some r) (h1 : 1 ≤ term) (h2 : term ≤ 4095)
      (hk : kind = r.kind ∨ kind = .pinned) : TableDeed s (s.putRole i { r.withTerm term with kind := kind })
  | define {i : Nat} {t : Tag} {term : Nat} (hfree : s.freeIndex = some i) (hnew : s.roleOfTag t = none)
      (hlegal : t.legal = true) (h1 : 1 ≤ term) (h2 : term ≤ 4095) : TableDeed s (s.create i t .pinned term)
  | found {i : Nat} {t : Tag} {a : Byte} (hfree : s.freeIndex = some i) (hnew : s.roleOfTag t = none)
      (hlegal : t.legal = true) (hj : joined s a = true) (hl : s.link = .online) :
      TableDeed s ((s.create i t .transient s.config.defaultTerm).grant i a)
  | grant {i : Nat} {r : Role} {a : Byte} (hr : s.roleAt i = some r)
      (ht : r.tenure = .vacant ∨ Safety.offeredTo r a = true) (hj : joined s a = true) (hl : s.link = .online) :
      TableDeed s (s.grant i a)
  | retire {i : Nat} {r : Role} (hr : s.roleAt i = some r) : TableDeed s (s.retire i)
  | loseHolder {i : Nat} {r : Role} (hr : s.roleAt i = some r) (ht : r.tenure ≠ .vacant) : TableDeed s (s.loseHolder i)
  | skip {i : Nat} {r : Role} (hr : s.roleAt i = some r) (ht : r.tenure ≠ .vacant) : TableDeed s (s.skip i)
  | tickRole (i : Nat) : TableDeed s (s.tickRole i)
  | queue {i : Nat} {r : Role} {a : Byte} {rank : Nat} (hr : s.roleAt i = some r) (ht : r.tenure ≠ .vacant)
      (hheld : heldBy r a = false) (hoffered : Safety.offeredTo r a = false) (hplace : positionOf a r.chain = none)
      (hchain : r.chain.length < 6) (hpool : s.claimsInUse < 64) (h1 : 1 ≤ rank) (h7 : rank ≤ 7) (hj : joined s a = true) :
      TableDeed s (s.putRole i { r with chain := insertClaim ⟨a, rank⟩ r.chain })
  | unqueue {i : Nat} {r : Role} (a : Byte) (hr : s.roleAt i = some r) :
      TableDeed s (s.putRole i { r with chain := r.chain.filter (fun c => c.claimant != a) })
  -- the watch table
  | watch {n : Nat} {a : Byte} {h : Handle} {r : Role} {rank : Nat} (hfree : findRow Option.isNone s.watches = some n)
      (hnew : s.watchOf a h = none) (hn : s.named h = some r) (hj : joined s a = true) (h7 : rank ≤ 7) :
      TableDeed s (s.setWatch n (some ⟨a, h, rank, false, 0, none⟩))
  | setRank {n : Nat} {w : Watch} {rank : Nat} (hw : watchAt s n = some w) (h7 : rank ≤ 7) :
      TableDeed s (s.setWatch n (some { w with rank := rank, attempts := 0 }))
  | unwatch (n : Nat) : TableDeed s (s.setWatch n none)
  -- attention, and the frame before its beginning
  | raise (c : Cause) (x : AttentionSubject) : TableDeed s (s.raise c x)
  | vacancyAtLeast (h : Handle) : TableDeed s (s.vacancyAtLeast h)
  | dropFrame : TableDeed s s.dropFrame
  | select : TableDeed s s.select

/-- CONFIGURE's values taken, before it withdraws a notice (R129, R158). -/
def taken (s : State) (c : Configuration) : State :=
  { s with
    config := c
    receiver := if c.rate = s.config.rate then s.receiver else .unsynchronised
    watches := mapRows (fun o => o.filter (fun w =>
      w.final.isNone || (1 ≤ w.rank && c.noticeFloor ≤ w.rank))) s.watches }

theorem configured_eq (s : State) (c : Configuration) :
    s.configured c = (taken s c).withdrawNotice (fun _ => s.config.noticeFloor < c.noticeFloor) := rfl

/-- The state that a DIRECTORY RESET leaves, short of its pins (R24, R156). -/
def directoryReset (s : State) : State :=
  { s.dropFrame with
    answer := .idle
    link := .offline
    clock := .stopped
    announced := false
    receiver := .unsynchronised
    attention := .clear
    clearing := some .directory }

/-- The state that the power-on reset leaves, short of its pins (R155). -/
def poweredOn (s : State) : State :=
  { s.dropFrame with
    link := .offline
    epoch := 0
    announced := false
    receiver := .unsynchronised
    answer := .idle
    clock := .stopped
    config := .powerOn
    enables := 0
    attention := .clear
    response := ⟨.resetNotice, 0, []⟩
    clearing := some .powerOn
    pins := { s.pins with resetLow := false } }

/-- The state with RESET driven low, short of ATTN and TDE (R155). -/
def heldInReset (s : State) : State :=
  { s.dropFrame with answer := .idle, pins := { s.pins with resetLow := true } }

/-- One change of any record, with what its meaning has found before it. -/
inductive Deed (s : State) : State → Prop
  | table {t : State} (h : TableDeed s t) : Deed s t
  -- the receiver, the port and the directory's answers
  | receiver (x : Receiver) : Deed s { s with receiver := x }
  | respond (status : HostStatus) (seq : Byte) {data : List Byte}
      (hlen : rolesLawful s = true → data.length ≤ 96) : Deed s (s.respond status seq data)
  | clearFlags (flags : Byte) : Deed s { s with attention := s.attention.clearFlags flags }
  | enable {flags : Byte} (h : flags &&& 0xC0 = 0) : Deed s { s with enables := flags }
  | answerDue (a : Answer) (h : canAnswer s) : Deed s { s with answer := .due a }
  | answerBegins {a : Answer} (h : s.answer = .due a) : Deed s { s with answer := .sending a }
  | answerEnds : Deed s { s with answer := .idle }
  -- the link and the resets
  | silence (hl : s.link = .announcing ∨ s.link = .online) (ha : s.answer = .idle) :
      Deed s { s.dropFrame with link := .silent, clock := .frozen }
  | configure {c : Configuration} (hc : configSound c = true) : Deed s (taken s c)
  | restart {e : Byte} (he : e ≠ 0) (hp : portOpen s) : Deed s (s.restart e)
  | stop (hp : portOpen s) : Deed s (stopped s)
  | resume (hl : s.link = .silent) (ha : s.announced = true) (period : Nat) :
      Deed s { s with link := .online, clock := .running period }
  | reannounce (hl : s.link = .silent) (ha : s.announced = false) : Deed s { s with link := .announcing, clock := .stopped }
  | directoryReset : Deed s (directoryReset s)
  | powerOn : Deed s (poweredOn s)
  | resetLow : Deed s (heldInReset s)
  | clearTables {kind : ResetKind} (hc : s.clearing = some kind) : Deed s (s.cleared kind)
  -- the directory's own frames
  | beginFrame {f : Frame} (hf : s.frame = some f) (ha : s.answer = .idle) : Deed s (s.beginFrame f)
  | backOff {f : Frame} (hf : s.frame = some f) :
      Deed s { s with frame := some { f with phase := .selected, collisions := min (f.collisions + 1) 8 } }
  | await {f : Frame} {formed : TrunkFrame} {final : Bool} (hf : s.frame = some f) (hp : f.phase = .onLine formed final) :
      Deed s { s with frame := some { f with phase := .awaitingAnswer formed final } }
  | announce {f : Frame} (hf : s.frame = some f) (hs : f.subject = .restart) (period : Nat) :
      Deed s { s with frame := none, announced := true, link := .online, clock := .running period }
  | completeOffer {f : Frame} {h : Handle} {number : Byte} (hf : s.frame = some f) (hs : f.subject = .offer h number)
      (hp : f.purgedTarget = false) (outcome : FrameOutcome) :
      Deed s (({ s with frame := none } : State).offerOutcome h number outcome)
  | completeNotice {f : Frame} {n : Nat} {watcher : Byte} {h : Handle} (hf : s.frame = some f)
      (hs : f.subject = .watch n watcher h) (final : Bool) (outcome : FrameOutcome) :
      Deed s (({ s with frame := none } : State).noticeOutcome n watcher h final outcome)
  | completeOther {f : Frame} (hf : s.frame = some f) (h : f.purgedTarget = true ∨ f.subject = .restart) :
      Deed s { s with frame := none }

/-! ### How an event puts them together -/

/-- The pins, and the levels that the state asks of them, are the same. -/
def SamePins (s t : State) : Prop := t.pins = s.pins ∧ t.drive.pins = s.drive.pins

/-- An event by deeds of `D`: runs of deeds after which the pins follow, and single deeds that leave the pins and what they follow alone. -/
inductive Event (D : State → State → Prop) (s : State) : State → Prop
  | start : Event D s s
  | driven {u v : State} (h : Event D s u) (d : Relation.ReflTransGen D u v) : Event D s v.drive
  | plain {u v : State} (h : Event D s u) (d : D u v) (hp : SamePins u v) : Event D s v

section
variable {D D' : State → State → Prop} {s t u v : State}

theorem Event.trans (h : Event D s t) (h' : Event D t u) : Event D s u := by
  induction h' with
  | start => exact h
  | driven _ d ih => exact ih.driven d
  | plain _ d hp ih => exact ih.plain d hp

theorem Event.mono (h : Event D s t) (hD : ∀ u v, D u v → D' u v) : Event D' s t := by
  induction h with
  | start => exact .start
  | driven _ d ih => exact ih.driven (Relation.ReflTransGen.mono hD _ _ d)
  | plain _ d hp ih => exact ih.plain (hD _ _ d) hp

theorem Event.of_driven (d : Relation.ReflTransGen D s t) : Event D s t.drive := .driven .start d

theorem Event.of_plain (d : D s t) (hp : SamePins s t) : Event D s t := .plain .start d hp

/-- What every deed keeps, and what the pins do not bear on, every event keeps. -/
theorem Event.keeps {P : State → Prop} (hdeed : ∀ u v, D u v → P u → P v) (hdrive : ∀ u, P u → P u.drive)
    (h : Event D s t) (hs : P s) : P t := by
  induction h with
  | start => exact hs
  | driven _ d ih =>
    apply hdrive
    induction d with
    | refl => exact ih
    | tail _ d ihd => exact hdeed _ _ d ihd
  | plain _ d _ ih => exact hdeed _ _ d ih

/-- A frame that is withdrawn is dropped; the rest of a withdrawal's test changes nothing (R130, R144). -/
theorem withdrawStale_deeds (s before : State) : Relation.ReflTransGen TableDeed s (s.withdrawStale before) := by
  unfold State.withdrawStale
  split
  · split
    · exact .single .dropFrame
    · exact .refl
  · exact .refl

theorem withdrawNotice_deeds (s : State) (concerned : Nat → Bool) :
    Relation.ReflTransGen TableDeed s (s.withdrawNotice concerned) := by
  unfold State.withdrawNotice
  split
  · split
    · split
      · exact .single .dropFrame
      · exact .refl
    · exact .refl
  · exact .refl

/-- The end of an event is a run of deeds after which the pins follow. -/
theorem settle_event (d : Relation.ReflTransGen TableDeed s t) (before : State) : Event TableDeed s (t.settle before) :=
  .of_driven ((d.trans (withdrawStale_deeds t before)).tail .select)

theorem settle_deedEvent (d : Relation.ReflTransGen Deed s t) (before : State) : Event Deed s (t.settle before) :=
  .of_driven ((d.trans (Relation.ReflTransGen.mono (fun _ _ => .table) _ _ (withdrawStale_deeds t before))).tail (.table .select))

end

end Sys2Proof.Machine
end

section
/-! PROOFS. Every command is an event of deeds: the reach of a table's deed, what the gate and the port have found when a request or a
command reaches its own tests, and then one lemma for each owning block, each action and each event of the line. -/

namespace Sys2Proof.Machine

open Sys2Proof.Safety

/-! ### The reach of a table's deed -/

/-- `t` differs from `s` in the tables, the attention records and the frame record at most. -/
abbrev ReachesParts (s t : State) : Prop :=
  t = { s with stations := t.stations, roles := t.roles, watches := t.watches, attention := t.attention, frame := t.frame }

theorem ReachesRoles.parts {s t : State} (h : ReachesRoles s t) : ReachesParts s t := by
  cases s; cases t
  simp only [ReachesRoles, ReachesParts, State.mk.injEq, true_and] at h ⊢
  simp only [h, and_self]

theorem ReachesTables.parts {s t : State} (h : ReachesTables s t) : ReachesParts s t := by
  cases s; cases t
  simp only [ReachesTables, ReachesParts, State.mk.injEq, true_and] at h ⊢
  simp only [h, and_self]

theorem setStation_parts (s : State) (a : Byte) (e : Option Station) : ReachesParts s (s.setStation a e) := by
  unfold ReachesParts
  rw [setStation_only]

theorem grant_reaches (s : State) (i : Nat) (a : Byte) : ReachesRoles s (s.grant i a) :=
  onRole_reaches fun _ _ => rfl

theorem retire_reaches (s : State) (i : Nat) : ReachesRoles s (s.retire i) :=
  onRole_reaches fun _ _ => rfl

theorem select_resetLow (s : State) : s.select.pins = s.pins := by
  unfold State.select
  split
  · rfl
  · split
    · split <;> rfl
    · split
      · rw [selectOffer_reaches]
      · split <;> rfl
    · rfl

theorem select_parts (s : State) : ReachesParts s s.select := by
  have h := select_reaches s
  have hp := select_resetLow s
  generalize s.select = t at h hp
  cases s; cases t
  simp only [ReachesFrame, ReachesParts, State.mk.injEq, true_and] at h hp ⊢
  simp only [h, hp, and_self]

theorem TableDeed.reaches {s t : State} (h : TableDeed s t) : ReachesParts s t := by
  cases h with
  | clearStrikes a => unfold ReachesParts; rw [clearStrikes_only]
  | strike => exact setStation_parts _ _ _
  | allocate => exact setStation_parts _ _ _
  | depart => exact setStation_parts _ _ _
  | purge a => exact (purge_reaches s a).parts
  | found => exact (ReachesRoles.trans rfl (grant_reaches _ _ _)).parts
  | grant => exact (grant_reaches _ _ _).parts
  | retire => exact (retire_reaches _ _).parts
  | loseHolder => exact (loseHolder_reaches _ _).parts
  | skip => exact (skip_reaches _ _).parts
  | tickRole => exact (tickRole_reaches _ _).parts
  | vacancyAtLeast => exact (vacancyAtLeast_reaches _ _).parts
  | dropFrame => unfold ReachesParts; rw [dropFrame_reaches]
  | select => exact select_parts s
  | _ => rfl

/-! ### The frame under a table's deed -/

theorem ReachesRoles.frame {s t : State} (h : ReachesRoles s t) : t.frame = s.frame := by rw [h]

theorem clearStrikes_frame (s : State) (a : Byte) : (s.clearStrikes a).frame = s.frame := by rw [clearStrikes_only]

theorem setStation_frame (s : State) (a : Byte) (e : Option Station) : (s.setStation a e).frame = s.frame := by
  rw [setStation_only]

theorem purge_frame (s : State) (a : Byte) : (s.purge a).frame = s.frame.bind (frameAfterPurge a) :=
  (purge_purged s a).2.2.2.2.1

/-- What a purge leaves in the frame record is the frame, with its target marked at most (R41). -/
theorem frameAfterPurge_some {a : Byte} {f f' : Frame} (h : frameAfterPurge a f = some f') :
    f' = f ∨ f' = { f with purgedTarget := true } := by
  unfold frameAfterPurge at h
  split at h
  · split at h
    · cases h
    · cases h; exact .inr rfl
  · cases h; exact .inl rfl

/-- A selection fills an empty frame record with a new frame, or does nothing (R139, R141). -/
theorem select_frame (s : State) :
    s.select.frame = s.frame ∨ s.frame = none ∧ ∃ subject dest, s.select.frame = some (newFrame subject dest) := by
  unfold State.select
  split
  · exact .inl rfl
  · rename_i hclear
    have hf : s.frame = none := by
      cases hs : s.frame with
      | none => rfl
      | some f => simp [hs] at hclear
    split
    · split
      · exact .inl rfl
      · exact .inr ⟨hf, _, _, rfl⟩
    · split
      · unfold State.selectOffer State.onRole
        split
        · dsimp only
          split
          · exact .inr ⟨hf, _, _, rfl⟩
          · exact .inl rfl
        · exact .inl rfl
      · split
        · exact .inr ⟨hf, _, _, rfl⟩
        · exact .inl rfl
    · exact .inl rfl

/-- A table's deed leaves the frame in its phase, marks its target, withdraws it, or selects a new one. -/
theorem TableDeed.frame_cases {s t : State} (h : TableDeed s t) {f' : Frame} (hf : t.frame = some f') :
    (∃ f, s.frame = some f ∧ (f' = f ∨ f' = { f with purgedTarget := true }))
      ∨ t = s.select ∧ s.frame = none ∧ ∃ subject dest, f' = newFrame subject dest := by
  have hsame : t.frame = s.frame → (∃ f, s.frame = some f ∧ (f' = f ∨ f' = { f with purgedTarget := true }))
      ∨ t = s.select ∧ s.frame = none ∧ ∃ subject dest, f' = newFrame subject dest := fun he => .inl ⟨f', he ▸ hf, .inl rfl⟩
  cases h with
  | clearStrikes a => exact hsame (clearStrikes_frame s a)
  | strike => exact hsame (setStation_frame _ _ _)
  | allocate => exact hsame (setStation_frame _ _ _)
  | depart => exact hsame (setStation_frame _ _ _)
  | purge a =>
    rw [purge_frame] at hf
    obtain ⟨f, hs, hp⟩ := Option.bind_eq_some_iff.1 hf
    exact .inl ⟨f, hs, frameAfterPurge_some hp⟩
  | found => exact hsame (ReachesRoles.trans rfl (grant_reaches _ _ _)).frame
  | grant => exact hsame (grant_reaches _ _ _).frame
  | retire => exact hsame (retire_reaches _ _).frame
  | loseHolder => exact hsame (loseHolder_reaches _ _).frame
  | skip => exact hsame (skip_reaches _ _).frame
  | tickRole => exact hsame (tickRole_reaches _ _).frame
  | vacancyAtLeast => exact hsame (vacancyAtLeast_reaches _ _).frame
  | dropFrame => rw [dropFrame_frame] at hf; cases hf
  | select =>
    rcases select_frame s with he | ⟨hn, subject, dest, he⟩
    · exact hsame he
    · rw [he] at hf
      cases hf
      exact .inr ⟨rfl, hn, subject, dest, rfl⟩
  | _ => exact hsame rfl

theorem canAnswer_drive {s : State} (h : canAnswer s) : canAnswer s.drive := h

theorem TableDeed.keeps_canAnswer {s t : State} (h : TableDeed s t) (hs : canAnswer s) : canAnswer t := by
  obtain ⟨ha, hp, hl, hf⟩ := hs
  have hr := h.reaches
  refine ⟨by rw [hr]; exact ha, by rw [hr]; exact hp, by rw [hr]; exact hl, fun f' hf' => ?_⟩
  rcases h.frame_cases hf' with ⟨f, hsf, rfl | rfl⟩ | ⟨-, -, subject, dest, rfl⟩
  · exact hf _ hsf
  · exact hf f hsf
  · rfl

/-! ### What the pins follow -/

theorem samePins_of {s t : State} (hp : t.pins = s.pins) (ha : t.attention = s.attention) (he : t.enables = s.enables)
    (hd : t.drivesLine = s.drivesLine) : SamePins s t := by
  refine ⟨hp, ?_⟩
  simp only [State.drive, hp, ha, he, hd]

theorem samePins_clearStrikes (s : State) (a : Byte) : SamePins s (s.clearStrikes a) := by
  rw [clearStrikes_only]
  exact ⟨rfl, rfl⟩

theorem samePins_setStation (s : State) (a : Byte) (e : Option Station) : SamePins s (s.setStation a e) := by
  rw [setStation_only]
  exact ⟨rfl, rfl⟩

theorem samePins_answerDue {s : State} (h : s.answer = .idle) (a : Answer) : SamePins s { s with answer := .due a } :=
  samePins_of rfl rfl rfl (by simp only [State.drivesLine, h])

/-! ### Requests: the gate (R12) and the rows -/

/-- What the gate has found when a request reaches its owning block (R12). -/
def Passed (isJoin : Bool) (src : Byte) (s : State) : Prop :=
  canAnswer s ∧ s.link = .online ∧ (isJoin = false → joined s src = true)

theorem gate_passed {α : Type} {s : State} {isJoin : Bool} {fields : Option α} {src epoch : Byte} {x : α}
    (h : s.gate isJoin fields src epoch = .passed x) :
    fields = some x ∧ s.link = .online ∧ (isJoin = false → joined s src = true) := by
  unfold State.gate at h
  cases fields with
  | none => dsimp only at h; split_ifs at h
  | some y =>
    dsimp only at h
    split_ifs at h with hoff hsrc hann hjoin hepoch hstation
    all_goals cases h
    · refine ⟨rfl, ?_, fun hj => absurd hjoin (by simp [hj])⟩
      cases hl : s.link <;> simp_all
    · refine ⟨rfl, ?_, fun _ => Option.isSome_iff_ne_none.2 hstation⟩
      cases hl : s.link <;> simp_all

theorem gate_refused {α : Type} {s : State} {isJoin : Bool} {fields : Option α} {src epoch : Byte} {a : Answer}
    (h : s.gate isJoin fields src epoch = .refused a) : s.link = .announcing ∨ s.link = .online := by
  by_cases hoff : s.link = .offline ∨ s.link = .silent
  · simp only [State.gate, hoff, if_true] at h
    cases h
  · cases hl : s.link <;> simp_all

theorem hearForeign_event {s : State} (ha : s.answer = .idle) (dest : Byte) : Event Deed s (s.hearForeign dest) := by
  unfold State.hearForeign
  split
  · rename_i h
    exact settle_deedEvent ((Relation.ReflTransGen.single (.silence h.2 ha)).tail (.table (.raise _ _))) s
  · exact .start

/-- A request is an event, where its owning block makes one of what its body spells. -/
theorem request_event {α : Type} {isJoin : Bool} {read : List Byte → Option α} {owner : Owner α} {body : List Byte} {src : Byte}
    (hown : ∀ x u, read body = some x → Passed isJoin src u → Event TableDeed u (owner x src u).1) (s : State) (epoch : Byte) :
    Event Deed s (s.request isJoin read owner src epoch body) := by
  unfold State.request
  split
  · exact .start
  · rename_i hheard
    have hh : hears s := (listening_iff s).1 (Bool.not_eq_false _ ▸ hheard)
    obtain ⟨hp, -, -, ha, hf⟩ := hh
    have hclear : Event Deed s (s.clearStrikes src) := .of_plain (.table (.clearStrikes src)) (samePins_clearStrikes s src)
    have hcan : s.link = .announcing ∨ s.link = .online → canAnswer (s.clearStrikes src) :=
      fun hl => (TableDeed.clearStrikes src).keeps_canAnswer ⟨ha, hp, hl, hf⟩
    have hlink : (s.clearStrikes src).link = s.link := by rw [clearStrikes_only]
    split
    · exact .of_plain (.receiver .unsynchronised) ⟨rfl, rfl⟩
    · split
      · exact hearForeign_event ha _
      · dsimp only
        split
        · exact hclear
        · rename_i a hgate
          have hc := hcan (hlink ▸ gate_refused hgate)
          exact hclear.plain (.answerDue a hc) (samePins_answerDue hc.1 a)
        · rename_i x hgate
          obtain ⟨hread, hl, hj⟩ := gate_passed hgate
          have hc := hcan (.inr (hlink ▸ hl))
          have howned := hown x _ hread ⟨hc, hl, hj⟩
          have hcd : canAnswer (owner x src (s.clearStrikes src)).1 :=
            howned.keeps (fun _ _ h => h.keeps_canAnswer) (fun _ => canAnswer_drive) hc
          exact (hclear.trans (howned.mono fun _ _ => .table)).plain (.answerDue _ hcd) (samePins_answerDue hcd.1 _)

/-- The owner of a request that a handle addresses makes an event of it where it does so for every role that the handle names. -/
theorem byHandle_event {owner : Role → Owner Handle} {h : Handle} {src : Byte} {s : State}
    (hown : ∀ r, s.named h = some r → Event TableDeed s (owner r h src s).1) : Event TableDeed s (byHandle owner h src s).1 := by
  unfold byHandle
  split
  · exact .start
  · exact hown _ (by assumption)

/-! ### The owning blocks -/

/-- A holder of R65, R75 and R77 that has an address holds the role. -/
theorem held_of_holder {r : Role} {a : Byte} (ha : isStation a = true) (h : r.tenure.holder = a) : r.tenure ≠ .vacant := by
  rintro hv
  rw [hv] at h
  exact isStation_ne_zero ha h.symm

theorem isStation_of_joined {s : State} {a : Byte} (h : joined s a = true) : isStation a = true := by
  obtain ⟨st, hst⟩ := Option.isSome_iff_exists.1 h
  exact station_isStation hst

theorem tenure_of_offeredTo {r : Role} {a : Byte} (h : r.offeredTo a = true) : r.tenure ≠ .vacant := by
  intro hv
  simp [Role.offeredTo, Tenure.offer, hv] at h

theorem capacity_event (s : State) (x : AttentionSubject) : Event TableDeed s (s.raise .capacity x).drive :=
  .of_driven (.single (.raise _ _))

theorem joinOwner_event {w : Serial} (hw : w ≠ 0) (src : Byte) (s : State) : Event TableDeed s (joinOwner w src s).1 := by
  unfold joinOwner
  split
  · exact settle_event ((Relation.ReflTransGen.single (.purge _)).tail (.clearStrikes _)) s
  · split
    · exact .of_plain (.allocate hw (by assumption) (by assumption)) (samePins_setStation _ _ _)
    · exact capacity_event s _

theorem removeStation_deeds (s : State) (a : Byte) : Relation.ReflTransGen TableDeed s (s.removeStation a) :=
  (Relation.ReflTransGen.single (.purge a)).tail (.depart (names_purge s a))

theorem leaveOwner_event (src : Byte) (s : State) : Event TableDeed s (leaveOwner () src s).1 :=
  settle_event (removeStation_deeds s src) s

theorem findOwner_event (t : Tag) (src : Byte) (s : State) : Event TableDeed s (findOwner t src s).1 := by
  unfold findOwner
  split
  · exact .start
  · split <;> exact .start

theorem changeOwner_event {h : Handle} {g : Half} {attr : List Byte} (hlen : attr.length ≤ 8) (src : Byte) (s : State) :
    Event TableDeed s (changeOwner (h, g, attr) src s).1 := by
  unfold changeOwner
  split
  · exact .start
  · rename_i r hn
    split
    · rename_i a lease old ht
      split
      · exact .start
      · split
        · exact .start
        · exact settle_event (.single (.publish (roleAt_of_named hn) ht hlen)) s
    · exact .start

theorem retireOwner_event {s : State} {h : Handle} {r : Role} (hn : s.named h = some r) (src : Byte) :
    Event TableDeed s (retireOwner r h src s).1 := by
  unfold retireOwner
  split
  · exact .start
  · split
    · exact .start
    · exact settle_event (.single (.retire (roleAt_of_named hn))) s

theorem renewOwner_event {s : State} {h : Handle} {r : Role} (hn : s.named h = some r) (src : Byte) :
    Event TableDeed s (renewOwner r h src s).1 := by
  unfold renewOwner
  split
  · exact .start
  · exact .of_plain (.restore (roleAt_of_named hn)) ⟨rfl, rfl⟩

theorem releaseOwner_event {s : State} {h : Handle} {r : Role} {src : Byte} (hn : s.named h = some r)
    (hj : joined s src = true) : Event TableDeed s (releaseOwner r h src s).1 := by
  unfold releaseOwner
  split
  · exact .start
  · rename_i hsrc
    exact settle_event (.single (.loseHolder (roleAt_of_named hn)
      (held_of_holder (isStation_of_joined hj) (not_not.1 hsrc)))) s

theorem grantTo_event {s : State} {i : Nat} {r : Role} {src : Byte} (hr : s.roleAt i = some r)
    (ht : r.tenure = .vacant ∨ Safety.offeredTo r src = true) (hj : joined s src = true) (hl : s.link = .online) :
    Event TableDeed s (s.grantTo i src).1 :=
  settle_event (.single (.grant hr ht hj hl)) s

theorem claimNewRole_event {s : State} {t : Tag} {src : Byte} (hlegal : t.legal = true) (hnew : s.roleOfTag t = none)
    (hj : joined s src = true) (hl : s.link = .online) : Event TableDeed s (claimNewRole t src s).1 := by
  unfold claimNewRole
  split
  · exact .start
  · split
    · exact settle_event (.single (.found (by assumption) hnew hlegal hj hl)) s
    · exact capacity_event s _

theorem queueClaim_event {s : State} {i : Nat} {r : Role} {rank : Nat} {src : Byte} (hr : s.roleAt i = some r)
    (ht : r.tenure ≠ .vacant) (hheld : heldBy r src = false) (hoffered : Safety.offeredTo r src = false)
    (h1 : 1 ≤ rank) (h7 : rank ≤ 7) (hj : joined s src = true) : Event TableDeed s (queueClaim i r rank src s).1 := by
  unfold queueClaim
  dsimp only
  split
  · exact .start
  · rename_i hplace
    split
    · exact capacity_event s _
    · rename_i hchain
      split
      · exact capacity_event s _
      · rename_i hpool
        exact .of_plain (.queue hr ht hheld hoffered hplace (not_le.1 hchain) (not_le.1 hpool) h1 h7 hj) ⟨rfl, rfl⟩

theorem claimOwner_event {s : State} {t : Tag} {rank : Nat} {src : Byte} (hlegal : t.legal = true) (h1 : 1 ≤ rank)
    (h7 : rank ≤ 7) (hj : joined s src = true) (hl : s.link = .online) : Event TableDeed s (claimOwner (t, rank) src s).1 := by
  unfold claimOwner
  split
  · exact claimNewRole_event hlegal (by assumption) hj hl
  · rename_i i htag
    cases hr : s.roleAt i with
    | none => exact .start
    | some r =>
      simp only [Option.elim]
      split
      · rename_i ht
        exact grantTo_event hr (.inl ht) hj hl
      · rename_i a lease attr ht
        split
        · exact .of_plain (.restore hr) ⟨rfl, rfl⟩
        · rename_i hother
          exact queueClaim_event hr (by simp [ht]) (by simpa [heldBy, ht] using hother) (by simp [Safety.offeredTo, ht]) h1 h7 hj
      · rename_i o ht
        split
        · rename_i hsame
          exact grantTo_event hr (.inr (by simpa [Safety.offeredTo, ht] using hsame)) hj hl
        · rename_i hother
          exact queueClaim_event hr (by simp [ht]) (by simp [heldBy, ht]) (by simpa [Safety.offeredTo, ht] using hother) h1 h7 hj

theorem withdrawOwner_event {s : State} {h : Handle} {r : Role} (hn : s.named h = some r) (src : Byte) :
    Event TableDeed s (withdrawOwner r h src s).1 := by
  unfold withdrawOwner
  split
  · rename_i ho
    exact settle_event (.single (.skip (roleAt_of_named hn) (tenure_of_offeredTo ho))) s
  · split
    · exact .of_plain (.unqueue src (roleAt_of_named hn)) ⟨rfl, rfl⟩
    · exact .start

theorem acceptOwner_event {s : State} {h : Handle} {r : Role} {src : Byte} (hn : s.named h = some r)
    (hj : joined s src = true) (hl : s.link = .online) : Event TableDeed s (acceptOwner r h src s).1 := by
  unfold acceptOwner
  split
  · rename_i ho
    exact grantTo_event (roleAt_of_named hn) (.inr (offeredTo_eq r src ▸ ho)) hj hl
  · exact .start

theorem declineOwner_event {s : State} {h : Handle} {r : Role} (hn : s.named h = some r) (src : Byte) :
    Event TableDeed s (declineOwner r h src s).1 := by
  unfold declineOwner
  split
  · rename_i ho
    exact settle_event (.single (.skip (roleAt_of_named hn) (tenure_of_offeredTo ho))) s
  · exact .start

theorem watchOwner_event {s : State} {h : Handle} {rank : Nat} {src : Byte} (h7 : rank ≤ 7) (hj : joined s src = true) :
    Event TableDeed s (watchOwner (h, rank) src s).1 := by
  unfold watchOwner
  split
  · exact .start
  · rename_i r hn
    split
    · rename_i n hknown
      refine settle_event (.trans ?_ (withdrawNotice_deeds _ _)) s
      cases hw : (s.watches[n]?).join with
      | none => exact .refl
      | some w => exact .single (.setRank hw h7)
    · rename_i hnew
      split
      · exact .of_plain (.watch (by assumption) hnew hn hj h7) ⟨rfl, rfl⟩
      · exact capacity_event s _

theorem unwatchOwner_event (r : Role) (h : Handle) (src : Byte) (s : State) : Event TableDeed s (unwatchOwner r h src s).1 := by
  unfold unwatchOwner
  split
  · exact settle_event (.single (.unwatch _)) s
  · exact .start

end Sys2Proof.Machine
end

section
/-! PROOFS. Every command is an event of deeds, continued: the actions of the port, the events of the line and of the directory's own
frames, and the event of a step. -/

namespace Sys2Proof.Machine

open Sys2Proof.Safety

/-! ### Operands of host commands (R158, R172) -/

theorem termOf_bounds {a b : Byte} {n : Nat} (h : termOf a b = some n) : 1 ≤ n ∧ n ≤ 4095 := by
  unfold termOf at h
  dsimp only at h
  split at h
  · rename_i hn
    cases h
    exact hn
  · cases h

theorem setTermOperands_bounds {ops : List Byte} {h : Handle} {n : Nat} (ho : setTermOperands ops = some (h, n)) :
    1 ≤ n ∧ n ≤ 4095 := by
  unfold setTermOperands at ho
  split at ho
  · split at ho
    · obtain ⟨t, ht, he⟩ := Option.map_eq_some_iff.1 ho
      cases he
      exact termOf_bounds ht
    · cases ho
  · cases ho

theorem defineOperands_bounds {ops : List Byte} {t : Tag} {n : Nat} (ho : defineOperands ops = some (t, n)) :
    t.legal = true ∧ 1 ≤ n ∧ n ≤ 4095 := by
  unfold defineOperands at ho
  split at ho
  · rename_i t' high low htag hterm
    obtain ⟨m, hm, he⟩ := Option.map_eq_some_iff.1 ho
    cases he
    exact ⟨(tagBytes_of_tagOf htag).1, termOf_bounds hm⟩
  · cases ho

theorem epochOperand_ne_zero {ops : List Byte} {e : Byte} (ho : epochOperand ops = some (some e)) : e ≠ 0 := by
  unfold epochOperand at ho
  split at ho
  · cases ho
  · split at ho
    · cases ho
    · cases ho; assumption
  · cases ho

theorem flagsOperand_lawful {ops : List Byte} {f : Byte} (ho : flagsOperand ops = some f) : f &&& 0xC0 = 0 := by
  unfold flagsOperand at ho
  split at ho
  · split at ho
    · cases ho; assumption
    · cases ho
  · cases ho

theorem configureOperands_sound {ops : List Byte} {c : Configuration} (ho : configureOperands ops = some c) :
    configSound c = true := by
  unfold configureOperands at ho
  split at ho
  · rename_i rate tick high low window floor creation spacing
    split at ho
    · rename_i r t cr hrate hterm hcreation
      split at ho
      · rename_i hok
        cases ho
        have hterm := termOf_bounds hterm
        have hw : window.toNat < 256 := window.isLt
        have hs : spacing.toNat < 256 := spacing.isLt
        simp only [configSound, Bool.and_eq_true, decide_eq_true_eq]
        obtain ⟨ht1, ht2, hw1, hf⟩ := hok
        exact ⟨⟨⟨⟨⟨⟨⟨ht1, ht2⟩, hterm.1⟩, hterm.2⟩, hw1⟩, by omega⟩, hf⟩, by omega⟩
      · cases ho
    · cases ho
  · cases ho

theorem nextEpoch_ne_zero (e : Byte) : nextEpoch e ≠ 0 := by
  unfold nextEpoch
  split
  · decide
  · rename_i he
    intro h
    apply he
    bv_omega

/-! ### The lengths of responses (R153, R171) -/

theorem attentionBytes_length (r : Option AttentionRecord) : (attentionBytes r).length = 5 := by
  unfold attentionBytes
  split
  · rfl
  · rename_i r
    obtain ⟨n, x⟩ := r
    cases x <;> rfl

theorem selected_length (t : Attention) (flags : Byte) : (t.selected flags).length ≤ 96 := by
  have hle : ((Cause.all.filter (fun c => c.inFlags flags)).length) ≤ 6 := List.length_filter_le _ _
  simp only [Attention.selected, List.length_flatten, List.map_map, Function.comp_def, attentionBytes_length,
    List.map_const', List.sum_replicate, smul_eq_mul]
  omega

theorem configBytes_length (c : Configuration) : c.bytes.length = 8 := rfl

theorem statusBytes_length (s : State) : s.statusBytes.length ≤ 96 := by
  unfold State.statusBytes
  dsimp only
  split <;> simp [configBytes_length]

theorem stationBytes_length (s : State) (a : Byte) : (s.stationBytes a).length ≤ 96 := by
  unfold State.stationBytes
  split <;> simp [serialBytes]

theorem watchBytes_length (n : Byte) (o : Option Watch) : (watchBytes n o).length ≤ 96 := by
  unfold watchBytes
  split <;> simp [Handle.bytes, halfBytes]

/-- What a lawful role table asks of the role at an index (R43). -/
theorem roleSound_of_lawful {s : State} (h : rolesLawful s = true) {i : Nat} {e : Entry} (he : s.roles[i]? = some e) :
    entrySound e = true := by
  simp only [rolesLawful, Bool.and_eq_true, List.all_eq_true] at h
  exact h.2 e (List.mem_iff_getElem?.2 ⟨i, (toList_getElem? _ _).trans he⟩)

theorem padTo_length {n : Nat} {bytes : List Byte} (h : bytes.length ≤ n) : (padTo n bytes).length = n := by
  simp only [padTo, List.length_append, List.length_replicate]
  omega

/-- The role record of a lawful live entry takes 48 bytes (R162, R171). -/
theorem entryBytes_length {index : Byte} {e : Entry} {r : Role} (he : e.role = some r) (hs : roleSound r = true) :
    (entryBytes index e).length = 48 := by
  simp only [roleSound, chainSound, Bool.and_eq_true, decide_eq_true_eq] at hs
  obtain ⟨⟨⟨⟨htag, -⟩, -⟩, ⟨⟨⟨hchain, -⟩, -⟩, -⟩⟩, htenure⟩ := hs
  have hlen : r.tag.length ≤ 8 := by
    simp only [Tag.legal, Bool.and_eq_true, decide_eq_true_eq] at htag
    exact htag.1.2
  have hattr : r.tenure.attr.length ≤ 8 := by
    cases ht : r.tenure with
    | held a lease attr =>
      simp only [tenureSound, ht, Bool.and_eq_true, decide_eq_true_eq] at htenure
      exact htenure.1.2
    | _ => simp [Tenure.attr]
  have hsix : r.chain.length ≤ 6 := hchain
  have hpairs : ((r.chain.map (fun c => [c.claimant, byteOf c.rank])).flatten).length ≤ 12 := by
    simp only [List.length_flatten, List.map_map, Function.comp_def, List.length_cons, List.length_nil, List.map_const',
      List.sum_replicate, smul_eq_mul]
    omega
  have hoffer : (offerBytes r.tenure.offer).length = 6 := by
    cases r.tenure with
    | offered o => rfl
    | _ => rfl
  simp only [entryBytes, he, List.length_append, padTo_length hpairs, chainBytes, padTo_length hattr, hoffer, tagBytes,
    padTo_length hlen, termBytes, halfBytes, List.length_cons, List.length_nil]

theorem readRole_length {s : State} (h : rolesLawful s = true) (i : Byte) :
    (entryBytes i ((s.roles[i.toNat]?).getD ⟨0, none⟩)).length ≤ 96 := by
  cases he : s.roles[i.toNat]? with
  | none => simp [entryBytes]
  | some e =>
    cases hr : e.role with
    | none => simp [entryBytes, hr]
    | some r =>
      have hsound := roleSound_of_lawful h he
      simp only [entrySound, hr, Bool.and_eq_true] at hsound
      rw [Option.getD_some, entryBytes_length hr hsound.2]
      omega

/-! ### The port -/

/-- A run of an action: an event, and a response that R153 has room for. -/
def ActsWithin (s : State) (done : State × HostStatus × List Byte) : Prop :=
  Event Deed s done.1 ∧ (rolesLawful done.1 = true → done.2.2.length ≤ 96)

theorem respond_plain {s t : State} (h : Event Deed s t) (status : HostStatus) (seq : Byte) {data : List Byte}
    (hlen : rolesLawful t = true → data.length ≤ 96) : Event Deed s (t.respond status seq data) :=
  h.plain (.respond status seq hlen) ⟨rfl, rfl⟩

theorem refuse_event (s : State) (status : HostStatus) (seq : Byte) : Event Deed s (s.respond status seq []) :=
  respond_plain .start status seq (fun _ => Nat.zero_le _)

theorem powered_event {s t : State} (h : s.pins.resetLow = false → Event Deed s t) : Event Deed s (s.powered t) := by
  unfold State.powered
  split
  · exact .start
  · exact h (Bool.eq_false_of_not_eq_true (by assumption))

/-- A host command is an event, where its action makes one of what its operands spell. -/
theorem command_event {α : Type} {c : Command} {read : List Byte → Option α} {act : Action α} {ops : List Byte}
    {s : State} (hact : ∀ x, read ops = some x → portOpen s → ActsWithin s (act x s)) (seq : Byte) :
    Event Deed s (s.command c read act seq ops) := by
  unfold State.command
  apply powered_event
  intro hp
  split
  · exact refuse_event s _ _
  · split
    · exact refuse_event s _ _
    · rename_i hclear
      split
      · exact refuse_event s _ _
      · rename_i x hx
        obtain ⟨hevent, hlen⟩ := hact x hx ⟨hp, by simpa using hclear⟩
        exact respond_plain hevent _ _ hlen

theorem ActsWithin.short {s t : State} {status : HostStatus} {data : List Byte} (h : Event Deed s t)
    (hlen : data.length ≤ 96 := by simp [Handle.bytes, halfBytes]) : ActsWithin s (t, status, data) := ⟨h, fun _ => hlen⟩

theorem settled_table {s t : State} (d : TableDeed s t) : Event Deed s (t.settle s) :=
  (settle_event (.single d) s).mono fun _ _ => .table

theorem full_acts (s : State) : ActsWithin s ((s.raise .capacity (.refusal .tableFull 0)).drive, .tableFull, []) :=
  .short ((capacity_event s _).mono fun _ _ => .table)

theorem readAttention_acts (flags : Byte) (s : State) : ActsWithin s (readAttentionAction flags s) :=
  .short (.of_driven (.single (.clearFlags flags))) (selected_length _ _)

theorem enable_acts {flags : Byte} (h : flags &&& 0xC0 = 0) (s : State) : ActsWithin s (enableAction flags s) :=
  .short (.of_driven (.single (.enable h)))

theorem configure_acts {c : Configuration} (hc : configSound c = true) (s : State) : ActsWithin s (configureAction c s) := by
  unfold configureAction
  split
  · exact .short .start
  · rw [configured_eq]
    refine .short (settle_deedEvent (.trans (.single (.configure hc)) ?_) s) (configBytes_length c ▸ by decide)
    exact Relation.ReflTransGen.mono (fun _ _ => .table) _ _ (withdrawNotice_deeds _ _)

theorem start_acts {ops : List Byte} {operand : Option Byte} (hread : epochOperand ops = some operand) {s : State}
    (hp : portOpen s) : ActsWithin s (startAction operand s) := by
  unfold startAction
  split
  · exact .short .start
  · have he : operand.getD (nextEpoch s.epoch) ≠ 0 := by
      cases operand with
      | none => exact nextEpoch_ne_zero _
      | some e => exact epochOperand_ne_zero hread
    exact .short (settle_deedEvent (.single (.restart he hp)) s)

theorem stop_acts {s : State} (hp : portOpen s) : ActsWithin s (stopAction () s) := by
  unfold stopAction
  split
  · exact .short .start
  · exact .short (settle_deedEvent (.single (.stop hp)) s)

theorem resume_acts (s : State) : ActsWithin s (resumeAction () s) := by
  unfold resumeAction
  split
  · exact .short .start
  · rename_i hl
    split
    · rename_i ha
      exact .short (settle_deedEvent (.single (.resume (not_not.1 hl) ha _)) s)
    · rename_i ha
      exact .short (settle_deedEvent (.single (.reannounce (not_not.1 hl) (Bool.eq_false_of_not_eq_true ha))) s)

theorem directoryReset_acts (s : State) : ActsWithin s (directoryResetAction () s) :=
  .short (.of_driven (.single .directoryReset))

theorem define_acts {t : Tag} {term : Nat} (hlegal : t.legal = true) (h1 : 1 ≤ term) (h2 : term ≤ 4095) (s : State) :
    ActsWithin s (defineAction (t, term) s) := by
  unfold defineAction
  split
  · rename_i i htag
    cases hr : s.roleAt i with
    | none => exact .short .start
    | some r =>
      simp only [Option.elim]
      split
      · exact .short .start
      · exact .short (.of_plain (.table (.setTerm hr h1 h2 (.inr rfl))) ⟨rfl, rfl⟩)
  · rename_i hnew
    split
    · rename_i i hfree
      exact .short (.of_plain (.table (.define hfree hnew hlegal h1 h2)) ⟨rfl, rfl⟩)
    · exact full_acts s

theorem retireRole_acts (h : Handle) (s : State) : ActsWithin s (retireRoleAction h s) := by
  unfold retireRoleAction
  split
  · exact .short .start
  · rename_i r hn
    exact .short (settled_table (.retire (roleAt_of_named hn)))

theorem setTerm_acts {h : Handle} {term : Nat} (h1 : 1 ≤ term) (h2 : term ≤ 4095) (s : State) :
    ActsWithin s (setTermAction (h, term) s) := by
  unfold setTermAction
  split
  · exact .short .start
  · rename_i r hn
    exact .short (.of_plain (.table (.setTerm (roleAt_of_named hn) h1 h2 (.inl rfl))) ⟨rfl, rfl⟩)

theorem force_acts (h : Handle) (s : State) : ActsWithin s (forceAction h s) := by
  unfold forceAction
  split
  · exact .short .start
  · split
    · exact .short .start
    · rename_i r hn
      split
      · exact .short .start
      · rename_i ht
        split
        · exact .short .start
        · exact .short (settled_table (.loseHolder (roleAt_of_named hn) (by simp [ht])))
      · rename_i ht
        exact .short (settled_table (.skip (roleAt_of_named hn) (by simp [ht])))

theorem evict_acts (a : Byte) (s : State) : ActsWithin s (evictAction a s) := by
  unfold evictAction
  split
  · exact .short .start
  · split
    · exact .short .start
    · exact .short ((settle_event (removeStation_deeds s a) s).mono fun _ _ => .table)

/-! ### The completion of a frame (R147, R148) -/

theorem report_deeds (s : State) (a : Byte) (outcome : FrameOutcome) :
    Relation.ReflTransGen TableDeed s (s.report a outcome) := by
  unfold State.report
  have hfailed : Relation.ReflTransGen TableDeed s (match s.station a with
      | none => s
      | some st =>
        if st.strikes + 1 < Config.strikeLimit then s.setStation a (some { st with strikes := st.strikes + 1 })
        else (s.removeStation a).raise .stationLost (.station a)) := by
    split
    · exact .refl
    · rename_i st hst
      split
      · rename_i hfew
        exact .single (.strike hst hfew)
      · exact (removeStation_deeds s a).tail (.raise _ _)
  cases outcome with
  | collisionLimit => exact .refl
  | valid status => exact .single (.clearStrikes a)
  | emptySlot => exact hfailed
  | badAnswer => exact hfailed

theorem completeFrame_deeds {s : State} {f : Frame} (hf : s.frame = some f) (final : Bool) (outcome : FrameOutcome) :
    Relation.ReflTransGen Deed s (s.completeFrame f final outcome) := by
  have htold := fun (t : State) => Relation.ReflTransGen.mono (fun _ _ => Deed.table) _ _ (report_deeds t f.dest outcome)
  unfold State.completeFrame
  dsimp only
  split
  · rename_i hp
    exact .single (.completeOther hf (.inl hp))
  · rename_i hp
    have hp : f.purgedTarget = false := Bool.eq_false_of_not_eq_true hp
    split
    · rename_i hs
      exact .single (.completeOther hf (.inr hs))
    · rename_i h number hs
      have happlied := (Relation.ReflTransGen.single (Deed.completeOffer hf hs hp outcome)).trans (htold _)
      split
      · exact happlied.tail (.table (.vacancyAtLeast h))
      · exact happlied
    · rename_i n watcher h hs
      exact (Relation.ReflTransGen.single (Deed.completeNotice hf hs final outcome)).trans (htold _)

theorem closeSlot_event (s : State) (outcome : FrameOutcome) : Event Deed s (s.closeSlot outcome) := by
  unfold State.closeSlot
  split
  · rename_i f final hslot
    exact settle_deedEvent (completeFrame_deeds ((slot_eq_some_iff s f final).1 hslot).1 final outcome) s
  · exact .start

theorem unsynchronise_plain {s t : State} (h : Event Deed s t) : Event Deed s t.unsynchronise :=
  h.plain (.receiver .unsynchronised) ⟨rfl, rfl⟩

theorem lineFault_event (s : State) : Event Deed s s.lineFault := by
  unfold State.lineFault
  split
  · exact unsynchronise_plain (closeSlot_event s _)
  · split
    · exact .start
    · exact unsynchronise_plain .start

theorem confirm_deeds {s : State} {f : Frame} (hf : s.frame = some f) (ha : s.answer = .idle) :
    Relation.ReflTransGen Deed s (s.confirm f) := by
  unfold State.confirm
  split
  · exact .single (.beginFrame hf ha)
  · have hgone := (Relation.ReflTransGen.single (Deed.table (TableDeed.dropFrame (s := s)))).tail (.table .select)
    have ha' : s.dropFrame.select.answer = .idle := by
      rw [dropFrame_select_reaches s]
      exact ha
    dsimp only
    split
    · rename_i g hg
      exact hgone.tail (.beginFrame hg ha')
    · exact hgone

/-! ### The rows -/

theorem frameOnLine_some {s : State} {f : Frame} {formed : TrunkFrame} {final : Bool}
    (h : s.frameOnLine = some (f, formed, final)) : s.frame = some f ∧ f.phase = .onLine formed final := by
  unfold State.frameOnLine at h
  split at h
  · rename_i g hg
    split at h
    · rename_i hp
      cases h
      exact ⟨hg, hp⟩
    · cases h
  · cases h

theorem waitEnd_event (idle : Nat) (s : State) {t : State} (h : execWaitEnd idle s = .next t) : Event Deed s t := by
  cases h
  apply powered_event
  intro _
  split
  · rename_i f hf
    split
    · rename_i hready
      exact .of_driven (.trans (.single (.receiver .synchronised)) (confirm_deeds hf hready.2.1))
    · exact .start
  · exact .start

theorem collision_event (s : State) {t : State} (h : execCollision s = .next t) : Event Deed s t := by
  cases h
  apply powered_event
  intro _
  split
  · rename_i f formed final hline
    obtain ⟨hf, -⟩ := frameOnLine_some hline
    have hdeaf : Relation.ReflTransGen Deed s s.unsynchronise := .single (.receiver .unsynchronised)
    dsimp only
    split
    · exact settle_deedEvent (hdeaf.trans (completeFrame_deeds (s := s.unsynchronise) hf final _)) _
    · exact .of_driven (hdeaf.tail (.backOff (s := s.unsynchronise) hf))
  · exact .start

theorem restartCompletesClean_event (s : State) {t : State} (h : execRestartCompletesClean s = .next t) : Event Deed s t := by
  cases h
  apply powered_event
  intro _
  split
  · rename_i f formed final hline
    split
    · rename_i hs
      exact settle_deedEvent (.tail (.single (.announce (frameOnLine_some hline).1 hs _)) (.table (.raise _ _))) s
    · exact .start
  · exact .start

theorem awaitingAnswer_event (s : State) {t : State} (h : execAwaitingAnswer s = .next t) : Event Deed s t := by
  cases h
  apply powered_event
  intro _
  split
  · rename_i f formed final hline
    obtain ⟨hf, hphase⟩ := frameOnLine_some hline
    split
    · exact .start
    · exact .of_driven (.single (.await hf hphase))
  · exact .start

theorem validAnswer_event (status : Byte) (body : List Byte) (s : State) {t : State}
    (h : execValidAnswer status body s = .next t) : Event Deed s t := by
  cases h
  apply powered_event
  intro _
  split
  · exact lineFault_event s
  · exact closeSlot_event s _

theorem badAnswer_event (kind : BadAnswer) (s : State) {t : State} (h : execBadAnswer kind s = .next t) : Event Deed s t := by
  cases h
  apply powered_event
  intro _
  split
  · split
    · exact closeSlot_event s _
    · exact unsynchronise_plain (closeSlot_event s _)
  · exact .start

theorem tick_deeds (s : State) : Relation.ReflTransGen TableDeed s s.tick := by
  unfold State.tick
  generalize List.range Config.roleCount = l
  induction l generalizing s with
  | nil => exact .refl
  | cons i l ih => exact .head (.tickRole i) (ih _)

theorem ticked_event {s t : State} {p : Bool} (d : Relation.ReflTransGen TableDeed s t) :
    Event Deed s (if p then t.settle s else s) := by
  split
  · exact (settle_event d s).mono fun _ _ => .table
  · exact .start

theorem answerBegin_event (s : State) {t : State} (h : execAnswerBegin s = .next t) : Event Deed s t := by
  cases h
  apply powered_event
  intro _
  split
  · rename_i a ha
    exact .of_driven (.single (.answerBegins ha))
  · exact .start

theorem answerPreempted_event (s : State) {t : State} (h : execAnswerPreempted s = .next t) : Event Deed s t := by
  cases h
  apply powered_event
  intro _
  split
  · rename_i a ha
    exact .of_plain .answerEnds (samePins_of rfl rfl rfl (by simp only [State.drivesLine, ha]))
  · exact .start

theorem answerReadbackMismatch_event (s : State) {t : State} (h : execAnswerReadbackMismatch s = .next t) :
    Event Deed s t := by
  cases h
  apply powered_event
  intro _
  split
  · exact .of_driven (.tail (.single .answerEnds) (.receiver .unsynchronised))
  · exact .start

theorem answerEnd_event (s : State) {t : State} (h : execAnswerEnd s = .next t) : Event Deed s t := by
  cases h
  apply powered_event
  intro _
  split
  · exact .of_driven (.single .answerEnds)
  · exact .start

theorem heardFrame_event (dest src : Byte) (s : State) {t : State} (h : execStationFrameHeard dest src s = .next t) :
    Event Deed s t := by
  cases h
  split
  · exact .of_plain (.table (.clearStrikes src)) (samePins_clearStrikes s src)
  · exact .start

theorem foreignFrame_event (dest : Byte) (s : State) {t : State} (h : execForeignFrame dest s = .next t) : Event Deed s t := by
  cases h
  split
  · rename_i hheard
    exact hearForeign_event ((listening_iff s).1 hheard).2.2.2.1 dest
  · exact .start

theorem receiver_event {s : State} {x : Receiver} : Event Deed s (s.powered (if s.lineTaken then s else { s with receiver := x })) := by
  apply powered_event
  intro _
  split
  · exact .start
  · exact .of_plain (.receiver x) ⟨rfl, rfl⟩

theorem cleared_event (s : State) {t : State} (h : execResetClearCompletion s = .next t) : Event Deed s t := by
  cases h
  apply powered_event
  intro _
  split
  · rename_i kind hc
    exact .of_plain (.clearTables hc) ⟨rfl, rfl⟩
  · exact .start

theorem badCommand_event (received : List Byte) (s : State) {t : State} (h : execBadCommand received s = .next t) :
    Event Deed s t := by
  cases h
  apply powered_event
  intro _
  split
  · exact refuse_event s _ _
  · exact .start

theorem nop_event (seq : Byte) (ops : List Byte) (s : State) {t : State} (h : execNop seq ops s = .next t) : Event Deed s t := by
  cases h
  apply powered_event
  intro _
  split
  · exact .start
  · exact refuse_event s _ _

theorem readStatus_event (seq : Byte) (ops : List Byte) (s : State) {t : State} (h : execReadStatus seq ops s = .next t) :
    Event Deed s t := by
  cases h
  apply powered_event
  intro _
  split
  · exact respond_plain .start _ _ (fun _ => statusBytes_length s)
  · exact refuse_event s _ _

theorem illegalCode_event (src code epoch : Byte) (body : List Byte) (s : State) {t : State}
    (h : execIllegalCode src code epoch body s = .next t) : Event Deed s t := by
  cases h
  split
  · exact .start
  · exact request_event (fun x u hx => by cases hx) s epoch

/-- Every command is an event of deeds, one lemma for each row. -/
theorem exec_event {c : Instr} {s t : State} (h : exec c s = .next t) : Event Deed s t := by
  cases c with
  -- requests
  | join src epoch body =>
    cases h
    exact request_event (fun w u hw _ => joinOwner_event ((serialBody_eq_some_iff body w).1 hw).1 src u) s epoch
  | leave src epoch body => cases h; exact request_event (fun _ u _ _ => leaveOwner_event src u) s epoch
  | find src epoch body => cases h; exact request_event (fun t u _ _ => findOwner_event t src u) s epoch
  | lookup src epoch body =>
    cases h
    exact request_event (fun _ u _ _ => byHandle_event fun _ _ => .start) s epoch
  | claim src epoch body =>
    cases h
    refine request_event (fun x u hx hp => ?_) s epoch
    obtain ⟨hlegal, h1, h7, -⟩ := (claimBody_eq_some_iff body x.1 x.2).1 hx
    exact claimOwner_event hlegal h1 h7 (hp.2.2 rfl) hp.2.1
  | renew src epoch body =>
    cases h
    exact request_event (fun _ u _ _ => byHandle_event fun _ hn => renewOwner_event hn src) s epoch
  | release src epoch body =>
    cases h
    exact request_event (fun _ u _ hp => byHandle_event fun _ hn => releaseOwner_event hn (hp.2.2 rfl)) s epoch
  | change src epoch body =>
    cases h
    exact request_event (fun x u hx _ => changeOwner_event ((changeBody_eq_some_iff body x.1 x.2.1 x.2.2).1 hx).2.1 src u) s epoch
  | retire src epoch body =>
    cases h
    exact request_event (fun _ u _ _ => byHandle_event fun _ hn => retireOwner_event hn src) s epoch
  | withdraw src epoch body =>
    cases h
    exact request_event (fun _ u _ _ => byHandle_event fun _ hn => withdrawOwner_event hn src) s epoch
  | accept src epoch body =>
    cases h
    exact request_event (fun _ u _ hp => byHandle_event fun _ hn => acceptOwner_event hn (hp.2.2 rfl) hp.2.1) s epoch
  | decline src epoch body =>
    cases h
    exact request_event (fun _ u _ _ => byHandle_event fun _ hn => declineOwner_event hn src) s epoch
  | watch src epoch body =>
    cases h
    exact request_event (fun x u hx hp => watchOwner_event ((watchBody_eq_some_iff body x.1 x.2).1 hx).2.1 (hp.2.2 rfl)) s epoch
  | unwatch src epoch body =>
    cases h
    exact request_event (fun x u _ _ => byHandle_event fun r _ => unwatchOwner_event r x src u) s epoch
  -- the line
  | stationFrameHeard dest src => exact heardFrame_event dest src s h
  | foreignFrame dest => exact foreignFrame_event dest s h
  | badCharacter => cases h; exact powered_event fun _ => lineFault_event s
  | lineViolation => cases h; exact receiver_event
  | receiverSynchronised => cases h; exact receiver_event
  | truncatedFrame => cases h; exact powered_event fun _ => lineFault_event s
  | malformedFrame => cases h; exact powered_event fun _ => lineFault_event s
  | badCheck => cases h; exact powered_event fun _ => closeSlot_event s _
  | answerBegin => exact answerBegin_event s h
  | answerPreempted => exact answerPreempted_event s h
  | answerReadbackMismatch => exact answerReadbackMismatch_event s h
  | answerEnd => exact answerEnd_event s h
  -- the directory's own frames
  | waitEnd idle => exact waitEnd_event idle s h
  | collision => exact collision_event s h
  | restartCompletesClean => exact restartCompletesClean_event s h
  | awaitingAnswer => exact awaitingAnswer_event s h
  | validAnswer status body => exact validAnswer_event status body s h
  | emptySlot => cases h; exact powered_event fun _ => closeSlot_event s _
  | badAnswer kind => exact badAnswer_event kind s h
  -- the Lease Clock
  | leaseTick => cases h; exact ticked_event (tick_deeds s)
  | lapse index => cases h; exact ticked_event (.single (.tickRole _))
  | windowExpiry index => cases h; exact ticked_event (.single (.tickRole _))
  -- host commands
  | nop seq ops => exact nop_event seq ops s h
  | readStatus seq ops => exact readStatus_event seq ops s h
  | readAttention seq ops => cases h; exact command_event (fun flags _ _ => readAttention_acts flags s) seq
  | setAttentionEnable seq ops => cases h; exact command_event (fun _ hx _ => enable_acts (flagsOperand_lawful hx) s) seq
  | configure seq ops => cases h; exact command_event (fun _ hx _ => configure_acts (configureOperands_sound hx) s) seq
  | start seq ops => cases h; exact command_event (fun _ hx hp => start_acts hx hp) seq
  | stop seq ops => cases h; exact command_event (fun _ _ hp => stop_acts hp) seq
  | resume seq ops => cases h; exact command_event (fun _ _ _ => resume_acts s) seq
  | directoryReset seq ops => cases h; exact command_event (fun _ _ _ => directoryReset_acts s) seq
  | defineRole seq ops =>
    cases h
    refine command_event (fun x hx _ => ?_) seq
    obtain ⟨hlegal, h1, h2⟩ := defineOperands_bounds hx
    exact define_acts hlegal h1 h2 s
  | retireRole seq ops => cases h; exact command_event (fun x _ _ => retireRole_acts x s) seq
  | setTerm seq ops =>
    cases h
    exact command_event (fun x hx _ => setTerm_acts (setTermOperands_bounds hx).1 (setTermOperands_bounds hx).2 s) seq
  | forceHandover seq ops => cases h; exact command_event (fun x _ _ => force_acts x s) seq
  | evictStation seq ops => cases h; exact command_event (fun x _ _ => evict_acts x s) seq
  | readRole seq ops => cases h; exact command_event (fun x _ _ => ⟨.start, fun hl => readRole_length hl x⟩) seq
  | readStation seq ops => cases h; exact command_event (fun x _ _ => .short .start (stationBytes_length s x)) seq
  | readWatch seq ops => cases h; exact command_event (fun x _ _ => .short .start (watchBytes_length x _)) seq
  -- resets
  | resetInputLow => cases h; exact .of_driven (.single .resetLow)
  | powerOnReset => cases h; exact .of_driven (.single .powerOn)
  | resetClearCompletion => exact cleared_event s h
  -- the rest
  | illegalCode src code epoch body => exact illegalCode_event src code epoch body s h
  | badCommand received => exact badCommand_event received s h

/-- Every command answers a next state: the model has no other arm. -/
theorem exec_completes (c : Instr) (s : State) : ∃ t, exec c s = .next t := by
  cases c <;> exact ⟨_, rfl⟩

/-- A step is an event on the queue's rest, or idles. -/
theorem step_event {s t : State} (h : step s = .next t) : Event Deed (s.withQueue s.pending.tail) t := by
  unfold step at h
  split at h
  · rename_i hq
    cases h
    rw [hq]
    have : s.withQueue [] = s := by rw [← hq]; rfl
    rw [List.tail_nil, this]
    exact .start
  · rename_i c rest hq
    rw [hq]
    exact exec_event h

/-- What every deed keeps, and what neither the queue nor the pins bear on, every step keeps. -/
theorem step_keeps {P : State → Prop} (hqueue : ∀ s q, P s → P (s.withQueue q)) (hdeed : ∀ s t, Deed s t → P s → P t)
    (hdrive : ∀ s, P s → P s.drive) {s t : State} (hs : P s) (h : step s = .next t) : P t :=
  (step_event h).keeps hdeed hdrive (hqueue s _ hs)

end Sys2Proof.Machine
end

section
/-! PROOFS. The queue (O2), the station table (O55) and the frame record, the attention records, the response and the pins (O60): each
law is kept by every deed, so by every step. -/

namespace Sys2Proof.Machine

open Sys2Proof.Safety

/-! ### The reach of the other deeds -/

theorem beginFrame_reaches (s : State) (f : Frame) :
    s.beginFrame f = { s with watches := (s.beginFrame f).watches, frame := (s.beginFrame f).frame } := by
  unfold State.beginFrame State.takeMark
  split
  · split <;> rfl
  · rfl

theorem beginFrame_frame (s : State) (f : Frame) :
    (s.beginFrame f).frame = some { f with phase := .onLine (s.formFrame f).1 (s.formFrame f).2, begun := true } := rfl

/-! ### The queue -/

theorem dropFrame_pending (s : State) : s.dropFrame.pending = s.pending := by rw [dropFrame_reaches]

theorem Deed.pending {s t : State} (h : Deed s t) : t.pending = s.pending := by
  cases h with
  | table h => rw [h.reaches]
  | silence => exact dropFrame_pending s
  | stop => exact dropFrame_pending s
  | directoryReset => exact dropFrame_pending s
  | powerOn => exact dropFrame_pending s
  | resetLow => exact dropFrame_pending s
  | beginFrame => rw [beginFrame_reaches]
  | completeOffer => rw [offerOutcome_reaches]
  | completeNotice => rw [noticeOutcome_reaches]
  | _ => rfl

/-- Settles O2: no arm of `exec` stops, and no deed touches the queue. -/
theorem everyCommandCompletes : Obligations.EveryCommandCompletes := by
  unfold Obligations.EveryCommandCompletes
  intro c s
  obtain ⟨t, ht⟩ := exec_completes c s
  exact ⟨t, ht, (exec_event ht).keeps (P := fun u => u.pending = s.pending)
    (fun _ _ hd hu => hd.pending.trans hu) (fun _ hu => hu) rfl⟩

/-! ### The station table (R25, R29, R36) -/

theorem station_of_row {s : State} {i : Nat} (hi : i < 56) : s.station (byteOf (i + 1)) = (s.stations[i]?).join := by
  have hb : (byteOf (i + 1)).toNat = i + 1 := byteOf_toNat (by omega)
  have hst : isStation (byteOf (i + 1)) = true := by rw [isStation_iff, hb]; omega
  simp only [State.station, hst, if_true, hb, Nat.add_sub_cancel]

theorem row_of_station {s : State} {a : Byte} {st : Station} (h : s.station a = some st) :
    s.stations[a.toNat - 1]? = some (some st) := by
  unfold State.station at h
  rw [if_pos (station_isStation h)] at h
  simpa [Option.join_eq_some_iff] using h

/-- No row of a list of options gives the same value twice under `f`, said of places. -/
theorem nodup_filterMap_iff {α β : Type} (f : α → β) (l : List (Option α)) :
    (l.filterMap (Option.map f)).Nodup ↔
      ∀ (i j : Nat) (a b : α), l[i]? = some (some a) → l[j]? = some (some b) → f a = f b → i = j := by
  induction l with
  | nil => simp
  | cons o l ih =>
    have hmem : ∀ y, y ∈ l.filterMap (Option.map f) ↔ ∃ (i : Nat) (a : α), l[i]? = some (some a) ∧ f a = y := by
      intro y
      simp only [List.mem_filterMap, Option.map_eq_some_iff]
      constructor
      · rintro ⟨_, ho, a, rfl, hy⟩
        obtain ⟨i, hi⟩ := List.mem_iff_getElem?.1 ho
        exact ⟨i, a, hi, hy⟩
      · rintro ⟨i, a, hi, hy⟩
        exact ⟨_, List.mem_iff_getElem?.2 ⟨i, hi⟩, a, rfl, hy⟩
    constructor
    · intro hnodup i j a b hi hj hab
      cases o with
      | none =>
        have htail : (l.filterMap (Option.map f)).Nodup := by simpa using hnodup
        cases i with
        | zero => simp at hi
        | succ i =>
          cases j with
          | zero => simp at hj
          | succ j => exact congrArg _ (ih.1 htail i j a b (by simpa using hi) (by simpa using hj) hab)
      | some x =>
        have hcons : f x ∉ l.filterMap (Option.map f) ∧ (l.filterMap (Option.map f)).Nodup := by
          simpa [List.filterMap_cons] using hnodup
        cases i with
        | zero =>
          cases j with
          | zero => rfl
          | succ j =>
            simp only [List.getElem?_cons_zero, Option.some.injEq] at hi
            subst hi
            exact absurd ((hmem _).2 ⟨j, b, by simpa using hj, hab.symm⟩) hcons.1
        | succ i =>
          cases j with
          | zero =>
            simp only [List.getElem?_cons_zero, Option.some.injEq] at hj
            subst hj
            exact absurd ((hmem _).2 ⟨i, a, by simpa using hi, hab⟩) hcons.1
          | succ j => exact congrArg _ (ih.1 hcons.2 i j a b (by simpa using hi) (by simpa using hj) hab)
    · intro h
      have htail : (l.filterMap (Option.map f)).Nodup :=
        ih.2 fun i j a b hi hj hab => Nat.succ.inj (h (i + 1) (j + 1) a b (by simpa using hi) (by simpa using hj) hab)
      cases o with
      | none => simpa using htail
      | some x =>
        have hfresh : f x ∉ l.filterMap (Option.map f) := by
          rw [hmem]
          rintro ⟨i, a, hi, hy⟩
          exact absurd (h 0 (i + 1) x a rfl (by simpa using hi) hy.symm) (Nat.succ_ne_zero i).symm
        exact List.nodup_cons.2 ⟨hfresh, htail⟩

/-- The law of the station table, said of addresses. -/
theorem registryLawful_iff (s : State) : registryLawful s = true ↔
    (∀ a st, s.station a = some st → st.serial ≠ 0 ∧ st.strikes ≤ 2)
      ∧ ∀ a b st st', s.station a = some st → s.station b = some st' → st.serial = st'.serial → a = b := by
  have hrow : ∀ (i : Nat) (st : Station), s.stations[i]? = some (some st) → s.station (byteOf (i + 1)) = some st := by
    intro i st hi
    rw [station_of_row (row_lt hi), hi]
    rfl
  simp only [registryLawful, Bool.and_eq_true, List.all_eq_true, decide_eq_true_eq, nodup_filterMap_iff, toList_getElem?]
  constructor
  · rintro ⟨hall, hdistinct⟩
    refine ⟨fun a st hst => ?_, fun a b st st' ha hb he => ?_⟩
    · have hst' := hall (some st) (List.mem_iff_getElem?.2 ⟨_, (toList_getElem? _ _).trans (row_of_station hst)⟩)
      simpa [Option.all] using hst'
    · have hab := hdistinct _ _ _ _ (row_of_station ha) (row_of_station hb) he
      have h1 := (isStation_iff a).1 (station_isStation ha)
      have h2 := (isStation_iff b).1 (station_isStation hb)
      exact BitVec.eq_of_toNat_eq (by omega)
  · rintro ⟨hall, hdistinct⟩
    refine ⟨fun o ho => ?_, fun i j st st' hi hj he => ?_⟩
    · cases o with
      | none => rfl
      | some st =>
        obtain ⟨i, hi⟩ := List.mem_iff_getElem?.1 ho
        have := hall _ st (hrow i st ((toList_getElem? _ _).symm.trans hi))
        simpa [Option.all] using this
    · have hi' : i < 56 := row_lt hi
      have hj' : j < 56 := row_lt hj
      have := congrArg BitVec.toNat (hdistinct _ _ _ _ (hrow i st hi) (hrow j st' hj) he)
      rw [byteOf_toNat (by omega), byteOf_toNat (by omega)] at this
      omega

/-- Where every entry keeps its serial or becomes FREE, and strikes stay in range, the law is kept. -/
theorem registryLawful_of {s t : State} (h : registryLawful s = true)
    (hkept : ∀ a st', t.station a = some st' → ∃ st, s.station a = some st ∧ st'.serial = st.serial ∧ st'.strikes ≤ 2) :
    registryLawful t = true := by
  rw [registryLawful_iff] at h ⊢
  refine ⟨fun a st' hst' => ?_, fun a b st' sb' ha hb he => ?_⟩
  · obtain ⟨st, hst, hserial, hfew⟩ := hkept a st' hst'
    exact ⟨hserial ▸ (h.1 a st hst).1, hfew⟩
  · obtain ⟨st, hst, hsa, -⟩ := hkept a st' ha
    obtain ⟨sb, hsb, hsb', -⟩ := hkept b sb' hb
    exact h.2 a b st sb hst hsb (hsa ▸ hsb' ▸ he)

theorem registryLawful_of_stations {s t : State} (he : t.stations = s.stations) (h : registryLawful s = true) :
    registryLawful t = true := by
  simpa only [registryLawful, he] using h

theorem registryLawful_setStation {s : State} {a : Byte} {e : Option Station} (h : registryLawful s = true)
    (he : ∀ st', e = some st' → ∃ st, s.station a = some st ∧ st'.serial = st.serial ∧ st'.strikes ≤ 2) :
    registryLawful (s.setStation a e) = true := by
  refine registryLawful_of h fun b st' hb => ?_
  rw [station_setStation] at hb
  split at hb
  · rename_i hab
    rw [hab.1]
    exact he st' hb
  · exact ⟨st', hb, rfl, ((registryLawful_iff s).1 h).1 b st' hb |>.2⟩

theorem addressOf_spec {s : State} {w : Serial} (h : s.addressOf w = none) {a : Byte} {st : Station}
    (hst : s.station a = some st) : st.serial ≠ w := by
  have hrow := (findRow_eq_none_iff _ _).1 (Option.map_eq_none_iff.1 h) _ _ (row_of_station hst)
  simpa using hrow

theorem registryLawful_allocate {s : State} {w : Serial} {a : Byte} (h : registryLawful s = true) (hw : w ≠ 0)
    (hnew : s.addressOf w = none) : registryLawful (s.setStation a (some ⟨w, 0⟩)) = true := by
  rw [registryLawful_iff] at h ⊢
  have hcases : ∀ b st, (s.setStation a (some ⟨w, 0⟩)).station b = some st →
      (b = a ∧ st = ⟨w, 0⟩) ∨ (s.station b = some st ∧ st.serial ≠ w) := by
    intro b st hb
    rw [station_setStation] at hb
    split at hb
    · rename_i hab
      cases hb
      exact .inl ⟨hab.1, rfl⟩
    · exact .inr ⟨hb, addressOf_spec hnew hb⟩
  refine ⟨fun b st hb => ?_, fun b c st st' hb hc he => ?_⟩
  · rcases hcases b st hb with ⟨-, rfl⟩ | ⟨hb, -⟩
    · exact ⟨hw, Nat.zero_le _⟩
    · exact h.1 b st hb
  · rcases hcases b st hb with ⟨rfl, rfl⟩ | ⟨hb, hne⟩ <;> rcases hcases c st' hc with ⟨rfl, rfl⟩ | ⟨hc, hne'⟩
    · rfl
    · exact absurd he.symm hne'
    · exact absurd he hne
    · exact h.2 b c st st' hb hc he

theorem registryLawful_cleared {t : State} (h : ∀ a, t.station a = none) : registryLawful t = true := by
  rw [registryLawful_iff]
  exact ⟨fun a st hst => (Option.some_ne_none st (hst.symm.trans (h a))).elim,
    fun a _ st _ hst => (Option.some_ne_none st (hst.symm.trans (h a))).elim⟩

theorem station_of_free {s t : State} (h : t.stations = mapRows (fun _ => none) s.stations) (a : Byte) : t.station a = none := by
  simp only [State.station, h, mapRows_getElem?]
  split
  · cases s.stations[a.toNat - 1]? <;> rfl
  · rfl

theorem ReachesRoles.stations {s t : State} (h : ReachesRoles s t) : t.stations = s.stations := by rw [h]
theorem dropFrame_stations (s : State) : s.dropFrame.stations = s.stations := by rw [dropFrame_reaches]
theorem select_stations (s : State) : s.select.stations = s.stations := by rw [select_reaches]

theorem TableDeed.keeps_registry {s t : State} (h : TableDeed s t) (hs : registryLawful s = true) : registryLawful t = true := by
  have hsame : t.stations = s.stations → registryLawful t = true := fun he => registryLawful_of_stations he hs
  cases h with
  | clearStrikes a =>
    refine registryLawful_of hs fun b st' hb => ?_
    rw [station_clearStrikes] at hb
    split at hb
    · rename_i hab
      obtain ⟨st, hst, rfl⟩ := Option.map_eq_some_iff.1 hb
      exact ⟨st, hab ▸ hst, rfl, Nat.zero_le _⟩
    · exact ⟨st', hb, rfl, (((registryLawful_iff s).1 hs).1 b st' hb).2⟩
  | strike hst hfew =>
    refine registryLawful_setStation hs fun st' he => ?_
    cases he
    exact ⟨_, hst, rfl, by simp only; omega⟩
  | allocate hw hnew => exact registryLawful_allocate hs hw hnew
  | depart => exact registryLawful_setStation hs (fun _ he => by cases he)
  | purge a => exact hsame (purge_keeps_stations s a)
  | found => exact hsame (ReachesRoles.trans rfl (grant_reaches _ _ _)).stations
  | grant => exact hsame (grant_reaches _ _ _).stations
  | retire => exact hsame (retire_reaches _ _).stations
  | loseHolder => exact hsame (loseHolder_reaches _ _).stations
  | skip => exact hsame (skip_reaches _ _).stations
  | tickRole => exact hsame (tickRole_reaches _ _).stations
  | vacancyAtLeast => exact hsame (vacancyAtLeast_reaches _ _).stations
  | dropFrame => exact hsame (dropFrame_stations s)
  | select => exact hsame (select_stations s)
  | _ => exact hs

theorem Deed.keeps_registry {s t : State} (h : Deed s t) (hs : registryLawful s = true) : registryLawful t = true := by
  have hdrop : t.stations = s.dropFrame.stations → registryLawful t = true :=
    fun he => registryLawful_of_stations (he.trans (dropFrame_stations s)) hs
  cases h with
  | table h => exact h.keeps_registry hs
  | restart => exact registryLawful_cleared (station_of_free rfl)
  | clearTables => exact registryLawful_cleared (station_of_free rfl)
  | silence => exact hdrop rfl
  | stop => exact hdrop rfl
  | directoryReset => exact hdrop rfl
  | powerOn => exact hdrop rfl
  | resetLow => exact hdrop rfl
  | beginFrame => exact registryLawful_of_stations (by rw [beginFrame_reaches]) hs
  | completeOffer => exact registryLawful_of_stations (offerOutcome_reaches _ _ _ _).stations hs
  | completeNotice => exact registryLawful_of_stations (noticeOutcome_reaches _ _ _ _ _ _).stations hs
  | _ => exact hs

/-- Settles O55: every deed keeps the law. -/
theorem stepsKeepTheRegistryLawful : Obligations.StepsKeepTheRegistryLawful := by
  unfold Obligations.StepsKeepTheRegistryLawful
  intro s t hs h
  exact step_keeps (P := fun u => registryLawful u = true) (fun _ _ hu => hu) (fun _ _ hd => hd.keeps_registry)
    (fun _ hu => hu) hs h

end Sys2Proof.Machine
end

section
/-! PROOFS. What a deed does to the roles, said once: `Descends` says what a role has of the role it was, and every deed either makes
each live role descend from the live role at its index, or is one of four gains. -/

namespace Sys2Proof.Machine

open Sys2Proof.Safety

/-! ### The law of a role's record (R43, R84) -/

theorem roleSound_iff (r : Role) : roleSound r = true ↔
    r.tag.legal = true ∧ 1 ≤ r.term ∧ r.term ≤ 4095 ∧ chainSound r.chain = true ∧ tenureSound r = true := by
  simp only [roleSound, Bool.and_eq_true, decide_eq_true_eq, and_assoc]

theorem chainSound_iff (chain : List Claim) : chainSound chain = true ↔
    chain.length ≤ 6 ∧ (∀ c ∈ chain, 1 ≤ c.rank ∧ c.rank ≤ 7) ∧ chain.Pairwise (fun c d => d.rank ≤ c.rank)
      ∧ (chain.map Claim.claimant).Nodup := by
  simp only [chainSound, Bool.and_eq_true, decide_eq_true_eq, List.all_eq_true, and_assoc]

/-- A chain from which records have left is a lawful one. -/
theorem chainSound_sublist {l l' : List Claim} (h : l.Sublist l') (hs : chainSound l' = true) : chainSound l = true := by
  rw [chainSound_iff] at hs ⊢
  obtain ⟨hlen, hrank, horder, honce⟩ := hs
  exact ⟨h.length_le.trans hlen, fun c hc => hrank c (h.subset hc), horder.sublist h, honce.sublist (h.map _)⟩

theorem tenureSound_vacant_iff {r : Role} (ht : r.tenure = .vacant) :
    tenureSound r = true ↔ r.kind = .pinned ∧ r.chain = [] := by
  simp only [tenureSound, ht, Bool.and_eq_true, beq_iff_eq, List.isEmpty_iff]

theorem tenureSound_held_iff {r : Role} {a : Byte} {lease : Nat} {attr : List Byte} (ht : r.tenure = .held a lease attr) :
    tenureSound r = true ↔ 1 ≤ lease ∧ lease ≤ r.term ∧ attr.length ≤ 8 ∧ ∀ c ∈ r.chain, c.claimant ≠ a := by
  simp only [tenureSound, ht, Bool.and_eq_true, decide_eq_true_eq, List.all_eq_true, bne_iff_ne, and_assoc]

/-- A window within its range, where the phase has one (R104). -/
def phaseSound (p : OfferPhase) : Prop :=
  match p with
  | .waiting window => 1 ≤ window ∧ window ≤ 255
  | _ => True

theorem tenureSound_offered_iff {r : Role} {o : Offer} (ht : r.tenure = .offered o) :
    tenureSound r = true ↔ 1 ≤ o.rank ∧ o.rank ≤ 7 ∧ o.number = r.offerNumber ∧ o.attempts ≤ 2
      ∧ (∀ c ∈ r.chain, c.claimant ≠ o.offeree) ∧ phaseSound o.phase := by
  cases hp : o.phase <;>
    simp only [tenureSound, ht, hp, phaseSound, Bool.and_eq_true, decide_eq_true_eq, List.all_eq_true, bne_iff_ne, beq_iff_eq,
      and_assoc, and_true]

theorem tenureSound_vacant {r : Role} (ht : r.tenure = .vacant) (hk : r.kind = .pinned) (hc : r.chain = []) :
    tenureSound r = true := (tenureSound_vacant_iff ht).2 ⟨hk, hc⟩

theorem tenureSound_held {r : Role} {a : Byte} {lease : Nat} {attr : List Byte} (ht : r.tenure = .held a lease attr)
    (h1 : 1 ≤ lease) (h2 : lease ≤ r.term) (h8 : attr.length ≤ 8) (hchain : ∀ c ∈ r.chain, c.claimant ≠ a) :
    tenureSound r = true := (tenureSound_held_iff ht).2 ⟨h1, h2, h8, hchain⟩

theorem tenureSound_offered {r : Role} {o : Offer} (ht : r.tenure = .offered o) (h1 : 1 ≤ o.rank) (h7 : o.rank ≤ 7)
    (hnum : o.number = r.offerNumber) (hatt : o.attempts ≤ 2) (hchain : ∀ c ∈ r.chain, c.claimant ≠ o.offeree)
    (hp : phaseSound o.phase) : tenureSound r = true := (tenureSound_offered_iff ht).2 ⟨h1, h7, hnum, hatt, hchain, hp⟩

/-! ### The addresses that a role names (R40) -/

theorem roleNames_iff (r : Role) (a : Byte) :
    roleNames r a = true ↔ (∃ c ∈ r.chain, c.claimant = a) ∨ heldBy r a = true ∨ Safety.offeredTo r a = true := by
  simp only [roleNames, Bool.or_eq_true, List.any_eq_true, beq_iff_eq, or_assoc]

theorem heldBy_iff (r : Role) (a : Byte) : heldBy r a = true ↔ ∃ lease attr, r.tenure = .held a lease attr := by
  unfold heldBy
  cases r.tenure <;> simp

theorem offeredTo_iff (r : Role) (a : Byte) : Safety.offeredTo r a = true ↔ ∃ o, r.tenure = .offered o ∧ o.offeree = a := by
  unfold Safety.offeredTo
  cases r.tenure <;> simp

/-- Where the chain has only records that it had, and the tenure is what it was or that of someone the role named, it names no one new. -/
theorem roleNames_mono {r r' : Role} {a : Byte} (h : roleNames r' a = true) (hchain : ∀ c ∈ r'.chain, c ∈ r.chain)
    (htenure : heldBy r' a = true ∨ Safety.offeredTo r' a = true → roleNames r a = true) : roleNames r a = true := by
  rcases (roleNames_iff r' a).1 h with ⟨c, hc, ha⟩ | ht
  · exact (roleNames_iff r a).2 (.inl ⟨c, hchain c hc, ha⟩)
  · exact htenure ht

/-! ### Descent -/

/-- What a role has of the role that it was before a deed, under the configuration `c`. -/
structure Descends (c : Configuration) (r r' : Role) : Prop where
  tag : r'.tag = r.tag
  chain : r'.chain.length ≤ r.chain.length
  names : ∀ a, roleNames r' a = true → roleNames r a = true
  vacant : r.tenure = .vacant → r'.tenure = .vacant
  sound : configSound c = true → roleSound r = true → roleSound r' = true

theorem Descends.refl (c : Configuration) (r : Role) : Descends c r r := ⟨rfl, le_refl _, fun _ h => h, id, fun _ h => h⟩

theorem Descends.trans {c : Configuration} {r r' r'' : Role} (h : Descends c r r') (h' : Descends c r' r'') : Descends c r r'' :=
  ⟨h'.tag.trans h.tag, h'.chain.trans h.chain, fun a ha => h.names a (h'.names a ha), fun hv => h'.vacant (h.vacant hv),
    fun hc hs => h'.sound hc (h.sound hc hs)⟩

/-- A role offered to the head of its chain (R98, R105). -/
theorem descends_offerToHead {c : Configuration} {r r' : Role} {g : Half} (ht : r.tenure ≠ .vacant)
    (h : offerToHead r g = some r') : Descends c r r' := by
  unfold offerToHead at h
  split at h
  · rename_i d rest hchain
    cases h
    refine ⟨rfl, ?_, fun b h => roleNames_mono h (fun x hx => ?_) (fun hb => ?_), fun hv => absurd hv ht, fun _ hs => ?_⟩
    · rw [hchain]; exact Nat.le_succ _
    · rw [hchain]; exact List.mem_cons_of_mem _ hx
    · have hd : d.claimant = b := by simpa [heldBy, Safety.offeredTo] using hb
      exact (roleNames_iff r b).2 (.inl ⟨d, by rw [hchain]; exact List.mem_cons_self, hd⟩)
    · obtain ⟨htag, h1, h2, hch, -⟩ := (roleSound_iff r).1 hs
      rw [hchain] at hch
      obtain ⟨-, hrank, -, honce⟩ := (chainSound_iff _).1 hch
      refine (roleSound_iff _).2 ⟨htag, h1, h2, chainSound_sublist (List.sublist_cons_self _ _) hch,
        tenureSound_offered rfl ((hrank d List.mem_cons_self).1) ((hrank d List.mem_cons_self).2) rfl (Nat.zero_le _) (fun x hx hxd => ?_) trivial⟩
      exact (List.nodup_cons.1 honce).1 (List.mem_map.2 ⟨x, hx, hxd⟩)
  · cases h

theorem chain_of_no_head {r : Role} {g : Half} (h : offerToHead r g = none) : r.chain = [] := by
  unfold offerToHead at h
  split at h
  · cases h
  · assumption

/-- A PINNED role left VACANT with an empty chain (R103). -/
theorem descends_vacated {c : Configuration} {r : Role} (hk : r.kind = .pinned) (hchain : r.chain = []) (g : Half) :
    Descends c r { r with tenure := .vacant, generation := g } := by
  refine ⟨rfl, le_refl _, fun b h => roleNames_mono h (fun _ hx => hx) (fun hb => ?_), fun _ => rfl, fun _ hs => ?_⟩
  · simp [heldBy, Safety.offeredTo] at hb
  · obtain ⟨htag, h1, h2, hch, -⟩ := (roleSound_iff r).1 hs
    exact (roleSound_iff _).2 ⟨htag, h1, h2, hch, tenureSound_vacant rfl hk hchain⟩

theorem descends_loss {c : Configuration} {r r' : Role} (ht : r.tenure ≠ .vacant) (h : roleAfterLoss r = some r') :
    Descends c r r' := by
  unfold roleAfterLoss at h
  split at h
  · rename_i hoffer
    cases h
    exact descends_offerToHead ht hoffer
  · rename_i hnone hk
    cases h
    exact descends_vacated hk (chain_of_no_head hnone) _
  · cases h

theorem descends_skip {c : Configuration} {r r' : Role} (ht : r.tenure ≠ .vacant) (h : roleAfterSkip r = some r') :
    Descends c r r' := by
  unfold roleAfterSkip at h
  split at h
  · rename_i hoffer
    cases h
    exact descends_offerToHead ht hoffer
  · rename_i hnone hk
    cases h
    exact descends_vacated hk (chain_of_no_head hnone) _
  · cases h

/-- A role whose tenure alone is replaced by one of the same holder or offeree. -/
theorem descends_tenure {c : Configuration} {r : Role} {t : Tenure} (g : Half)
    (hnames : ∀ a, heldBy { r with tenure := t } a = true ∨ Safety.offeredTo { r with tenure := t } a = true →
      heldBy r a = true ∨ Safety.offeredTo r a = true)
    (hvacant : r.tenure = .vacant → t = .vacant)
    (hsound : configSound c = true → roleSound r = true → tenureSound { r with tenure := t, generation := g } = true) :
    Descends c r { r with tenure := t, generation := g } := by
  refine ⟨rfl, le_refl _, fun b h => roleNames_mono h (fun _ hx => hx) (fun hb => ?_), hvacant, fun hc hs => ?_⟩
  · exact (roleNames_iff r b).2 (.inr (hnames b hb))
  · obtain ⟨htag, h1, h2, hch, -⟩ := (roleSound_iff r).1 hs
    exact (roleSound_iff _).2 ⟨htag, h1, h2, hch, hsound hc hs⟩

/-- Another phase and another count of attempts of the same offer (R104, R110, R111). -/
theorem descends_phase {c : Configuration} {r : Role} {o : Offer} (ht : r.tenure = .offered o) {p : OfferPhase} {n : Nat}
    (hp : configSound c = true → roleSound r = true → phaseSound p) (hn : n ≤ 2 ∨ n ≤ o.attempts) :
    Descends c r { r with tenure := .offered { o with phase := p, attempts := n } } := by
  refine descends_tenure r.generation (fun a ha => .inr ?_) (fun hv => ?_) (fun hc hs => ?_)
  · have ho : o.offeree = a := by simpa [heldBy, Safety.offeredTo] using ha
    exact (offeredTo_iff r a).2 ⟨o, ht, ho⟩
  · rw [ht] at hv; cases hv
  · obtain ⟨h1, h7, hnum, hatt, hchain, -⟩ := (tenureSound_offered_iff ht).1 ((roleSound_iff r).1 hs).2.2.2.2
    exact tenureSound_offered rfl h1 h7 hnum (by simp only; omega) hchain (hp hc hs)

/-- A grant to the offeree (R90, R110, R113). -/
theorem descends_grant {c : Configuration} {r : Role} {a : Byte} (ho : Safety.offeredTo r a = true) (g : Half) :
    Descends c r { r with tenure := .held a r.term [], generation := g } := by
  obtain ⟨o, ht, rfl⟩ := (offeredTo_iff r a).1 ho
  refine descends_tenure g (fun b hb => .inr ?_) (fun hv => ?_) (fun _ hs => ?_)
  · have hab : o.offeree = b := by simpa [heldBy, Safety.offeredTo] using hb
    exact hab ▸ ho
  · rw [ht] at hv; cases hv
  · obtain ⟨-, h1, -, -, htenure⟩ := (roleSound_iff r).1 hs
    obtain ⟨-, -, -, -, hchain, -⟩ := (tenureSound_offered_iff ht).1 htenure
    exact tenureSound_held rfl h1 (le_refl _) (Nat.zero_le _) hchain

/-- Another lease or another publication of the same holder (R63, R70, R75). -/
theorem descends_held {c : Configuration} {r : Role} {a : Byte} {lease lease' : Nat} {attr attr' : List Byte}
    (ht : r.tenure = .held a lease attr) (g : Half)
    (hok : 1 ≤ r.term → 1 ≤ lease → lease ≤ r.term → attr.length ≤ 8 → 1 ≤ lease' ∧ lease' ≤ r.term ∧ attr'.length ≤ 8) :
    Descends c r { r with tenure := .held a lease' attr', generation := g } := by
  refine descends_tenure g (fun b hb => .inl ?_) (fun hv => ?_) (fun _ hs => ?_)
  · have hab : a = b := by simpa [heldBy, Safety.offeredTo] using hb
    exact (heldBy_iff r b).2 ⟨lease, attr, hab ▸ ht⟩
  · rw [ht] at hv; cases hv
  · obtain ⟨-, hterm, -, -, htenure⟩ := (roleSound_iff r).1 hs
    obtain ⟨h1, h2, h8, hchain⟩ := (tenureSound_held_iff ht).1 htenure
    obtain ⟨h1', h2', h8'⟩ := hok hterm h1 h2 h8
    exact tenureSound_held rfl h1' h2' h8' hchain

/-- Records leave the chain (R96, R99). -/
theorem descends_filter (c : Configuration) (r : Role) (p : Claim → Bool) :
    Descends c r { r with chain := r.chain.filter p } := by
  refine ⟨rfl, List.length_filter_le _ _, fun b h => roleNames_mono h (fun x hx => (List.mem_filter.1 hx).1) (fun hb => ?_),
    id, fun _ hs => ?_⟩
  · exact (roleNames_iff r b).2 (.inr hb)
  · obtain ⟨htag, h1, h2, hch, htenure⟩ := (roleSound_iff r).1 hs
    refine (roleSound_iff _).2 ⟨htag, h1, h2, chainSound_sublist List.filter_sublist hch, ?_⟩
    cases ht : r.tenure with
    | vacant =>
      obtain ⟨hk, hc⟩ := (tenureSound_vacant_iff ht).1 htenure
      exact tenureSound_vacant rfl hk (by simp [hc])
    | held a lease attr =>
      obtain ⟨h3, h4, h5, hall⟩ := (tenureSound_held_iff ht).1 htenure
      exact tenureSound_held rfl h3 h4 h5 (fun x hx => hall x (List.mem_filter.1 hx).1)
    | offered o =>
      obtain ⟨h3, h4, h5, h6, hall, h7⟩ := (tenureSound_offered_iff ht).1 htenure
      exact tenureSound_offered rfl h3 h4 h5 h6 (fun x hx => hall x (List.mem_filter.1 hx).1) h7

theorem tenure_of_lapses {r : Role} (h : lapses r = true) : r.tenure ≠ .vacant := by
  intro hv
  simp [lapses, hv] at h

theorem tenure_of_expires {r : Role} (h : expires r = true) : r.tenure ≠ .vacant := by
  intro hv
  simp [expires, hv] at h

/-- A lease tick (R70). -/
theorem descends_tick {c : Configuration} {r r' : Role} (h : roleAfterTick r = some r') : Descends c r r' := by
  cases hl : lapses r with
  | true => exact descends_loss (tenure_of_lapses hl) (roleAfterTick_of_lapses hl ▸ h)
  | false =>
    cases he : expires r with
    | true => exact descends_skip (tenure_of_expires he) (roleAfterTick_of_expires he ▸ h)
    | false =>
      unfold roleAfterTick at h
      cases ht : r.tenure with
      | vacant =>
        simp only [ht] at h
        cases h
        exact .refl c r
      | held a lease attr =>
        have h2 : 1 < lease := by simpa [lapses, ht] using hl
        simp only [ht, show 2 ≤ lease from h2, if_true] at h
        cases h
        exact descends_held ht r.generation (fun _ _ _ _ => ⟨by omega, by omega, by assumption⟩)
      | offered o =>
        simp only [ht] at h
        cases hp : o.phase with
        | waiting window =>
          have h2 : 1 < window := by simpa [expires, ht, hp] using he
          simp only [hp, show 2 ≤ window from h2, if_true] at h
          cases h
          refine descends_phase ht (fun _ hs => ?_) (.inr (le_refl _))
          have hw : 1 ≤ window ∧ window ≤ 255 := by
            simpa only [phaseSound, hp] using ((tenureSound_offered_iff ht).1 ((roleSound_iff r).1 hs).2.2.2.2).2.2.2.2.2
          exact ⟨by omega, by omega⟩
        | pendingSend => simp only [hp] at h; cases h; exact .refl c r
        | inFlight => simp only [hp] at h; cases h; exact .refl c r

theorem tenure_of_member {r : Role} {a : Byte} (h : heldBy r a = true ∨ Safety.offeredTo r a = true) : r.tenure ≠ .vacant := by
  intro hv
  simp [heldBy, Safety.offeredTo, hv] at h

/-- A purge (R39, R99, R119). -/
theorem descends_purge {c : Configuration} {a : Byte} {r r' : Role} (h : roleAfterPurge a r = some r') : Descends c r r' := by
  unfold roleAfterPurge at h
  dsimp only at h
  have hkept := descends_filter c r (fun d => d.claimant != a)
  split_ifs at h with hheld hoffered
  · exact hkept.trans (descends_loss (r := { r with chain := _ }) (tenure_of_member (.inl hheld)) h)
  · exact hkept.trans (descends_skip (r := { r with chain := _ }) (tenure_of_member (.inr hoffered)) h)
  · cases h; exact hkept

/-- A restart (R19). -/
theorem descends_restart {c : Configuration} {r r' : Role} (h : roleAfterRestart r = some r') : Descends c r r' := by
  unfold roleAfterRestart at h
  split at h
  · cases h
  · rename_i hk
    cases h
    refine ⟨rfl, Nat.zero_le _, fun b h => roleNames_mono h (fun _ hx => by cases hx) (fun hb => ?_), fun _ => rfl, fun _ hs => ?_⟩
    · simp [heldBy, Safety.offeredTo] at hb
    · obtain ⟨htag, h1, h2, hch, -⟩ := (roleSound_iff r).1 hs
      exact (roleSound_iff _).2 ⟨htag, h1, h2, chainSound_sublist (List.nil_sublist _) hch,
        tenureSound_vacant rfl hk rfl⟩

/-- A RENEW, or a CLAIM by the holder (R75, R89). -/
theorem descends_restore (c : Configuration) (r : Role) : Descends c r r.restored := by
  unfold Role.restored
  split
  · rename_i a lease attr ht
    exact descends_held ht r.generation (fun h1 _ _ h8 => ⟨h1, le_refl _, h8⟩)
  · exact .refl c r

/-- Another term, to which a lease is clamped, and another kind (R45, R79). -/
theorem descends_setTerm {c : Configuration} {r : Role} {term : Nat} {kind : Kind} (h1 : 1 ≤ term) (h2 : term ≤ 4095)
    (hk : kind = r.kind ∨ kind = .pinned) : Descends c r { r.withTerm term with kind := kind } := by
  have hsound : ∀ t : Tenure, (configSound c = true → roleSound r = true →
      tenureSound { r with term := term, tenure := t, kind := kind } = true) → configSound c = true → roleSound r = true →
      roleSound { r with term := term, tenure := t, kind := kind } = true := by
    intro t ht hc hs
    obtain ⟨htag, -, -, hch, -⟩ := (roleSound_iff r).1 hs
    exact (roleSound_iff _).2 ⟨htag, h1, h2, hch, ht hc hs⟩
  unfold Role.withTerm
  split
  · rename_i a lease attr ht
    refine ⟨rfl, le_refl _, fun b h => roleNames_mono h (fun _ hx => hx) (fun hb => ?_), fun hv => ?_, hsound _ fun _ hs => ?_⟩
    · have hab : a = b := by simpa [heldBy, Safety.offeredTo] using hb
      exact (roleNames_iff r b).2 (.inr (.inl ((heldBy_iff r b).2 ⟨lease, attr, hab ▸ ht⟩)))
    · rw [ht] at hv; cases hv
    · obtain ⟨h3, h4, h5, hall⟩ := (tenureSound_held_iff ht).1 ((roleSound_iff r).1 hs).2.2.2.2
      exact tenureSound_held rfl (by omega) (min_le_right _ _) h5 hall
  · rename_i hother
    refine ⟨rfl, le_refl _, fun b h => roleNames_mono h (fun _ hx => hx) (fun hb => ?_), id, hsound _ fun _ hs => ?_⟩
    · exact (roleNames_iff r b).2 (.inr hb)
    · have htenure := ((roleSound_iff r).1 hs).2.2.2.2
      cases ht : r.tenure with
      | held a lease attr => exact absurd ht (hother a lease attr)
      | vacant =>
        obtain ⟨hpinned, hc⟩ := (tenureSound_vacant_iff ht).1 htenure
        exact tenureSound_vacant rfl (hk.elim (·.trans hpinned) id) hc
      | offered o => exact (tenureSound_offered_iff rfl).2 ((tenureSound_offered_iff ht).1 htenure)

end Sys2Proof.Machine
end

section
/-! PROOFS. The role table under the deeds: where the roles of a state descend from those of the state before, the law of roles (O53),
the tags and the claim pool (O54) are kept; the gains of a role or a claim are four deeds of their own. -/

namespace Sys2Proof.Machine

open Sys2Proof.Safety

/-! ### What a withdrawal, a selection and an outcome come to -/

/-- A frame dropped: the record is emptied, a current offer waits again, and the watch of a begun notice is pending again (R149). -/
theorem dropFrame_cases (s : State) :
    s.dropFrame = { s with frame := none }
      ∨ (∃ f h number r o, s.frame = some f ∧ f.subject = .offer h number ∧ offerOn s h number r o ∧
          s.dropFrame = ({ s with frame := none } : State).putRole h.index.toNat
            { r with tenure := .offered { o with phase := .pendingSend } })
      ∨ ∃ f n watcher h w, s.frame = some f ∧ f.subject = .watch n watcher h ∧ watchOn s n watcher h w ∧
          s.dropFrame = ({ s with frame := none } : State).setWatch n (some { w with isPending := true }) := by
  cases hf : s.frame with
  | none => exact .inl (by rw [dropFrame_of_no_frame hf, ← hf])
  | some f =>
    cases hs : f.subject with
    | restart => exact .inl (dropFrame_restart hf hs)
    | offer h number =>
      cases hc : s.currentOffer h number with
      | none => exact .inl (dropFrame_stale_offer hf hs hc)
      | some p =>
        exact .inr (.inl ⟨f, h, number, p.1, p.2, rfl, hs, (currentOffer_iff s h number p.1 p.2).1 hc,
          dropFrame_current_offer hf hs hc⟩)
    | watch n watcher h =>
      cases hw : s.watchNamed n watcher h with
      | none => exact .inl (dropFrame_idle_watch hf hs (.inl hw))
      | some w =>
        cases hb : f.begun with
        | false => exact .inl (dropFrame_idle_watch hf hs (.inr hb))
        | true =>
          exact .inr (.inr ⟨f, n, watcher, h, w, rfl, hs, (watchNamed_eq_some_iff s n watcher h w).1 hw,
            dropFrame_begun_watch hf hs hw hb⟩)

/-- A selection: nothing, or one of the three frames, for which the record is empty and no reset is under way (R141). -/
theorem select_cases (s : State) :
    s.select = s
      ∨ (s.frame = none ∧ portOpen s ∧
          ((s.link = .announcing ∧ s.announced = false ∧
              s.select = { s with frame := some (newFrame .restart Config.broadcast) })
            ∨ (s.link = .online ∧ ∃ i r o, s.roleAt i = some r ∧ r.tenure = .offered o ∧ o.phase = .pendingSend ∧
              s.select = { s.putRole i { r with tenure := .offered { o with phase := .inFlight } } with
                frame := some (newFrame (.offer (s.handleAt i) o.number) o.offeree) })
            ∨ (s.link = .online ∧ ∃ n w, noticeWaits s n w ∧
              s.select = { s with frame := some (newFrame (.watch n w.watcher w.handle) w.watcher) }))) := by
  unfold State.select
  split
  · exact .inl rfl
  · rename_i hclear
    have hready : s.frame = none ∧ portOpen s := by
      cases hf : s.frame with
      | some f => simp [hf] at hclear
      | none =>
        cases hc : s.clearing with
        | some k => simp [hc] at hclear
        | none => exact ⟨rfl, by simpa [hf, hc] using hclear, hc⟩
    split
    · rename_i hl
      split
      · exact .inl rfl
      · rename_i ha
        exact .inr ⟨hready.1, hready.2, .inl ⟨hl, Bool.eq_false_of_not_eq_true ha, rfl⟩⟩
    · rename_i hl
      split
      · rename_i i hfirst
        obtain ⟨⟨r, o, hr, ht, hp⟩, -⟩ := (firstOffer_eq_some_iff s i).1 hfirst
        refine .inr ⟨hready.1, hready.2, .inr (.inl ⟨hl, i, r, o, hr, ht, hp, ?_⟩)⟩
        simp only [State.selectOffer, onRole_some hr, ht, setOfferPhase_eq hr ht]
      · split
        · rename_i n w hnotice
          exact .inr ⟨hready.1, hready.2, .inr (.inr ⟨hl, n, w, (firstNotice_spec hnotice).1, rfl⟩)⟩
        · exact .inl rfl
    · exact .inl rfl

/-- The outcome of an OFFER: nothing where the offer is not current; else a grant to the offeree, a skip, the window, or another attempt (R110, R111). -/
theorem offerOutcome_cases (s : State) (h : Handle) (number : Byte) (outcome : FrameOutcome) :
    s.offerOutcome h number outcome = s ∧ s.currentOffer h number = none
      ∨ ∃ r o, offerOn s h number r o ∧
        (s.offerOutcome h number outcome = afterGrant s h r o.offeree
          ∨ s.offerOutcome h number outcome = afterSkip s h r
          ∨ s.offerOutcome h number outcome =
              s.putRole h.index.toNat { r with tenure := .offered { o with phase := .waiting s.config.offerWindow } }
          ∨ o.attempts ≤ 1 ∧ s.offerOutcome h number outcome =
              s.putRole h.index.toNat { r with tenure := .offered { o with attempts := o.attempts + 1, phase := .pendingSend } }) := by
  cases hc : s.currentOffer h number with
  | none => exact .inl ⟨by simp only [State.offerOutcome, hc], rfl⟩
  | some p =>
    obtain ⟨r, o⟩ := p
    refine .inr ⟨r, o, (currentOffer_iff s h number r o).1 hc, ?_⟩
    have hfailed : ∀ t, t = afterFailure s h r o → t = afterSkip s h r ∨ o.attempts ≤ 1 ∧ t =
        s.putRole h.index.toNat { r with tenure := .offered { o with attempts := o.attempts + 1, phase := .pendingSend } } := by
      rintro t rfl
      unfold afterFailure
      split
      · rename_i hfew
        exact .inr ⟨hfew, rfl⟩
      · exact .inl rfl
    have hfails : (∀ x, outcome ≠ .valid x) → _ := fun hv => hfailed _ (offerOutcome_failed hc outcome hv)
    cases outcome with
    | valid status =>
      rw [offerOutcome_valid hc]
      unfold afterOfferAnswer
      split_ifs
      · exact .inl rfl
      · exact .inr (.inl rfl)
      · exact .inr (.inr (.inl rfl))
      · rcases hfailed _ rfl with h | h
        · exact .inr (.inl h)
        · exact .inr (.inr (.inr h))
    | _ =>
      rcases hfails (by simp) with h | h
      · exact .inr (.inl h)
      · exact .inr (.inr (.inr h))

/-! ### Roles that come from the roles before -/

/-- Every live role of `t` stands, in the same life of its entry, where a role of `s` stood that `R` leads from. -/
def RolesBy (R : Role → Role → Prop) (s t : State) : Prop :=
  ∀ i r', t.roleAt i = some r' → t.handleAt i = s.handleAt i ∧ ∃ r, s.roleAt i = some r ∧ R r r'

section
variable {R : Role → Role → Prop} {s t u : State}

theorem RolesBy.of_incarnations (hinc : ∀ j, incarnationAt t j = incarnationAt s j)
    (h : ∀ j r', t.roleAt j = some r' → ∃ r, s.roleAt j = some r ∧ R r r') : RolesBy R s t :=
  fun j r' hr' => ⟨handleAt_of_incarnation (hinc j), h j r' hr'⟩

theorem RolesBy.of_roles (hR : ∀ r, R r r) (h : t.roles = s.roles) : RolesBy R s t :=
  .of_incarnations (fun j => incarnationAt_of_roles h j) fun j r' hr' => ⟨r', by rw [← roleAt_of_roles h]; exact hr', hR r'⟩

theorem RolesBy.trans (hR : ∀ {r r' r''}, R r r' → R r' r'' → R r r'') (h : RolesBy R s t) (h' : RolesBy R t u) :
    RolesBy R s u := by
  intro i r'' hr''
  obtain ⟨he', r', hr', h2⟩ := h' i r'' hr''
  obtain ⟨he, r, hr, h1⟩ := h i r' hr'
  exact ⟨he'.trans he, r, hr, hR h1 h2⟩

/-- One role acted on alone. -/
theorem RolesBy.at (hR : ∀ r, R r r) {i : Nat} {r : Role} {o : Option Role} (hr : s.roleAt i = some r)
    (hinc : ∀ j, incarnationAt t j = incarnationAt s j) (hroles : ∀ j, t.roleAt j = if j = i then o else s.roleAt j)
    (ho : ∀ r', o = some r' → R r r') : RolesBy R s t :=
  .of_incarnations hinc fun j r' hr' => by
    rw [hroles] at hr'
    split at hr'
    · rename_i hj
      exact ⟨r, by rw [hj, hr], ho r' hr'⟩
    · exact ⟨r', hr', hR r'⟩

theorem RolesBy.putRole (hR : ∀ r, R r r) {i : Nat} {r r' : Role} (hr : s.roleAt i = some r) (h : R r r') :
    RolesBy R s (s.putRole i r') :=
  .at hR hr (fun _ => incarnation_putRole _ _ _ _) (o := some r')
    (fun j => by rw [roleAt_putRole]; simp only [roleAt_lt hr, and_true]) (fun _ he => by cases he; exact h)

theorem RolesBy.freeEntry (hR : ∀ r, R r r) {i : Nat} {r : Role} (hr : s.roleAt i = some r) : RolesBy R s (s.freeEntry i) :=
  .at hR hr (fun _ => incarnation_freeEntry _ _ _) (o := none) (fun j => roleAt_freeEntry s i j) (fun _ he => by cases he)

theorem RolesBy.afterLoss (hR : ∀ r, R r r) {i : Nat} {r : Role} (hr : s.roleAt i = some r)
    (h : ∀ r', roleAfterLoss r = some r' → R r r') : RolesBy R s (afterLoss s (s.handleAt i) r) :=
  .at hR hr (fun _ => incarnationAt_afterLoss _ _ _ _)
    (fun j => roleAt_afterLoss (roleAt_lt hr) _ (handleAt_index (roleAt_lt hr)) r j) h

theorem RolesBy.afterSkip (hR : ∀ r, R r r) {i : Nat} {r : Role} (hr : s.roleAt i = some r)
    (h : ∀ r', roleAfterSkip r = some r' → R r r') : RolesBy R s (afterSkip s (s.handleAt i) r) :=
  .at hR hr (fun _ => incarnationAt_afterSkip _ _ _ _) (fun j => roleAt_afterSkip (roleAt_lt hr) r j) h

theorem RolesBy.tickRole (hR : ∀ r, R r r) (h : ∀ r r', roleAfterTick r = some r' → R r r') (s : State) (i : Nat) :
    RolesBy R s (s.tickRole i) := by
  refine .of_incarnations (fun j => (tickRole_acts s i j).2) fun j r' hr' => ?_
  rw [(tickRole_acts s i j).1] at hr'
  split at hr'
  · rename_i hj
    obtain ⟨r, hr, htick⟩ := Option.bind_eq_some_iff.1 hr'
    exact ⟨r, hj ▸ hr, h r r' htick⟩
  · exact ⟨r', hr', hR r'⟩

theorem RolesBy.purge {a : Byte} (h : ∀ r r', roleAfterPurge a r = some r' → R r r') (s : State) : RolesBy R s (s.purge a) := by
  refine .of_incarnations (fun j => (purge_roles s a j).2) fun j r' hr' => ?_
  rw [(purge_roles s a j).1] at hr'
  obtain ⟨r, hr, hp⟩ := Option.bind_eq_some_iff.1 hr'
  exact ⟨r, hr, h r r' hp⟩

theorem RolesBy.dropFrame (hR : ∀ r, R r r)
    (h : ∀ r o, r.tenure = .offered o → R r { r with tenure := .offered { o with phase := .pendingSend } }) (s : State) :
    RolesBy R s s.dropFrame := by
  rcases dropFrame_cases s with he | ⟨f, x, number, r, o, -, -, ⟨hn, ht, -, -⟩, he⟩ | ⟨f, n, watcher, x, w, -, -, -, he⟩
  · exact .of_roles hR (by rw [he])
  · rw [he]
    exact RolesBy.putRole (s := { s with frame := none }) hR (roleAt_of_named hn) (h r o ht)
  · exact .of_roles hR (by rw [he]; rfl)

theorem RolesBy.select (hR : ∀ r, R r r)
    (h : ∀ r o, r.tenure = .offered o → R r { r with tenure := .offered { o with phase := .inFlight } }) (s : State) :
    RolesBy R s s.select := by
  rcases select_cases s with he | ⟨-, -, ⟨-, -, he⟩ | ⟨-, i, r, o, hr, ht, -, he⟩ | ⟨-, n, w, -, he⟩⟩
  · exact .of_roles hR (by rw [he])
  · exact .of_roles hR (by rw [he])
  · rw [he]
    exact RolesBy.putRole hR hr (h r o ht)
  · exact .of_roles hR (by rw [he])

end

/-! ### The deeds -/

/-- The phase of an offer back to PENDING SEND, or to IN FLIGHT (R108, R149). -/
theorem descends_phase_alone (c : Configuration) {r : Role} {o : Offer} (ht : r.tenure = .offered o) {p : OfferPhase}
    (hp : phaseSound p) : Descends c r { r with tenure := .offered { o with phase := p } } :=
  descends_phase ht (fun _ _ => hp) (.inr (le_refl _))

theorem offerOutcome_descends (s : State) (h : Handle) (number : Byte) (outcome : FrameOutcome) :
    RolesBy (Descends s.config) s (s.offerOutcome h number outcome) := by
  have hR := Descends.refl s.config
  rcases offerOutcome_cases s h number outcome with ⟨he, -⟩ | ⟨r, o, ⟨hn, ht, -, -⟩, hcases⟩
  · rw [he]; exact .of_roles hR rfl
  · have hr := roleAt_of_named hn
    rcases hcases with he | he | he | ⟨hfew, he⟩ <;> rw [he]
    · exact RolesBy.trans (Descends.trans) (.putRole hR hr
        (descends_grant ((offeredTo_iff r _).2 ⟨o, ht, rfl⟩) _)) (.of_roles hR rfl)
    · have := RolesBy.afterSkip hR hr (fun _ => descends_skip (c := s.config) (by rw [ht]; exact Tenure.noConfusion))
      rwa [handleAt_of_named hn] at this
    · refine .putRole hR hr (descends_phase ht (fun hc _ => ?_) (.inr (le_refl _)))
      simp only [configSound, Bool.and_eq_true, decide_eq_true_eq] at hc
      exact ⟨hc.1.1.1.2, hc.1.1.2⟩
    · exact .putRole hR hr (descends_phase ht (fun _ _ => trivial) (.inl (by omega)))

/-- A role or a claim that a deed adds. -/
inductive RoleGain (s : State) : State → Prop
  | define {i : Nat} {t : Tag} {term : Nat} (hfree : s.freeIndex = some i) (hnew : s.roleOfTag t = none)
      (hlegal : t.legal = true) (h1 : 1 ≤ term) (h2 : term ≤ 4095) : RoleGain s (s.create i t .pinned term)
  | found {i : Nat} {t : Tag} {a : Byte} (hfree : s.freeIndex = some i) (hnew : s.roleOfTag t = none)
      (hlegal : t.legal = true) (hj : joined s a = true) (hl : s.link = .online) :
      RoleGain s ((s.create i t .transient s.config.defaultTerm).grant i a)
  | grant {i : Nat} {r : Role} {a : Byte} (hr : s.roleAt i = some r) (ht : r.tenure = .vacant) (hj : joined s a = true)
      (hl : s.link = .online) : RoleGain s (s.grant i a)
  | queue {i : Nat} {r : Role} {a : Byte} {rank : Nat} (hr : s.roleAt i = some r) (ht : r.tenure ≠ .vacant)
      (hheld : heldBy r a = false) (hoffered : Safety.offeredTo r a = false) (hplace : positionOf a r.chain = none)
      (hchain : r.chain.length < 6) (hpool : s.claimsInUse < 64) (h1 : 1 ≤ rank) (h7 : rank ≤ 7) (hj : joined s a = true) :
      RoleGain s (s.putRole i { r with chain := insertClaim ⟨a, rank⟩ r.chain })

theorem TableDeed.descends {s t : State} (h : TableDeed s t) :
    RolesBy (Descends s.config) s t ∨ RoleGain s t := by
  have hR := Descends.refl s.config
  have hsame : t.roles = s.roles → RolesBy (Descends s.config) s t ∨ RoleGain s t := fun he => .inl (.of_roles hR he)
  cases h with
  | clearStrikes a => exact hsame (clearStrikes_eq_iff s a).1
  | strike => exact hsame (by rw [setStation_only])
  | allocate => exact hsame (by rw [setStation_only])
  | depart => exact hsame (by rw [setStation_only])
  | purge a => exact .inl (.purge (fun _ _ => descends_purge) s)
  | publish hr ht hlen =>
    exact .inl (RolesBy.trans (Descends.trans)
      (.putRole hR hr (descends_held ht _ (fun _ h1 h2 _ => ⟨h1, h2, hlen⟩))) (.of_roles hR rfl))
  | restore hr => exact .inl (.putRole hR hr (descends_restore _ _))
  | setTerm hr h1 h2 hk => exact .inl (.putRole hR hr (descends_setTerm h1 h2 hk))
  | define hfree hnew hlegal h1 h2 => exact .inr (.define hfree hnew hlegal h1 h2)
  | found hfree hnew hlegal hj hl => exact .inr (.found hfree hnew hlegal hj hl)
  | grant hr ht hj hl =>
    rcases ht with ht | ho
    · exact .inr (.grant hr ht hj hl)
    · left
      rw [grant_eq hr, afterGrant, handleAt_index (roleAt_lt hr)]
      exact RolesBy.trans (Descends.trans) (.putRole hR hr (descends_grant ho _)) (.of_roles hR rfl)
  | retire hr =>
    left
    rw [retire_eq hr, afterRetirement, handleAt_index (roleAt_lt hr)]
    exact RolesBy.trans (Descends.trans) (.of_roles hR rfl) (.freeEntry hR hr)
  | loseHolder hr ht => exact .inl (loseHolder_eq hr ▸ .afterLoss hR hr (fun _ => descends_loss ht))
  | skip hr ht => exact .inl (skip_eq hr ▸ .afterSkip hR hr (fun _ => descends_skip ht))
  | tickRole i => exact .inl (.tickRole hR (fun _ _ => descends_tick) s i)
  | queue hr ht hheld hoffered hplace hchain hpool h1 h7 hj =>
    exact .inr (.queue hr ht hheld hoffered hplace hchain hpool h1 h7 hj)
  | unqueue a hr => exact .inl (.putRole hR hr (descends_filter _ _ _))
  | vacancyAtLeast x => exact hsame (by unfold State.vacancyAtLeast; split; split <;> rfl; rfl)
  | dropFrame => exact .inl (.dropFrame hR (fun _ _ ht => descends_phase_alone _ ht trivial) s)
  | select => exact .inl (.select hR (fun _ _ ht => descends_phase_alone _ ht trivial) s)
  | _ => exact hsame rfl

theorem roleAt_cleared (s : State) (kind : ResetKind) (i : Nat) : (s.cleared kind).roleAt i = none := by
  simp only [State.roleAt, State.cleared, mapRows_getElem?]
  cases s.roles[i]? <;> rfl

theorem Deed.descends {s t : State} (h : Deed s t) : RolesBy (Descends s.config) s t ∨ RoleGain s t := by
  have hR := Descends.refl s.config
  have hdropped : t.roles = s.dropFrame.roles → RolesBy (Descends s.config) s t ∨ RoleGain s t := fun he =>
    .inl (RolesBy.trans (Descends.trans)
      (.dropFrame hR (fun _ _ ht => descends_phase_alone _ ht trivial) s) (.of_roles hR he))
  cases h with
  | table h => exact h.descends
  | silence => exact hdropped rfl
  | stop => exact hdropped rfl
  | directoryReset => exact hdropped rfl
  | powerOn => exact hdropped rfl
  | resetLow => exact hdropped rfl
  | restart =>
    left
    refine .of_incarnations (fun j => incarnationAt_restart s _ j) fun j r' hr' => ?_
    rw [roleAt_restart] at hr'
    obtain ⟨r, hr, h⟩ := Option.bind_eq_some_iff.1 hr'
    exact ⟨r, hr, descends_restart h⟩
  | clearTables =>
    left
    intro i r' hr'
    rw [roleAt_cleared] at hr'
    cases hr'
  | beginFrame => exact .inl (.of_roles hR (by rw [beginFrame_reaches]))
  | completeOffer hf hs hp outcome => exact .inl (offerOutcome_descends { s with frame := none } _ _ outcome)
  | completeNotice =>
    refine .inl (.of_roles hR ?_)
    unfold State.noticeOutcome State.failNotice
    split
    · rfl
    · split_ifs <;> rfl
  | _ => exact .inl (.of_roles hR rfl)

end Sys2Proof.Machine
end

section
/-! PROOFS. The law of roles (O53), the tags and the claim pool (O54): each law said of indices, kept where roles descend, and kept at
each of the four gains. -/

namespace Sys2Proof.Machine

open Sys2Proof.Safety

/-! ### Finding and creating (R46, R49, R55) -/

theorem freeIndex_spec {s : State} {i : Nat} (h : s.freeIndex = some i) : i < 96 ∧ s.roleAt i = none := by
  obtain ⟨⟨e, he, hfree⟩, -⟩ := (findRow_eq_some_iff _ _ _).1 h
  exact ⟨row_lt he, by simpa [State.roleAt, he] using hfree⟩

theorem uncarried_of_roleOfTag {s : State} {t : Tag} (h : s.roleOfTag t = none) : uncarried s t := by
  intro j r hr htag
  have := (findRow_eq_none_iff _ _).1 h _ _ (row_of_roleAt hr)
  simp [htag] at this

theorem roleAt_create_at (s : State) (i j : Nat) (t : Tag) (kind : Kind) (term : Nat) :
    (s.create i t kind term).roleAt j =
      if j = i ∧ i < 96 then some ⟨t, kind, .vacant, term, 0, 0, []⟩ else s.roleAt j := by
  unfold State.roleAt State.create
  simp only [modifyRow_getElem?]
  by_cases h : j = i
  · subst h
    by_cases hj : j < 96
    · obtain ⟨e, he⟩ := row_of_lt s.roles hj
      simp [hj]
    · rw [Vector.getElem?_eq_none (show 96 ≤ j by omega)]
      simp [hj]
  · simp [h]

theorem handleAt_create_other {s : State} {i j : Nat} (h : j ≠ i) (t : Tag) (kind : Kind) (term : Nat) :
    (s.create i t kind term).handleAt j = s.handleAt j := by
  simp [State.handleAt, State.create, modifyRow_getElem?, h]

theorem nextIncarnation_ne_zero (n : Byte) : nextIncarnation n ≠ 0 := by
  unfold nextIncarnation
  split
  · decide
  · rename_i he
    intro h
    apply he
    bv_omega

theorem incarnation_create {s : State} {i : Nat} (hi : i < 96) (t : Tag) (kind : Kind) (term : Nat) :
    ((s.create i t kind term).handleAt i).incarnation ≠ 0 := by
  obtain ⟨e, he⟩ := row_of_lt s.roles hi
  rw [handleAt_create (n := e.incarnation) (by simp [incarnationAt, he])]
  exact nextIncarnation_ne_zero _

/-- The role that a CLAIM founds: HELD by the claimant at generation 1 (R56). -/
def foundedRole (t : Tag) (term : Nat) (a : Byte) : Role := ⟨t, .transient, .held a term [], term, 1, 0, []⟩

theorem found_eq {s : State} {i : Nat} (hfree : s.freeIndex = some i) (t : Tag) (term : Nat) (a : Byte) :
    (s.create i t .transient term).grant i a =
      ((s.create i t .transient term).putRole i (foundedRole t term a)).markPending ((s.create i t .transient term).handleAt i) := by
  have hi := (freeIndex_spec hfree).1
  have hr : (s.create i t .transient term).roleAt i = some ⟨t, .transient, .vacant, term, 0, 0, []⟩ := by
    rw [roleAt_create_at, if_pos ⟨rfl, hi⟩]
  rw [grant_eq hr, afterGrant, handleAt_index hi]
  rfl

theorem roleAt_found {s : State} {i : Nat} (hfree : s.freeIndex = some i) (t : Tag) (term : Nat) (a : Byte) (j : Nat) :
    ((s.create i t .transient term).grant i a).roleAt j =
      if j = i then some (foundedRole t term a) else s.roleAt j := by
  have hi := (freeIndex_spec hfree).1
  rw [found_eq hfree, roleAt_markPending, roleAt_putRole, roleAt_create_at]
  by_cases hj : j = i <;> simp [hj, hi]

theorem handleAt_found {s : State} {i : Nat} (hfree : s.freeIndex = some i) (t : Tag) (term : Nat) (a : Byte) (j : Nat) :
    ((s.create i t .transient term).grant i a).handleAt j = (s.create i t .transient term).handleAt j := by
  rw [found_eq hfree, handleAt_markPending, handleAt_putRole]

theorem roleAt_grant {s : State} {i : Nat} {r : Role} (hr : s.roleAt i = some r) (a : Byte) (j : Nat) :
    (s.grant i a).roleAt j =
      if j = i then some { r with tenure := .held a r.term [], generation := r.generation + 1 } else s.roleAt j := by
  rw [grant_eq hr, afterGrant, handleAt_index (roleAt_lt hr), roleAt_markPending, roleAt_putRole]
  simp only [roleAt_lt hr, and_true]

theorem handleAt_grant {s : State} {i : Nat} {r : Role} (hr : s.roleAt i = some r) (a : Byte) (j : Nat) :
    (s.grant i a).handleAt j = s.handleAt j := by
  rw [grant_eq hr, afterGrant, handleAt_markPending, handleAt_putRole]

/-! ### The law of roles -/

/-- The law of the role table, said of live roles. -/
theorem rolesLawful_iff (s : State) : rolesLawful s = true ↔
    configSound s.config = true ∧
      ∀ i r, s.roleAt i = some r → (s.handleAt i).incarnation ≠ 0 ∧ roleSound r = true := by
  constructor
  · intro h
    have hconfig : configSound s.config = true := by
      simp only [rolesLawful, Bool.and_eq_true] at h
      exact h.1
    refine ⟨hconfig, fun i r hr => ?_⟩
    have he := roleSound_of_lawful h (row_of_roleAt hr)
    simpa [entrySound] using he
  · rintro ⟨hconfig, hall⟩
    simp only [rolesLawful, Bool.and_eq_true, List.all_eq_true]
    refine ⟨hconfig, fun e he => ?_⟩
    obtain ⟨i, hi⟩ := List.mem_iff_getElem?.1 he
    rw [toList_getElem?] at hi
    cases hr : e.role with
    | none => simp only [entrySound, hr]
    | some r =>
      have hrole : s.roleAt i = some r := by simp [State.roleAt, hi, hr]
      have hinc : (s.handleAt i).incarnation = e.incarnation := by simp [State.handleAt, hi]
      obtain ⟨h0, hs⟩ := hall i r hrole
      rw [hinc] at h0
      simpa [entrySound, hr, hs] using h0

theorem rolesLawful_of {s t : State} (hconfig : configSound t.config = true) (hroles : RolesBy (Descends s.config) s t)
    (h : rolesLawful s = true) : rolesLawful t = true := by
  rw [rolesLawful_iff] at h ⊢
  refine ⟨hconfig, fun i r' hr' => ?_⟩
  obtain ⟨hhandle, r, hr, hd⟩ := hroles i r' hr'
  obtain ⟨hinc, hsound⟩ := h.2 i r hr
  exact ⟨hhandle ▸ hinc, hd.sound h.1 hsound⟩

theorem mem_insertClaim (c d : Claim) (chain : List Claim) : d ∈ insertClaim c chain ↔ d = c ∨ d ∈ chain := by
  induction chain with
  | nil => simp [insertClaim]
  | cons e rest ih =>
    unfold insertClaim
    split
    · simp only [List.mem_cons, ih]
      tauto
    · simp only [List.mem_cons]

theorem insertClaim_length (c : Claim) (chain : List Claim) : (insertClaim c chain).length = chain.length + 1 := by
  induction chain with
  | nil => rfl
  | cons e rest ih =>
    unfold insertClaim
    split
    · simp only [List.length_cons, ih]
    · rfl

theorem insertClaim_pairwise {c : Claim} {chain : List Claim} (h : chain.Pairwise (fun c d => d.rank ≤ c.rank)) :
    (insertClaim c chain).Pairwise (fun c d => d.rank ≤ c.rank) := by
  induction chain with
  | nil => simp [insertClaim]
  | cons e rest ih =>
    obtain ⟨hhead, htail⟩ := List.pairwise_cons.1 h
    unfold insertClaim
    split
    · rename_i hle
      refine List.pairwise_cons.2 ⟨fun d hd => ?_, ih htail⟩
      rcases (mem_insertClaim c d rest).1 hd with rfl | hd
      · exact hle
      · exact hhead d hd
    · rename_i hlt
      refine List.pairwise_cons.2 ⟨fun d hd => ?_, h⟩
      rcases List.mem_cons.1 hd with rfl | hd
      · omega
      · have := hhead d hd
        omega

theorem insertClaim_nodup {c : Claim} {chain : List Claim} (hnew : ∀ d ∈ chain, d.claimant ≠ c.claimant)
    (h : (chain.map Claim.claimant).Nodup) : ((insertClaim c chain).map Claim.claimant).Nodup := by
  induction chain with
  | nil => simp [insertClaim]
  | cons e rest ih =>
    obtain ⟨hhead, htail⟩ := List.nodup_cons.1 h
    unfold insertClaim
    split
    · refine List.nodup_cons.2 ⟨fun hmem => ?_, ih (fun d hd => hnew d (List.mem_cons_of_mem _ hd)) htail⟩
      obtain ⟨d, hd, he⟩ := List.mem_map.1 hmem
      rcases (mem_insertClaim c d rest).1 hd with rfl | hd
      · exact hnew e List.mem_cons_self he.symm
      · exact hhead (List.mem_map.2 ⟨d, hd, he⟩)
    · refine List.nodup_cons.2 ⟨fun hmem => ?_, h⟩
      obtain ⟨d, hd, he⟩ := List.mem_map.1 hmem
      exact hnew d hd he

theorem not_claimant_of_place {a : Byte} {chain : List Claim} (h : positionOf a chain = none) :
    ∀ d ∈ chain, d.claimant ≠ a := by
  simpa [positionOf, List.findIdx?_eq_none_iff] using h

/-- A claim that R86 queues keeps the role's law: the claimant is new to the chain and neither holds nor is offered the role. -/
theorem roleSound_queue {r : Role} {a : Byte} {rank : Nat} (hs : roleSound r = true) (ht : r.tenure ≠ .vacant)
    (hheld : heldBy r a = false) (hoffered : Safety.offeredTo r a = false) (hplace : positionOf a r.chain = none)
    (hchain : r.chain.length < 6) (h1 : 1 ≤ rank) (h7 : rank ≤ 7) :
    roleSound { r with chain := insertClaim ⟨a, rank⟩ r.chain } = true := by
  obtain ⟨htag, ht1, ht2, hch, htenure⟩ := (roleSound_iff r).1 hs
  obtain ⟨-, hrank, horder, honce⟩ := (chainSound_iff _).1 hch
  have hnew := not_claimant_of_place hplace
  have hchainSound : chainSound (insertClaim ⟨a, rank⟩ r.chain) = true := by
    refine (chainSound_iff _).2 ⟨by rw [insertClaim_length]; omega, fun d hd => ?_, insertClaim_pairwise horder,
      insertClaim_nodup hnew honce⟩
    rcases (mem_insertClaim _ d _).1 hd with rfl | hd
    · exact ⟨h1, h7⟩
    · exact hrank d hd
  refine (roleSound_iff _).2 ⟨htag, ht1, ht2, hchainSound, ?_⟩
  cases hten : r.tenure with
  | vacant => exact absurd hten ht
  | held b lease attr =>
    obtain ⟨h3, h4, h5, hall⟩ := (tenureSound_held_iff hten).1 htenure
    refine tenureSound_held rfl h3 h4 h5 fun d hd => ?_
    rcases (mem_insertClaim _ d _).1 hd with rfl | hd
    · have hba : b ≠ a := by simpa [heldBy, hten] using hheld
      exact hba.symm
    · exact hall d hd
  | offered o =>
    obtain ⟨h3, h4, h5, h6, hall, h8⟩ := (tenureSound_offered_iff hten).1 htenure
    refine tenureSound_offered rfl h3 h4 h5 h6 (fun d hd => ?_) h8
    rcases (mem_insertClaim _ d _).1 hd with rfl | hd
    · have hoa : o.offeree ≠ a := by simpa [Safety.offeredTo, hten] using hoffered
      exact hoa.symm
    · exact hall d hd

theorem roleSound_founded {t : Tag} {term : Nat} (a : Byte) (hlegal : t.legal = true) (h1 : 1 ≤ term) (h2 : term ≤ 4095) :
    roleSound (foundedRole t term a) = true :=
  (roleSound_iff _).2 ⟨hlegal, h1, h2, rfl,
    tenureSound_held (r := foundedRole t term a) rfl h1 (le_refl _) (Nat.zero_le _) (fun _ hc => by cases hc)⟩

theorem RoleGain.keeps_roles {s t : State} (h : RoleGain s t) (hs : rolesLawful s = true) : rolesLawful t = true := by
  rw [rolesLawful_iff] at hs
  obtain ⟨hconfig, hall⟩ := hs
  cases h with
  | @define i tag term hfree hnew hlegal h1 h2 =>
    have hi := (freeIndex_spec hfree).1
    refine (rolesLawful_iff _).2 ⟨hconfig, fun j r hr => ?_⟩
    rw [roleAt_create_at] at hr
    split at hr
    · rename_i hj
      cases hr
      rw [hj.1]
      exact ⟨incarnation_create hi _ _ _, (roleSound_iff _).2 ⟨hlegal, h1, h2, rfl, rfl⟩⟩
    · rename_i hj
      rw [handleAt_create_other (fun he => hj ⟨he, hi⟩)]
      exact hall j r hr
  | @found i tag a hfree hnew hlegal hj hl =>
    have hi := (freeIndex_spec hfree).1
    have hterm : 1 ≤ s.config.defaultTerm ∧ s.config.defaultTerm ≤ 4095 := by
      simp only [configSound, Bool.and_eq_true, decide_eq_true_eq] at hconfig
      exact ⟨hconfig.1.1.1.1.1.2, hconfig.1.1.1.1.2⟩
    refine (rolesLawful_iff _).2 ⟨by rw [(grant_reaches _ _ _)]; exact hconfig, fun k r hr => ?_⟩
    rw [roleAt_found hfree] at hr
    rw [handleAt_found hfree]
    split at hr
    · rename_i hk
      cases hr
      rw [hk]
      exact ⟨incarnation_create hi _ _ _, roleSound_founded a hlegal hterm.1 hterm.2⟩
    · rename_i hk
      rw [handleAt_create_other hk]
      exact hall k r hr
  | @grant i r a hr ht hj hl =>
    refine (rolesLawful_iff _).2 ⟨by rw [grant_reaches]; exact hconfig, fun k r' hr' => ?_⟩
    rw [roleAt_grant hr] at hr'
    rw [handleAt_grant hr]
    split at hr'
    · rename_i hk
      cases hr'
      obtain ⟨hinc, hsound⟩ := hall i r hr
      obtain ⟨htag, h1, h2, hch, htenure⟩ := (roleSound_iff r).1 hsound
      have hchain := ((tenureSound_vacant_iff ht).1 htenure).2
      refine ⟨hk ▸ hinc, (roleSound_iff _).2 ⟨htag, h1, h2, hch,
        tenureSound_held rfl h1 (le_refl _) (Nat.zero_le _) (fun c hc => ?_)⟩⟩
      rw [hchain] at hc
      cases hc
    · exact hall k r' hr'
  | @queue i r a rank hr ht hheld hoffered hplace hchain hpool h1 h7 hj =>
    refine (rolesLawful_iff _).2 ⟨hconfig, fun k r' hr' => ?_⟩
    rw [roleAt_putRole] at hr'
    rw [handleAt_putRole]
    split at hr'
    · rename_i hk
      cases hr'
      obtain ⟨hinc, hsound⟩ := hall i r hr
      exact ⟨hk.1 ▸ hinc, roleSound_queue hsound ht hheld hoffered hplace hchain h1 h7⟩
    · exact hall k r' hr'

/-- The configuration is one that CONFIGURE or the power-on reset has set, or as it was. -/
theorem Deed.config {s t : State} (h : Deed s t) : t.config = s.config ∨ configSound t.config = true := by
  have hdrop : s.dropFrame.config = s.config := by rw [dropFrame_reaches]
  cases h with
  | table h => exact .inl (by rw [h.reaches])
  | configure hc => exact .inr hc
  | powerOn => exact .inr rfl
  | silence => exact .inl hdrop
  | stop => exact .inl hdrop
  | directoryReset => exact .inl hdrop
  | resetLow => exact .inl hdrop
  | beginFrame => exact .inl (by rw [beginFrame_reaches])
  | completeOffer => exact .inl (by rw [offerOutcome_reaches])
  | completeNotice => exact .inl (by rw [noticeOutcome_reaches])
  | _ => exact .inl rfl

theorem Deed.keeps_roles {s t : State} (h : Deed s t) (hs : rolesLawful s = true) : rolesLawful t = true := by
  rcases h.descends with hd | hg
  · refine rolesLawful_of ?_ hd hs
    rcases h.config with he | hc
    · rw [he]; exact ((rolesLawful_iff s).1 hs).1
    · exact hc
  · exact hg.keeps_roles hs

/-- Settles O53: every deed keeps the law. -/
theorem stepsKeepRolesLawful : Obligations.StepsKeepRolesLawful := by
  unfold Obligations.StepsKeepRolesLawful
  intro s t hs h
  exact step_keeps (P := fun u => rolesLawful u = true) (fun _ _ hu => hu) (fun _ _ hd => hd.keeps_roles)
    (fun _ hu => hu) hs h

/-! ### Tags (R46) -/

/-- No two live roles carry the same tag, said of indices. -/
theorem tagsDistinct_iff (s : State) : tagsDistinct s = true ↔
    ∀ i j r r', s.roleAt i = some r → s.roleAt j = some r' → r.tag = r'.tag → i = j := by
  have hrow : ∀ (i : Nat) (r : Role), (s.roles.toList.map Entry.role)[i]? = some (some r) ↔ s.roleAt i = some r := by
    intro i r
    rw [List.getElem?_map, toList_getElem?]
    unfold State.roleAt
    cases s.roles[i]? <;> simp
  have hlist : s.roles.toList.filterMap (fun e => e.role.map Role.tag)
      = (s.roles.toList.map Entry.role).filterMap (Option.map Role.tag) := by
    rw [List.filterMap_map]
    rfl
  simp only [tagsDistinct, decide_eq_true_eq, hlist, nodup_filterMap_iff, hrow]

theorem tagsDistinct_of {R : Role → Role → Prop} {s t : State} (hroles : RolesBy R s t) (hR : ∀ r r', R r r' → r'.tag = r.tag)
    (h : tagsDistinct s = true) : tagsDistinct t = true := by
  rw [tagsDistinct_iff] at h ⊢
  intro i j r r' hr hr' htag
  obtain ⟨-, p, hp, hd⟩ := hroles i r hr
  obtain ⟨-, p', hp', hd'⟩ := hroles j r' hr'
  exact h i j p p' hp hp' (by rw [← hR _ _ hd, ← hR _ _ hd', htag])

theorem tagsDistinct_putRole {s : State} {i : Nat} {r r' : Role} (hr : s.roleAt i = some r) (htag : r'.tag = r.tag)
    (h : tagsDistinct s = true) : tagsDistinct (s.putRole i r') = true :=
  tagsDistinct_of (RolesBy.putRole (R := fun r r' => r'.tag = r.tag) (fun _ => rfl) hr htag) (fun _ _ h => h) h

/-- A new role whose tag no live role carries keeps the tags distinct. -/
theorem tagsDistinct_new {s t : State} {i : Nat} {new : Role} (hu : uncarried s new.tag)
    (hroles : ∀ j, t.roleAt j = if j = i then some new else s.roleAt j) (h : tagsDistinct s = true) : tagsDistinct t = true := by
  rw [tagsDistinct_iff] at h ⊢
  have hcases : ∀ j r, t.roleAt j = some r → (j = i ∧ r = new) ∨ s.roleAt j = some r := by
    intro j r hr
    rw [hroles] at hr
    split at hr
    · rename_i hj
      cases hr
      exact .inl ⟨hj, rfl⟩
    · exact .inr hr
  intro j k r r' hr hr' htag
  rcases hcases j r hr with ⟨rfl, rfl⟩ | hr <;> rcases hcases k r' hr' with ⟨rfl, rfl⟩ | hr'
  · rfl
  · exact absurd htag.symm (hu k r' hr')
  · exact absurd htag (hu j r hr)
  · exact h j k r r' hr hr' htag

theorem roleAt_define {s : State} {i : Nat} (hfree : s.freeIndex = some i) (t : Tag) (kind : Kind) (term : Nat) (j : Nat) :
    (s.create i t kind term).roleAt j = if j = i then some ⟨t, kind, .vacant, term, 0, 0, []⟩ else s.roleAt j := by
  simp only [roleAt_create_at, (freeIndex_spec hfree).1, and_true]

theorem RoleGain.keeps_tags {s t : State} (h : RoleGain s t) (hs : tagsDistinct s = true) : tagsDistinct t = true := by
  cases h with
  | @define i tag term hfree hnew hlegal h1 h2 =>
    exact tagsDistinct_new (new := ⟨tag, .pinned, .vacant, term, 0, 0, []⟩) (uncarried_of_roleOfTag hnew)
      (roleAt_define hfree _ _ _) hs
  | @found i tag a hfree hnew hlegal hj hl =>
    exact tagsDistinct_new (new := foundedRole tag _ a) (uncarried_of_roleOfTag hnew) (roleAt_found hfree _ _ _) hs
  | grant hr =>
    rw [grant_eq hr, afterGrant, handleAt_index (roleAt_lt hr)]
    show tagsDistinct (s.putRole _ _) = true
    exact tagsDistinct_putRole hr rfl hs
  | queue hr => exact tagsDistinct_putRole hr rfl hs

theorem Deed.keeps_tags {s t : State} (h : Deed s t) (hs : tagsDistinct s = true) : tagsDistinct t = true := by
  rcases h.descends with hd | hg
  · exact tagsDistinct_of hd (fun _ _ => Descends.tag) hs
  · exact hg.keeps_tags hs

/-! ### The claim pool (R83) -/

/-- The records that the role at an index has in its chain. -/
def chainLength (o : Option Role) : Nat := o.elim 0 (fun r => r.chain.length)

theorem claimsInUse_eq (s : State) : s.claimsInUse = ∑ i ∈ Finset.range 96, chainLength (s.roleAt i) := by
  have hmap : s.claimsInUse = (s.roles.toList.map (fun e => chainLength e.role)).sum := by
    unfold State.claimsInUse
    exact congrArg List.sum (List.map_congr_left fun e _ => by cases e.role <;> rfl)
  have hlist : s.roles.toList.map (fun e => chainLength e.role) = (List.range 96).map (fun i => chainLength (s.roleAt i)) := by
    apply List.ext_getElem?
    intro i
    rw [List.getElem?_map, List.getElem?_map, toList_getElem?]
    by_cases hi : i < 96
    · obtain ⟨e, he⟩ := row_of_lt s.roles hi
      rw [he, List.getElem?_range hi]
      simp only [Option.map_some, State.roleAt, he, Option.bind_some]
    · rw [Vector.getElem?_eq_none (not_lt.1 hi), List.getElem?_eq_none (by simpa using hi)]
      rfl
  rw [hmap, hlist]
  rfl

theorem claimsInUse_mono {s t : State} (h : ∀ i, chainLength (t.roleAt i) ≤ chainLength (s.roleAt i)) :
    t.claimsInUse ≤ s.claimsInUse := by
  rw [claimsInUse_eq, claimsInUse_eq]
  exact Finset.sum_le_sum fun i _ => h i

/-- A role put in with one more record in its chain takes one more record of the pool. -/
theorem claimsInUse_putRole_succ {s : State} {i : Nat} {r r' : Role} (hr : s.roleAt i = some r)
    (hlen : r'.chain.length = r.chain.length + 1) : (s.putRole i r').claimsInUse = s.claimsInUse + 1 := by
  have hi := roleAt_lt hr
  have hone : ∀ j, chainLength ((s.putRole i r').roleAt j) = chainLength (s.roleAt j) + if j = i then 1 else 0 := by
    intro j
    rw [roleAt_putRole]
    by_cases hj : j = i
    · simp [hj, hi, hr, chainLength, hlen]
    · simp [hj]
  rw [claimsInUse_eq, claimsInUse_eq, Finset.sum_congr rfl (fun j _ => hone j), Finset.sum_add_distrib,
    Finset.sum_ite_eq' (Finset.range 96) i, if_pos (Finset.mem_range.2 hi)]

theorem chainLength_of {R : Role → Role → Prop} {s t : State} (hroles : RolesBy R s t)
    (hR : ∀ r r', R r r' → r'.chain.length ≤ r.chain.length) (i : Nat) :
    chainLength (t.roleAt i) ≤ chainLength (s.roleAt i) := by
  cases hr' : t.roleAt i with
  | none => exact Nat.zero_le _
  | some r' =>
    obtain ⟨-, r, hr, hd⟩ := hroles i r' hr'
    rw [hr]
    exact hR r r' hd

theorem RoleGain.keeps_pool {s t : State} (h : RoleGain s t) (hs : s.claimsInUse ≤ 64) : t.claimsInUse ≤ 64 := by
  cases h with
  | define hfree =>
    refine (claimsInUse_mono fun i => ?_).trans hs
    rw [roleAt_define hfree]
    split
    · exact Nat.zero_le _
    · exact le_refl _
  | found hfree =>
    refine (claimsInUse_mono fun i => ?_).trans hs
    rw [roleAt_found hfree]
    split
    · exact Nat.zero_le _
    · exact le_refl _
  | grant hr =>
    refine (claimsInUse_mono fun i => ?_).trans hs
    rw [roleAt_grant hr]
    split
    · rename_i hi
      rw [hi, hr]
      exact le_refl _
    · exact le_refl _
  | queue hr _ _ _ _ _ hpool =>
    rw [claimsInUse_putRole_succ hr (insertClaim_length _ _)]
    exact hpool

theorem Deed.keeps_pool {s t : State} (h : Deed s t) (hs : poolLawful s = true) : poolLawful t = true := by
  simp only [poolLawful, decide_eq_true_eq] at hs ⊢
  rcases h.descends with hd | hg
  · exact (claimsInUse_mono (chainLength_of hd fun _ _ => Descends.chain)).trans hs
  · exact hg.keeps_pool hs

/-- Settles O54: every deed keeps both laws. -/
theorem stepsKeepTagsAndPool : Obligations.StepsKeepTagsAndPool := by
  unfold Obligations.StepsKeepTagsAndPool
  refine ⟨fun s t hs h => ?_, fun s t hs h => ?_⟩
  · exact step_keeps (P := fun u => tagsDistinct u = true) (fun _ _ hu => hu) (fun _ _ hd => hd.keeps_tags)
      (fun _ hu => hu) hs h
  · exact step_keeps (P := fun u => poolLawful u = true) (fun _ _ hu => hu) (fun _ _ hd => hd.keeps_pool)
      (fun _ hu => hu) hs h

end Sys2Proof.Machine
end

section
/-! PROOFS. The frame record, the attention records, the response and the pins (O60). -/

namespace Sys2Proof.Machine

open Sys2Proof.Safety

/-! ### The frame record (R139) -/

theorem frameSound_iff (f : Frame) : frameSound f = true ↔ f.collisions ≤ 8 ∧ (f.begun = true ∨ f.phase = .selected) := by
  simp only [frameSound, Bool.and_eq_true, Bool.or_eq_true, decide_eq_true_eq, beq_iff_eq]

theorem frameLawful_iff (s : State) : frameLawful s = true ↔ ∀ f, s.frame = some f → frameSound f = true := by
  unfold frameLawful
  cases s.frame <;> simp

theorem frameLawful_of_none {s : State} (h : s.frame = none) : frameLawful s = true := by
  rw [frameLawful_iff]
  intro f hf
  rw [h] at hf
  cases hf

theorem TableDeed.keeps_frame {s t : State} (h : TableDeed s t) (hs : frameLawful s = true) : frameLawful t = true := by
  rw [frameLawful_iff] at hs ⊢
  intro f' hf'
  rcases h.frame_cases hf' with ⟨f, hf, rfl | rfl⟩ | ⟨-, -, subject, dest, rfl⟩
  · exact hs _ hf
  · exact hs f hf
  · rfl

theorem Deed.keeps_frame {s t : State} (h : Deed s t) (hs : frameLawful s = true) : frameLawful t = true := by
  have hdrop : t.frame = s.dropFrame.frame → frameLawful t = true :=
    fun he => frameLawful_of_none (he.trans (dropFrame_frame s))
  have hnow := (frameLawful_iff s).1 hs
  cases h with
  | table h => exact h.keeps_frame hs
  | silence => exact hdrop rfl
  | stop => exact hdrop rfl
  | directoryReset => exact hdrop rfl
  | powerOn => exact hdrop rfl
  | resetLow => exact hdrop rfl
  | restart => exact frameLawful_of_none rfl
  | announce => exact frameLawful_of_none rfl
  | completeOther => exact frameLawful_of_none rfl
  | completeOffer => exact frameLawful_of_none (offerOutcome_reaches _ _ _ _).frame
  | completeNotice => exact frameLawful_of_none (noticeOutcome_reaches _ _ _ _ _ _).frame
  | beginFrame hf =>
    rw [frameLawful_iff, beginFrame_frame]
    rintro _ ⟨⟩
    exact (frameSound_iff _).2 ⟨((frameSound_iff _).1 (hnow _ hf)).1, .inl rfl⟩
  | backOff hf =>
    rw [frameLawful_iff]
    rintro _ ⟨⟩
    exact (frameSound_iff _).2 ⟨min_le_right _ _, .inr rfl⟩
  | await hf hp =>
    obtain ⟨hcount, hbegun⟩ := (frameSound_iff _).1 (hnow _ hf)
    rw [frameLawful_iff]
    rintro _ ⟨⟩
    refine (frameSound_iff _).2 ⟨hcount, .inl (hbegun.resolve_right ?_)⟩
    rw [hp]
    exact FramePhase.noConfusion
  | _ => exact hs

/-! ### The attention records (R164, R165) -/

@[simp] theorem get_set (t : Attention) (c d : Cause) (r : Option AttentionRecord) :
    (t.set c r).get d = if d = c then r else t.get d := by
  cases c <;> cases d <;> rfl

theorem get_clearFlags (t : Attention) (flags : Byte) (c : Cause) :
    (t.clearFlags flags).get c = if c.inFlags flags then none else t.get c := by
  have hfold : ∀ (l : List Cause) (t : Attention),
      (l.foldl (fun t d => if d.inFlags flags then t.set d none else t) t).get c =
        if c ∈ l ∧ c.inFlags flags = true then none else t.get c := by
    intro l
    induction l with
    | nil => intro t; simp
    | cons d l ih =>
      intro t
      rw [List.foldl_cons, ih]
      by_cases hcd : c = d
      · subst hcd
        by_cases hf : c.inFlags flags = true <;> simp [hf]
      · by_cases hd : d.inFlags flags = true <;> simp [hcd, hd]
  have hmem : c ∈ Cause.all := by cases c <;> decide
  rw [Attention.clearFlags, hfold]
  simp only [hmem, true_and]

/-- A count within its range, where the record is pending (R164). -/
def countSound (r : Option AttentionRecord) : Prop := ∀ x, r = some x → 1 ≤ x.count ∧ x.count ≤ 255

theorem countSound_none : countSound none := fun _ h => by cases h

theorem countSound_raised (r : Option AttentionRecord) (x : AttentionSubject) : countSound (some (raisedRecord r x)) := by
  rintro _ ⟨⟩
  cases r with
  | none => exact ⟨le_refl _, show 1 ≤ 255 by decide⟩
  | some r => exact ⟨by simp [raisedRecord], min_le_right _ _⟩

theorem attentionLawful_iff (s : State) : attentionLawful s = true ↔
    (∀ c, countSound (s.attention.get c)) ∧ s.enables &&& 0xC0 = 0 := by
  have hmem : ∀ c : Cause, c ∈ Cause.all := fun c => by cases c <;> decide
  have hall : ∀ c, (s.attention.get c).all (fun r => decide (1 ≤ r.count) && decide (r.count ≤ Config.attentionMax)) = true ↔
      countSound (s.attention.get c) := by
    intro c
    unfold countSound
    cases s.attention.get c <;> simp
  simp only [attentionLawful, Bool.and_eq_true, List.all_eq_true, beq_iff_eq, hall]
  exact ⟨fun h => ⟨fun c => h.1 c (hmem c), h.2⟩, fun h => ⟨fun c _ => h.1 c, h.2⟩⟩

theorem attentionLawful_of_same {s t : State} (ha : t.attention = s.attention) (he : t.enables = s.enables)
    (hs : attentionLawful s = true) : attentionLawful t = true := by
  simpa only [attentionLawful, ha, he] using hs

/-- One record replaced by one in range. -/
theorem attentionLawful_set {s t : State} {c : Cause} {r : Option AttentionRecord} (ha : t.attention = s.attention.set c r)
    (he : t.enables = s.enables) (hr : countSound r) (hs : attentionLawful s = true) : attentionLawful t = true := by
  rw [attentionLawful_iff] at hs ⊢
  refine ⟨fun d => ?_, he ▸ hs.2⟩
  rw [ha, get_set]
  split
  · exact hr
  · exact hs.1 d

theorem attentionLawful_raise {s : State} (c : Cause) (x : AttentionSubject) (hs : attentionLawful s = true) :
    attentionLawful (s.raise c x) = true :=
  attentionLawful_set rfl rfl (countSound_raised _ _) hs

theorem countSound_get {s : State} (hs : attentionLawful s = true) (c : Cause) : countSound (s.attention.get c) :=
  ((attentionLawful_iff s).1 hs).1 c

theorem ReachesRoles.enables {s t : State} (h : ReachesRoles s t) : t.enables = s.enables := by rw [h]

theorem attentionLawful_afterLoss {s : State} (h : Handle) (r : Role) (hs : attentionLawful s = true) :
    attentionLawful (afterLoss s h r) = true := by
  refine attentionLawful_set (c := .vacancy) (afterLoss_attention s h r) (afterLoss_reaches s h r).enables ?_ hs
  split
  · exact countSound_raised _ _
  · exact countSound_get hs .vacancy

theorem attentionLawful_afterSkip {s : State} (h : Handle) (r : Role) (hs : attentionLawful s = true) :
    attentionLawful (afterSkip s h r) = true := by
  refine attentionLawful_set (c := .vacancy) (afterSkip_attention s h r) (afterSkip_reaches s h r).enables ?_ hs
  split
  · exact countSound_raised _ _
  · exact countSound_get hs .vacancy

theorem attentionLawful_tickRole {s : State} (i : Nat) (hs : attentionLawful s = true) :
    attentionLawful (s.tickRole i) = true := by
  cases hr : s.roleAt i with
  | none => rw [State.tickRole, onRole_none hr]; exact hs
  | some r =>
    rw [tickRole_eq hr]
    split
    · exact attentionLawful_afterLoss _ _ (attentionLawful_raise _ _ hs)
    · split
      · exact attentionLawful_afterSkip _ _ hs
      · split
        · split
          · exact hs
          · exact hs
        · exact hs

theorem countSound_raisedForRoles {s : State} {r : Option AttentionRecord} (h : countSound r) (indices : List Nat) :
    countSound (raisedForRoles s r indices) := by
  unfold raisedForRoles
  split
  · exact h
  · rename_i j hj
    have hpos : 1 ≤ indices.length := by
      cases indices with
      | nil => cases hj
      | cons _ _ => simp
    rintro _ ⟨⟩
    exact ⟨by simp only; omega, min_le_right _ _⟩

theorem attentionLawful_purge {s : State} (a : Byte) (hs : attentionLawful s = true) : attentionLawful (s.purge a) = true := by
  obtain ⟨-, -, -, -, -, hattention, -⟩ := purge_purged s a
  exact attentionLawful_set (c := .vacancy) hattention (by rw [purge_reaches])
    (countSound_raisedForRoles (countSound_get hs .vacancy) _) hs

theorem attentionLawful_vacancyAtLeast {s : State} (h : Handle) (hs : attentionLawful s = true) :
    attentionLawful (s.vacancyAtLeast h) = true := by
  unfold State.vacancyAtLeast
  split
  · rename_i n h' hv
    split
    · refine attentionLawful_set (c := .vacancy) (r := some ⟨n, .role h⟩) rfl rfl ?_ hs
      rintro _ ⟨⟩
      exact countSound_get hs .vacancy ⟨n, .role h'⟩ hv
    · exact hs
  · exact hs

theorem TableDeed.keeps_attention {s t : State} (h : TableDeed s t) (hs : attentionLawful s = true) :
    attentionLawful t = true := by
  have henables : t.enables = s.enables := by rw [h.reaches]
  have hsame : t.attention = s.attention → attentionLawful t = true := fun ha => attentionLawful_of_same ha henables hs
  cases h with
  | clearStrikes => exact hsame (by rw [clearStrikes_only])
  | strike => exact hsame (setStation_attention _ _ _)
  | allocate => exact hsame (setStation_attention _ _ _)
  | depart => exact hsame (setStation_attention _ _ _)
  | purge a => exact attentionLawful_purge a hs
  | found hfree => exact hsame (by rw [found_eq hfree]; rfl)
  | grant hr => exact hsame (by rw [grant_eq hr]; rfl)
  | retire hr => exact hsame (by rw [retire_eq hr]; rfl)
  | loseHolder hr => exact loseHolder_eq hr ▸ attentionLawful_afterLoss _ _ hs
  | skip hr => exact skip_eq hr ▸ attentionLawful_afterSkip _ _ hs
  | tickRole i => exact attentionLawful_tickRole i hs
  | raise c x => exact attentionLawful_raise c x hs
  | vacancyAtLeast x => exact attentionLawful_vacancyAtLeast x hs
  | dropFrame => exact hsame (by rw [dropFrame_reaches])
  | select => exact hsame (by rw [select_reaches])
  | _ => exact hsame rfl

theorem attentionLawful_clear {s : State} (ha : s.attention = .clear) (he : s.enables &&& 0xC0 = 0) :
    attentionLawful s = true := by
  rw [attentionLawful_iff, ha]
  exact ⟨fun c => by cases c <;> exact countSound_none, he⟩

theorem attentionLawful_offerOutcome {s : State} (h : Handle) (number : Byte) (outcome : FrameOutcome)
    (hs : attentionLawful s = true) : attentionLawful (s.offerOutcome h number outcome) = true := by
  rcases offerOutcome_cases s h number outcome with ⟨he, -⟩ | ⟨r, o, -, he | he | he | ⟨-, he⟩⟩ <;> rw [he]
  · exact hs
  · exact hs
  · exact attentionLawful_afterSkip _ _ hs
  · exact hs
  · exact hs

theorem noticeOutcome_watches (s : State) (n : Nat) (watcher : Byte) (h : Handle) (final : Bool) (outcome : FrameOutcome) :
    s.noticeOutcome n watcher h final outcome =
      { s with watches := (s.noticeOutcome n watcher h final outcome).watches } := by
  unfold State.noticeOutcome State.failNotice
  split
  · rfl
  · split_ifs <;> rfl

theorem Deed.keeps_attention {s t : State} (h : Deed s t) (hs : attentionLawful s = true) : attentionLawful t = true := by
  have hdrop : t.attention = s.dropFrame.attention → t.enables = s.dropFrame.enables → attentionLawful t = true :=
    fun ha he => attentionLawful_of_same (ha.trans (by rw [dropFrame_reaches])) (he.trans (by rw [dropFrame_reaches])) hs
  have henables := ((attentionLawful_iff s).1 hs).2
  cases h with
  | table h => exact h.keeps_attention hs
  | clearFlags flags =>
    rw [attentionLawful_iff]
    refine ⟨fun c => ?_, henables⟩
    rw [get_clearFlags]
    split
    · exact countSound_none
    · exact countSound_get hs c
  | enable h => exact (attentionLawful_iff _).2 ⟨((attentionLawful_iff s).1 hs).1, h⟩
  | silence => exact hdrop rfl rfl
  | stop => exact hdrop rfl rfl
  | resetLow => exact hdrop rfl rfl
  | directoryReset =>
    refine attentionLawful_clear rfl ?_
    show s.dropFrame.enables &&& 0xC0 = 0
    rw [dropFrame_reaches]
    exact henables
  | powerOn => exact attentionLawful_clear rfl (show (0 : Byte) &&& 0xC0 = 0 by decide)
  | beginFrame => exact attentionLawful_of_same (by rw [beginFrame_reaches]) (by rw [beginFrame_reaches]) hs
  | completeOffer => exact attentionLawful_offerOutcome (s := { s with frame := none }) _ _ _ hs
  | completeNotice =>
    exact attentionLawful_of_same (by rw [noticeOutcome_watches]) (by rw [noticeOutcome_watches]) hs
  | _ => exact hs

/-! ### The pins (R155, R165) -/

/-- The pins are lawful where driving them again changes nothing. -/
theorem pinsLawful_iff (s : State) : pinsLawful s = true ↔ s.pins = s.drive.pins := by
  simp only [pinsLawful, Bool.and_eq_true, beq_iff_eq, State.drive]
  obtain ⟨low, attn, tde⟩ := s.pins
  simp

theorem Event.keeps_pins {D : State → State → Prop} {s t : State} (h : Event D s t) (hs : pinsLawful s = true) :
    pinsLawful t = true := by
  induction h with
  | start => exact hs
  | driven => exact pinsLawful_drive _
  | plain _ _ hp ih =>
    rw [pinsLawful_iff] at ih ⊢
    rw [hp.1, hp.2, ih]

/-! ### The response (R153) -/

theorem Deed.keeps_response {s t : State} (h : Deed s t) (hs : rolesLawful s = true ∧ responseLawful s = true) :
    rolesLawful t = true ∧ responseLawful t = true := by
  refine ⟨h.keeps_roles hs.1, ?_⟩
  have hsame : t.response = s.response → responseLawful t = true := fun he => by
    simpa only [responseLawful, he] using hs.2
  have hdrop : t.response = s.dropFrame.response → responseLawful t = true := fun he =>
    hsame (he.trans (by rw [dropFrame_reaches]))
  cases h with
  | table h => exact hsame (by rw [h.reaches])
  | respond status seq hlen => exact decide_eq_true (hlen hs.1)
  | powerOn => rfl
  | silence => exact hdrop rfl
  | stop => exact hdrop rfl
  | directoryReset => exact hdrop rfl
  | resetLow => exact hdrop rfl
  | beginFrame => exact hsame (by rw [beginFrame_reaches])
  | completeOffer => exact hsame (by rw [offerOutcome_reaches])
  | completeNotice => exact hsame (by rw [noticeOutcome_reaches])
  | _ => exact hsame rfl

/-- Settles O60: every deed keeps the first two laws and the last, and the pins follow at the end of every event. -/
theorem stepsKeepPortAndPinsLawful : Obligations.StepsKeepPortAndPinsLawful := by
  unfold Obligations.StepsKeepPortAndPinsLawful
  intro s t h
  refine ⟨fun hs => ?_, fun hs => ?_, fun hs => ?_, fun hroles hs => ?_⟩
  · exact step_keeps (P := fun u => frameLawful u = true) (fun _ _ hu => hu) (fun _ _ hd => hd.keeps_frame)
      (fun _ hu => hu) hs h
  · exact step_keeps (P := fun u => attentionLawful u = true) (fun _ _ hu => hu) (fun _ _ hd => hd.keeps_attention)
      (fun _ hu => hu) hs h
  · exact (step_event h).keeps_pins hs
  · exact (step_keeps (P := fun u => rolesLawful u = true ∧ responseLawful u = true) (fun _ _ hu => hu)
      (fun _ _ hd => hd.keeps_response) (fun _ hu => hu) ⟨hroles, hs⟩ h).2

end Sys2Proof.Machine
end

section
/-! PROOFS. The watch table (O57) and the addresses that the tables name (O56): every watch in use follows from the record at its
number, but for one that a WATCH takes, and every address that a table names was named before or is that of a JOINED station. -/

namespace Sys2Proof.Machine

open Sys2Proof.Safety

/-! ### Lives that go on -/

/-- Every life of `s` goes on in `t`. -/
def LivesOn (s t : State) : Prop :=
  ∀ i, (s.roleAt i).isSome = true → (t.roleAt i).isSome = true ∧ t.handleAt i = s.handleAt i

theorem LivesOn.named {s t : State} (h : LivesOn s t) {x : Handle} (hx : (s.named x).isSome = true) :
    (t.named x).isSome = true := by
  obtain ⟨r, hr⟩ := Option.isSome_iff_exists.1 hx
  obtain ⟨hlive, hhandle⟩ := h x.index.toNat (by rw [roleAt_of_named hr]; rfl)
  obtain ⟨r', hr'⟩ := Option.isSome_iff_exists.1 hlive
  have hn := named_handleAt hr'
  rw [hhandle, handleAt_of_named hr] at hn
  rw [hn]
  rfl

theorem LivesOn.of_roles {s t : State} (h : t.roles = s.roles) : LivesOn s t :=
  fun i hi => ⟨by rw [roleAt_of_roles h]; exact hi, handleAt_of_roles h i⟩

theorem LivesOn.putRole (s : State) (i : Nat) (r : Role) : LivesOn s (s.putRole i r) := by
  intro j hj
  refine ⟨?_, handleAt_putRole _ _ _ _⟩
  rw [roleAt_putRole]
  split
  · rfl
  · exact hj

theorem LivesOn.create {s : State} {i : Nat} (hfree : s.freeIndex = some i) (t : Tag) (kind : Kind) (term : Nat) :
    LivesOn s (s.create i t kind term) := by
  intro j hj
  have hne : j ≠ i := by
    rintro rfl
    rw [(freeIndex_spec hfree).2] at hj
    cases hj
  exact ⟨by rw [roleAt_define hfree, if_neg hne]; exact hj, handleAt_create_other hne _ _ _⟩

theorem LivesOn.purgeClaims (s : State) (a : Byte) : LivesOn s (s.purgeClaims a) := by
  intro i hi
  simp only [State.roleAt, State.handleAt, State.purgeClaims, mapRows_getElem?] at hi ⊢
  cases he : s.roles[i]? with
  | none => rw [he] at hi; cases hi
  | some e =>
    rw [he] at hi
    simpa using hi

/-! ### Watches that follow from the watches before -/

/-- What a watch record has of the record that it was. -/
structure Follows (w w' : Watch) : Prop where
  watcher : w'.watcher = w.watcher
  handle : w'.handle = w.handle
  rank : w.rank ≤ 7 → w'.rank ≤ 7
  attempts : w.attempts ≤ 2 → w'.attempts ≤ 2
  final : w'.final = none → w.final = none

theorem Follows.refl (w : Watch) : Follows w w := ⟨rfl, rfl, id, id, id⟩

theorem Follows.trans {w w' w'' : Watch} (h : Follows w w') (h' : Follows w' w'') : Follows w w'' :=
  ⟨h'.watcher.trans h.watcher, h'.handle.trans h.handle, h'.rank ∘ h.rank, h'.attempts ∘ h.attempts, h.final ∘ h'.final⟩

theorem Follows.marked (w : Watch) (b : Bool) : Follows w { w with isPending := b } := ⟨rfl, rfl, id, id, id⟩

/-- Every watch in use in `t` follows from the record at its number in `s`, and the role behind it, where it is not final, lives on. -/
def WatchesBy (s t : State) : Prop :=
  ∀ n w', watchAt t n = some w' → ∃ w, watchAt s n = some w ∧ Follows w w' ∧
    (w'.final = none → (s.named w.handle).isSome = true → (t.named w.handle).isSome = true)

section
variable {s t u : State}

theorem WatchesBy.trans (h : WatchesBy s t) (h' : WatchesBy t u) : WatchesBy s u := by
  intro n w'' hw''
  obtain ⟨w', hw', hf', hlive'⟩ := h' n w'' hw''
  obtain ⟨w, hw, hf, hlive⟩ := h n w' hw'
  exact ⟨w, hw, hf.trans hf', fun hfin hn => hf.handle ▸ hlive' hfin (hf.handle ▸ hlive (hf'.final hfin) hn)⟩

/-- The watch table as it was, over roles that live on. -/
theorem WatchesBy.of_watches (hl : LivesOn s t) (h : t.watches = s.watches) : WatchesBy s t :=
  fun n w hw => ⟨w, by simpa only [watchAt, h] using hw, .refl w, fun _ => hl.named⟩

/-- The roles as they were, under watches that follow. -/
theorem WatchesBy.of_roles (hr : t.roles = s.roles)
    (h : ∀ n w', watchAt t n = some w' → ∃ w, watchAt s n = some w ∧ Follows w w') : WatchesBy s t :=
  fun n w' hw' => by
    obtain ⟨w, hw, hf⟩ := h n w' hw'
    exact ⟨w, hw, hf, fun _ hn => by rw [named_of_roles hr]; exact hn⟩

theorem WatchesBy.of_same (hr : t.roles = s.roles) (h : t.watches = s.watches) : WatchesBy s t :=
  .of_watches (.of_roles hr) h

theorem watchAt_setWatch (s : State) (n m : Nat) (o : Option Watch) :
    watchAt (s.setWatch n o) m = if m = n ∧ n < 64 then o else watchAt s m := by
  simp only [watchAt, State.setWatch, Vector.getElem?_setIfInBounds]
  by_cases hm : m = n
  · subst hm
    by_cases hlt : m < 64
    · simp [hlt]
    · simp [hlt]
  · simp [hm, Ne.symm hm]

theorem WatchesBy.setWatch {n : Nat} {o : Option Watch}
    (h : ∀ w', o = some w' → ∃ w, watchAt s n = some w ∧ Follows w w') : WatchesBy s (s.setWatch n o) := by
  refine .of_roles rfl fun m w' hw' => ?_
  rw [watchAt_setWatch] at hw'
  split at hw'
  · rename_i hm
    rw [hm.1]
    exact h w' hw'
  · exact ⟨w', hw', .refl w'⟩

theorem WatchesBy.markPending (s : State) (h : Handle) : WatchesBy s (s.markPending h) := by
  refine .of_roles rfl fun n w' hw' => ?_
  rw [watchAt_markPending] at hw'
  obtain ⟨w, hw, rfl⟩ := Option.map_eq_some_iff.1 hw'
  refine ⟨w, hw, ?_⟩
  split
  · unfold Safety.marked
    split
    · exact .marked w true
    · exact .refl w
  · exact .refl w

/-- A retirement makes its watches final, and ends no other life (R57, R134). -/
theorem WatchesBy.retirement {h : Handle} {r : Role} (hn : s.named h = some r) (final : Half) :
    WatchesBy s (afterRetirement s h final) := by
  intro n w' hw'
  have hw' : watchAt (s.finalWatches h final) n = some w' := hw'
  rw [watchAt_finalWatches] at hw'
  obtain ⟨w, hw, hcase⟩ := Option.bind_eq_some_iff.1 hw'
  split at hcase
  · unfold finalled at hcase
    split at hcase
    · cases hcase
      exact ⟨w, hw, ⟨rfl, rfl, id, id, fun hf => by cases hf⟩, fun hf => by cases hf⟩
    · cases hcase
  · rename_i hother
    obtain rfl : w = w' := Option.some.inj hcase
    refine ⟨w, hw, .refl w, fun _ hlive => ?_⟩
    obtain ⟨p, hp⟩ := Option.isSome_iff_exists.1 hlive
    have hne : w.handle.index.toNat ≠ h.index.toNat := by
      intro he
      have h1 := handleAt_of_named hp
      rw [he, handleAt_of_named hn] at h1
      exact hother h1.symm
    have hrole : (afterRetirement s h final).roleAt w.handle.index.toNat = some p := by
      rw [afterRetirement, roleAt_freeEntry, if_neg hne]
      exact roleAt_of_named hp
    have hnamed := named_handleAt hrole
    have hhandle : (afterRetirement s h final).handleAt w.handle.index.toNat = w.handle := by
      rw [afterRetirement, handleAt_freeEntry]
      exact handleAt_of_named hp
    rw [hhandle] at hnamed
    rw [hnamed]
    rfl

theorem WatchesBy.raise (s : State) (c : Cause) (x : AttentionSubject) : WatchesBy s (s.raise c x) := .of_same rfl rfl

theorem WatchesBy.putRole (s : State) (i : Nat) (r : Role) : WatchesBy s (s.putRole i r) := .of_watches (.putRole s i r) rfl

theorem WatchesBy.afterLoss {h : Handle} {r : Role} (hn : s.named h = some r) : WatchesBy s (afterLoss s h r) := by
  unfold Safety.afterLoss noteVacancy
  split
  · rename_i r' _
    have hmarked := (WatchesBy.putRole s h.index.toNat r').trans (.markPending _ h)
    split
    · exact hmarked.trans (.raise _ _ _)
    · exact hmarked
  · exact .retirement hn _

theorem WatchesBy.afterSkip {h : Handle} {r : Role} (hn : s.named h = some r) : WatchesBy s (afterSkip s h r) := by
  unfold Safety.afterSkip
  split
  · split
    · exact ((WatchesBy.putRole s h.index.toNat _).trans (.markPending _ h)).trans (.raise _ _ _)
    · exact .putRole s _ _
  · exact .retirement hn _

theorem WatchesBy.refl (s : State) : WatchesBy s s := .of_same rfl rfl

theorem WatchesBy.tickRole (s : State) (i : Nat) : WatchesBy s (s.tickRole i) := by
  cases hr : s.roleAt i with
  | none => rw [State.tickRole, onRole_none hr]; exact .refl s
  | some r =>
    rw [tickRole_eq hr]
    split
    · exact (WatchesBy.raise s _ _).trans (.afterLoss (named_handleAt hr))
    · split
      · exact .afterSkip (named_handleAt hr)
      · split
        · split
          · exact .refl s
          · exact .putRole s _ _
        · exact .refl s

theorem WatchesBy.purgeRole (a : Byte) (s : State) (i : Nat) : WatchesBy s (State.purgeRole a s i) := by
  cases hr : s.roleAt i with
  | none => rw [State.purgeRole, onRole_none hr]; exact .refl s
  | some r =>
    rw [purgeRole_eq hr]
    split
    · exact .afterLoss (named_handleAt hr)
    · split
      · exact .afterSkip (named_handleAt hr)
      · exact .refl s

theorem WatchesBy.foldl {f : State → Nat → State} (h : ∀ s i, WatchesBy s (f s i)) (l : List Nat) (s : State) :
    WatchesBy s (l.foldl f s) := by
  induction l generalizing s with
  | nil => exact .refl s
  | cons i l ih => exact (h s i).trans (ih _)

/-- Records that a test leaves in use. -/
theorem WatchesBy.filter {p : Watch → Bool} (hr : t.roles = s.roles)
    (h : t.watches = mapRows (fun o => o.filter p) s.watches) : WatchesBy s t := by
  refine .of_roles hr fun n w' hw' => ⟨w', ?_, .refl w'⟩
  simp only [watchAt, h, mapRows_getElem?] at hw' ⊢
  cases ho : s.watches[n]? with
  | none => simp [ho] at hw'
  | some o =>
    simp only [ho, Option.map_some, Option.join_some] at hw' ⊢
    exact (Option.filter_eq_some_iff.1 hw').1

theorem WatchesBy.purge (s : State) (a : Byte) : WatchesBy s (s.purge a) := by
  have hframe : WatchesBy s (s.purgeFrame a) := by
    unfold State.purgeFrame
    split
    · split
      · split <;> exact .of_same rfl rfl
      · exact .refl s
    · exact .refl s
  have hclaims : WatchesBy (s.purgeFrame a) ((s.purgeFrame a).purgeClaims a) := .of_watches (.purgeClaims _ a) rfl
  have hwatches : WatchesBy ((s.purgeFrame a).purgeClaims a) (((s.purgeFrame a).purgeClaims a).purgeWatches a) := .filter rfl rfl
  unfold State.purge
  exact ((hframe.trans hclaims).trans hwatches).trans (.foldl (.purgeRole a) _ _)

theorem WatchesBy.grant {i : Nat} {r : Role} (hr : s.roleAt i = some r) (a : Byte) : WatchesBy s (s.grant i a) := by
  rw [grant_eq hr]
  exact (WatchesBy.putRole s _ _).trans (.markPending _ _)

theorem WatchesBy.dropFrame (s : State) : WatchesBy s s.dropFrame := by
  rcases dropFrame_cases s with he | ⟨f, x, number, r, o, -, -, -, he⟩ | ⟨f, n, watcher, x, w, -, -, hw, he⟩ <;> rw [he]
  · exact .of_same rfl rfl
  · exact WatchesBy.trans (.of_same rfl rfl) (.putRole { s with frame := none } _ _)
  · refine WatchesBy.trans (.of_same rfl rfl) (.setWatch (s := { s with frame := none }) fun w' he' => ?_)
    cases he'
    exact ⟨w, hw.1, .marked w true⟩

theorem WatchesBy.select (s : State) : WatchesBy s s.select := by
  rcases select_cases s with he | ⟨-, -, ⟨-, -, he⟩ | ⟨-, i, r, o, -, -, -, he⟩ | ⟨-, n, w, -, he⟩⟩ <;> rw [he]
  · exact .refl s
  · exact .of_same rfl rfl
  · exact .trans (.putRole s i _) (.of_same rfl rfl)
  · exact .of_same rfl rfl

end

/-- A WATCH takes a record for a pair that has none (R125). -/
inductive WatchGain (s : State) : State → Prop
  | watch {n : Nat} {a : Byte} {h : Handle} {r : Role} {rank : Nat} (hfree : findRow Option.isNone s.watches = some n)
      (hnew : s.watchOf a h = none) (hn : s.named h = some r) (hj : joined s a = true) (h7 : rank ≤ 7) :
      WatchGain s (s.setWatch n (some ⟨a, h, rank, false, 0, none⟩))

theorem TableDeed.watches {s t : State} (h : TableDeed s t) : WatchesBy s t ∨ WatchGain s t := by
  have hsame : t.roles = s.roles → t.watches = s.watches → WatchesBy s t ∨ WatchGain s t :=
    fun hr hw => .inl (.of_same hr hw)
  cases h with
  | clearStrikes a => exact hsame (by rw [clearStrikes_only]) (by rw [clearStrikes_only])
  | strike => exact hsame (by rw [setStation_only]) (by rw [setStation_only])
  | allocate => exact hsame (by rw [setStation_only]) (by rw [setStation_only])
  | depart => exact hsame (by rw [setStation_only]) (by rw [setStation_only])
  | purge a => exact .inl (.purge s a)
  | publish hr => exact .inl ((WatchesBy.putRole s _ _).trans (.markPending _ _))
  | restore => exact .inl (.putRole s _ _)
  | setTerm => exact .inl (.putRole s _ _)
  | define hfree => exact .inl (.of_watches (.create hfree _ _ _) rfl)
  | found hfree =>
    rw [found_eq hfree]
    exact .inl (((WatchesBy.of_watches (.create hfree _ _ _) rfl).trans (.putRole _ _ _)).trans (.markPending _ _))
  | grant hr => exact .inl (.grant hr _)
  | retire hr => exact .inl (retire_eq hr ▸ .retirement (named_handleAt hr) _)
  | loseHolder hr => exact .inl (loseHolder_eq hr ▸ .afterLoss (named_handleAt hr))
  | skip hr => exact .inl (skip_eq hr ▸ .afterSkip (named_handleAt hr))
  | tickRole i => exact .inl (.tickRole s i)
  | queue => exact .inl (.putRole s _ _)
  | unqueue => exact .inl (.putRole s _ _)
  | watch hfree hnew hn hj h7 => exact .inr (.watch hfree hnew hn hj h7)
  | @setRank n w rank hw h7 =>
    refine .inl (.setWatch fun w' he => ?_)
    cases he
    exact ⟨w, hw, rfl, rfl, fun _ => h7, fun _ => Nat.zero_le _, id⟩
  | unwatch => exact .inl (.setWatch fun _ he => by cases he)
  | raise => exact hsame rfl rfl
  | vacancyAtLeast x =>
    exact hsame (by unfold State.vacancyAtLeast; split; split <;> rfl; rfl)
      (by unfold State.vacancyAtLeast; split; split <;> rfl; rfl)
  | dropFrame => exact .inl (.dropFrame s)
  | select => exact .inl (.select s)

theorem watchAt_of_free {s t : State} (h : t.watches = mapRows (fun _ => none) s.watches) (n : Nat) : watchAt t n = none := by
  simp only [watchAt, h, mapRows_getElem?]
  cases s.watches[n]? <;> rfl

theorem WatchesBy.offerOutcome (s : State) (h : Handle) (number : Byte) (outcome : FrameOutcome) :
    WatchesBy s (s.offerOutcome h number outcome) := by
  rcases offerOutcome_cases s h number outcome with ⟨he, -⟩ | ⟨r, o, ⟨hn, -, -, -⟩, he | he | he | ⟨-, he⟩⟩ <;> rw [he]
  · exact .refl s
  · exact (WatchesBy.putRole s _ _).trans (.markPending _ _)
  · exact .afterSkip hn
  · exact .putRole s _ _
  · exact .putRole s _ _

/-- The outcome of a NOTICE at its watch: it is freed, or its rank, attempts and mark are set (R132, R133, R135). -/
theorem noticeOutcome_cases (s : State) (n : Nat) (watcher : Byte) (h : Handle) (final : Bool) (outcome : FrameOutcome) :
    s.noticeOutcome n watcher h final outcome = s
      ∨ ∃ w o, watchOn s n watcher h w ∧ s.noticeOutcome n watcher h final outcome = s.setWatch n o ∧
        ∀ w', o = some w' → Follows w w' := by
  cases hw : s.watchNamed n watcher h with
  | none => exact .inl (by simp only [State.noticeOutcome, hw])
  | some w =>
    right
    have hfail : ∀ w', watchAfterFailure w = some w' → Follows w w' := by
      intro w' he
      unfold watchAfterFailure at he
      split_ifs at he
      · cases he
        exact ⟨rfl, rfl, id, fun _ => by simp only; omega, id⟩
      · cases he
        exact ⟨rfl, rfl, fun _ => Nat.zero_le _, fun _ => Nat.zero_le _, id⟩
    have hon := (watchNamed_eq_some_iff s n watcher h w).1 hw
    cases outcome with
    | valid status =>
      refine ⟨w, _, hon, noticeOutcome_valid final hw status, fun w' he => ?_⟩
      unfold watchAfterAnswer at he
      split_ifs at he
      · cases he
        exact ⟨rfl, rfl, id, fun _ => Nat.zero_le _, id⟩
      · exact hfail w' he
    | _ => exact ⟨w, _, hon, noticeOutcome_failed final hw _ (by simp), hfail⟩

theorem WatchesBy.noticeOutcome (s : State) (n : Nat) (watcher : Byte) (h : Handle) (final : Bool) (outcome : FrameOutcome) :
    WatchesBy s (s.noticeOutcome n watcher h final outcome) := by
  rcases noticeOutcome_cases s n watcher h final outcome with he | ⟨w, o, ⟨hw, -, -⟩, he, hf⟩ <;> rw [he]
  · exact .refl s
  · exact .setWatch fun w' ho => ⟨w, hw, hf w' ho⟩

theorem WatchesBy.beginFrame (s : State) (f : Frame) : WatchesBy s (s.beginFrame f) := by
  have hmark : WatchesBy s (s.takeMark f.subject) := by
    unfold State.takeMark
    split
    · split
      · rename_i w hw
        refine .setWatch fun w' he => ?_
        cases he
        exact ⟨w, ((watchNamed_eq_some_iff _ _ _ _ _).1 hw).1, .marked w false⟩
      · exact .refl s
    · exact .refl s
  exact hmark.trans (.of_same rfl rfl)

theorem Deed.watches {s t : State} (h : Deed s t) : WatchesBy s t ∨ WatchGain s t := by
  have hdrop : t.roles = s.dropFrame.roles → t.watches = s.dropFrame.watches → WatchesBy s t ∨ WatchGain s t :=
    fun hr hw => .inl ((WatchesBy.dropFrame s).trans (.of_same hr hw))
  have hfree : (∀ n, watchAt t n = none) → WatchesBy s t ∨ WatchGain s t :=
    fun hnone => .inl fun n w' hw' => by rw [hnone n] at hw'; cases hw'
  cases h with
  | table h => exact h.watches
  | silence => exact hdrop rfl rfl
  | stop => exact hdrop rfl rfl
  | directoryReset => exact hdrop rfl rfl
  | powerOn => exact hdrop rfl rfl
  | resetLow => exact hdrop rfl rfl
  | configure => exact .inl (.filter rfl rfl)
  | restart => exact hfree (watchAt_of_free (s := s) rfl)
  | clearTables => exact hfree (watchAt_of_free (s := s) rfl)
  | beginFrame => exact .inl (.beginFrame s _)
  | completeOffer => exact .inl (WatchesBy.trans (.of_same rfl rfl) (.offerOutcome { s with frame := none } _ _ _))
  | completeNotice => exact .inl (WatchesBy.trans (.of_same rfl rfl) (.noticeOutcome { s with frame := none } _ _ _ _ _))
  | _ => exact .inl (.of_same rfl rfl)

/-! ### The law of the watch table (R123) -/

theorem watchAt_iff (s : State) (n : Nat) (w : Watch) : watchAt s n = some w ↔ s.watches[n]? = some (some w) := by
  simp [watchAt, Option.join_eq_some_iff]

/-- The law of the watch table, said of numbers. -/
theorem watchesLawful_iff (s : State) : watchesLawful s = true ↔
    (∀ n w, watchAt s n = some w → w.rank ≤ 7 ∧ w.attempts ≤ 2 ∧ (w.final = none → (s.named w.handle).isSome = true))
      ∧ ∀ n m w v, watchAt s n = some w → watchAt s m = some v → w.watcher = v.watcher → w.handle = v.handle → n = m := by
  have hone : ∀ w : Watch, (decide (w.rank ≤ 7) && decide (w.attempts ≤ 2) && (w.final.isSome || (s.named w.handle).isSome)) = true ↔
      w.rank ≤ 7 ∧ w.attempts ≤ 2 ∧ (w.final = none → (s.named w.handle).isSome = true) := by
    intro w
    cases hf : w.final <;> simp [and_assoc]
  simp only [watchesLawful, Bool.and_eq_true, List.all_eq_true, decide_eq_true_eq, nodup_filterMap_iff, toList_getElem?,
    watchAt_iff, Prod.mk.injEq]
  constructor
  · rintro ⟨hall, hpairs⟩
    refine ⟨fun n w hw => ?_, fun n m w v hw hv h1 h2 => hpairs n m w v hw hv ⟨h1, h2⟩⟩
    have := hall (some w) (List.mem_iff_getElem?.2 ⟨n, (toList_getElem? _ _).trans hw⟩)
    exact (hone w).1 (by simpa [Option.all] using this)
  · rintro ⟨hall, hpairs⟩
    refine ⟨fun o ho => ?_, fun n m w v hw hv he => hpairs n m w v hw hv he.1 he.2⟩
    obtain ⟨n, hn⟩ := List.mem_iff_getElem?.1 ho
    cases o with
    | none => rfl
    | some w => simpa [Option.all] using (hone w).2 (hall n w ((toList_getElem? _ _).symm.trans hn))

theorem watchesLawful_of {s t : State} (h : WatchesBy s t) (hs : watchesLawful s = true) : watchesLawful t = true := by
  rw [watchesLawful_iff] at hs ⊢
  obtain ⟨hall, hpairs⟩ := hs
  refine ⟨fun n w' hw' => ?_, fun n m w' v' hw' hv' hwatcher hhandle => ?_⟩
  · obtain ⟨w, hw, hf, hlive⟩ := h n w' hw'
    obtain ⟨hrank, hatt, hnamed⟩ := hall n w hw
    exact ⟨hf.rank hrank, hf.attempts hatt, fun hfin => hf.handle ▸ hlive hfin (hnamed (hf.final hfin))⟩
  · obtain ⟨w, hw, hf, -⟩ := h n w' hw'
    obtain ⟨v, hv, hg, -⟩ := h m v' hv'
    exact hpairs n m w v hw hv (by rw [← hf.watcher, ← hg.watcher, hwatcher]) (by rw [← hf.handle, ← hg.handle, hhandle])

theorem not_watchOf {s : State} {a : Byte} {h : Handle} (hnew : s.watchOf a h = none) {n : Nat} {w : Watch}
    (hw : watchAt s n = some w) : ¬ (w.watcher = a ∧ w.handle = h) := by
  have := (findRow_eq_none_iff _ _).1 hnew n (some w) ((watchAt_iff s n w).1 hw)
  simpa using this

theorem WatchGain.keeps_watches {s t : State} (h : WatchGain s t) (hs : watchesLawful s = true) : watchesLawful t = true := by
  obtain @⟨k, a, x, r, rank, -, hnew, hn, -, h7⟩ := h
  rw [watchesLawful_iff] at hs ⊢
  obtain ⟨hall, hpairs⟩ := hs
  have hcases : ∀ n w, watchAt (s.setWatch k (some ⟨a, x, rank, false, 0, none⟩)) n = some w →
      (n = k ∧ w = ⟨a, x, rank, false, 0, none⟩) ∨ (watchAt s n = some w ∧ ¬ (w.watcher = a ∧ w.handle = x)) := by
    intro n w hw
    rw [watchAt_setWatch] at hw
    split at hw
    · rename_i hk
      cases hw
      exact .inl ⟨hk.1, rfl⟩
    · exact .inr ⟨hw, not_watchOf hnew hw⟩
  refine ⟨fun n w hw => ?_, fun n m w v hw hv hwatcher hhandle => ?_⟩
  · rcases hcases n w hw with ⟨-, rfl⟩ | ⟨hw, -⟩
    · exact ⟨h7, Nat.zero_le _, fun _ => by show (s.named x).isSome = true; rw [hn]; rfl⟩
    · exact hall n w hw
  · rcases hcases n w hw with ⟨rfl, rfl⟩ | ⟨hw, hne⟩ <;> rcases hcases m v hv with ⟨rfl, rfl⟩ | ⟨hv, hne'⟩
    · rfl
    · exact absurd ⟨hwatcher.symm, hhandle.symm⟩ hne'
    · exact absurd ⟨hwatcher, hhandle⟩ hne
    · exact hpairs n m w v hw hv hwatcher hhandle

theorem Deed.keeps_watches {s t : State} (h : Deed s t) (hs : watchesLawful s = true) : watchesLawful t = true :=
  h.watches.elim (fun hw => watchesLawful_of hw hs) (fun hg => hg.keeps_watches hs)

/-- Settles O57: every deed keeps the law. -/
theorem stepsKeepWatchesLawful : Obligations.StepsKeepWatchesLawful := by
  unfold Obligations.StepsKeepWatchesLawful
  intro s t hs h
  exact step_keeps (P := fun u => watchesLawful u = true) (fun _ _ hu => hu) (fun _ _ hd => hd.keeps_watches)
    (fun _ hu => hu) hs h

end Sys2Proof.Machine
end

section
/-! PROOFS. The addresses that the tables name (O56): what a deed leaves named was named before or is a JOINED station's, and a station
departs only where no table names it. -/

namespace Sys2Proof.Machine

open Sys2Proof.Safety

theorem names_iff (s : State) (a : Byte) : names s a = true ↔
    (∃ i r, s.roleAt i = some r ∧ roleNames r a = true) ∨ ∃ n w, watchAt s n = some w ∧ w.watcher = a := by
  have h := not_congr (names_eq_false_iff s a)
  simp only [Bool.not_eq_false, not_and_or, not_forall, not_not, exists_prop] at h
  exact h

theorem names_of_tables {s t : State} (hr : t.roles = s.roles) (hw : t.watches = s.watches) (a : Byte) : names t a = names s a := by
  simp only [names, hr, hw]

/-- A deed that adds a role or a claim adds the names of a JOINED station alone (R56, R86, R88). -/
theorem RoleGain.names {s t : State} (h : RoleGain s t) {i : Nat} {r' : Role} (hr' : t.roleAt i = some r') {a : Byte}
    (ha : roleNames r' a = true) : (∃ r, s.roleAt i = some r ∧ roleNames r a = true) ∨ joined s a = true := by
  cases h with
  | define hfree =>
    rw [roleAt_create_at] at hr'
    split at hr'
    · cases hr'
      simp [roleNames, heldBy, Safety.offeredTo] at ha
    · exact .inl ⟨r', hr', ha⟩
  | @found k tag b hfree hnew hlegal hj hl =>
    rw [roleAt_found hfree] at hr'
    split at hr'
    · cases hr'
      have hb : b = a := by simpa [roleNames, heldBy, Safety.offeredTo, foundedRole] using ha
      exact .inr (hb ▸ hj)
    · exact .inl ⟨r', hr', ha⟩
  | @grant k r b hr ht hj hl =>
    rw [roleAt_grant hr] at hr'
    split at hr'
    · rename_i hk
      cases hr'
      rcases (roleNames_iff _ _).1 ha with hclaim | hb
      · exact .inl ⟨r, hk ▸ hr, (roleNames_iff _ _).2 (.inl hclaim)⟩
      · have hb : b = a := by simpa [heldBy, Safety.offeredTo] using hb
        exact .inr (hb ▸ hj)
    · exact .inl ⟨r', hr', ha⟩
  | @queue k r b rank hr ht hheld hoffered hplace hchain hpool h1 h7 hj =>
    rw [roleAt_putRole] at hr'
    split at hr'
    · rename_i hk
      cases hr'
      rcases (roleNames_iff _ _).1 ha with ⟨c, hc, rfl⟩ | hb
      · rcases (mem_insertClaim _ c _).1 hc with rfl | hc
        · exact .inr hj
        · exact .inl ⟨r, hk.1 ▸ hr, (roleNames_iff _ _).2 (.inl ⟨c, hc, rfl⟩)⟩
      · exact .inl ⟨r, hk.1 ▸ hr, (roleNames_iff _ _).2 (.inr hb)⟩
    · exact .inl ⟨r', hr', ha⟩

/-- What is named after a deed was named before, or is JOINED. -/
theorem Deed.names {s t : State} (h : Deed s t) {a : Byte} (ha : Safety.names t a = true) :
    Safety.names s a = true ∨ joined s a = true := by
  rcases (names_iff t a).1 ha with ⟨i, r', hr', hnames⟩ | ⟨n, w', hw', rfl⟩
  · rcases h.descends with hd | hg
    · obtain ⟨-, r, hr, hdesc⟩ := hd i r' hr'
      exact .inl ((names_iff s a).2 (.inl ⟨i, r, hr, hdesc.names a hnames⟩))
    · exact (hg.names hr' hnames).imp (fun hr => (names_iff s a).2 (.inl ⟨i, hr⟩)) id
  · rcases h.watches with hf | hg
    · obtain ⟨w, hw, hfol, -⟩ := hf n w' hw'
      exact .inl ((names_iff s _).2 (.inr ⟨n, w, hw, hfol.watcher.symm⟩))
    · obtain @⟨k, b, x, r, rank, -, -, -, hj, -⟩ := hg
      rw [watchAt_setWatch] at hw'
      split at hw'
      · cases hw'
        exact .inr hj
      · exact .inl ((names_iff s _).2 (.inr ⟨n, w', hw', rfl⟩))

theorem joined_of_stations {s t : State} (h : t.stations = s.stations) (a : Byte) : joined t a = joined s a := by
  simp only [joined, State.station, h]

theorem not_roleNames_of_restart {r r' : Role} (h : roleAfterRestart r = some r') (a : Byte) : roleNames r' a = false := by
  unfold roleAfterRestart at h
  split at h <;> cases h
  rfl

/-- Where every table is FREE, or holds nothing but VACANT roles without claims, none names an address. -/
theorem not_names_restart (s : State) (e a : Byte) : Safety.names (s.restart e) a = false := by
  refine (names_eq_false_iff _ _).2 ⟨fun i r' hr' => ?_, fun n w hw => ?_⟩
  · rw [roleAt_restart] at hr'
    obtain ⟨r, -, hr⟩ := Option.bind_eq_some_iff.1 hr'
    exact not_roleNames_of_restart hr a
  · rw [watchAt_of_free (s := s) rfl] at hw
    cases hw

theorem not_names_cleared (s : State) (kind : ResetKind) (a : Byte) : Safety.names (s.cleared kind) a = false := by
  refine (names_eq_false_iff _ _).2 ⟨fun i r' hr' => ?_, fun n w hw => ?_⟩
  · rw [roleAt_cleared] at hr'
    cases hr'
  · rw [watchAt_of_free (s := s) rfl] at hw
    cases hw

theorem TableDeed.joined {s t : State} (h : TableDeed s t) {a : Byte} (ha : Safety.joined s a = true) :
    Safety.joined t a = true ∨ Safety.names t a = false := by
  have hsame : t.stations = s.stations → Safety.joined t a = true ∨ Safety.names t a = false :=
    fun he => .inl ((joined_of_stations he a).trans ha)
  have hset : ∀ (b : Byte) (st : Station), Safety.joined (s.setStation b (some st)) a = true := by
    intro b st
    rw [Safety.joined, station_setStation]
    split
    · rfl
    · exact ha
  cases h with
  | clearStrikes b =>
    left
    rw [Safety.joined, station_clearStrikes]
    split
    · rename_i hb
      rw [Option.isSome_map, ← hb]
      exact ha
    · exact ha
  | strike => exact .inl (hset _ _)
  | allocate => exact .inl (hset _ _)
  | @depart b hgone =>
    by_cases hab : a = b
    · right
      rw [names_of_tables (s := s) (by rw [setStation_only]) (by rw [setStation_only]), hab]
      exact hgone
    · left
      rw [Safety.joined, station_setStation, if_neg (fun hb => hab hb.1)]
      exact ha
  | purge b => exact hsame (purge_keeps_stations s b)
  | found => exact hsame (ReachesRoles.trans rfl (grant_reaches _ _ _)).stations
  | grant => exact hsame (grant_reaches _ _ _).stations
  | retire => exact hsame (retire_reaches _ _).stations
  | loseHolder => exact hsame (loseHolder_reaches _ _).stations
  | skip => exact hsame (skip_reaches _ _).stations
  | tickRole => exact hsame (tickRole_reaches _ _).stations
  | vacancyAtLeast => exact hsame (vacancyAtLeast_reaches _ _).stations
  | dropFrame => exact hsame (dropFrame_stations s)
  | select => exact hsame (select_stations s)
  | _ => exact .inl ha

/-- A JOINED station stays so, or no table names it. -/
theorem Deed.joined {s t : State} (h : Deed s t) {a : Byte} (ha : Safety.joined s a = true) :
    Safety.joined t a = true ∨ Safety.names t a = false := by
  have hdrop : t.stations = s.dropFrame.stations → Safety.joined t a = true ∨ Safety.names t a = false :=
    fun he => .inl ((joined_of_stations (he.trans (dropFrame_stations s)) a).trans ha)
  cases h with
  | table h => exact h.joined ha
  | restart => exact .inr (not_names_restart s _ a)
  | clearTables => exact .inr (not_names_cleared s _ a)
  | silence => exact hdrop rfl
  | stop => exact hdrop rfl
  | directoryReset => exact hdrop rfl
  | powerOn => exact hdrop rfl
  | resetLow => exact hdrop rfl
  | beginFrame => exact .inl ((joined_of_stations (by rw [beginFrame_reaches]) a).trans ha)
  | completeOffer =>
    exact .inl ((joined_of_stations (s := { s with frame := none }) (offerOutcome_reaches _ _ _ _).stations a).trans ha)
  | completeNotice =>
    exact .inl ((joined_of_stations (s := { s with frame := none }) (noticeOutcome_reaches _ _ _ _ _ _).stations a).trans ha)
  | _ => exact .inl ha

theorem Deed.keeps_members {s t : State} (h : Deed s t) (hs : membersJoined s) : membersJoined t := by
  intro a ha
  have hj : Safety.joined s a = true := (h.names ha).elim (hs a) id
  rcases h.joined hj with hj' | hgone
  · exact hj'
  · rw [hgone] at ha
    cases ha

/-- Settles O56: every deed keeps the law. -/
theorem stepsKeepMembersJoined : Obligations.StepsKeepMembersJoined := by
  unfold Obligations.StepsKeepMembersJoined
  intro s t hs h
  exact step_keeps (P := membersJoined) (fun _ _ hu => hu) (fun _ _ hd => hd.keeps_members) (fun _ hu => hu) hs h

end Sys2Proof.Machine
end

section
/-! PROOFS. The law of the link, and the VACANT roles before the first announcement (O58). -/

namespace Sys2Proof.Machine

open Sys2Proof.Safety

/-! ### The laws, in parts -/

/-- What the link state asks of the mark, the epoch, the Lease Clock and the frame record (R16, R18, R69, R139). -/
def sessionLaw (s : State) : Prop :=
  match s.link with
  | .offline => s.clock = .stopped ∧ s.frame = none ∧ s.answer = .idle
  | .silent => s.clock = .frozen ∧ s.frame = none ∧ s.answer = .idle ∧ s.epoch ≠ 0
  | .announcing => s.clock = .stopped ∧ s.announced = false ∧ s.epoch ≠ 0 ∧ ∀ f, s.frame = some f → f.subject = .restart
  | .online => (∃ n, s.clock = .running n) ∧ s.announced = true ∧ s.epoch ≠ 0 ∧ ∀ f, s.frame = some f → f.subject ≠ .restart

/-- `linkLawful`, part by part. -/
structure LinkLaw (s : State) : Prop where
  session : sessionLaw s
  clearing : ∀ k, s.clearing = some k → s.link = .offline ∧ s.announced = false
  reset : s.pins.resetLow = true → s.frame = none ∧ s.answer = .idle
  answer : s.answer = .idle ∨ ∀ f, s.frame = some f → f.phase = .selected

theorem sessionLaw_iff (s : State) : sessionLaw s ↔ (match s.link with
    | .offline => s.clock == .stopped && quiet s
    | .silent => s.clock == .frozen && quiet s && s.epoch != 0
    | .announcing =>
      s.clock == .stopped && !s.announced && s.epoch != 0
        && s.frame.all (fun f => f.subject == .restart)
    | .online =>
      (match s.clock with
        | .running _ => true
        | _ => false) && s.announced && s.epoch != 0
        && s.frame.all (fun f => f.subject != .restart)) = true := by
  unfold sessionLaw quiet
  cases s.link with
  | offline => simp
  | silent => simp [and_assoc]
  | announcing => cases s.frame <;> simp [and_assoc]
  | online => cases s.clock <;> cases s.frame <;> simp [and_assoc]

theorem linkLawful_iff (s : State) : linkLawful s = true ↔ LinkLaw s := by
  have hquiet : quiet s = true ↔ s.frame = none ∧ s.answer = .idle := by simp [quiet]
  have hclear : (s.clearing.isNone || (s.link == .offline && !s.announced)) = true ↔
      ∀ k, s.clearing = some k → s.link = .offline ∧ s.announced = false := by
    cases s.clearing <;> simp
  have hreset : (!s.pins.resetLow || quiet s) = true ↔ (s.pins.resetLow = true → s.frame = none ∧ s.answer = .idle) := by
    rw [← hquiet]
    cases s.pins.resetLow <;> simp
  have hanswer : (s.answer == .idle || s.frame.all (fun f => f.phase == .selected)) = true ↔
      (s.answer = .idle ∨ ∀ f, s.frame = some f → f.phase = .selected) := by
    cases s.frame <;> simp
  have hparts : linkLawful s = true ↔ ((sessionLaw s ∧ ∀ k, s.clearing = some k → s.link = .offline ∧ s.announced = false)
      ∧ (s.pins.resetLow = true → s.frame = none ∧ s.answer = .idle))
      ∧ (s.answer = .idle ∨ ∀ f, s.frame = some f → f.phase = .selected) := by
    rw [linkLawful, Bool.and_eq_true, Bool.and_eq_true, Bool.and_eq_true, hclear, hreset, hanswer]
    exact and_congr_left' (and_congr_left' (and_congr_left' (sessionLaw_iff s).symm))
  rw [hparts]
  constructor
  · rintro ⟨⟨⟨h1, h2⟩, h3⟩, h4⟩
    exact ⟨h1, h2, h3, h4⟩
  · rintro ⟨h1, h2, h3, h4⟩
    exact ⟨⟨⟨h1, h2⟩, h3⟩, h4⟩

theorem unannouncedVacant_iff (s : State) : unannouncedVacant s = true ↔
    s.announced = true ∨ s.link = .offline ∨ ∀ i r, s.roleAt i = some r → r.tenure = .vacant := by
  have hall : (s.roles.toList.all (fun e => e.role.all (fun r => r.tenure == .vacant))) = true ↔
      ∀ i r, s.roleAt i = some r → r.tenure = .vacant := by
    rw [List.all_eq_true]
    constructor
    · intro h i r hr
      have := h _ (List.mem_iff_getElem?.2 ⟨i, (toList_getElem? _ _).trans (row_of_roleAt hr)⟩)
      simpa [Option.all] using this
    · intro h e he
      obtain ⟨i, hi⟩ := List.mem_iff_getElem?.1 he
      rw [toList_getElem?] at hi
      cases hr : e.role with
      | none => rfl
      | some r => simpa [Option.all] using h i r (by simp [State.roleAt, hi, hr])
  rw [unannouncedVacant, Bool.or_eq_true, Bool.or_eq_true, hall, beq_iff_eq, or_assoc]

/-! ### States of one session -/

/-- The link, its mark, its epoch and its clock, the reset and the directory's answer are as they were. -/
structure SameSession (s t : State) : Prop where
  link : t.link = s.link
  announced : t.announced = s.announced
  epoch : t.epoch = s.epoch
  clock : t.clock = s.clock
  clearing : t.clearing = s.clearing
  resetLow : t.pins.resetLow = s.pins.resetLow
  answer : t.answer = s.answer

section
variable {s t : State}

theorem SameSession.of_parts (h : ReachesParts s t) : SameSession s t := by
  constructor <;> rw [h]

theorem ReachesRoles.session (h : ReachesRoles s t) : SameSession s t := .of_parts h.parts

/-- A frame that goes on, for the same subject, within the law's reach. -/
theorem LinkLaw.frame (hs : LinkLaw s) (h : SameSession s t)
    (hf : ∀ f', t.frame = some f' → ∃ f, s.frame = some f ∧ f'.subject = f.subject ∧
      (s.answer = .idle ∨ (f.phase = .selected → f'.phase = .selected))) : LinkLaw t := by
  obtain ⟨hl, hann, he, hclk, hclr, hlow, hans⟩ := h
  have hnone : s.frame = none → t.frame = none := by
    intro hn
    cases ht : t.frame with
    | none => rfl
    | some f' =>
      obtain ⟨f, hsf, -⟩ := hf f' ht
      rw [hn] at hsf
      cases hsf
  refine ⟨?_, by rw [hclr, hl, hann]; exact hs.clearing, ?_, ?_⟩
  · have hsession := hs.session
    unfold sessionLaw at hsession ⊢
    rw [hl, hann, he, hclk, hans]
    cases hlink : s.link with
    | offline => simp only [hlink] at hsession ⊢; exact ⟨hsession.1, hnone hsession.2.1, hsession.2.2⟩
    | silent => simp only [hlink] at hsession ⊢; exact ⟨hsession.1, hnone hsession.2.1, hsession.2.2⟩
    | announcing =>
      simp only [hlink] at hsession ⊢
      obtain ⟨hc, ha, h0, hsub⟩ := hsession
      refine ⟨hc, ha, h0, fun f' hf' => ?_⟩
      obtain ⟨f, hsf, hsame, -⟩ := hf f' hf'
      rw [hsame, hsub f hsf]
    | online =>
      simp only [hlink] at hsession ⊢
      obtain ⟨hc, ha, h0, hsub⟩ := hsession
      refine ⟨hc, ha, h0, fun f' hf' => ?_⟩
      obtain ⟨f, hsf, hsame, -⟩ := hf f' hf'
      rw [hsame]
      exact hsub f hsf
  · rw [hlow, hans]
    exact fun h => (hs.reset h).imp hnone id
  · rw [hans]
    rcases hs.answer with ha | hsel
    · exact .inl ha
    · by_cases ha : s.answer = .idle
      · exact .inl ha
      · refine .inr fun f' hf' => ?_
        obtain ⟨f, hsf, -, hphase⟩ := hf f' hf'
        exact (hphase.resolve_left ha) (hsel f hsf)

theorem LinkLaw.sameFrame (hs : LinkLaw s) (h : SameSession s t) (hf : t.frame = s.frame) : LinkLaw t :=
  hs.frame h fun f' hf' => ⟨f', hf ▸ hf', rfl, .inr id⟩

theorem LinkLaw.noFrame (hs : LinkLaw s) (h : SameSession s t) (hf : t.frame = none) : LinkLaw t :=
  hs.frame h fun f' hf' => by rw [hf] at hf'; cases hf'

/-- The law of a link that is OFFLINE with nothing of its own under way. -/
theorem LinkLaw.offline (hl : t.link = .offline) (hc : t.clock = .stopped) (hf : t.frame = none) (ha : t.answer = .idle)
    (hclr : ∀ k, t.clearing = some k → t.announced = false) : LinkLaw t := by
  refine ⟨?_, fun k hk => ⟨hl, hclr k hk⟩, fun _ => ⟨hf, ha⟩, .inl ha⟩
  unfold sessionLaw
  simp only [hl]
  exact ⟨hc, hf, ha⟩

/-- The session part, from its own case. -/
theorem sessionLaw_silent (hl : s.link = .silent) (h : s.clock = .frozen ∧ s.frame = none ∧ s.answer = .idle ∧ s.epoch ≠ 0) :
    sessionLaw s := by
  unfold sessionLaw
  simp only [hl]
  exact h

theorem sessionLaw_announcing (hl : s.link = .announcing)
    (h : s.clock = .stopped ∧ s.announced = false ∧ s.epoch ≠ 0 ∧ ∀ f, s.frame = some f → f.subject = .restart) : sessionLaw s := by
  unfold sessionLaw
  simp only [hl]
  exact h

theorem sessionLaw_online (hl : s.link = .online)
    (h : (∃ n, s.clock = .running n) ∧ s.announced = true ∧ s.epoch ≠ 0 ∧ ∀ f, s.frame = some f → f.subject ≠ .restart) :
    sessionLaw s := by
  unfold sessionLaw
  simp only [hl]
  exact h

theorem LinkLaw.of_offline (h : LinkLaw s) (hl : s.link = .offline) : s.clock = .stopped ∧ s.frame = none ∧ s.answer = .idle := by
  have := h.session
  unfold sessionLaw at this
  simpa only [hl] using this

theorem LinkLaw.of_silent (h : LinkLaw s) (hl : s.link = .silent) :
    s.clock = .frozen ∧ s.frame = none ∧ s.answer = .idle ∧ s.epoch ≠ 0 := by
  have := h.session
  unfold sessionLaw at this
  simpa only [hl] using this

theorem LinkLaw.of_announcing (h : LinkLaw s) (hl : s.link = .announcing) :
    s.clock = .stopped ∧ s.announced = false ∧ s.epoch ≠ 0 ∧ ∀ f, s.frame = some f → f.subject = .restart := by
  have := h.session
  unfold sessionLaw at this
  simpa only [hl] using this

theorem LinkLaw.of_online (h : LinkLaw s) (hl : s.link = .online) :
    (∃ n, s.clock = .running n) ∧ s.announced = true ∧ s.epoch ≠ 0 ∧ ∀ f, s.frame = some f → f.subject ≠ .restart := by
  have := h.session
  unfold sessionLaw at this
  simpa only [hl] using this

/-- A session has an epoch (R18). -/
theorem LinkLaw.epoch (h : LinkLaw s) (hl : s.link ≠ .offline) : s.epoch ≠ 0 := by
  cases hlink : s.link with
  | offline => exact absurd hlink hl
  | silent => exact (h.of_silent hlink).2.2.2
  | announcing => exact (h.of_announcing hlink).2.2.1
  | online => exact (h.of_online hlink).2.2.1

/-- No reset clear runs in a session. -/
theorem LinkLaw.notClearing (h : LinkLaw s) (hl : s.link ≠ .offline) : s.clearing = none := by
  cases hc : s.clearing with
  | none => rfl
  | some k => exact absurd (h.clearing k hc).1 hl

theorem link_cases (s : State) : s.link = .offline ∨ s.link = .silent ∨ s.link = .announcing ∨ s.link = .online := by
  cases s.link <;> simp

/-- The directory's answer ends (R6). -/
theorem LinkLaw.idle (h : LinkLaw s) (t : State) (hl : t.link = s.link) (hann : t.announced = s.announced) (he : t.epoch = s.epoch)
    (hclk : t.clock = s.clock) (hclr : t.clearing = s.clearing) (hf : t.frame = s.frame) (ha : t.answer = .idle)
    (hlow : t.pins.resetLow = true → t.frame = none) : LinkLaw t := by
  refine ⟨?_, by rw [hclr, hl, hann]; exact h.clearing, fun hr => ⟨hlow hr, ha⟩, .inl ha⟩
  rcases link_cases s with hs | hs | hs | hs
  · obtain ⟨h1, h2, -⟩ := h.of_offline hs
    exact (LinkLaw.offline (hl.trans hs) (hclk.trans h1) (hf.trans h2) ha
      (fun k hk => hann.trans (h.clearing k (hclr ▸ hk)).2)).session
  · obtain ⟨h1, h2, -, h4⟩ := h.of_silent hs
    exact sessionLaw_silent (hl.trans hs) ⟨hclk.trans h1, hf.trans h2, ha, he ▸ h4⟩
  · exact sessionLaw_announcing (hl.trans hs) (by rw [hclk, hann, he, hf]; exact h.of_announcing hs)
  · exact sessionLaw_online (hl.trans hs) (by rw [hclk, hann, he, hf]; exact h.of_online hs)

/-- A frame record asks for a session (R139). -/
theorem LinkLaw.link_of_frame (h : LinkLaw s) {f : Frame} (hf : s.frame = some f) :
    s.link = .announcing ∧ f.subject = .restart ∨ s.link = .online ∧ f.subject ≠ .restart := by
  cases hl : s.link with
  | offline => have := (h.of_offline hl).2.1; rw [hf] at this; cases this
  | silent => have := (h.of_silent hl).2.1; rw [hf] at this; cases this
  | announcing => exact .inl ⟨rfl, (h.of_announcing hl).2.2.2 f hf⟩
  | online => exact .inr ⟨rfl, (h.of_online hl).2.2.2 f hf⟩

/-- A selection is for the link's own kind of frame (R141). -/
theorem LinkLaw.select (hs : LinkLaw s) : LinkLaw s.select := by
  have hsame : SameSession s s.select := (SameSession.of_parts (select_parts s))
  rcases select_cases s with he | ⟨-, ⟨hlow, hclr⟩, hcases⟩
  · rw [he]; exact hs
  · obtain ⟨f', hf', hphase, hsession⟩ : ∃ f', s.select.frame = some f' ∧ f'.phase = .selected ∧ sessionLaw s.select := by
      rcases hcases with ⟨hl, ha, he⟩ | ⟨hl, i, r, o, -, -, -, he⟩ | ⟨hl, n, w, -, he⟩
      · obtain ⟨h1, h2, h3, -⟩ := hs.of_announcing hl
        refine ⟨_, by rw [he], rfl, he ▸ sessionLaw_announcing hl ⟨h1, h2, h3, fun f hf => ?_⟩⟩
        cases hf
        rfl
      · obtain ⟨h1, h2, h3, -⟩ := hs.of_online hl
        refine ⟨_, by rw [he], rfl, he ▸ sessionLaw_online hl ⟨h1, h2, h3, fun f hf => ?_⟩⟩
        cases hf
        exact Subject.noConfusion
      · obtain ⟨h1, h2, h3, -⟩ := hs.of_online hl
        refine ⟨_, by rw [he], rfl, he ▸ sessionLaw_online hl ⟨h1, h2, h3, fun f hf => ?_⟩⟩
        cases hf
        exact Subject.noConfusion
    refine ⟨hsession, by rw [hsame.clearing, hsame.link, hsame.announced]; exact hs.clearing, fun h => ?_, .inr fun f hf => ?_⟩
    · rw [hsame.resetLow, hlow] at h
      cases h
    · rw [hf'] at hf
      cases hf
      exact hphase

end

/-! ### The deeds -/

theorem TableDeed.session {s t : State} (h : TableDeed s t) : SameSession s t := .of_parts h.reaches

theorem TableDeed.keeps_link {s t : State} (h : TableDeed s t) (hs : LinkLaw s) : LinkLaw t := by
  by_cases hsel : t = s.select
  · exact hsel ▸ hs.select
  · refine hs.frame h.session fun f' hf' => ?_
    rcases h.frame_cases hf' with ⟨f, hf, rfl | rfl⟩ | ⟨hnew, -⟩
    · exact ⟨f', hf, rfl, .inr id⟩
    · exact ⟨f, hf, rfl, .inr id⟩
    · exact absurd hnew hsel

theorem dropFrame_session (s : State) : SameSession s s.dropFrame := .of_parts TableDeed.dropFrame.reaches

theorem Deed.keeps_link {s t : State} (h : Deed s t) (hs : LinkLaw s) : LinkLaw t := by
  have hdrop := dropFrame_session s
  have hnone := dropFrame_frame s
  cases h with
  | table h => exact h.keeps_link hs
  | answerDue a h =>
    obtain ⟨-, hlow, hl, hf⟩ := h
    refine ⟨?_, hs.clearing, fun h => ?_, .inr hf⟩
    · rcases hl with hl | hl
      · exact sessionLaw_announcing hl (hs.of_announcing hl)
      · exact sessionLaw_online hl (hs.of_online hl)
    · rw [hlow] at h; cases h
  | answerBegins h =>
    have hbusy : s.answer ≠ .idle := by rw [h]; exact AnswerSlot.noConfusion
    refine ⟨?_, hs.clearing, fun hlow => absurd (hs.reset hlow).2 hbusy, .inr (hs.answer.resolve_left hbusy)⟩
    rcases link_cases s with hl | hl | hl | hl
    · exact absurd (hs.of_offline hl).2.2 hbusy
    · exact absurd (hs.of_silent hl).2.2.1 hbusy
    · exact sessionLaw_announcing hl (hs.of_announcing hl)
    · exact sessionLaw_online hl (hs.of_online hl)
  | answerEnds => exact hs.idle { s with answer := .idle } rfl rfl rfl rfl rfl rfl rfl (fun h => (hs.reset h).1)
  | silence hl ha =>
    have hoff : s.link ≠ .offline := by rcases hl with hl | hl <;> rw [hl] <;> exact LinkState.noConfusion
    have hidle : s.dropFrame.answer = .idle := hdrop.answer.trans ha
    refine ⟨sessionLaw_silent rfl ⟨rfl, hnone, hidle, ?_⟩, fun k hk => ?_, fun _ => ⟨hnone, hidle⟩, .inl hidle⟩
    · exact hdrop.epoch ▸ hs.epoch hoff
    · have hk : s.dropFrame.clearing = some k := hk
      rw [hdrop.clearing, hs.notClearing hoff] at hk
      cases hk
  | restart he hp =>
    refine ⟨sessionLaw_announcing rfl ⟨rfl, rfl, he, fun _ hf => by cases hf⟩, fun k hk => ?_, fun _ => ⟨rfl, rfl⟩, .inl rfl⟩
    have hk : s.clearing = some k := hk
    rw [hp.2] at hk
    cases hk
  | stop hp =>
    refine .offline rfl rfl hnone rfl fun k hk => ?_
    have hk : s.dropFrame.clearing = some k := hk
    rw [hdrop.clearing, hp.2] at hk
    cases hk
  | resume hl ha period =>
    obtain ⟨-, hf, hidle, he⟩ := hs.of_silent hl
    refine ⟨sessionLaw_online rfl ⟨⟨period, rfl⟩, ha, he, fun f hsf => ?_⟩, fun k hk => ?_, fun _ => ⟨hf, hidle⟩, .inl hidle⟩
    · exact absurd (hsf.symm.trans hf) (Option.some_ne_none f)
    · exact absurd ((hs.clearing k hk).1.symm.trans hl) LinkState.noConfusion
  | reannounce hl ha =>
    obtain ⟨-, hf, hidle, he⟩ := hs.of_silent hl
    refine ⟨sessionLaw_announcing rfl ⟨rfl, ha, he, fun f hsf => ?_⟩, fun k hk => ?_, fun _ => ⟨hf, hidle⟩, .inl hidle⟩
    · exact absurd (hsf.symm.trans hf) (Option.some_ne_none f)
    · exact absurd ((hs.clearing k hk).1.symm.trans hl) LinkState.noConfusion
  | directoryReset => exact .offline rfl rfl hnone rfl (fun _ _ => rfl)
  | powerOn => exact .offline rfl rfl hnone rfl (fun _ _ => rfl)
  | resetLow =>
    have hd := TableDeed.dropFrame.keeps_link hs
    exact hd.idle (heldInReset s) rfl rfl rfl rfl rfl rfl rfl (fun _ => hnone)
  | clearTables hc =>
    obtain ⟨hl, -⟩ := hs.clearing _ hc
    obtain ⟨hclk, hf, ha⟩ := hs.of_offline hl
    exact .offline hl hclk hf ha (fun _ hk => by cases hk)
  | beginFrame hf ha =>
    refine hs.frame (.of_parts (by unfold ReachesParts; rw [beginFrame_reaches])) fun f' hf' => ?_
    rw [beginFrame_frame] at hf'
    cases hf'
    exact ⟨_, hf, rfl, .inl ha⟩
  | backOff hf =>
    refine hs.frame ⟨rfl, rfl, rfl, rfl, rfl, rfl, rfl⟩ fun f' hf' => ?_
    cases hf'
    exact ⟨_, hf, rfl, .inr fun _ => rfl⟩
  | await hf hp =>
    refine hs.frame ⟨rfl, rfl, rfl, rfl, rfl, rfl, rfl⟩ fun f' hf' => ?_
    cases hf'
    exact ⟨_, hf, rfl, .inr fun h => by rw [hp] at h; cases h⟩
  | announce hf hsub period =>
    have hl : s.link = .announcing := ((hs.link_of_frame hf).resolve_right (fun h => h.2 hsub)).1
    have hoff : s.link ≠ .offline := by rw [hl]; exact LinkState.noConfusion
    refine ⟨sessionLaw_online rfl ⟨⟨period, rfl⟩, rfl, hs.epoch hoff, fun _ h => by cases h⟩, fun k hk => ?_,
      fun h => ⟨rfl, (hs.reset h).2⟩, .inr fun _ h => by cases h⟩
    exact absurd (hs.clearing k hk).1 hoff
  | completeOffer hf =>
    have hu : LinkLaw { s with frame := none } := hs.noFrame ⟨rfl, rfl, rfl, rfl, rfl, rfl, rfl⟩ rfl
    exact hu.sameFrame (offerOutcome_reaches _ _ _ _).session (offerOutcome_reaches _ _ _ _).frame
  | completeNotice hf =>
    have hu : LinkLaw { s with frame := none } := hs.noFrame ⟨rfl, rfl, rfl, rfl, rfl, rfl, rfl⟩ rfl
    exact hu.sameFrame (noticeOutcome_reaches _ _ _ _ _ _).session (noticeOutcome_reaches _ _ _ _ _ _).frame
  | completeOther => exact hs.noFrame ⟨rfl, rfl, rfl, rfl, rfl, rfl, rfl⟩ rfl
  | _ => exact hs.sameFrame ⟨rfl, rfl, rfl, rfl, rfl, rfl, rfl⟩ rfl

/-! ### VACANT until the announcement -/

/-- The mark stays where the session goes on; a new session has VACANT roles alone. -/
theorem Deed.unannounced {s t : State} (h : Deed s t) : (t.announced = s.announced ∧ (s.link = .offline → t.link = .offline))
    ∨ t.announced = true ∨ t.link = .offline ∨ ∀ i r, t.roleAt i = some r → r.tenure = .vacant := by
  have hdrop := dropFrame_session s
  have hsame : SameSession s t → (t.announced = s.announced ∧ (s.link = .offline → t.link = .offline))
      ∨ t.announced = true ∨ t.link = .offline ∨ ∀ i r, t.roleAt i = some r → r.tenure = .vacant :=
    fun h => .inl ⟨h.announced, fun hl => h.link.trans hl⟩
  cases h with
  | table h => exact hsame h.session
  | silence hl =>
    refine .inl ⟨hdrop.announced, fun h => ?_⟩
    rcases hl with hl | hl <;> rw [h] at hl <;> cases hl
  | restart =>
    refine .inr (.inr (.inr fun i r' hr' => ?_))
    rw [roleAt_restart] at hr'
    obtain ⟨r, -, h⟩ := Option.bind_eq_some_iff.1 hr'
    unfold roleAfterRestart at h
    split at h <;> cases h
    rfl
  | stop => exact .inr (.inr (.inl rfl))
  | resume hl ha => exact .inr (.inl ha)
  | reannounce hl => exact .inl ⟨rfl, fun h => by rw [h] at hl; cases hl⟩
  | directoryReset => exact .inr (.inr (.inl rfl))
  | powerOn => exact .inr (.inr (.inl rfl))
  | resetLow => exact .inl ⟨hdrop.announced, fun hl => hdrop.link.trans hl⟩
  | beginFrame => exact hsame (.of_parts (by unfold ReachesParts; rw [beginFrame_reaches]))
  | announce => exact .inr (.inl rfl)
  | completeOffer =>
    exact .inl ⟨(offerOutcome_reaches _ _ _ _).session.announced,
      fun hl => (offerOutcome_reaches _ _ _ _).session.link.trans hl⟩
  | completeNotice =>
    exact .inl ⟨(noticeOutcome_reaches _ _ _ _ _ _).session.announced,
      fun hl => (noticeOutcome_reaches _ _ _ _ _ _).session.link.trans hl⟩
  | _ => exact .inl ⟨rfl, id⟩

/-- A gain of a role or a claim before the first announcement is a VACANT role alone. -/
theorem RoleGain.vacant {s t : State} (h : RoleGain s t) (hs : LinkLaw s)
    (hv : ∀ i r, s.roleAt i = some r → r.tenure = .vacant) : s.announced = true ∨ ∀ i r, t.roleAt i = some r → r.tenure = .vacant := by
  cases h with
  | define hfree =>
    refine .inr fun i r hr => ?_
    rw [roleAt_create_at] at hr
    split at hr
    · cases hr; rfl
    · exact hv i r hr
  | found _ _ _ _ hl => exact .inl (hs.of_online hl).2.1
  | grant _ _ _ hl => exact .inl (hs.of_online hl).2.1
  | queue hr ht => exact absurd (hv _ _ hr) ht

theorem RoleGain.session {s t : State} (h : RoleGain s t) : SameSession s t := by
  cases h with
  | found => exact (ReachesRoles.trans rfl (grant_reaches _ _ _)).session
  | grant => exact (grant_reaches _ _ _).session
  | _ => exact ⟨rfl, rfl, rfl, rfl, rfl, rfl, rfl⟩

theorem Deed.keeps_vacant {s t : State} (h : Deed s t) (hs : LinkLaw s) (hv : unannouncedVacant s = true) :
    unannouncedVacant t = true := by
  rw [unannouncedVacant_iff] at hv ⊢
  rcases h.unannounced with ⟨hann, hlink⟩ | hdone
  · rcases hv with ha | hl | hall
    · exact .inl (hann.trans ha)
    · exact .inr (.inl (hlink hl))
    · rcases h.descends with hd | hg
      · refine .inr (.inr fun i r' hr' => ?_)
        obtain ⟨-, r, hr, hdesc⟩ := hd i r' hr'
        exact hdesc.vacant (hall i r hr)
      · exact (hg.vacant hs hall).elim (fun ha => .inl (hann.trans ha)) (fun h => .inr (.inr h))
  · exact hdone

/-- Settles O58: every deed keeps the link's law, and with it the VACANT roles before the announcement. -/
theorem stepsKeepTheLinkLawful : Obligations.StepsKeepTheLinkLawful := by
  unfold Obligations.StepsKeepTheLinkLawful
  intro s t hs hv h
  have hkept := step_keeps (P := fun u => LinkLaw u ∧ unannouncedVacant u = true) (fun _ _ hu => ?_)
    (fun _ _ hd hu => ⟨hd.keeps_link hu.1, hd.keeps_vacant hu.1 hu.2⟩) (fun _ hu => ?_) ⟨(linkLawful_iff s).1 hs, hv⟩ h
  · exact ⟨(linkLawful_iff t).2 hkept.1, hkept.2⟩
  · exact ⟨hu.1.sameFrame ⟨rfl, rfl, rfl, rfl, rfl, rfl, rfl⟩ rfl, hu.2⟩
  · exact ⟨hu.1.sameFrame ⟨rfl, rfl, rfl, rfl, rfl, rfl, rfl⟩ rfl, hu.2⟩

end Sys2Proof.Machine
end

section
/-! PROOFS. Offers in flight (O59): a deed puts no offer IN FLIGHT but a selection, whose frame is the offer's; and where a frame ends,
the offer that it carried has left the air. -/

namespace Sys2Proof.Machine

open Sys2Proof.Safety

/-! ### The law, said of offers -/

/-- The role at an index is OFFERED by an offer that is IN FLIGHT. -/
def inFlight (s : State) (i : Nat) (o : Offer) : Prop :=
  ∃ r, s.roleAt i = some r ∧ r.tenure = .offered o ∧ o.phase = .inFlight

/-- The frame record holds the frame of an offer of the role at an index, to its offeree, which is not a purged target. -/
def framed (s : State) (i : Nat) (o : Offer) : Prop :=
  ∃ f, s.frame = some f ∧ f.subject = .offer (s.handleAt i) o.number ∧ f.dest = o.offeree ∧ f.purgedTarget = false

/-- No offer is IN FLIGHT. -/
def grounded (s : State) : Prop := ∀ i o, ¬ inFlight s i o

theorem inFlightAt_eq_some_iff (s : State) (i : Nat) (p : Subject × Byte) :
    inFlightAt s i = some p ↔ ∃ o, inFlight s i o ∧ p = (.offer (s.handleAt i) o.number, o.offeree) := by
  unfold inFlightAt inFlight
  cases hr : s.roleAt i with
  | none => simp
  | some r =>
    simp only [Option.bind_some, Option.some.injEq, exists_eq_left']
    cases ht : r.tenure with
    | offered o =>
      by_cases hp : o.phase = .inFlight
      · simp [hp, eq_comm]
      · simp only [hp, if_false, reduceCtorEq, false_iff]
        rintro ⟨o', ⟨⟨⟩, hp'⟩, -⟩
        exact hp hp'
    | _ => simp

theorem flightLawful_iff (s : State) : flightLawful s = true ↔ ∀ i o, inFlight s i o → framed s i o := by
  have hrow : ∀ i, (match inFlightAt s i with
      | none => true
      | some (subject, offeree) => s.frame.any (fun f => f.subject == subject && f.dest == offeree && !f.purgedTarget)) = true ↔
      ∀ o, inFlight s i o → framed s i o := by
    intro i
    cases h : inFlightAt s i with
    | none =>
      simp only [true_iff]
      intro o ho
      have := (inFlightAt_eq_some_iff s i _).2 ⟨o, ho, rfl⟩
      rw [h] at this
      cases this
    | some p =>
      obtain ⟨o, ho, rfl⟩ := (inFlightAt_eq_some_iff s i p).1 h
      have hone : ∀ o', inFlight s i o' → o' = o := by
        rintro o' ⟨r', hr', ht', -⟩
        obtain ⟨r, hr, ht, -⟩ := ho
        rw [hr] at hr'
        cases hr'
        rw [ht] at ht'
        cases ht'
        rfl
      have hany : s.frame.any (fun f => f.subject == .offer (s.handleAt i) o.number && f.dest == o.offeree && !f.purgedTarget) = true ↔
          framed s i o := by
        unfold framed
        cases s.frame <;> simp [and_assoc]
      simp only [hany]
      exact ⟨fun hf o' ho' => hone o' ho' ▸ hf, fun hall => hall o ho⟩
  unfold flightLawful
  rw [List.all_eq_true]
  constructor
  · intro h i o ho
    obtain ⟨r, hr, -⟩ := id ho
    exact (hrow i).1 (h i (List.mem_range.2 (roleAt_lt hr))) o ho
  · intro h i _
    exact (hrow i).2 (h i)

/-! ### Where the offers in flight come from -/

/-- Every offer that is in flight in `t` was so in `s`, in the same life of its entry. -/
def FlightBy (s t : State) : Prop := ∀ i o, inFlight t i o → inFlight s i o ∧ t.handleAt i = s.handleAt i

/-- A role with no offer in flight. -/
def landed (r : Role) : Prop := ∀ o, r.tenure = .offered o → o.phase ≠ .inFlight

/-- An offer in flight after is the offer before. -/
def Lands (r r' : Role) : Prop := ∀ o, r'.tenure = .offered o → o.phase = .inFlight → r.tenure = .offered o

section
variable {s t u : State}

theorem Lands.of_landed {r r' : Role} (h : landed r') : Lands r r' := fun o ho hp => absurd hp (h o ho)

theorem Lands.of_tenure {r r' : Role} (h : r'.tenure = r.tenure) : Lands r r' := fun _ ho _ => h ▸ ho

theorem Lands.trans {r r' r'' : Role} (h : Lands r r') (h' : Lands r' r'') : Lands r r'' :=
  fun o ho hp => h o (h' o ho hp) hp

theorem Lands.refl (r : Role) : Lands r r := .of_tenure rfl

theorem landed_held {r : Role} {a : Byte} {lease : Nat} {attr : List Byte} (h : r.tenure = .held a lease attr) : landed r := by
  intro o ho
  rw [h] at ho
  cases ho

theorem landed_vacant {r : Role} (h : r.tenure = .vacant) : landed r := by
  intro o ho
  rw [h] at ho
  cases ho

theorem landed_offered {r : Role} {o : Offer} (h : r.tenure = .offered o) (hp : o.phase ≠ .inFlight) : landed r := by
  intro o' ho
  rw [h] at ho
  cases ho
  exact hp

theorem landed_offerToHead {r r' : Role} {g : Half} (h : offerToHead r g = some r') : landed r' := by
  unfold offerToHead at h
  split at h
  · cases h
    exact landed_offered rfl OfferPhase.noConfusion
  · cases h

theorem landed_loss {r r' : Role} (h : roleAfterLoss r = some r') : landed r' := by
  unfold roleAfterLoss at h
  split at h
  · rename_i hoffer
    cases h
    exact landed_offerToHead hoffer
  · cases h
    exact landed_vacant rfl
  · cases h

theorem landed_skip {r r' : Role} (h : roleAfterSkip r = some r') : landed r' := by
  unfold roleAfterSkip at h
  split at h
  · rename_i hoffer
    cases h
    exact landed_offerToHead hoffer
  · cases h
    exact landed_vacant rfl
  · cases h

theorem lands_tick {r r' : Role} (h : roleAfterTick r = some r') : Lands r r' := by
  unfold roleAfterTick at h
  split at h
  · split at h
    · cases h
      exact .of_landed (landed_held rfl)
    · exact .of_landed (landed_loss h)
  · split at h
    · split at h
      · cases h
        exact .of_landed (landed_offered rfl OfferPhase.noConfusion)
      · exact .of_landed (landed_skip h)
    · cases h
      exact .refl r
  · cases h
    exact .refl r

/-- A purge leaves in flight the offers to other stations alone (R41, R119). -/
theorem flight_of_purge {a : Byte} {r r' : Role} (h : roleAfterPurge a r = some r') {o : Offer} (ho : r'.tenure = .offered o)
    (hp : o.phase = .inFlight) : r.tenure = .offered o ∧ o.offeree ≠ a := by
  unfold roleAfterPurge at h
  dsimp only at h
  split_ifs at h with hheld hoffered
  · exact absurd hp (landed_loss h o ho)
  · exact absurd hp (landed_skip h o ho)
  · cases h
    exact ⟨ho, by simpa [Safety.offeredTo, show r.tenure = _ from ho] using hoffered⟩

theorem RolesBy.flight (h : RolesBy Lands s t) : FlightBy s t := by
  rintro i o ⟨r', hr', ho, hp⟩
  obtain ⟨hh, r, hr, hl⟩ := h i r' hr'
  exact ⟨⟨r, hr, hl o ho hp, hp⟩, hh⟩

theorem FlightBy.trans (h : FlightBy s t) (h' : FlightBy t u) : FlightBy s u := by
  intro i o ho
  obtain ⟨ho', hh'⟩ := h' i o ho
  obtain ⟨ho'', hh⟩ := h i o ho'
  exact ⟨ho'', hh'.trans hh⟩

theorem FlightBy.of_roles (h : t.roles = s.roles) : FlightBy s t := (RolesBy.of_roles Lands.refl h).flight

theorem FlightBy.putRole {i : Nat} {r r' : Role} (hr : s.roleAt i = some r) (h : Lands r r') : FlightBy s (s.putRole i r') :=
  (RolesBy.putRole Lands.refl hr h).flight

theorem FlightBy.dropFrame (s : State) : FlightBy s s.dropFrame :=
  (RolesBy.dropFrame Lands.refl (fun _ _ _ => .of_landed (landed_offered rfl OfferPhase.noConfusion)) s).flight

theorem FlightBy.afterSkip {h : Handle} {r : Role} (hn : s.named h = some r) : FlightBy s (afterSkip s h r) := by
  have := (RolesBy.afterSkip Lands.refl (roleAt_of_named hn) (fun _ hs => .of_landed (landed_skip hs))).flight
  rwa [handleAt_of_named hn] at this

theorem FlightBy.offerOutcome (s : State) (h : Handle) (number : Byte) (outcome : FrameOutcome) :
    FlightBy s (s.offerOutcome h number outcome) := by
  rcases offerOutcome_cases s h number outcome with ⟨he, -⟩ | ⟨r, o, ⟨hn, -, -, -⟩, he | he | he | ⟨-, he⟩⟩ <;> rw [he]
  · exact .of_roles rfl
  · exact .trans (.putRole (roleAt_of_named hn) (.of_landed (landed_held rfl))) (.of_roles rfl)
  · exact .afterSkip hn
  · exact .putRole (roleAt_of_named hn) (.of_landed (landed_offered rfl OfferPhase.noConfusion))
  · exact .putRole (roleAt_of_named hn) (.of_landed (landed_offered rfl OfferPhase.noConfusion))

/-- A role or a claim that a deed adds is no offer in flight. -/
theorem RoleGain.flight (h : RoleGain s t) : FlightBy s t := by
  cases h with
  | define hfree =>
    rintro i o ⟨r', hr', ho, hp⟩
    rw [roleAt_create_at] at hr'
    split at hr'
    · cases hr'
      cases ho
    · rename_i hi
      exact ⟨⟨r', hr', ho, hp⟩, handleAt_create_other (fun he => hi ⟨he, (freeIndex_spec hfree).1⟩) _ _ _⟩
  | found hfree =>
    rintro i o ⟨r', hr', ho, hp⟩
    rw [roleAt_found hfree] at hr'
    rw [handleAt_found hfree]
    split at hr'
    · cases hr'
      cases ho
    · rename_i hi
      exact ⟨⟨r', hr', ho, hp⟩, handleAt_create_other hi _ _ _⟩
  | grant hr =>
    rintro j o ⟨r', hr', ho, hp⟩
    rw [roleAt_grant hr] at hr'
    rw [handleAt_grant hr]
    split at hr'
    · cases hr'
      cases ho
    · exact ⟨⟨r', hr', ho, hp⟩, rfl⟩
  | queue hr => exact .putRole hr (.of_tenure rfl)

/-! ### Frames that go on, and frames that end -/

/-- The frame goes on, for the same subject and target. -/
def FrameGoesOn (s t : State) : Prop :=
  ∀ f, s.frame = some f → ∃ f', t.frame = some f' ∧ f'.subject = f.subject ∧ f'.dest = f.dest ∧ f'.purgedTarget = f.purgedTarget

theorem FrameGoesOn.of_same (h : t.frame = s.frame) : FrameGoesOn s t := fun f hf => ⟨f, h ▸ hf, rfl, rfl, rfl⟩

theorem framed_of {i : Nat} {o : Offer} (h : FrameGoesOn s t) (hh : t.handleAt i = s.handleAt i) (hs : framed s i o) : framed t i o := by
  obtain ⟨f, hf, hsub, hd, hp⟩ := hs
  obtain ⟨f', hf', hsub', hd', hp'⟩ := h f hf
  exact ⟨f', hf', by rw [hsub', hsub, hh], hd'.trans hd, hp'.trans hp⟩

theorem flightLawful_of (hfl : FlightBy s t) (hf : FrameGoesOn s t) (hs : flightLawful s = true) : flightLawful t = true := by
  rw [flightLawful_iff] at hs ⊢
  intro i o ho
  obtain ⟨ho', hh⟩ := hfl i o ho
  exact framed_of hf hh (hs i o ho')

theorem flightLawful_of_grounded (h : grounded s) : flightLawful s = true :=
  (flightLawful_iff s).2 fun i o ho => absurd ho (h i o)

theorem FlightBy.grounded (h : FlightBy s t) (hs : Sys2Proof.Machine.grounded s) : Sys2Proof.Machine.grounded t :=
  fun i o ho => hs i o (h i o ho).1

theorem inFlight_of_roles (h : t.roles = s.roles) {i : Nat} {o : Offer} : inFlight t i o ↔ inFlight s i o := by
  simp only [inFlight, roleAt_of_roles h]

/-- An offer in flight is current for the frame that carries it. -/
theorem currentOffer_of_inFlight {i : Nat} {o : Offer} (h : inFlight s i o) :
    ∃ r, s.currentOffer (s.handleAt i) o.number = some (r, o) := by
  obtain ⟨r, hr, ht, hp⟩ := h
  exact ⟨r, (currentOffer_iff s _ _ r o).2 ⟨named_handleAt hr, ht, rfl, hp⟩⟩

/-- With the frame record empty no offer is in flight. -/
theorem grounded_of_no_frame (hs : flightLawful s = true) (hf : s.frame = none) : grounded s := by
  intro i o ho
  obtain ⟨f, hsf, -⟩ := (flightLawful_iff s).1 hs i o ho
  rw [hf] at hsf
  cases hsf

/-- Under a frame that carries no offer, or not to its offeree any more, no offer is in flight. -/
theorem grounded_of_other (hs : flightLawful s = true) {f : Frame} (hf : s.frame = some f)
    (h : f.purgedTarget = true ∨ ∀ x number, f.subject ≠ .offer x number) : grounded s := by
  intro i o ho
  obtain ⟨f', hf', hsub, -, hp⟩ := (flightLawful_iff s).1 hs i o ho
  rw [hf] at hf'
  cases hf'
  rcases h with h | h
  · rw [h] at hp
    cases hp
  · exact h _ _ hsub

theorem not_inFlight_putRole {i : Nat} {r : Role} (hi : i < 96) (h : landed r) (o : Offer) : ¬ inFlight (s.putRole i r) i o := by
  rintro ⟨r', hr', ho, hp⟩
  rw [roleAt_putRole, if_pos ⟨rfl, hi⟩] at hr'
  cases hr'
  exact h o ho hp

/-- A frame that is dropped takes its offer out of the air (R143, R149). -/
theorem dropFrame_grounded (hs : flightLawful s = true) : grounded s.dropFrame := by
  intro i o ho
  obtain ⟨hos, -⟩ := FlightBy.dropFrame s i o ho
  obtain ⟨f, hf, hsub, -, -⟩ := (flightLawful_iff s).1 hs i o hos
  obtain ⟨r, hc⟩ := currentOffer_of_inFlight hos
  obtain ⟨r₀, hr₀, -⟩ := id hos
  rw [dropFrame_current_offer hf hsub hc, handleAt_index (roleAt_lt hr₀)] at ho
  exact not_inFlight_putRole (roleAt_lt hr₀) (landed_offered rfl OfferPhase.noConfusion) o ho

theorem landed_afterSkip {i : Nat} {r : Role} (hr : s.roleAt i = some r) (o : Offer) :
    ¬ inFlight (afterSkip s (s.handleAt i) r) i o := by
  rintro ⟨r', hr', ho, hp⟩
  rw [roleAt_afterSkip (roleAt_lt hr), if_pos rfl] at hr'
  exact landed_skip hr' o ho hp

/-- Whatever the outcome of an OFFER, its offer is not in flight any more (R110, R111). -/
theorem not_inFlight_offerOutcome {i : Nat} {o : Offer} (h : inFlight s i o) (outcome : FrameOutcome) (o' : Offer) :
    ¬ inFlight (s.offerOutcome (s.handleAt i) o.number outcome) i o' := by
  obtain ⟨r, hc⟩ := currentOffer_of_inFlight h
  rcases offerOutcome_cases s (s.handleAt i) o.number outcome with ⟨-, hnone⟩ | ⟨r₁, o₁, ⟨hn, -, -, -⟩, hcases⟩
  · rw [hnone] at hc
    cases hc
  · obtain ⟨r₀, hr₀, -⟩ := h
    have hi := roleAt_lt hr₀
    have hr₁ : s.roleAt i = some r₁ := by
      have := roleAt_of_named hn
      rwa [handleAt_index hi] at this
    rcases hcases with he | he | he | ⟨-, he⟩ <;> rw [he]
    · rw [afterGrant, handleAt_index hi]
      exact fun h => not_inFlight_putRole hi (landed_held rfl) o' ((inFlight_of_roles rfl).1 h)
    · exact landed_afterSkip hr₁ o'
    · rw [handleAt_index hi]
      exact not_inFlight_putRole hi (landed_offered rfl OfferPhase.noConfusion) o'
    · rw [handleAt_index hi]
      exact not_inFlight_putRole hi (landed_offered rfl OfferPhase.noConfusion) o'

theorem completeOffer_grounded {f : Frame} {h : Handle} {number : Byte} (hs : flightLawful s = true) (hf : s.frame = some f)
    (hsub : f.subject = .offer h number) (outcome : FrameOutcome) :
    grounded (({ s with frame := none } : State).offerOutcome h number outcome) := by
  intro i o' ho
  obtain ⟨hos, -⟩ := FlightBy.offerOutcome { s with frame := none } h number outcome i o' ho
  obtain ⟨f', hf', hsub', -⟩ := (flightLawful_iff s).1 hs i o' hos
  rw [hf] at hf'
  cases hf'
  rw [hsub] at hsub'
  cases hsub'
  exact not_inFlight_offerOutcome hos outcome o' ho

/-- A selection puts in flight the offer whose frame it selects (R108, R141). -/
theorem select_flight (hs : flightLawful s = true) : flightLawful s.select = true := by
  rcases select_cases s with he | ⟨hf, -, ⟨-, -, he⟩ | ⟨-, i, r, o, hr, ht, -, he⟩ | ⟨-, n, w, -, he⟩⟩ <;> rw [he]
  · exact hs
  · exact flightLawful_of_grounded ((FlightBy.of_roles (s := s) rfl).grounded (grounded_of_no_frame hs hf))
  · refine (flightLawful_iff _).2 fun j o' ho' => ?_
    obtain ⟨r', hr', ht', hp'⟩ := ho'
    have hr' : (s.putRole i { r with tenure := .offered { o with phase := .inFlight } }).roleAt j = some r' := hr'
    rw [roleAt_putRole] at hr'
    split at hr'
    · rename_i hj
      cases hr'
      cases ht'
      exact ⟨_, rfl, by rw [hj.1]; exact congrArg (Subject.offer · _) (handleAt_putRole s i i _).symm, rfl, rfl⟩
    · exact absurd ⟨r', hr', ht', hp'⟩ (grounded_of_no_frame hs hf j o')
  · exact flightLawful_of_grounded ((FlightBy.of_roles (s := s) rfl).grounded (grounded_of_no_frame hs hf))

theorem purge_flight (a : Byte) (hs : flightLawful s = true) : flightLawful (s.purge a) = true := by
  rw [flightLawful_iff] at hs ⊢
  rintro i o ⟨r', hr', ho, hp⟩
  rw [(purge_roles s a i).1] at hr'
  obtain ⟨r, hr, hpurged⟩ := Option.bind_eq_some_iff.1 hr'
  obtain ⟨ht, hne⟩ := flight_of_purge hpurged ho hp
  obtain ⟨f, hf, hsub, hd, hmark⟩ := hs i o ⟨r, hr, ht, hp⟩
  refine ⟨f, ?_, by rw [hsub, handleAt_of_incarnation (purge_roles s a i).2], hd, hmark⟩
  rw [purge_frame, hf, Option.bind_some, frameAfterPurge, if_neg]
  rintro ⟨-, hda⟩
  exact hne (hd.symm.trans hda)

end

/-! ### The deeds -/

theorem TableDeed.keeps_flight {s t : State} (h : TableDeed s t) (hs : flightLawful s = true) : flightLawful t = true := by
  have hsame : t.roles = s.roles → t.frame = s.frame → flightLawful t = true :=
    fun hr hf => flightLawful_of (.of_roles hr) (.of_same hf) hs
  have hroles : RolesBy Lands s t → ReachesRoles s t → flightLawful t = true :=
    fun hr hp => flightLawful_of hr.flight (.of_same hp.frame) hs
  have hgain : RoleGain s t → t.frame = s.frame → flightLawful t = true :=
    fun hg hf => flightLawful_of hg.flight (.of_same hf) hs
  cases h with
  | clearStrikes a => exact hsame (by rw [clearStrikes_only]) (clearStrikes_frame s a)
  | strike => exact hsame (by rw [setStation_only]) (setStation_frame _ _ _)
  | allocate => exact hsame (by rw [setStation_only]) (setStation_frame _ _ _)
  | depart => exact hsame (by rw [setStation_only]) (setStation_frame _ _ _)
  | purge a => exact purge_flight a hs
  | publish hr =>
    exact flightLawful_of (.trans (.putRole hr (.of_landed (landed_held rfl))) (.of_roles rfl)) (.of_same rfl) hs
  | @restore i r hr =>
    refine flightLawful_of (.putRole hr ?_) (.of_same rfl) hs
    unfold Role.restored
    split
    · exact .of_landed (landed_held rfl)
    · exact .refl r
  | setTerm hr =>
    refine flightLawful_of (.putRole hr ?_) (.of_same rfl) hs
    unfold Role.withTerm
    split
    · exact .of_landed (landed_held rfl)
    · exact .of_tenure rfl
  | define hfree hnew hlegal h1 h2 => exact hgain (.define hfree hnew hlegal h1 h2) rfl
  | found hfree hnew hlegal hj hl =>
    exact hgain (.found hfree hnew hlegal hj hl) (ReachesRoles.trans rfl (grant_reaches _ _ _)).frame
  | @grant i r a hr =>
    refine flightLawful_of ?_ (.of_same (grant_reaches _ _ _).frame) hs
    rw [grant_eq hr, afterGrant, handleAt_index (roleAt_lt hr)]
    exact .trans (.putRole hr (.of_landed (landed_held rfl))) (.of_roles rfl)
  | @retire i r hr =>
    refine flightLawful_of ?_ (.of_same (retire_reaches _ _).frame) hs
    rw [retire_eq hr, afterRetirement, handleAt_index (roleAt_lt hr)]
    exact .trans (.of_roles rfl) (RolesBy.freeEntry (s := s.finalWatches (s.handleAt i) _) Lands.refl hr).flight
  | loseHolder hr =>
    exact hroles (loseHolder_eq hr ▸ .afterLoss Lands.refl hr (fun _ h => .of_landed (landed_loss h))) (loseHolder_reaches _ _)
  | skip hr =>
    exact hroles (skip_eq hr ▸ .afterSkip Lands.refl hr (fun _ h => .of_landed (landed_skip h))) (skip_reaches _ _)
  | tickRole i => exact hroles (.tickRole Lands.refl (fun _ _ => lands_tick) s i) (tickRole_reaches _ _)
  | queue hr ht hheld hoffered hplace hchain hpool h1 h7 hj =>
    exact hgain (.queue hr ht hheld hoffered hplace hchain hpool h1 h7 hj) rfl
  | unqueue a hr => exact flightLawful_of (.putRole hr (.of_tenure rfl)) (.of_same rfl) hs
  | vacancyAtLeast x => exact hsame (by unfold State.vacancyAtLeast; split; split <;> rfl; rfl) (vacancyAtLeast_reaches _ _).frame
  | dropFrame => exact flightLawful_of_grounded (dropFrame_grounded hs)
  | select => exact select_flight hs
  | _ => exact hsame rfl rfl

theorem Deed.keeps_flight {s t : State} (h : Deed s t) (hs : flightLawful s = true) : flightLawful t = true := by
  have hdrop : t.roles = s.dropFrame.roles → flightLawful t = true :=
    fun he => flightLawful_of_grounded ((FlightBy.of_roles he).grounded (dropFrame_grounded hs))
  have hground : t.roles = s.roles → grounded s → flightLawful t = true :=
    fun he hg => flightLawful_of_grounded ((FlightBy.of_roles he).grounded hg)
  have hon : t.roles = s.roles → FrameGoesOn s t → flightLawful t = true :=
    fun hr hf => flightLawful_of (.of_roles hr) hf hs
  cases h with
  | table h => exact h.keeps_flight hs
  | silence => exact hdrop rfl
  | stop => exact hdrop rfl
  | directoryReset => exact hdrop rfl
  | powerOn => exact hdrop rfl
  | resetLow => exact hdrop rfl
  | restart =>
    refine flightLawful_of_grounded ?_
    rintro i o ⟨r', hr', ho, -⟩
    rw [roleAt_restart] at hr'
    obtain ⟨r, -, h⟩ := Option.bind_eq_some_iff.1 hr'
    unfold roleAfterRestart at h
    split at h <;> cases h
    cases ho
  | clearTables =>
    refine flightLawful_of_grounded ?_
    rintro i o ⟨r', hr', -⟩
    rw [roleAt_cleared] at hr'
    cases hr'
  | beginFrame hf =>
    refine hon (by rw [beginFrame_reaches]) fun f' hf' => ⟨_, beginFrame_frame s _, ?_⟩
    rw [hf] at hf'
    cases hf'
    exact ⟨rfl, rfl, rfl⟩
  | backOff hf =>
    refine hon rfl fun f' hf' => ⟨_, rfl, ?_⟩
    rw [hf] at hf'
    cases hf'
    exact ⟨rfl, rfl, rfl⟩
  | await hf =>
    refine hon rfl fun f' hf' => ⟨_, rfl, ?_⟩
    rw [hf] at hf'
    cases hf'
    exact ⟨rfl, rfl, rfl⟩
  | announce hf hsub =>
    exact hground rfl (grounded_of_other hs hf (.inr fun x number h => by rw [hsub] at h; cases h))
  | completeOffer hf hsub hp outcome => exact flightLawful_of_grounded (completeOffer_grounded hs hf hsub outcome)
  | completeNotice hf hsub =>
    exact hground (by rw [noticeOutcome_watches]) (grounded_of_other hs hf (.inr fun x number h => by rw [hsub] at h; cases h))
  | completeOther hf h =>
    refine hground rfl (grounded_of_other hs hf (h.imp id fun hsub x number h => ?_))
    rw [hsub] at h
    cases h
  | _ => exact hon rfl (.of_same rfl)

/-- Settles O59: every deed keeps the law. -/
theorem stepsKeepOffersInFlight : Obligations.StepsKeepOffersInFlight := by
  unfold Obligations.StepsKeepOffersInFlight
  intro s t hs h
  exact step_keeps (P := fun u => flightLawful u = true) (fun _ _ hu => hu) (fun _ _ hd => hd.keeps_flight)
    (fun _ hu => hu) hs h

end Sys2Proof.Machine
end

section
/-! PROOFS. The queue's front and the resets (O1, O3 to O6), and the line (O7 to O9): each event by what its meaning tests. -/

namespace Sys2Proof.Machine

open Sys2Proof.Safety

/-- Settles O1: `step` is this case split on the queue. -/
theorem stepRunsTheFrontCommand : Obligations.StepRunsTheFrontCommand := by
  unfold Obligations.StepRunsTheFrontCommand
  refine ⟨fun c s rest hq => ?_, fun s hq => ?_⟩
  · simp only [step, hq]
  · simp only [step, hq]

/-! ### Resets (R154, R155, R156) -/

theorem replicate_getElem? {α : Type} {n i : Nat} {a b : α} (h : (Vector.replicate n a)[i]? = some b) : b = a := by
  obtain ⟨hi, he⟩ := Vector.getElem?_eq_some_iff.1 h
  rw [← he, Vector.getElem_replicate]

theorem station_reset (a : Byte) : State.reset.station a = none := by
  cases h : State.reset.station a with
  | none => rfl
  | some st => cases replicate_getElem? (row_of_station h)

theorem roleAt_reset (i : Nat) : State.reset.roleAt i = none := by
  cases h : State.reset.roleAt i with
  | none => rfl
  | some r => cases congrArg Entry.role (replicate_getElem? (row_of_roleAt h))

theorem watchAt_reset (n : Nat) : watchAt State.reset n = none := by
  cases h : watchAt State.reset n with
  | none => rfl
  | some w => cases replicate_getElem? ((watchAt_iff _ n w).1 h)

theorem names_of_free {s : State} (hr : ∀ i, s.roleAt i = none) (hw : ∀ n, watchAt s n = none) (a : Byte) : names s a = false := by
  refine (names_eq_false_iff s a).2 ⟨fun i r h => ?_, fun n w h => ?_⟩
  · rw [hr] at h; cases h
  · rw [hw] at h; cases h

theorem incarnationAt_reset {i : Nat} (hi : i < 96) : incarnationAt State.reset i = some 0 := by
  obtain ⟨e, he⟩ := row_of_lt State.reset.roles hi
  rw [incarnationAt, he, replicate_getElem? he]
  rfl

/-- No claim is in use where no role is live, and no watch where none stands at a number. -/
theorem claimsInUse_of_free {s : State} (h : ∀ i, s.roleAt i = none) : s.claimsInUse = 0 := by
  refine List.sum_eq_zero fun k hk => ?_
  obtain ⟨e, he, rfl⟩ := List.mem_map.1 hk
  obtain ⟨i, hi⟩ := List.mem_iff_getElem?.1 he
  have hrole := h i
  rw [toList_getElem?] at hi
  simp only [State.roleAt, hi, Option.bind_some] at hrole
  rw [hrole]

theorem watchesInUse_of_free {s : State} (h : ∀ n, watchAt s n = none) : s.watchesInUse = 0 := by
  refine List.countP_eq_zero.2 fun o ho => ?_
  obtain ⟨n, hn⟩ := List.mem_iff_getElem?.1 ho
  cases o with
  | none => simp
  | some w =>
    have := (watchAt_iff s n w).2 ((toList_getElem? _ _).symm.trans hn)
    rw [h n] at this
    cases this

theorem tables_lawful_of_free {s : State} (hc : configSound s.config = true) (hst : ∀ a, s.station a = none)
    (hr : ∀ i, s.roleAt i = none) (hw : ∀ n, watchAt s n = none) :
    rolesLawful s = true ∧ tagsDistinct s = true ∧ poolLawful s = true ∧ registryLawful s = true ∧ membersJoined s
      ∧ watchesLawful s = true ∧ flightLawful s = true := by
  refine ⟨(rolesLawful_iff s).2 ⟨hc, fun i r h => ?_⟩, (tagsDistinct_iff s).2 fun i j r r' h => ?_, ?_,
    registryLawful_cleared hst, fun a h => ?_, (watchesLawful_iff s).2 ⟨fun n w h => ?_, fun n m w v h => ?_⟩,
    flightLawful_of_grounded ?_⟩
  · rw [hr] at h; cases h
  · rw [hr] at h; cases h
  · exact decide_eq_true (by rw [claimsInUse_of_free hr]; exact Nat.zero_le _)
  · rw [names_of_free hr hw] at h; cases h
  · rw [hw] at h; cases h
  · rw [hw] at h; cases h
  · rintro i o ⟨r, h, -⟩
    rw [hr] at h
    cases h

/-- Settles O3: the values are read off `State.reset`, and its FREE tables keep every law. -/
theorem resetHoldsItsValuesAndTheLaws : Obligations.ResetHoldsItsValuesAndTheLaws := by
  unfold Obligations.ResetHoldsItsValuesAndTheLaws
  obtain ⟨hroles, htags, hpool, hregistry, hmembers, hwatches, hflight⟩ :=
    tables_lawful_of_free (s := State.reset) rfl station_reset roleAt_reset watchAt_reset
  refine ⟨⟨rfl, rfl, rfl, rfl, rfl, rfl, rfl, rfl, rfl, rfl, rfl, rfl, rfl, rfl, station_reset, roleAt_reset,
    fun i hi => incarnationAt_reset hi, watchesInUse_of_free watchAt_reset⟩, hroles, htags, hpool, hregistry, hmembers,
    hwatches, rfl, rfl, hflight, rfl, rfl, rfl, rfl⟩

/-- Settles O4: the frame is dropped, the values are set, and the pins that follow are released. -/
theorem resetsSetTheirValues : Obligations.ResetsSetTheirValues := by
  unfold Obligations.ResetsSetTheirValues
  refine ⟨fun s => ?_, fun s seq hport => ?_⟩
  · show Host.Outcome.next (poweredOn s).drive = _
    unfold poweredOn
    rw [dropFrame_reaches]
    rfl
  · have hrow : exec (.directoryReset seq []) s = .next ((directoryReset s).drive.respond .ok seq []) := by
      rw [exec, execDirectoryReset, command_passed (x := ()) hport rfl rfl]
      rfl
    obtain ⟨hlow, -⟩ := hport
    have hpins : (directoryReset s).drive.pins = ⟨false, false, false⟩ := by
      unfold directoryReset
      rw [dropFrame_reaches]
      simp only [State.drive, hlow]
      rfl
    have hdrive : (directoryReset s).drive = { directoryReset s with pins := ⟨false, false, false⟩ } := by
      rw [← hpins]
      rfl
    rw [hrow, hdrive]
    unfold directoryReset
    rw [dropFrame_reaches]
    rfl

theorem incarnationAt_cleared (s : State) (kind : ResetKind) (i : Nat) :
    incarnationAt (s.cleared kind) i = (incarnationAt s i).map (fun n => if kind = .powerOn then 0 else n) := by
  simp only [incarnationAt, State.cleared, mapRows_getElem?]
  cases s.roles[i]? with
  | none => rfl
  | some e => cases kind <;> rfl

/-- Settles O5: the clear frees every row, and without it the event does nothing. -/
theorem resetClearFreesTheTables : Obligations.ResetClearFreesTheTables := by
  unfold Obligations.ResetClearFreesTheTables
  intro s hlow
  refine ⟨fun kind hk => ⟨s.cleared kind, ?_, rfl, station_of_free (s := s) rfl, roleAt_cleared s kind,
    claimsInUse_of_free (roleAt_cleared s kind), watchesInUse_of_free (watchAt_of_free (s := s) rfl),
    incarnationAt_cleared s kind⟩, fun hk => ?_⟩
  · show execResetClearCompletion s = _
    simp only [execResetClearCompletion, powered_of_high hlow, hk]
  · show execResetClearCompletion s = _
    simp only [execResetClearCompletion, powered_of_high hlow, hk]

/-! ### RESET held low (R155) -/

section
variable {s : State} (h : s.pins.resetLow = true)
include h

theorem powered_of_low (event : State) : s.powered event = s := by
  simp only [State.powered, h, if_true]

theorem listening_of_low : s.listening = false := by
  simp only [State.listening, h, Bool.not_true, Bool.false_and]

theorem ticking_of_low : s.ticking = false := by
  simp only [State.ticking, h, Bool.not_true, Bool.false_and]

theorem request_of_low {α : Type} (isJoin : Bool) (read : List Byte → Option α) (owner : Owner α) (src epoch : Byte)
    (body : List Byte) : Host.Outcome.next (s.request isJoin read owner src epoch body) = (.next s : Host.Outcome State Fault Refusal) := by
  simp only [State.request, listening_of_low h, if_true]

theorem event_of_low (event : State) : Host.Outcome.next (s.powered event) = (.next s : Host.Outcome State Fault Refusal) := by
  rw [powered_of_low h]

/-- While RESET is low a row other than the two resets does nothing. -/
theorem exec_of_low (c : Instr) (hlow : c ≠ .resetInputLow) (hpower : c ≠ .powerOnReset) : exec c s = .next s := by
  cases c with
  | resetInputLow => exact absurd rfl hlow
  | powerOnReset => exact absurd rfl hpower
  | join => exact request_of_low h _ _ _ _ _ _
  | leave => exact request_of_low h _ _ _ _ _ _
  | find => exact request_of_low h _ _ _ _ _ _
  | lookup => exact request_of_low h _ _ _ _ _ _
  | claim => exact request_of_low h _ _ _ _ _ _
  | renew => exact request_of_low h _ _ _ _ _ _
  | release => exact request_of_low h _ _ _ _ _ _
  | change => exact request_of_low h _ _ _ _ _ _
  | retire => exact request_of_low h _ _ _ _ _ _
  | withdraw => exact request_of_low h _ _ _ _ _ _
  | accept => exact request_of_low h _ _ _ _ _ _
  | decline => exact request_of_low h _ _ _ _ _ _
  | watch => exact request_of_low h _ _ _ _ _ _
  | unwatch => exact request_of_low h _ _ _ _ _ _
  | illegalCode src code epoch body =>
    simp only [exec, execIllegalCode]
    split
    · rfl
    · exact request_of_low h _ _ _ _ _ _
  | stationFrameHeard => simp only [exec, execStationFrameHeard, listening_of_low h, Bool.false_eq_true, false_and, if_false]
  | foreignFrame => simp only [exec, execForeignFrame, listening_of_low h, Bool.false_eq_true, if_false]
  | leaseTick => simp only [exec, execLeaseTick, ticking_of_low h, Bool.false_eq_true, if_false]
  | lapse => simp only [exec, execLapse, ticking_of_low h, Bool.false_and, Bool.false_eq_true, if_false]
  | windowExpiry => simp only [exec, execWindowExpiry, ticking_of_low h, Bool.false_and, Bool.false_eq_true, if_false]
  | _ => exact event_of_low h _

end

/-- Settles O6: the frame is dropped and the pins released, and then no row but a reset is taken. -/
theorem resetLowStopsThePart : Obligations.ResetLowStopsThePart := by
  unfold Obligations.ResetLowStopsThePart
  refine ⟨fun s => ?_, fun c s h hlow hpower => exec_of_low h c hlow hpower⟩
  show Host.Outcome.next (heldInReset s).drive = _
  unfold heldInReset
  rw [dropFrame_reaches]
  rfl

/-! ### The receiver (R6, R9, R150) -/

/-- Outside the directory's own transmissions there is no slot of its own. -/
theorem slot_none_of_free {s : State} (h : s.lineTaken = false) : s.slot = none := by
  cases hs : s.slot with
  | none => rfl
  | some p =>
    obtain ⟨hf, formed, hphase⟩ := (slot_eq_some_iff s p.1 p.2).1 hs
    have htaken : s.lineTaken = true := (lineTaken_iff s).2 (.inr ⟨p.1, hf, by rw [hphase]; exact FramePhase.noConfusion⟩)
    rw [h] at htaken
    cases htaken

theorem lineFault_free {s : State} (h : s.lineTaken = false) : s.lineFault = { s with receiver := .unsynchronised } := by
  simp only [State.lineFault, slot_none_of_free h, h, Bool.false_eq_true, if_false, State.unsynchronise]

theorem lineFault_taken {s : State} (h : s.lineTaken = true) (hslot : s.slot = none) : s.lineFault = s := by
  simp only [State.lineFault, hslot, h, if_true]

theorem closeSlot_none {s : State} (hslot : s.slot = none) (outcome : FrameOutcome) : s.closeSlot outcome = s := by
  simp only [State.closeSlot, hslot]

/-- Settles O7: the line's events by whether the directory has the line, and by whether a slot of its own is open. -/
theorem receiverFollowsTheLine : Obligations.ReceiverFollowsTheLine := by
  unfold Obligations.ReceiverFollowsTheLine
  refine ⟨lineTaken_iff, fun s hlow => ⟨fun hfree => ?_, fun hslot => ?_, fun htaken => ?_, fun htaken hslot => ?_⟩⟩
  · simp only [exec, execBadCharacter, execTruncatedFrame, execMalformedFrame, execLineViolation, execReceiverSynchronised,
      powered_of_high hlow, lineFault_free hfree, hfree, Bool.false_eq_true, if_false, State.unsynchronise, and_self]
  · simp only [exec, execBadCheck, powered_of_high hlow, closeSlot_none hslot]
  · simp only [exec, execLineViolation, execReceiverSynchronised, powered_of_high hlow, htaken, if_true, and_self]
  · simp only [exec, execBadCharacter, execTruncatedFrame, execMalformedFrame, powered_of_high hlow,
      lineFault_taken htaken hslot, and_self]

/-- Settles O8: the four events of an answer, in each phase of it. -/
theorem answersOnTheLine : Obligations.AnswersOnTheLine := by
  unfold Obligations.AnswersOnTheLine
  intro s a hlow
  refine ⟨fun hdue => ?_, fun hsending => ?_, fun hidle c hc => ?_⟩
  · have htde : ({ s with answer := .sending a } : State).drive.pins.tde = true := by
      simp only [State.drive, State.drivesLine, hlow, Bool.not_false, Bool.true_and, Bool.true_or]
    simp only [exec, execAnswerBegin, execAnswerPreempted, execAnswerEnd, execAnswerReadbackMismatch, powered_of_high hlow,
      hdue, htde, and_self]
  · simp only [exec, execAnswerBegin, execAnswerPreempted, execAnswerEnd, execAnswerReadbackMismatch, powered_of_high hlow,
      hsending, State.unsynchronise, and_self]
  · simp only [List.mem_cons, List.not_mem_nil, or_false] at hc
    rcases hc with rfl | rfl | rfl | rfl
    · simp only [exec, execAnswerBegin, powered_of_high hlow, hidle]
    · simp only [exec, execAnswerPreempted, powered_of_high hlow, hidle]
    · simp only [exec, execAnswerEnd, powered_of_high hlow, hidle]
    · simp only [exec, execAnswerReadbackMismatch, powered_of_high hlow, hidle]

/-- Settles O9: a heard frame resets the strikes of its SRC, any other changes nothing. -/
theorem heardFramesClearStrikes : Obligations.HeardFramesClearStrikes := by
  unfold Obligations.HeardFramesClearStrikes
  intro s dest src
  have hrow : exec (.stationFrameHeard dest src) s =
      .next (if s.listening = true ∧ dest ≤ 63 then s.clearStrikes src else s) := rfl
  by_cases hheard : hears s ∧ dest ≤ 63#8
  · refine ⟨s.clearStrikes src, ?_, clearStrikes_only s src, fun a ha => ?_, fun _ _ => ?_, fun h => ?_⟩
    · rw [hrow, if_pos ⟨(listening_iff s).2 hheard.1, hheard.2⟩]
    · rw [station_clearStrikes, if_neg ha]
    · rw [station_clearStrikes, if_pos rfl]
    · rcases h with h | h
      · exact absurd hheard.1 h
      · exact absurd hheard.2 (BitVec.not_le.2 h)
  · refine ⟨s, ?_, rfl, fun _ _ => rfl, fun hh hd => absurd ⟨hh, hd⟩ hheard, fun _ => rfl⟩
    rw [hrow, if_neg]
    exact fun h => hheard ⟨(listening_iff s).1 h.1, h.2⟩

end Sys2Proof.Machine
end

section
/-! PROOFS. Handles and watches (O18, O21), SET TERM and FORCE HANDOVER (O23, O31), WATCH and UNWATCH (O32): each owner by the tests that
its rule lists. -/

namespace Sys2Proof.Machine

open Sys2Proof.Safety

/-! ### Handles (R49, R50) -/

theorem named_iff_life (s : State) (h : Handle) (r : Role) :
    s.named h = some r ↔ s.roleAt h.index.toNat = some r ∧ incarnationAt s h.index.toNat = some h.incarnation := by
  rw [named_eq_some_iff]
  unfold State.roleAt incarnationAt
  cases s.roles[h.index.toNat]? with
  | none => simp
  | some e =>
    obtain ⟨n, o⟩ := e
    simp only [Option.some.injEq, Entry.mk.injEq, Option.bind_some, Option.map_some]
    exact and_comm

theorem named_of_incarnation_zero {s : State} (hs : rolesLawful s = true) {h : Handle} (h0 : h.incarnation = 0) :
    s.named h = none := by
  cases hn : s.named h with
  | none => rfl
  | some r =>
    have hlive := (((rolesLawful_iff s).1 hs).2 _ r (roleAt_of_named hn)).1
    rw [handleAt_of_named hn] at hlive
    exact absurd h0 hlive

/-- Settles O18: each lookup by what it tests. -/
theorem handlesNameOneLife : Obligations.HandlesNameOneLife := by
  unfold Obligations.HandlesNameOneLife
  exact fun s h => ⟨named_iff_life s h, fun hs h0 => named_of_incarnation_zero hs h0, fun number => currentOffer_iff s h number,
    fun n watcher => watchNamed_eq_some_iff s n watcher h⟩

/-! ### What a change of a role makes of its watches (R54, R57, R128, R134) -/

/-- Settles O21: the two sweeps of the watch table, at each number. -/
theorem changesReachTheWatches : Obligations.ChangesReachTheWatches := by
  unfold Obligations.ChangesReachTheWatches
  refine ⟨fun s h final => ⟨_, rfl, rfl, ?_, fun i hi => ?_, fun i => ?_, fun n => ?_⟩, fun s h => ⟨_, rfl, rfl, fun n => ?_⟩⟩
  · rw [afterRetirement, roleAt_freeEntry, if_pos rfl]
  · rw [afterRetirement, roleAt_freeEntry, if_neg hi]
    rfl
  · rw [afterRetirement, incarnationAt, incarnation_freeEntry]
    rfl
  · exact watchAt_finalWatches s h final n
  · rw [watchAt_markPending]
    congr 1
    funext w
    unfold marked
    by_cases hh : w.handle = h <;> by_cases hf : w.final = none <;> simp only [hh, hf, if_true, if_false, and_self, and_false, false_and]

/-! ### SET TERM (R79) -/

theorem setTermAction_stale {s : State} {h : Handle} (hn : s.named h = none) (term : Nat) :
    setTermAction (h, term) s = (s, .staleHandle, []) := by
  simp only [setTermAction, hn]

theorem setTermAction_named {s : State} {h : Handle} {r : Role} (hn : s.named h = some r) (term : Nat) :
    setTermAction (h, term) s = (s.putRole h.index.toNat (r.withTerm term), .ok, []) := by
  simp only [setTermAction, hn]

/-- The row SET TERM by what its action answers. -/
theorem exec_setTerm {s t : State} {i n : Byte} {term : Nat} {status : HostStatus} {data : List Byte} (hport : portOpen s)
    (hi : i.toNat ≤ 95) (h1 : 1 ≤ term) (h2 : term ≤ 4095) (hact : setTermAction (⟨i, n⟩, term) s = (t, status, data)) (seq : Byte) :
    exec (.setTerm seq ([i, n] ++ termBytes term)) s = .next (t.respond status seq data) := by
  rw [exec, execSetTerm, command_of_action hport rfl (setTermOperands_fields n hi h1 h2) hact]

/-- Settles O23: a stale handle, a HELD role with the clamp, and any other role. -/
theorem setTermClampsTheLease : Obligations.SetTermClampsTheLease := by
  unfold Obligations.SetTermClampsTheLease
  intro s seq i n term hport hi h1 h2
  cases hn : s.named ⟨i, n⟩ with
  | none => exact exec_setTerm hport hi h1 h2 (setTermAction_stale hn term) seq
  | some r =>
    rw [exec_setTerm hport hi h1 h2 (setTermAction_named hn term) seq]
    unfold Role.withTerm
    cases ht : r.tenure with
    | held a lease attr => simp only [ht, min_eq_clamp]
    | vacant => simp only [ht]
    | offered o => simp only [ht]

/-! ### FORCE HANDOVER (R120) -/

/-- The row FORCE HANDOVER by what its action answers. -/
theorem exec_forceHandover {s t : State} {i n : Byte} {status : HostStatus} {data : List Byte} (hport : portOpen s)
    (hi : i.toNat ≤ 95) (hact : forceAction ⟨i, n⟩ s = (t, status, data)) (seq : Byte) :
    exec (.forceHandover seq [i, n]) s = .next (t.respond status seq data) := by
  rw [exec, execForceHandover, command_of_action hport rfl (handleBody_pair n hi) hact]

theorem forceAction_offline {s : State} (hl : s.link = .offline) (h : Handle) : forceAction h s = (s, .notPermitted, []) :=
  if_pos hl

theorem forceAction_stale {s : State} {h : Handle} (hl : s.link ≠ .offline) (hn : s.named h = none) :
    forceAction h s = (s, .staleHandle, []) := by
  simp only [forceAction, hl, hn, if_false]

theorem forceAction_vacant {s : State} {h : Handle} {r : Role} (hl : s.link ≠ .offline) (hn : s.named h = some r)
    (ht : r.tenure = .vacant) : forceAction h s = (s, .notPermitted, []) := by
  simp only [forceAction, hl, hn, ht, if_false]

theorem forceAction_held {s : State} {h : Handle} {r : Role} {a : Byte} {lease : Nat} {attr : List Byte} (hl : s.link ≠ .offline)
    (hn : s.named h = some r) (ht : r.tenure = .held a lease attr) :
    forceAction h s = if r.chain = [] then (s, .noStandby, []) else ((afterLoss s h r).settle s, .ok, []) := by
  simp only [forceAction, hl, hn, ht, if_false, loseHolder_of_named hn]

theorem forceAction_offered {s : State} {h : Handle} {r : Role} {o : Offer} (hl : s.link ≠ .offline) (hn : s.named h = some r)
    (ht : r.tenure = .offered o) : forceAction h s = ((afterSkip s h r).settle s, .ok, []) := by
  simp only [forceAction, hl, hn, ht, if_false, skip_of_named hn]

/-- Settles O31: the tests of R120 in order, each by its lemma about the action. -/
theorem forceHandoverTakesTheRole : Obligations.ForceHandoverTakesTheRole := by
  unfold Obligations.ForceHandoverTakesTheRole
  intro s seq i n hport hi
  by_cases hl : s.link = .offline
  · rw [if_pos hl]
    exact exec_forceHandover hport hi (forceAction_offline hl _) seq
  · rw [if_neg hl]
    cases hn : s.named ⟨i, n⟩ with
    | none => exact exec_forceHandover hport hi (forceAction_stale hl hn) seq
    | some r =>
      cases ht : r.tenure with
      | vacant => simpa only [ht] using exec_forceHandover hport hi (forceAction_vacant hl hn ht) seq
      | offered o => simpa only [ht] using exec_forceHandover hport hi (forceAction_offered hl hn ht) seq
      | held a lease attr =>
        have hact := forceAction_held hl hn ht
        by_cases hchain : r.chain = []
        · rw [if_pos hchain] at hact
          simpa only [ht, hchain, if_true] using exec_forceHandover hport hi hact seq
        · rw [if_neg hchain] at hact
          simpa only [ht, hchain, if_false] using exec_forceHandover hport hi hact seq

/-! ### The withdrawal of a NOTICE (R125, R129, R130) -/

/-- The SELECTED notice of a watch that is concerned and stands below the floor is withdrawn. -/
theorem withdrawNotice_drops {s : State} {f : Frame} {n : Nat} {watcher : Byte} {h : Handle} {w : Watch} {concerned : Nat → Bool}
    (hf : s.frame = some f) (hphase : f.phase = .selected) (hs : f.subject = .watch n watcher h) (hc : concerned n = true)
    (hw : watchOn s n watcher h w) (hr : ¬ rankSent s w.rank) : s.withdrawNotice concerned = s.dropFrame := by
  have hbelow : s.rankReaches w.rank = false := by rw [← Bool.not_eq_true, rankReaches_iff]; exact hr
  simp only [State.withdrawNotice, hf, hs, hphase, hc, (watchNamed_eq_some_iff s n watcher h w).2 hw, Option.any_some, hbelow,
    Bool.not_false, and_self, if_true]

/-- Any other frame stays. -/
theorem withdrawNotice_stays {s : State} {concerned : Nat → Bool}
    (hstays : ∀ f n watcher h w, s.frame = some f → f.phase = .selected → f.subject = .watch n watcher h → concerned n = true →
      watchOn s n watcher h w → rankSent s w.rank) : s.withdrawNotice concerned = s := by
  unfold State.withdrawNotice
  split
  · rename_i f hf
    split
    · rename_i n watcher h hs
      rw [if_neg]
      rintro ⟨hphase, hc, hany⟩
      obtain ⟨w, hw, hbelow⟩ := (Option.any_eq_true _ _).1 hany
      have hreach := (rankReaches_iff s w.rank).2
        (hstays f n watcher h w hf hphase hs hc ((watchNamed_eq_some_iff s n watcher h w).1 hw))
      rw [hreach] at hbelow
      cases hbelow
    · rfl
  · rfl

/-! ### WATCH (R125) -/

theorem watchOwner_stale {s : State} {h : Handle} (hn : s.named h = none) (rank : Nat) (src : Byte) :
    watchOwner (h, rank) src s = (s, ⟨.staleHandle, []⟩) := by
  simp only [watchOwner, hn]

theorem watchOwner_known {s : State} {h : Handle} {r : Role} {src : Byte} {k : Nat} {w : Watch} (hn : s.named h = some r)
    (hk : s.watchOf src h = some k) (hw : watchAt s k = some w) (rank : Nat) :
    watchOwner (h, rank) src s =
      (((s.setWatch k (some { w with rank := rank, attempts := 0 })).withdrawNotice (· == k)).settle s, ⟨.ok, watchBodyOk k r⟩) := by
  have hw : (s.watches[k]?).join = some w := hw
  simp only [watchOwner, hn, hk, hw, Option.elim]

theorem watchOwner_new {s : State} {h : Handle} {r : Role} {src : Byte} {k : Nat} (hn : s.named h = some r)
    (hnew : s.watchOf src h = none) (hfree : findRow Option.isNone s.watches = some k) (rank : Nat) :
    watchOwner (h, rank) src s = (s.setWatch k (some ⟨src, h, rank, false, 0, none⟩), ⟨.ok, watchBodyOk k r⟩) := by
  simp only [watchOwner, hn, hnew, hfree]

theorem watchOwner_full {s : State} {h : Handle} {r : Role} {src : Byte} (hn : s.named h = some r)
    (hnew : s.watchOf src h = none) (hfull : findRow Option.isNone s.watches = none) (rank : Nat) :
    watchOwner (h, rank) src s = ((s.raise .capacity (.refusal .watchFull src)).drive, ⟨.watchFull, h.bytes⟩) := by
  simp only [watchOwner, hn, hnew, hfull]

/-- The row WATCH by what its owner answers on the state after the strike reset. -/
theorem exec_watch {s t : State} {src epoch i n rank : Byte} {a : Answer} (hadmits : admits s src epoch) (hi : i.toNat ≤ 95)
    (h7 : rank.toNat ≤ 7) (howner : watchOwner (⟨i, n⟩, rank.toNat) src (s.clearStrikes src) = (t, a)) :
    exec (.watch src epoch [i, n, rank]) s = .next (withAnswer t a.status a.body) := by
  rw [exec, execWatch, request_of_owner hadmits (by simp) (watchBody_fields n hi h7) howner]

theorem exec_unwatch {s t : State} {src epoch i n : Byte} {a : Answer} (hadmits : admits s src epoch) (hi : i.toNat ≤ 95)
    (howner : byHandle unwatchOwner ⟨i, n⟩ src (s.clearStrikes src) = (t, a)) :
    exec (.unwatch src epoch [i, n]) s = .next (withAnswer t a.status a.body) := by
  rw [exec, execUnwatch, request_of_owner hadmits (by simp) (handleBody_pair n hi) howner]

theorem freeWatch_some {s : State} {k : Nat} (hk : k < 64) (hfree : watchAt s k = none)
    (hbelow : ∀ m, m < k → (watchAt s m).isSome = true) : findRow Option.isNone s.watches = some k := by
  rw [findRow_eq_some_iff]
  obtain ⟨o, ho⟩ := row_of_lt s.watches hk
  refine ⟨⟨o, ho, ?_⟩, fun m o' hm ho' => ?_⟩
  · simpa [watchAt, ho] using hfree
  · have := hbelow m hm
    simp only [watchAt, ho', Option.join_some] at this
    simpa using this

theorem freeWatch_none {s : State} (h : ∀ m, m < 64 → (watchAt s m).isSome = true) : findRow Option.isNone s.watches = none := by
  rw [findRow_eq_none_iff]
  intro m o ho
  have := h m (row_lt ho)
  simp only [watchAt, ho, Option.join_some] at this
  simpa using this

theorem watchAt_clearStrikes (s : State) (a : Byte) (n : Nat) : watchAt (s.clearStrikes a) n = watchAt s n := by
  rw [clearStrikes_only]
  rfl

theorem findWatch_clearStrikes (s : State) (a : Byte) :
    findRow Option.isNone (s.clearStrikes a).watches = findRow Option.isNone s.watches := by
  rw [clearStrikes_only]

section
variable {s : State} {k rank : Nat} {w : Watch} {src : Byte} {h : Handle} (hk : watchAt s k = some w) (hwatcher : w.watcher = src)
  (hhandle : w.handle = h)
include hk hwatcher hhandle

theorem watchOn_ranked : watchOn (s.setWatch k (some { w with rank := rank, attempts := 0 })) k src h
    { w with rank := rank, attempts := 0 } :=
  ⟨by rw [watchAt_setWatch, if_pos ⟨rfl, watchAt_lt hk⟩], hwatcher, hhandle⟩

/-- A known pair with a new rank that no notice is sent for: its SELECTED notice is withdrawn. -/
theorem withdrawNotice_paused (hr : ¬ rankSent s rank)
    (hf : ∃ f, s.frame = some f ∧ f.phase = .selected ∧ f.subject = .watch k src h) :
    (s.setWatch k (some { w with rank := rank, attempts := 0 })).withdrawNotice (· == k) =
      (s.setWatch k (some { w with rank := rank, attempts := 0 })).dropFrame := by
  obtain ⟨f, hf, hphase, hs⟩ := hf
  exact withdrawNotice_drops hf hphase hs (beq_self_eq_true k) (watchOn_ranked hk hwatcher hhandle) hr

theorem withdrawNotice_kept
    (hstays : rankSent s rank ∨ ∀ f, s.frame = some f → f.phase = .selected → f.subject ≠ .watch k src h) :
    (s.setWatch k (some { w with rank := rank, attempts := 0 })).withdrawNotice (· == k) =
      s.setWatch k (some { w with rank := rank, attempts := 0 }) := by
  refine withdrawNotice_stays fun f n watcher x w' hf hphase hs hn hw' => ?_
  obtain rfl := beq_iff_eq.1 hn
  obtain ⟨hat, -, -⟩ := watchOn_ranked (rank := rank) hk hwatcher hhandle
  obtain ⟨he, hwatcher', hhandle'⟩ := hw'
  rw [hat] at he
  cases he
  rcases hstays with hr | hother
  · exact hr
  · exact absurd (by rw [hs, ← hwatcher, ← hhandle, ← hwatcher', ← hhandle']) (hother f hf hphase)

end

/-- Settles O32: the tests of R125 and of R127 in order, each by its lemma about the owner. -/
theorem watchesAreTakenAndFreed : Obligations.WatchesAreTakenAndFreed := by
  unfold Obligations.WatchesAreTakenAndFreed
  refine ⟨fun s src epoch i n rank hadmits hi h7 => ?_, fun s src epoch i n hadmits hi => ?_⟩
  · intro u h
    have hnamed : u.named h = s.named h := named_clearStrikes s src h
    have hof : u.watchOf src h = s.watchOf src h := watchOf_clearStrikes s src src h
    have hrow := fun k => (watchAt_clearStrikes s src k : watchAt u k = watchAt s k)
    have hconfig : u.config = s.config := by show (s.clearStrikes src).config = _; rw [clearStrikes_only]
    have hframe : u.frame = s.frame := clearStrikes_frame s src
    refine ⟨fun hn => ?_, fun r hn => ⟨fun k w hw hwatcher hhandle hone => ?_, fun hnew => ⟨fun k hk hfree hbelow => ?_, fun hfull => ?_⟩⟩⟩
    · exact exec_watch hadmits hi h7 (watchOwner_stale (hnamed.trans hn) _ src)
    · have hknown := watchOwner_known (s := u) (hnamed.trans hn) (hof.trans (watchOf_some hw hwatcher hhandle hone))
        ((hrow k).trans hw) rank.toNat
      refine ⟨fun hr hf => ?_, fun hstays => ?_⟩
      · rw [withdrawNotice_paused (s := u) ((hrow k).trans hw) hwatcher hhandle (by rw [rankSent, hconfig]; exact hr)
          (by rw [hframe]; exact hf)] at hknown
        exact exec_watch hadmits hi h7 hknown
      · rw [withdrawNotice_kept (s := u) ((hrow k).trans hw) hwatcher hhandle (by rw [rankSent, hconfig, hframe]; exact hstays)]
          at hknown
        exact exec_watch hadmits hi h7 hknown
    · have hnone := hof.trans (watchOf_none hnew)
      exact exec_watch hadmits hi h7 (watchOwner_new (hnamed.trans hn) hnone
        ((findWatch_clearStrikes s src).trans (freeWatch_some hk hfree hbelow)) _)
    · have hnone := hof.trans (watchOf_none hnew)
      exact exec_watch hadmits hi h7 (watchOwner_full (hnamed.trans hn) hnone
        ((findWatch_clearStrikes s src).trans (freeWatch_none hfull)) _)
  · intro u h
    have hnamed : u.named h = s.named h := named_clearStrikes s src h
    have hof : u.watchOf src h = s.watchOf src h := watchOf_clearStrikes s src src h
    refine ⟨fun hn => ?_, fun r hn => ⟨fun k w hw hwatcher hhandle hone => ?_, fun hnew => ?_⟩⟩
    · exact exec_unwatch hadmits hi (byHandle_stale (hnamed.trans hn) _ src)
    · refine exec_unwatch (a := ⟨.ok, []⟩) hadmits hi ((byHandle_named (hnamed.trans hn) _ src).trans ?_)
      simp only [unwatchOwner, hof.trans (watchOf_some hw hwatcher hhandle hone), u, h]
    · refine exec_unwatch (a := ⟨.notWatching, []⟩) hadmits hi ((byHandle_named (hnamed.trans hn) _ src).trans ?_)
      simp only [unwatchOwner, hof.trans (watchOf_none hnew), u, h]

end Sys2Proof.Machine
end

section
/-! PROOFS. Selection and the end of an event (O33, O34), the phases of the directory's own frames (O38, O42), READ ATTENTION and SET
ATTENTION ENABLE (O45) and CONFIGURE (O46). -/

namespace Sys2Proof.Machine

open Sys2Proof.Safety

/-! ### Selection (R139 to R141) -/

theorem select_blocked {s : State} (h : s.frame ≠ none ∨ s.clearing ≠ none ∨ s.pins.resetLow = true) : s.select = s := by
  have hblocked : (s.frame.isSome || s.clearing.isSome || s.pins.resetLow) = true := by
    simpa [Option.isSome_iff_ne_none, or_assoc] using h
  rw [State.select, if_pos hblocked]

section
variable {s : State} (hf : s.frame = none) (hport : portOpen s) (hl : s.link = .online)
include hf hport hl

theorem select_offer {i : Nat} {r : Role} {o : Offer} (hfirst : s.firstOffer = some i) (hr : s.roleAt i = some r)
    (ht : r.tenure = .offered o) :
    s.select = { s.putRole i { r with tenure := .offered { o with phase := .inFlight } } with
      frame := some (newFrame (.offer (s.handleAt i) o.number) o.offeree) } := by
  simp only [State.select, hf, hport.1, hport.2, hl, Option.isSome_none, Bool.or_self, Bool.false_eq_true, if_false, hfirst,
    State.selectOffer, onRole_some hr, ht, setOfferPhase_eq hr ht]

theorem select_notice {n : Nat} {w : Watch} (hoffer : s.firstOffer = none) (hnotice : s.firstNotice = some (n, w)) :
    s.select = { s with frame := some (newFrame (.watch n w.watcher w.handle) w.watcher) } := by
  simp only [State.select, hf, hport.1, hport.2, hl, Option.isSome_none, Bool.or_self, Bool.false_eq_true, if_false, hoffer, hnotice]

theorem select_idle (hoffer : s.firstOffer = none) (hnotice : s.firstNotice = none) : s.select = s := by
  simp only [State.select, hf, hport.1, hport.2, hl, Option.isSome_none, Bool.or_self, Bool.false_eq_true, if_false, hoffer, hnotice]

end

/-- Settles O33: the record's condition, and then the candidates in the order of R141. -/
theorem selectionFollowsTheOrder : Obligations.SelectionFollowsTheOrder := by
  unfold Obligations.SelectionFollowsTheOrder
  refine ⟨fun s h => select_blocked h, fun s hf hport => ⟨fun hl ha => select_restart hf hport hl ha,
    fun hl i r o hr ht hp hfirst => select_offer hf hport hl (firstOffer_some hr ht hp hfirst) hr ht,
    fun hl hnone => ⟨fun hwaits => ?_, fun n w hw hbest => ?_⟩, select_of_offline_or_silent⟩⟩
  · refine select_idle hf hport hl (firstOffer_none hnone) (firstNotice_none fun n w hw => ?_)
    rw [← Bool.not_eq_true]
    exact fun he => hwaits n w ((eligible_iff s n w).1 ⟨hw, he⟩)
  · obtain ⟨hat, he⟩ := (eligible_iff s n w).2 hw
    exact select_notice hf hport hl (firstOffer_none hnone)
      (firstNotice_some hat he fun m v hv hve => hbest m v ((eligible_iff s m v).1 ⟨hv, hve⟩))

/-! ### The end of an event (R130, R141, R144, R165) -/

/-- The tables are the same, but for the phase of an offer and the pending mark of a watch. -/
structure SameButPhases (s t : State) : Prop where
  roles : ∀ i, (t.roleAt i).map phaseless = (s.roleAt i).map phaseless
  incarnations : ∀ i, incarnationAt t i = incarnationAt s i
  watches : ∀ n, (watchAt t n).map (fun w => { w with isPending := false }) = (watchAt s n).map (fun w => { w with isPending := false })

section
variable {s t u : State}

theorem SameButPhases.of_tables (hr : t.roles = s.roles) (hw : t.watches = s.watches) : SameButPhases s t :=
  ⟨fun i => by rw [roleAt_of_roles hr], incarnationAt_of_roles hr, fun n => by simp only [watchAt, hw]⟩

theorem SameButPhases.trans (h : SameButPhases s t) (h' : SameButPhases t u) : SameButPhases s u :=
  ⟨fun i => (h'.roles i).trans (h.roles i), fun i => (h'.incarnations i).trans (h.incarnations i),
    fun n => (h'.watches n).trans (h.watches n)⟩

theorem SameButPhases.putRole {i : Nat} {r r' : Role} (hr : s.roleAt i = some r) (h : phaseless r' = phaseless r) :
    SameButPhases s (s.putRole i r') := by
  refine ⟨fun j => ?_, fun j => incarnation_putRole _ _ _ _, fun n => rfl⟩
  rw [roleAt_putRole]
  split
  · rename_i hj
    rw [hj.1, hr, Option.map_some, Option.map_some, h]
  · rfl

theorem SameButPhases.setPending {n : Nat} {w : Watch} (hw : watchAt s n = some w) (b : Bool) :
    SameButPhases s (s.setWatch n (some { w with isPending := b })) := by
  refine ⟨fun _ => rfl, fun _ => rfl, fun m => ?_⟩
  rw [watchAt_setWatch]
  split
  · rename_i hm
    rw [hm.1, hw]
    rfl
  · rfl

theorem phaseless_phase {r : Role} {o : Offer} (ht : r.tenure = .offered o) (p : OfferPhase) :
    phaseless { r with tenure := .offered { o with phase := p } } = phaseless r := by
  simp only [phaseless, ht]

theorem SameButPhases.dropFrame (s : State) : SameButPhases s s.dropFrame := by
  have hu : SameButPhases s { s with frame := none } := .of_tables rfl rfl
  rcases dropFrame_cases s with he | ⟨f, x, number, r, o, -, -, ⟨hn, ht, -, -⟩, he⟩ | ⟨f, n, watcher, x, w, -, -, hw, he⟩ <;> rw [he]
  · exact hu
  · exact hu.trans (.putRole (s := { s with frame := none }) (roleAt_of_named hn) (phaseless_phase ht _))
  · exact hu.trans (.setPending (s := { s with frame := none }) hw.1 true)

theorem SameButPhases.select (s : State) : SameButPhases s s.select := by
  rcases select_cases s with he | ⟨-, -, ⟨-, -, he⟩ | ⟨-, i, r, o, hr, ht, -, he⟩ | ⟨-, n, w, -, he⟩⟩ <;> rw [he]
  · exact .of_tables rfl rfl
  · exact .of_tables rfl rfl
  · exact (SameButPhases.putRole hr (phaseless_phase ht _)).trans (.of_tables rfl rfl)
  · exact .of_tables rfl rfl

theorem SameButPhases.withdrawStale (s before : State) : SameButPhases s (s.withdrawStale before) := by
  unfold State.withdrawStale
  split
  · split
    · exact .dropFrame s
    · exact .of_tables rfl rfl
  · exact .of_tables rfl rfl

theorem SameButPhases.settle (s before : State) : SameButPhases s (s.settle before) :=
  ((SameButPhases.withdrawStale s before).trans (.select _)).trans (.of_tables rfl rfl)

theorem withdrawStale_ended {before : State} {f : Frame} (hf : s.frame = some f) (hphase : f.phase = .selected)
    (he : endedBy before s f.subject) : s.withdrawStale before = s.dropFrame := by
  simp only [State.withdrawStale, hf, hphase, (subjectEnded_iff s before f.subject).2 he, and_self, if_true]

theorem withdrawStale_stands {before : State}
    (h : ∀ f, s.frame = some f → f.phase = .selected → ¬ endedBy before s f.subject) : s.withdrawStale before = s := by
  unfold State.withdrawStale
  split
  · rename_i f hf
    rw [if_neg]
    exact fun he => h f hf he.1 ((subjectEnded_iff s before f.subject).1 he.2)
  · rfl

end

/-- Settles O34: the withdrawal by whether the subject ended, and the reach of the three parts of an event's end. -/
theorem settlingTouchesTheFrameAlone : Obligations.SettlingTouchesTheFrameAlone := by
  unfold Obligations.SettlingTouchesTheFrameAlone
  intro s before
  refine ⟨fun f hf hphase he => ?_, fun h => ?_, _, rfl, settle_reaches s before, settle_resetLow s before,
    pinsLawful_settle s before, ?_⟩
  · rw [State.settle, withdrawStale_ended hf hphase he]
  · rw [State.settle, withdrawStale_stands h]
  · obtain ⟨hroles, hinc, hwatches⟩ := SameButPhases.settle s before
    exact ⟨hroles, hinc, hwatches⟩

/-! ### The directory's own frames (R20, R145, R147) -/

/-- Settles O38: each of the two rows by the subject of the frame on the line. -/
theorem cleanFramesEndTheirPhase : Obligations.CleanFramesEndTheirPhase := by
  unfold Obligations.CleanFramesEndTheirPhase
  intro s f formed final hlow hf hphase
  have hline := frameOnLine_eq hf hphase
  refine ⟨fun hs => ?_, fun hs => ?_⟩
  · simp only [exec, execRestartCompletesClean, execAwaitingAnswer, powered_of_high hlow, hline, hs, if_true, and_self]
  · simp only [exec, execRestartCompletesClean, execAwaitingAnswer, powered_of_high hlow, hline, hs, if_false, and_self]

/-- Settles O42: the completion of a purged target's frame empties the record whatever the row, and without a slot no row of it acts. -/
theorem purgedTargetsAreDisregarded : Obligations.PurgedTargetsAreDisregarded := by
  unfold Obligations.PurgedTargetsAreDisregarded
  intro s status body hlow
  refine ⟨fun hlong => ?_, fun f final => slot_eq_some_iff s f final, fun f subject final hslot hpurged => ?_, fun hslot => ?_⟩
  · simp only [exec, execValidAnswer, execMalformedFrame, powered_of_high hlow, Config.bodyMax, hlong, if_true]
  · have hcomplete := fun outcome => completeFrame_purged (s := s) hpurged final outcome
    have hclosed : s.closeSlot .emptySlot = ({ s with frame := none } : State).settle s := by
      rw [closeSlot_of_awaiting hslot, hcomplete]
    refine ⟨fun hlen => ?_, exec_failed_slot hslot hclosed, exec_faulty_slot hslot hclosed⟩
    rw [exec_validAnswer hslot hlen, hcomplete]
  · have hclosed := fun outcome => closeSlot_none hslot outcome
    refine ⟨fun hlen => ?_, ?_, fun kind => ?_⟩
    · rw [exec, execValidAnswer, powered_of_high hlow, if_neg (Nat.not_lt.2 hlen), hclosed]
    · rw [exec, execEmptySlot, powered_of_high hlow, hclosed]
    · simp only [exec, execBadAnswer, powered_of_high hlow, hslot]

/-! ### Attention (R164, R165, R166) -/

theorem selected_eq (t : Attention) (flags : Byte) :
    t.selected flags = ((Cause.all.filter (fun c => c.inFlags flags)).map (fun c => attentionRecord (t.get c))).flatten := by
  simp only [Attention.selected, attentionBytes_eq]

/-- READ ATTENTION takes the flags of one operand, or all six without one. -/
theorem selectionOperand_of {ops : List Byte} {flags : Byte} (hflags : flags &&& 0xC0#8 = 0)
    (h : ops = [flags] ∧ flags ≠ 0 ∨ ops = [] ∧ flags = 0x3F) : selectionOperand ops = some flags := by
  rcases h with ⟨rfl, h0⟩ | ⟨rfl, rfl⟩
  · have h0 : ¬ flags = 0#8 := h0
    simp [selectionOperand, flagsOperand, hflags, h0]
  · rfl

/-- Settles O45: the two commands by their actions, and the record of a raise. -/
theorem attentionIsReadAndCleared : Obligations.AttentionIsReadAndCleared := by
  unfold Obligations.AttentionIsReadAndCleared
  refine ⟨fun s seq flags hport hflags => ⟨?_, fun ops hops => ?_⟩, fun s c subject => ⟨_, rfl, ?_, fun d hd => ?_⟩⟩
  · have hread : flagsOperand [flags] = some flags := if_pos hflags
    rw [exec, execSetAttentionEnable, command_passed hport rfl hread]
    rfl
  · have hlen : Command.lenLegal .readAttention ops.length = true := by
      rcases hops with ⟨rfl, -⟩ | ⟨rfl, -⟩ <;> rfl
    have hrow : exec (.readAttention seq ops) s =
        .next (({ s with attention := s.attention.clearFlags flags } : State).drive.respond .ok seq (s.attention.selected flags)) := by
      rw [exec, execReadAttention, command_passed hport hlen (selectionOperand_of hflags hops)]
      rfl
    refine ⟨_, hrow, ?_, rfl, pinsLawful_drive { s with attention := s.attention.clearFlags flags },
      fun c => get_clearFlags s.attention flags c⟩
    rw [← selected_eq]
    rfl
  · rw [Attention.raise, get_set, if_pos rfl, raisedRecord_eq]
  · rw [Attention.raise, get_set, if_neg hd]

/-! ### CONFIGURE (R129, R158) -/

theorem rateOf_value (x : LineRate) : rateOf x.value = some x := by
  cases x <;> rfl

theorem creationOf_value (x : Creation) : creationOf x.value = some x := by
  cases x <;> rfl

theorem configureOperands_bytes {c : Configuration} (hc : configSound c = true) : configureOperands c.bytes = some c := by
  obtain ⟨rate, tick, term, window, floor, creation, spacing⟩ := c
  simp only [configSound, Bool.and_eq_true, decide_eq_true_eq, and_assoc] at hc
  obtain ⟨ht1, ht2, hd1, hd2, hw1, hw2, hf, hsp⟩ := hc
  obtain ⟨high, low, hbytes, hterm⟩ := termOf_termBytes hd1 hd2
  have htick : (byteOf tick).toNat = tick := byteOf_toNat (by omega)
  have hwindow : (byteOf window).toNat = window := byteOf_toNat (by omega)
  have hfloor : (byteOf floor).toNat = floor := byteOf_toNat (by omega)
  have hspacing : (byteOf spacing).toNat = spacing := byteOf_toNat (by omega)
  simp only [Configuration.bytes, hbytes, List.cons_append, List.nil_append, configureOperands, rateOf_value, hterm,
    creationOf_value, htick, hwindow, hfloor, hspacing, ht1, ht2, hw1, hf, and_self, if_true]

/-- The row CONFIGURE by what its action answers. -/
theorem exec_configure {s t : State} {c : Configuration} {status : HostStatus} {data : List Byte} (hport : portOpen s)
    (hc : configSound c = true) (hact : configureAction c s = (t, status, data)) (seq : Byte) :
    exec (.configure seq c.bytes) s = .next (t.respond status seq data) := by
  rw [exec, execConfigure, command_of_action hport rfl (configureOperands_bytes hc) hact]

theorem configureAction_taken {s : State} {c : Configuration}
    (h : s.link = .offline ∨ c.rate = s.config.rate ∧ c.tickPeriod = s.config.tickPeriod) :
    configureAction c s = (((taken s c).withdrawNotice (fun _ => s.config.noticeFloor < c.noticeFloor)).settle s, .ok, c.bytes) := by
  rw [configureAction, if_neg, configured_eq]
  rintro ⟨hl, hchanged⟩
  rcases h with h | ⟨hrate, htick⟩
  · exact hl h
  · exact hchanged.elim (fun hne => hne hrate) (fun hne => hne htick)

/-- Settles O46: the refusal, and the values taken with and without a notice that the raised floor withdraws. -/
theorem configureTakesEveryValue : Obligations.ConfigureTakesEveryValue := by
  unfold Obligations.ConfigureTakesEveryValue
  intro s seq c hport hc
  refine ⟨fun hl hchanged => exec_configure hport hc (if_pos ⟨hl, hchanged⟩) seq, fun htaken => ⟨taken s c, ?_⟩⟩
  intro below
  have hact := configureAction_taken htaken
  refine ⟨fun hbelow => ?_, fun hbelow => ?_, rfl, fun n => ?_⟩
  · obtain ⟨hraise, f, n, watcher, h, w, hf, hphase, hs, hw, hr⟩ := hbelow
    rw [withdrawNotice_drops (s := taken s c) hf hphase hs (decide_eq_true hraise) hw hr] at hact
    exact exec_configure hport hc hact seq
  · rw [withdrawNotice_stays (s := taken s c) fun f n watcher h w hf hphase hs hraise hw => ?_] at hact
    · exact exec_configure hport hc hact seq
    · by_contra hr
      exact hbelow ⟨of_decide_eq_true hraise, f, n, watcher, h, w, hf, hphase, hs, hw, hr⟩
  · simp only [watchAt, taken, mapRows_getElem?, Bool.decide_and]
    cases s.watches[n]? <;> rfl

end Sys2Proof.Machine
end

section
/-! PROOFS. The request gate (O11), and the port's tests and reads (O43, O44): every row that the gate or the port takes is one call of
`request` or of `command`, so the tests before a rule are said once. -/

namespace Sys2Proof.Machine

open Sys2Proof.Safety

/-! ### The gate (R12) -/

/-- A row that is put to the gate is a request, whose reader finds legal what R14 does. -/
theorem exec_gateFrame {i : Instr} {r : Option Request} {src epoch : Byte} {body : List Byte}
    (h : gateFrame i = some (r, src, epoch, body)) :
    ∃ (α : Type) (isJoin : Bool) (read : List Byte → Option α) (owner : Owner α),
      (∀ s, exec i s = .next (s.request isJoin read owner src epoch body)) ∧ isJoin = decide (r = some .join)
        ∧ (read body).isSome = (r.map (fun r => bodyLegal r body)).getD false := by
  cases i with
  | join => cases h; exact ⟨_, _, _, _, fun _ => rfl, rfl, rfl⟩
  | leave =>
    cases h
    refine ⟨_, _, _, _, fun _ => rfl, rfl, ?_⟩
    cases body <;> rfl
  | find => cases h; exact ⟨_, _, _, _, fun _ => rfl, rfl, rfl⟩
  | lookup => cases h; exact ⟨_, _, _, _, fun _ => rfl, rfl, rfl⟩
  | claim => cases h; exact ⟨_, _, _, _, fun _ => rfl, rfl, rfl⟩
  | renew => cases h; exact ⟨_, _, _, _, fun _ => rfl, rfl, rfl⟩
  | release => cases h; exact ⟨_, _, _, _, fun _ => rfl, rfl, rfl⟩
  | change => cases h; exact ⟨_, _, _, _, fun _ => rfl, rfl, rfl⟩
  | retire => cases h; exact ⟨_, _, _, _, fun _ => rfl, rfl, rfl⟩
  | withdraw => cases h; exact ⟨_, _, _, _, fun _ => rfl, rfl, rfl⟩
  | accept => cases h; exact ⟨_, _, _, _, fun _ => rfl, rfl, rfl⟩
  | decline => cases h; exact ⟨_, _, _, _, fun _ => rfl, rfl, rfl⟩
  | watch => cases h; exact ⟨_, _, _, _, fun _ => rfl, rfl, rfl⟩
  | unwatch => cases h; exact ⟨_, _, _, _, fun _ => rfl, rfl, rfl⟩
  | illegalCode src' code epoch' body' =>
    simp only [gateFrame] at h
    split at h
    · cases h
    · rename_i hcode
      cases h
      exact ⟨Unit, false, fun _ => none, _, fun _ => congrArg Host.Outcome.next (if_neg hcode), rfl, rfl⟩
  | _ => cases h

section
variable {α : Type} {s : State} (isJoin : Bool) (read : List Byte → Option α) (owner : Owner α) {src : Byte} (epoch : Byte)
  {body : List Byte}

theorem request_unheard (h : s.listening = false) : s.request isJoin read owner src epoch body = s := if_pos h

theorem request_malformed (h : s.listening = true) (hlen : 24 < body.length) :
    s.request isJoin read owner src epoch body = { s with receiver := .unsynchronised } := by
  rw [State.request, if_neg (by simp [h]), if_pos hlen]
  rfl

theorem request_foreign (h : s.listening = true) (hlen : body.length ≤ 24) :
    s.request isJoin read owner 0 epoch body = s.hearForeign 0 := by
  rw [State.request, if_neg (by simp [h]), if_neg (Nat.not_lt.2 hlen), if_pos rfl]

end

/-- Settles O11: every row of the gate is a request, and a request stops at the first condition that it fails. -/
theorem gateAppliesItsConditionsInOrder : Obligations.GateAppliesItsConditionsInOrder := by
  unfold Obligations.GateAppliesItsConditionsInOrder
  refine ⟨listening_iff, fun i s r src epoch body hi => ?_, fun i s r src epoch body hi h hlen hsrc => ?_⟩
  · obtain ⟨α, isJoin, read, owner, hexec, -⟩ := exec_gateFrame hi
    refine ⟨fun h => ?_, fun h hlen => ?_, fun h hlen hsrc => ?_⟩
    · rw [hexec, request_unheard _ _ _ _ h]
    · rw [hexec, request_malformed _ _ _ _ h hlen]
    · rw [hexec, hsrc, request_foreign _ _ _ _ h hlen]
      simp only [exec, execForeignFrame, h, if_true]
  · obtain ⟨α, isJoin, read, owner, hexec, hjoin, hread⟩ := exec_gateFrame hi
    obtain ⟨hsilent, hanswered⟩ := request_refused (owner := owner) hjoin hread h hlen hsrc
    exact ⟨fun ha => by rw [hexec, hsilent ha], fun a ha => by rw [hexec, hanswered a ha]⟩

/-! ### Operands (R158, R160, R165, R166, R172) -/

theorem legal_of_termOf {high low : Byte} {n : Nat} (h : termOf high low = some n) :
    1 ≤ (halfOf high low).toNat ∧ (halfOf high low).toNat ≤ 4095 := by
  unfold termOf at h
  dsimp only at h
  split at h
  · assumption
  · cases h

theorem le_three_of_rateOf {rate : Byte} {x : LineRate} (h : rateOf rate = some x) : rate ≤ 3#8 := by
  unfold rateOf at h
  split at h
  · decide
  · decide
  · decide
  · decide
  · cases h

theorem le_one_of_creationOf {b : Byte} {x : Creation} (h : creationOf b = some x) : b ≤ 1#8 := by
  unfold creationOf at h
  split at h
  · decide
  · decide
  · cases h

theorem legal_of_configureOperands {ops : List Byte} {c : Configuration} (h : configureOperands ops = some c) :
    operandsLegal .configure ops = true := by
  unfold configureOperands at h
  split at h
  · split at h
    · rename_i hrate hterm hcreation
      split at h
      · rename_i hok
        obtain ⟨h1, h2, h3, h4⟩ := hok
        have hterm := legal_of_termOf hterm
        simp only [operandsLegal, Bool.and_eq_true, decide_eq_true_eq, BitVec.le_def]
        exact ⟨⟨⟨⟨⟨⟨⟨le_three_of_rateOf hrate, h1⟩, h2⟩, hterm.1⟩, hterm.2⟩, h3⟩, h4⟩, le_one_of_creationOf hcreation⟩
      · cases h
    · cases h
  · cases h

theorem legal_of_flagsOperand {ops : List Byte} {f : Byte} (h : flagsOperand ops = some f) :
    ops = [f] ∧ f &&& 0xC0#8 = 0 := by
  unfold flagsOperand at h
  split at h
  · split at h
    · cases h
      exact ⟨rfl, by assumption⟩
    · cases h
  · cases h

theorem legal_of_selectionOperand {ops : List Byte} {f : Byte} (h : selectionOperand ops = some f) :
    operandsLegal .readAttention ops = true := by
  unfold selectionOperand at h
  split at h
  · rfl
  · obtain ⟨hflags, hf⟩ := Option.filter_eq_some_iff.1 h
    obtain ⟨rfl, hlegal⟩ := legal_of_flagsOperand hflags
    have hf : ¬ f = 0#8 := by simpa using hf
    simp [operandsLegal, hlegal, hf]

theorem legal_of_epochOperand {ops : List Byte} {e : Option Byte} (h : epochOperand ops = some e) :
    operandsLegal .start ops = true := by
  unfold epochOperand at h
  split at h
  · rfl
  · split at h
    · cases h
    · rename_i he
      exact decide_eq_true he
  · cases h

theorem legal_of_defineOperands {ops : List Byte} {x : Tag × Nat} (h : defineOperands ops = some x) :
    operandsLegal .defineRole ops = true := by
  unfold defineOperands at h
  split at h
  · rename_i htag hterm
    obtain ⟨n, hn, -⟩ := Option.map_eq_some_iff.1 h
    simp only [operandsLegal, hterm, htag, Option.isSome_some, legal_of_termOf hn, decide_true, Bool.and_self]
  · cases h

theorem legal_of_setTermOperands {ops : List Byte} {x : Handle × Nat} (h : setTermOperands ops = some x) :
    operandsLegal .setTerm ops = true := by
  unfold setTermOperands at h
  split at h
  · split at h
    · rename_i hi
      obtain ⟨n, hn, -⟩ := Option.map_eq_some_iff.1 h
      simp only [operandsLegal, legal_of_termOf hn, (isRoleIndex_iff _).1 hi, decide_true, Bool.and_self]
    · cases h
  · cases h

theorem legal_of_handleBody {ops : List Byte} {h : Handle} (ho : handleBody ops = some h) :
    operandsLegal .retireRole ops = true ∧ operandsLegal .forceHandover ops = true := by
  obtain ⟨hi, rfl⟩ := (handleBody_eq_some_iff ops h).1 ho
  exact ⟨decide_eq_true hi, decide_eq_true hi⟩

theorem legal_of_addressOperand {ops : List Byte} {a : Byte} (h : addressOperand ops = some a) :
    operandsLegal .evictStation ops = true ∧ operandsLegal .readStation ops = true := by
  unfold addressOperand at h
  split at h
  · split at h
    · rename_i ha
      exact ⟨ha, ha⟩
    · cases h
  · cases h

theorem legal_of_indexOperand {ops : List Byte} {i : Byte} (h : indexOperand ops = some i) :
    operandsLegal .readRole ops = true := by
  unfold indexOperand at h
  split at h
  · split at h
    · rename_i hi
      exact decide_eq_true ((isRoleIndex_iff _).1 hi)
    · cases h
  · cases h

theorem legal_of_watchNumberOperand {ops : List Byte} {n : Byte} (h : watchNumberOperand ops = some n) :
    operandsLegal .readWatch ops = true := by
  unfold watchNumberOperand at h
  split at h
  · split at h
    · rename_i hn
      exact decide_eq_true (Nat.le_of_lt_succ hn)
    · cases h
  · cases h

theorem none_of_illegal {α : Type} {c : Command} {ops : List Byte} {o : Option α}
    (hlegal : ∀ x, o = some x → operandsLegal c ops = true) (h : operandsLegal c ops = false) : o = none := by
  cases ho : o with
  | none => rfl
  | some x =>
    rw [hlegal x ho] at h
    cases h

/-! ### The rows of the port (R152, R154) -/

theorem eq_commandRow {i : Instr} {c : Command} {seq : Byte} {ops : List Byte} (h : i.asCommand = some (c, seq, ops)) :
    i = commandRow c seq ops := by
  cases i <;> cases h <;> rfl

/-- A row of the port other than NOP and READ STATUS is a command, whose reader refuses operands outside their ranges. -/
theorem exec_commandRow {c : Command} (hnop : c ≠ .nop) (hstatus : c ≠ .readStatus) (seq : Byte) (ops : List Byte) :
    ∃ (α : Type) (read : List Byte → Option α) (act : Action α),
      (∀ s, exec (commandRow c seq ops) s = .next (s.command c read act seq ops)) ∧
        (operandsLegal c ops = false → read ops = none) := by
  cases c with
  | nop => exact absurd rfl hnop
  | readStatus => exact absurd rfl hstatus
  | readAttention => exact ⟨_, _, _, fun _ => rfl, none_of_illegal fun _ => legal_of_selectionOperand⟩
  | setAttentionEnable =>
    refine ⟨_, _, _, fun _ => rfl, none_of_illegal fun x hx => ?_⟩
    obtain ⟨rfl, hlegal⟩ := legal_of_flagsOperand hx
    exact decide_eq_true hlegal
  | configure => exact ⟨_, _, _, fun _ => rfl, none_of_illegal fun _ => legal_of_configureOperands⟩
  | start => exact ⟨_, _, _, fun _ => rfl, none_of_illegal fun _ => legal_of_epochOperand⟩
  | stop => exact ⟨_, _, _, fun _ => rfl, fun h => by cases h⟩
  | resume => exact ⟨_, _, _, fun _ => rfl, fun h => by cases h⟩
  | directoryReset => exact ⟨_, _, _, fun _ => rfl, fun h => by cases h⟩
  | defineRole => exact ⟨_, _, _, fun _ => rfl, none_of_illegal fun _ => legal_of_defineOperands⟩
  | retireRole => exact ⟨_, _, _, fun _ => rfl, none_of_illegal fun _ h => (legal_of_handleBody h).1⟩
  | setTerm => exact ⟨_, _, _, fun _ => rfl, none_of_illegal fun _ => legal_of_setTermOperands⟩
  | forceHandover => exact ⟨_, _, _, fun _ => rfl, none_of_illegal fun _ h => (legal_of_handleBody h).2⟩
  | evictStation => exact ⟨_, _, _, fun _ => rfl, none_of_illegal fun _ h => (legal_of_addressOperand h).1⟩
  | readRole => exact ⟨_, _, _, fun _ => rfl, none_of_illegal fun _ => legal_of_indexOperand⟩
  | readStation => exact ⟨_, _, _, fun _ => rfl, none_of_illegal fun _ h => (legal_of_addressOperand h).2⟩
  | readWatch => exact ⟨_, _, _, fun _ => rfl, none_of_illegal fun _ => legal_of_watchNumberOperand⟩

section
variable {α : Type} {s : State} {c : Command} {read : List Byte → Option α} (act : Action α) (seq : Byte) {ops : List Byte}
  (hlow : s.pins.resetLow = false)
include hlow

theorem command_length (hlen : c.lenLegal ops.length = false) :
    s.command c read act seq ops = { s with response := ⟨.badCommand, seq, []⟩ } := by
  simp only [State.command, powered_of_high hlow, hlen, if_true, State.respond]

theorem command_busy (hlen : c.lenLegal ops.length = true) (hclear : s.clearing.isSome = true) :
    s.command c read act seq ops = { s with response := ⟨.busy, seq, []⟩ } := by
  simp only [State.command, powered_of_high hlow, hlen, hclear, if_true, Bool.true_eq_false, if_false, State.respond]

theorem command_value (hlen : c.lenLegal ops.length = true) (hclear : s.clearing = none) (hread : read ops = none) :
    s.command c read act seq ops = { s with response := ⟨.badValue, seq, []⟩ } := by
  simp only [State.command, powered_of_high hlow, hlen, hclear, hread, Option.isSome_none, Bool.false_eq_true, Bool.true_eq_false,
    if_false, State.respond]

end

theorem exec_nop_row {s : State} (hlow : s.pins.resetLow = false) (seq : Byte) (ops : List Byte) :
    exec (.nop seq ops) s =
      .next (if Command.lenLegal .nop ops.length then s else { s with response := ⟨.badCommand, seq, []⟩ }) := by
  simp only [exec, execNop, powered_of_high hlow, State.respond]

theorem exec_readStatus_row {s : State} (hlow : s.pins.resetLow = false) (seq : Byte) (ops : List Byte) :
    exec (.readStatus seq ops) s =
      .next (if Command.lenLegal .readStatus ops.length then { s with response := ⟨.ok, seq, s.statusBytes⟩ }
        else { s with response := ⟨.badCommand, seq, []⟩ }) := by
  simp only [exec, execReadStatus, powered_of_high hlow, State.respond]

theorem exec_commandRow_length {s : State} (hlow : s.pins.resetLow = false) {c : Command} {seq : Byte} {ops : List Byte}
    (hlen : c.lenLegal ops.length = false) :
    exec (commandRow c seq ops) s = .next { s with response := ⟨.badCommand, seq, []⟩ } := by
  by_cases hnop : c = .nop
  · subst hnop
    rw [commandRow, exec_nop_row hlow, if_neg (by simp [hlen])]
  · by_cases hstatus : c = .readStatus
    · subst hstatus
      rw [commandRow, exec_readStatus_row hlow, if_neg (by simp [hlen])]
    · obtain ⟨α, read, act, hexec, -⟩ := exec_commandRow hnop hstatus seq ops
      rw [hexec, command_length act seq hlow hlen]

theorem exec_commandRow_value {s : State} (hlow : s.pins.resetLow = false) {c : Command} {seq : Byte} {ops : List Byte}
    (hlen : c.lenLegal ops.length = true) (hclear : s.clearing = none) (hops : operandsLegal c ops = false) :
    exec (commandRow c seq ops) s = .next { s with response := ⟨.badValue, seq, []⟩ } := by
  have hnop : c ≠ .nop := by rintro rfl; cases hops
  have hstatus : c ≠ .readStatus := by rintro rfl; cases hops
  obtain ⟨α, read, act, hexec, hread⟩ := exec_commandRow hnop hstatus seq ops
  rw [hexec, command_value act seq hlow hlen hclear (hread hops)]

theorem exec_badCommand_refused {s : State} (hlow : s.pins.resetLow = false) {received : List Byte} {status : HostStatus}
    (h : transactionRefusal received = some status) :
    exec (.badCommand received) s = .next { s with response := ⟨status, (received[1]?).getD 0, []⟩ } := by
  simp only [exec, execBadCommand, powered_of_high hlow, h, State.respond, echoedSequence]

theorem exec_badCommand_taken {s : State} (hlow : s.pins.resetLow = false) {received : List Byte}
    (h : transactionRefusal received = none) : exec (.badCommand received) s = .next s := by
  simp only [exec, execBadCommand, powered_of_high hlow, h]

/-! ### Transactions (R152) -/

theorem short_refused {received : List Byte} (h : received.length < 3) :
    transactionRefusal received = some .badCommand ∧ decodeTransaction received = .badCommand received := by
  match received, h with
  | [], _ => exact ⟨rfl, rfl⟩
  | [_], _ => exact ⟨rfl, rfl⟩
  | [_, _], _ => exact ⟨rfl, rfl⟩
  | _ :: _ :: _ :: rest, h => simp at h; omega

section
variable {code seq len check : Byte} {rest ops after : List Byte}

theorem refusal_truncated (h : rest.length < len.toNat + 1) :
    transactionRefusal (code :: seq :: len :: rest) = some .badCommand := by
  simp only [transactionRefusal, h, if_true]

theorem refusal_long (h : len.toNat + 1 ≤ rest.length) (hlen : 32 < len.toNat) :
    transactionRefusal (code :: seq :: len :: rest) = some .badCommand := by
  simp only [transactionRefusal, Nat.not_lt.2 h, Config.operandMax, hlen, if_true, if_false]

theorem length_rest (hops : ops.length = len.toNat) : ¬ (ops ++ check :: after).length < len.toNat + 1 := by
  simp only [List.length_append, List.length_cons]
  omega

theorem take_operands (hops : ops.length = len.toNat) : (ops ++ check :: after).take len.toNat = ops := by
  rw [← hops, List.take_left]

theorem check_at (hops : ops.length = len.toNat) : (ops ++ check :: after)[len.toNat]? = some check := by
  rw [← hops, List.getElem?_append_right (Nat.le_refl _), Nat.sub_self]
  rfl

theorem refusal_check (hops : ops.length = len.toNat) (hshort : ops.length ≤ 32) (hcheck : check ≠ crc8 (code :: seq :: len :: ops)) :
    transactionRefusal (code :: seq :: len :: (ops ++ check :: after)) = some .badCheck := by
  have hcheck : some check ≠ some (crc8 ([code, seq, len] ++ ops)) := fun h => hcheck (Option.some.inj h)
  simp only [transactionRefusal, length_rest hops, take_operands hops, check_at hops, Config.operandMax,
    show ¬ 32 < len.toNat by omega, hcheck, ne_eq, not_false_eq_true, if_true, if_false]

/-- A whole transaction with its right check, by its code and LEN (R152, R171). -/
theorem refusal_whole (hops : ops.length = len.toNat) (hshort : ops.length ≤ 32) (hcheck : check = crc8 (code :: seq :: len :: ops)) :
    transactionRefusal (code :: seq :: len :: (ops ++ check :: after)) =
      (commandOf code).elim (some .badCommand) (fun c => if c.lenLegal ops.length then none else some .badCommand) := by
  have hcheck : some check = some (crc8 ([code, seq, len] ++ ops)) := congrArg some hcheck
  simp only [transactionRefusal, length_rest hops, take_operands hops, check_at hops, Config.operandMax,
    show ¬ 32 < len.toNat by omega, hcheck, ne_eq, not_true_eq_false, if_false, hops]
  cases commandOf code <;> rfl

theorem refusal_unknown (hops : ops.length = len.toNat) (hshort : ops.length ≤ 32) (hcheck : check = crc8 (code :: seq :: len :: ops))
    (hc : commandOf code = none) : transactionRefusal (code :: seq :: len :: (ops ++ check :: after)) = some .badCommand := by
  rw [refusal_whole hops hshort hcheck, hc]
  rfl

theorem refusal_length {c : Command} (hops : ops.length = len.toNat) (hshort : ops.length ≤ 32)
    (hcheck : check = crc8 (code :: seq :: len :: ops)) (hc : commandOf code = some c) (hlen : c.lenLegal ops.length = false) :
    transactionRefusal (code :: seq :: len :: (ops ++ check :: after)) = some .badCommand := by
  rw [refusal_whole hops hshort hcheck, hc]
  simp only [Option.elim, hlen, Bool.false_eq_true, if_false]

theorem refusal_none {c : Command} (hops : ops.length = len.toNat) (hshort : ops.length ≤ 32)
    (hcheck : check = crc8 (code :: seq :: len :: ops)) (hc : commandOf code = some c) (hlen : c.lenLegal ops.length = true) :
    transactionRefusal (code :: seq :: len :: (ops ++ check :: after)) = none := by
  rw [refusal_whole hops hshort hcheck, hc]
  simp only [Option.elim, hlen, if_true]

theorem decodeTransaction_whole {c : Command} (hops : ops.length = len.toNat) (hshort : ops.length ≤ 32)
    (hcheck : check = crc8 (code :: seq :: len :: ops)) (hc : commandOf code = some c) (hlen : c.lenLegal ops.length = true) :
    decodeTransaction (code :: seq :: len :: (ops ++ check :: after)) = commandRow c seq ops := by
  simp only [decodeTransaction, refusal_none hops hshort hcheck hc hlen, hc, take_operands hops]

end

/-- Settles O43: the rows of the port at the tests before their own, and the tests of R152 on the bytes of a transaction. -/
theorem portTestsACommandInOrder : Obligations.PortTestsACommandInOrder := by
  unfold Obligations.PortTestsACommandInOrder
  refine ⟨fun s hlow => ⟨fun received => ⟨fun status h => exec_badCommand_refused hlow h, fun h => exec_badCommand_taken hlow h⟩,
    fun i c seq ops hi => ?_⟩, fun s hlow code seq => ?_, fun received h => short_refused h,
    fun code seq len rest => ⟨fun h => refusal_truncated h, fun h hlen => refusal_long h hlen,
      fun ops after check hrest hops hshort => ?_⟩⟩
  · obtain rfl := eq_commandRow hi
    refine ⟨fun hlen => exec_commandRow_length hlow hlen, fun hlen hclear hnop hstatus => ?_,
      fun hlen hclear hops => exec_commandRow_value hlow hlen hclear hops⟩
    obtain ⟨α, read, act, hexec, -⟩ := exec_commandRow hnop hstatus seq ops
    rw [hexec, command_busy act seq hlow hlen hclear]
  · exact ⟨exec_badCommand_refused hlow rfl, exec_badCommand_refused hlow rfl, exec_badCommand_refused hlow rfl⟩
  · subst hrest
    refine ⟨fun hcheck => refusal_check hops hshort hcheck, fun hcheck => ⟨fun hc => refusal_unknown hops hshort hcheck hc,
      fun c hc => ⟨fun hlen => refusal_length hops hshort hcheck hc hlen, fun hlen => ?_⟩⟩⟩
    exact ⟨refusal_none hops hshort hcheck hc hlen, decodeTransaction_whole hops hshort hcheck hc hlen⟩

/-! ### The reads (R27, R157, R162, R163) -/

theorem exec_readRole {s : State} (hport : portOpen s) {i : Byte} (hi : i.toNat ≤ 95) (seq : Byte) :
    exec (.readRole seq [i]) s =
      .next { s with response := ⟨.ok, seq, entryBytes i ((s.roles[i.toNat]?).getD ⟨0, none⟩)⟩ } := by
  have hread : indexOperand [i] = some i := if_pos ((isRoleIndex_iff i).2 hi)
  rw [exec, execReadRole, command_passed hport rfl hread]
  rfl

theorem exec_readStation {s : State} (hport : portOpen s) {a : Byte} (ha : isStation a = true) (seq : Byte) :
    exec (.readStation seq [a]) s = .next { s with response := ⟨.ok, seq, s.stationBytes a⟩ } := by
  have hread : addressOperand [a] = some a := if_pos ha
  rw [exec, execReadStation, command_passed hport rfl hread]
  rfl

theorem exec_readWatch {s : State} (hport : portOpen s) {n : Byte} (hn : n.toNat ≤ 63) (seq : Byte) :
    exec (.readWatch seq [n]) s = .next { s with response := ⟨.ok, seq, watchBytes n (watchAt s n.toNat)⟩ } := by
  have hread : watchNumberOperand [n] = some n := if_pos (Nat.lt_succ_of_le hn)
  rw [exec, execReadWatch, command_passed hport rfl hread]
  rfl

/-- Settles O44: NOP and READ STATUS in every condition, and the table reads where the port takes commands. -/
theorem readsChangeOnlyTheResponse : Obligations.ReadsChangeOnlyTheResponse := by
  unfold Obligations.ReadsChangeOnlyTheResponse
  intro s seq hlow
  refine ⟨exec_nop_row hlow seq [], exec_readStatus_row hlow seq [], fun hclear => ⟨fun i e he => ⟨?_, fun r hr hs => ?_⟩,
    fun a ha => ?_, fun n hn => ?_⟩⟩
  · rw [exec_readRole ⟨hlow, hclear⟩ (Nat.le_of_lt_succ (row_lt he)), he, Option.getD_some, entryBytes_eq]
  · rw [← entryBytes_eq]
    exact entryBytes_length hr hs
  · exact exec_readStation ⟨hlow, hclear⟩ ha seq
  · exact exec_readWatch ⟨hlow, hclear⟩ hn seq

end Sys2Proof.Machine
end

section
/-! PROOFS. The formats (O50, O51, O52): what the writers write the readers read back, whatever follows on the line, and what the readers
make of a run that no writer writes. -/

namespace Sys2Proof.Machine

open Sys2Proof.Safety

/-! ### The checks, and what a transaction shifts out (R151, R168) -/

theorem crc16_append (bytes : List Byte) (b : Byte) : crc16 (bytes ++ [b]) = crc16Byte (crc16 bytes) b := by
  simp only [crc16, List.foldl_append, List.foldl_cons, List.foldl_nil]

theorem crc8_append (bytes : List Byte) (b : Byte) : crc8 (bytes ++ [b]) = crc8Byte (crc8 bytes) b := by
  simp only [crc8, List.foldl_append, List.foldl_cons, List.foldl_nil]

theorem padTo_length_ge (n : Nat) (bytes : List Byte) : n ≤ (padTo n bytes).length := by
  simp only [padTo, List.length_append, List.length_replicate]
  omega

theorem padTo_getElem? {n k : Nat} (bytes : List Byte) (hk : k < n) : (padTo n bytes)[k]? = some ((bytes[k]?).getD 0) := by
  unfold padTo
  by_cases hlt : k < bytes.length
  · rw [List.getElem?_append_left hlt, List.getElem?_eq_getElem hlt, Option.getD_some]
  · rw [List.getElem?_append_right (Nat.le_of_not_lt hlt), List.getElem?_replicate_of_lt (by omega),
      List.getElem?_eq_none (Nat.le_of_not_lt hlt), Option.getD_none]

theorem shiftedOut_length (r : Response) (n : Nat) : (r.shiftedOut n).length = n := by
  rw [Response.shiftedOut, List.length_take, Nat.min_eq_left (padTo_length_ge n r.bytes)]

theorem shiftedOut_getElem? (r : Response) {n k : Nat} (hk : k < n) : (r.shiftedOut n)[k]? = some ((r.bytes[k]?).getD 0) := by
  rw [Response.shiftedOut, List.getElem?_take_of_lt hk, padTo_getElem? _ hk]

theorem shiftedBits_length (r : Response) (n : Nat) : (r.shiftedBits n).length = n := by
  rw [Response.shiftedBits, List.length_take, bits_length, shiftedOut_length]
  omega

theorem shiftedBits_getElem? (r : Response) {n k : Nat} (hk : k < n) :
    (r.shiftedBits n)[k]? = some (((r.bytes[k / 8]?).getD 0).getMsbD (k % 8)) := by
  rw [Response.shiftedBits, List.getElem?_take_of_lt hk, bits_get, shiftedOut_getElem? r (by omega), Option.map_some]

/-- Settles O50: the two sums by evaluation, the checks by the folds, and the bytes and bits shifted out place by place. -/
theorem checksAreTheManuals : Obligations.ChecksAreTheManuals := by
  unfold Obligations.ChecksAreTheManuals
  refine ⟨by decide +kernel, by decide +kernel, fun bytes b => ⟨crc16_append bytes b, crc8_append bytes b⟩, fun _ => rfl, fun _ => rfl,
    fun _ => rfl, fun _ _ _ => rfl, fun r => ⟨rfl, fun n => ?_, fun n => ?_⟩⟩
  · exact ⟨shiftedOut_length r n, fun k hk => shiftedOut_getElem? r hk⟩
  · exact ⟨shiftedBits_length r n, fun k hk => shiftedBits_getElem? r hk⟩

/-! ### Frames and answers (R3 to R5, R7, R169) -/

theorem length_byte {body : List Byte} (h : body.length ≤ 24) : (byteOf body.length).toNat = body.length := byteOf_toNat (by omega)

section
variable {body check after : List Byte}

theorem take_body : (body ++ (check ++ after)).take body.length = body := List.take_left

theorem check_after_body (hcheck : check.length = 2) : ((body ++ (check ++ after)).drop body.length).take 2 = check := by
  rw [List.drop_left, ← hcheck, List.take_left]

theorem not_truncated (hcheck : check.length = 2) : ¬ (body ++ (check ++ after)).length < body.length + 2 := by
  simp only [List.length_append]
  omega

/-- A frame of at most 24 body bytes, by its CHECK and then by whom it is to (R3, R4, R7 to R11). -/
theorem decodeFrame_whole (dest src code epoch : Byte) (hlen : body.length ≤ 24) (hcheck : check.length = 2) :
    decodeFrame ([dest, src, code, epoch, byteOf body.length] ++ body ++ check ++ after) =
      if check ≠ halfBytes (crc16 ([dest, src, code, epoch, byteOf body.length] ++ body)) then .badCheck
      else if src = 0 ∧ dest ≤ 63 then .foreignFrame dest
      else if dest = Config.directory then requestRow src code epoch body
      else .stationFrameHeard dest src := by
  simp only [List.append_assoc, List.cons_append, List.nil_append, decodeFrame, length_byte hlen, take_body,
    check_after_body hcheck, not_truncated hcheck, Config.bodyMax, Nat.not_lt.2 hlen, if_false]

theorem decodeAnswer_whole (own : Bool) (status : Byte) (hlen : body.length ≤ 24) (hcheck : check.length = 2) :
    decodeAnswer own ([status, byteOf body.length] ++ body ++ check ++ after) =
      if check ≠ halfBytes (crc16 ([status, byteOf body.length] ++ body)) then answerFault own .badCheck
      else .validAnswer status body := by
  simp only [List.append_assoc, List.cons_append, List.nil_append, decodeAnswer, length_byte hlen, take_body,
    check_after_body hcheck, not_truncated hcheck, Config.bodyMax, Nat.not_lt.2 hlen, if_false]

end

theorem frameLength_bytes (f : TrunkFrame) (hlen : f.body.length ≤ 24) (after : List Byte) :
    frameLength (f.bytes ++ after) = some f.bytes.length := by
  simp only [TrunkFrame.bytes, List.append_assoc, List.cons_append, List.nil_append, frameLength, length_byte hlen, Config.bodyMax,
    hlen, if_true, List.length_cons, List.length_append, halfBytes, List.length_nil, Option.some.injEq]
  omega

theorem answerLength_bytes (a : TrunkAnswer) (hlen : a.body.length ≤ 24) (after : List Byte) :
    answerLength (a.bytes ++ after) = some a.bytes.length := by
  simp only [TrunkAnswer.bytes, List.append_assoc, List.cons_append, List.nil_append, answerLength, length_byte hlen, Config.bodyMax,
    hlen, if_true, List.length_cons, List.length_append, halfBytes, List.length_nil, Option.some.injEq]
  omega

/-- A row that is a station request is the one that its CODE spells, and a well-formed one has a frame's SRC and LEN (R3, R9, R14). -/
theorem eq_requestRow {i : Instr} {r : Request} {src epoch : Byte} {body : List Byte} (h : i.asRequest = some (r, src, epoch, body)) :
    i = requestRow src r.code epoch body ∧ i.wellFormed = requestShape src body := by
  cases i <;> cases h <;> exact ⟨rfl, rfl⟩

theorem decodeFrame_request {i : Instr} {chars : List Byte} (hwf : i.wellFormed = true) (hchars : i.frameBytes = some chars)
    (after : List Byte) : decodeFrame (chars ++ after) = i ∧ frameLength (chars ++ after) = some chars.length := by
  obtain ⟨⟨r, src, epoch, body⟩, hi, rfl⟩ := Option.map_eq_some_iff.1 hchars
  obtain ⟨hrow, hshape⟩ := eq_requestRow hi
  rw [hshape] at hwf
  simp only [requestShape, Bool.and_eq_true, bne_iff_ne, decide_eq_true_eq] at hwf
  obtain ⟨hsrc, hlen⟩ := hwf
  refine ⟨?_, frameLength_bytes _ hlen after⟩
  rw [TrunkFrame.bytes, decodeFrame_whole _ _ _ _ hlen rfl, if_neg (not_not.2 rfl), if_neg (fun h => hsrc h.1), if_pos rfl, hrow]

theorem decodeFrame_badCheck (f : TrunkFrame) {check : List Byte} (after : List Byte) (hlen : f.body.length ≤ 24)
    (hcheck : check.length = 2) (hbad : check ≠ halfBytes (crc16 ([f.dest, f.src, f.code, f.epoch, byteOf f.body.length] ++ f.body))) :
    decodeFrame ([f.dest, f.src, f.code, f.epoch, byteOf f.body.length] ++ f.body ++ check ++ after) = .badCheck := by
  rw [decodeFrame_whole _ _ _ _ hlen hcheck, if_pos hbad]

section
variable {dest src code epoch status len : Byte} {rest : List Byte}

theorem decodeFrame_malformed (h : 24 < len.toNat) : decodeFrame (dest :: src :: code :: epoch :: len :: rest) = .malformedFrame := by
  simp only [decodeFrame, Config.bodyMax, h, if_true]

theorem decodeFrame_truncated (h : len.toNat ≤ 24) (hshort : rest.length < len.toNat + 2) :
    decodeFrame (dest :: src :: code :: epoch :: len :: rest) = .truncatedFrame := by
  simp only [decodeFrame, Config.bodyMax, Nat.not_lt.2 h, hshort, if_true, if_false]

theorem decodeAnswer_malformed (own : Bool) (h : 24 < len.toNat) :
    decodeAnswer own (status :: len :: rest) = answerFault own .malformed := by
  simp only [decodeAnswer, Config.bodyMax, h, if_true]

theorem decodeAnswer_truncated (own : Bool) (h : len.toNat ≤ 24) (hshort : rest.length < len.toNat + 2) :
    decodeAnswer own (status :: len :: rest) = answerFault own .truncated := by
  simp only [decodeAnswer, Config.bodyMax, Nat.not_lt.2 h, hshort, if_true, if_false]

end

/-- A run that ends before LEN is truncated. -/
theorem decodeFrame_short {chars : List Byte} (h : chars.length < 5) : decodeFrame chars = .truncatedFrame := by
  match chars, h with
  | [], _ => rfl
  | [_], _ => rfl
  | [_, _], _ => rfl
  | [_, _, _], _ => rfl
  | [_, _, _, _], _ => rfl
  | _ :: _ :: _ :: _ :: _ :: rest, h => simp at h; omega

/-! ### Characters (R1, R167) -/

theorem decodeFrameCharacters_good (chars : List Byte) : decodeFrameCharacters (chars.map trunkCharacter) = decodeFrame chars := by
  simp only [decodeFrameCharacters, goodBytes_characters, characters_good, Bool.false_eq_true, and_false, if_false]

theorem decodeAnswerCharacters_good (own : Bool) (chars : List Byte) :
    decodeAnswerCharacters own (chars.map trunkCharacter) = decodeAnswer own chars := by
  simp only [decodeAnswerCharacters, goodBytes_characters, characters_good, Bool.false_eq_true, and_false, if_false]

section
variable {bad : TrunkCharacter} (h : bad.stop = .space) (chars : List Byte) (rest : List TrunkCharacter)
include h

/-- The bytes before a bad character are those that are read. -/
theorem goodBytes_before_bad : goodBytes (chars.map trunkCharacter ++ bad :: rest) = chars := by
  rw [goodBytes_append, goodBytes_bad h, List.append_nil]

theorem any_bad : (chars.map trunkCharacter ++ bad :: rest).any TrunkCharacter.isBad = true := by
  rw [List.any_append, List.any_cons, TrunkCharacter.isBad, h]
  simp

theorem decodeFrameCharacters_bad : decodeFrameCharacters (chars.map trunkCharacter ++ bad :: rest) =
    if decodeFrame chars = .truncatedFrame then .badCharacter else decodeFrame chars := by
  simp only [decodeFrameCharacters, goodBytes_before_bad h, any_bad h, and_true]

theorem decodeAnswerCharacters_bad (own : Bool) : decodeAnswerCharacters own (chars.map trunkCharacter ++ bad :: rest) =
    if decodeAnswer own chars = .emptySlot ∨ decodeAnswer own chars = answerFault own .truncated then answerFault own .badCharacter
    else decodeAnswer own chars := by
  simp only [decodeAnswerCharacters, goodBytes_before_bad h, any_bad h, and_true]

end

/-- Settles O51: each run by its lemma about the readers, and the runs of characters by their bytes. -/
theorem requestFramesReadBack : Obligations.RequestFramesReadBack := by
  unfold Obligations.RequestFramesReadBack
  refine ⟨fun i chars after hwf hchars => decodeFrame_request hwf hchars after,
    fun f check after hlen hcheck => fun hbad => decodeFrame_badCheck f after hlen hcheck hbad,
    fun dest src code epoch len rest => ⟨fun h => decodeFrame_malformed h, fun h hshort => decodeFrame_truncated h hshort⟩,
    fun chars h => decodeFrame_short h, fun own status body after hlen => ?_, fun status body check after hlen hcheck => ?_,
    fun status len rest => ⟨fun h => ⟨decodeAnswer_malformed true h, decodeAnswer_malformed false h⟩,
      fun h hshort => ⟨decodeAnswer_truncated true h hshort, decodeAnswer_truncated false h hshort⟩, rfl, rfl⟩,
    fun own => rfl, fun b => rfl, fun f a => ⟨rfl, rfl⟩, fun own chars => ⟨decodeFrameCharacters_good chars,
      decodeAnswerCharacters_good own chars, fun bad rest hbad => ?_⟩⟩
  · refine ⟨?_, answerLength_bytes ⟨status, body⟩ hlen after, rfl⟩
    rw [TrunkAnswer.bytes, decodeAnswer_whole own status hlen rfl, if_neg (not_not.2 rfl)]
  · intro covered hbad
    refine ⟨?_, ?_⟩
    · rw [decodeAnswer_whole true status hlen hcheck, if_pos hbad]
      rfl
    · rw [decodeAnswer_whole false status hlen hcheck, if_pos hbad]
      rfl
  · exact ⟨decodeFrameCharacters_bad hbad chars rest, decodeAnswerCharacters_bad hbad chars rest true,
      decodeAnswerCharacters_bad hbad chars rest false⟩

/-! ### Transactions (R151, R152, R171) -/

theorem commandOf_code (c : Command) : commandOf c.code = some c := by
  cases c <;> rfl

theorem lenLegal_le {c : Command} {n : Nat} (h : c.lenLegal n = true) : n ≤ 32 := by
  cases c <;> simp only [Command.lenLegal, Bool.or_eq_true, beq_iff_eq] at h <;> omega

theorem wellFormed_commandRow (c : Command) (seq : Byte) (ops : List Byte) :
    (commandRow c seq ops).wellFormed = c.lenLegal ops.length := by
  cases c <;> rfl

theorem decodeTransaction_commandBytes {c : Command} {seq : Byte} {ops : List Byte} (hlen : c.lenLegal ops.length = true)
    (extra : List Byte) : decodeTransaction (commandBytes c seq ops ++ extra) = commandRow c seq ops := by
  have hshort := lenLegal_le hlen
  have hops : ops.length = (byteOf ops.length).toNat := (byteOf_toNat (by omega)).symm
  have hbytes : commandBytes c seq ops ++ extra =
      c.code :: seq :: byteOf ops.length :: (ops ++ crc8 (c.code :: seq :: byteOf ops.length :: ops) :: extra) := by
    simp only [commandBytes, List.append_assoc, List.cons_append, List.nil_append]
  rw [hbytes]
  exact decodeTransaction_whole hops hshort rfl (commandOf_code c) hlen

theorem decodeTransactionBits_bytes (bytes : List Byte) {fragment : List Bool} (h : fragment.length < 8) :
    decodeTransactionBits (bytes.flatMap byteBits ++ fragment) = decodeTransaction bytes := by
  rw [decodeTransactionBits, wholeBytes_bits bytes h]

/-- Settles O52: a command's bytes are a whole transaction, and its bits are those bytes. -/
theorem transactionsReadBack : Obligations.TransactionsReadBack := by
  unfold Obligations.TransactionsReadBack
  refine ⟨fun i bytes extra hwf hbytes => ?_, fun b => rfl, fun bytes fragment h => decodeTransactionBits_bytes bytes h,
    fun fragment h => decodeTransactionBits_bytes [] h⟩
  obtain ⟨⟨c, seq, ops⟩, hi, rfl⟩ := Option.map_eq_some_iff.1 hbytes
  obtain rfl := eq_commandRow hi
  rw [wellFormed_commandRow] at hwf
  have hread := decodeTransaction_commandBytes (seq := seq) hwf extra
  exact ⟨hread, fun fragment h => (decodeTransactionBits_bytes _ h).trans hread⟩

end Sys2Proof.Machine
end
